-- ==== Sys2Proof/Word.lean ====
section
/-! DEFINITION. The word types of the Narlen 340: the byte of the pixel link and the 14-bit sample code. -/

namespace Sys2Proof

/-- One data symbol's value, 0..255 (chapter 1.1). -/
abbrev Byte := BitVec 8

/-- A raw sample or a position code: a 14-bit code, 0..16383 (chapter "Units and numbers"). -/
abbrev Sample := BitVec 14

end Sys2Proof
end

