-- ==== Sys2Proof/Config.lean ====
section
/-! DEFINITION. The constants the manual fixes for this part (R179 and the rules cited).  The manual leaves no value
open that a command computes, so the model has no opaque free value; the few conventions it does leave open are design
choices named in notes/assumptions. -/

namespace Sys2Proof.Config

/-- Line slots of the line store (R65). -/
abbrev lineSlots : Nat := 384
/-- Profile entries of the profile table (R81). -/
abbrev profileEntries : Nat := 8
/-- Greatest number of focal stations of a profile (R81). -/
abbrev maxFocalStations : Nat := 12
/-- Greatest number of focus stations of a profile (R81). -/
abbrev maxFocusStations : Nat := 6
/-- Greatest number of notes in a frame's note list (R40). -/
abbrev maxNotes : Nat := 8
/-- Frame contexts the frame queue may hold (R38). -/
abbrev maxFrames : Nat := 2
/-- Places of the command, answer, pass-through and upstream queues (R16, R19, R171, R173). -/
abbrev queuePlaces : Nat := 8
/-- Row items port A's queue may hold (R159). -/
abbrev portARows : Nat := 4
/-- Row items port B's queue may hold (R159). -/
abbrev portBRows : Nat := 16
/-- Greatest credit count of a delivery port (R152). -/
abbrev maxCredits : Nat := 4
/-- Greatest reach, above or below, in rows (R85). -/
abbrev maxReach : Nat := 180
/-- Greatest payload length of a packet (R6). -/
abbrev maxPayload : Nat := 16384
/-- Vendor code of IDENTIFY (R179). -/
abbrev vendorCode : Nat := 2071
/-- Part code of IDENTIFY (R179). -/
abbrev partCode : Nat := 340
/-- Revision of IDENTIFY (R179). -/
abbrev revision : Nat := 1

end Sys2Proof.Config
end

