-- ==== Sys2Proof/Syntax.lean ====
section
/-! DEFINITION. The commands of the block: one constructor per row of spec/opcode_table.json.  The part has no
instructions; each row is a step (a packet completing on a lane, a flow symbol, a link or pin event, a line production,
the start or end of a sending, the execution of a service request). -/

namespace Sys2Proof

/-- The three link ports (chapter 1).  A receiving lane is named by its port: U's forward lane, A's and B's reverse
lanes. -/
inductive LinkPort where
  | u | a | b
  deriving DecidableEq, Repr

/-- The two delivery ports (chapter 9). -/
inductive OutPort where
  | a | b
  deriving DecidableEq, Repr

/-- A delivery port's link port. -/
def OutPort.link : OutPort → LinkPort
  | .a => .a
  | .b => .b

/-- One symbol of a lane (chapter 1.1): a data symbol, one of the seven control symbols (END is `stop`), or a symbol
that cannot be decoded (R1). -/
inductive Symbol where
  | data (b : Byte)
  | idle | align | start | stop | credit | hold | resume
  | undecodable
  deriving DecidableEq, Repr

/-- The symbols of one whole packet: START, the data symbols, END (chapter 1.1). -/
def Symbol.packet (bytes : List Byte) : List Symbol :=
  .start :: (bytes.map .data ++ [.stop])

/-- The commands, one per row of spec/opcode_table.json.  A command that stands for the arrival of something on a
receiving lane carries the symbols that arrived on that lane up to the event, as R1 reads them; a command inside the part
(a line production, a sending, the execution of the oldest service request) carries nothing, because everything it needs
is state of the part. -/
inductive Instr where
  /-- PACKET_ABANDONED (R1). -/
  | packetAbandoned (lane : LinkPort) (syms : List Symbol)
  /-- FRAME_HEAD_TAKEN (R45): symbols on port U's forward lane. -/
  | frameHeadTaken (syms : List Symbol)
  /-- ROW_TAKEN (R50 to R54): symbols on port U's forward lane. -/
  | rowTaken (syms : List Symbol)
  /-- STORE_REQUEST (R69 to R71): the line store takes the store request on its way. -/
  | storeRequest
  /-- LENS_NOTE_TAKEN (R55 to R58): symbols on port U's forward lane. -/
  | lensNoteTaken (syms : List Symbol)
  /-- FRAME_TAIL_TAKEN (R59): symbols on port U's forward lane. -/
  | frameTailTaken (syms : List Symbol)
  /-- PASS_THROUGH_PACKET (R16): symbols on port U's forward lane. -/
  | passThroughPacket (syms : List Symbol)
  /-- SERVICE_REQUEST_RECEIVED (R171): symbols on port A's reverse lane. -/
  | serviceRequestReceived (syms : List Symbol)
  /-- REVERSE_PACKET_REFUSED (R17): symbols on port A's or port B's reverse lane. -/
  | reversePacketRefused (port : OutPort) (syms : List Symbol)
  /-- CREDIT (R156): the symbol on a delivery port's reverse lane. -/
  | credit (port : OutPort)
  /-- HOLD (R160). -/
  | hold (port : OutPort)
  /-- RESUME (R160). -/
  | resume (port : OutPort)
  /-- LANE_LOCK (R20): both lanes of the port have locked. -/
  | laneLock (port : LinkPort)
  /-- ALIGNMENT_DONE (R20). -/
  | alignmentDone (port : LinkPort)
  /-- LANE_LOSS (R20): either lane of the port has lost lock. -/
  | laneLoss (port : LinkPort)
  /-- RESET_PIN_ASSERTED (R21): RST goes low. -/
  | resetPinAsserted
  /-- RESET_RELEASE (R188): RST goes high, with the levels of the NODE pins and of ATTN (high: port B fitted). -/
  | resetRelease (nodePins : BitVec 3) (attnHigh : Bool)
  /-- LINE_PRODUCTION (R121). -/
  | lineProduction
  /-- ARBITER_CHOICE (R162). -/
  | arbiterChoice
  /-- PORT_B_SEND (R161). -/
  | portBSend
  /-- UPSTREAM_SEND (R19). -/
  | upstreamSend
  /-- PORT_ITEM_SENT (R159): the END of a frame item has gone out on the port's forward lane. -/
  | portItemSent (port : OutPort)
  /-- ANSWER_SENT (R173). -/
  | answerSent
  /-- PASS_THROUGH_SENT (R16). -/
  | passThroughSent
  /-- UPSTREAM_SENT (R19). -/
  | upstreamSent
  /-- UNKNOWN_COMMAND (R174): execution of the oldest request, its body too short or its code not in the list. -/
  | unknownCommand
  /-- IDENTIFY (R179): execution of the oldest request; so are the rows below. -/
  | identify
  /-- READ_STATUS (R180). -/
  | readStatus
  /-- READ_COUNTERS (R182). -/
  | readCounters
  /-- CLEAR_ALERTS (R184). -/
  | clearAlerts
  /-- SET_ALERTS (R185). -/
  | setAlerts
  /-- SET_MODE (R26). -/
  | setMode
  /-- SET_GEOMETRY (R29, R30). -/
  | setGeometry
  /-- SET_INPUT (R33). -/
  | setInput
  /-- SET_ROUTE (R155). -/
  | setRoute
  /-- SET_PORT (R153). -/
  | setPort
  /-- PROFILE_OPEN (R89). -/
  | profileOpen
  /-- PROFILE_WRITE (R90 to R92). -/
  | profileWrite
  /-- PROFILE_CLOSE (R93). -/
  | profileClose
  /-- PROFILE_RETIRE (R95). -/
  | profileRetire
  /-- PROFILE_QUERY (R97). -/
  | profileQuery
  /-- RESET_BLOCK of PIPELINE (R63). -/
  | resetBlockPipeline
  /-- RESET_BLOCK of PROFILES (R101). -/
  | resetBlockProfiles
  /-- RESET_BLOCK of PORT_A (R166). -/
  | resetBlockPortA
  /-- RESET_BLOCK of PORT_B (R166). -/
  | resetBlockPortB
  /-- RESET_BLOCK of COUNTERS (R186). -/
  | resetBlockCounters
  /-- RESET_PART (R187). -/
  | resetPart
  /-- UNCORRECTABLE_HEADER (R4): symbols on any receiving lane. -/
  | uncorrectableHeader (lane : LinkPort) (syms : List Symbol)
  deriving DecidableEq, Repr

end Sys2Proof
end

