-- ==== Sys2Proof/Machine/State.lean ====
section
/-! DEFINITION. The state of the part as plain data, and its value after reset.  Device holds everything the manual
gives the part, block by block; State adds the queue of commands waiting. -/

namespace Sys2Proof.Machine

/-! ## Records shared by several blocks -/

/-- A port's link state (R20). -/
inductive LinkState where
  | down | aligning | up
  deriving DecidableEq, Repr

/-- A whole packet as the part keeps it in a queue: the fields of its header after any correction (R2, R3), and its
payload.  The payload length field is the payload's length (R6) and the check byte is made afresh when it is sent. -/
structure Packet where
  kind : BitVec 4
  node : BitVec 3
  spare : BitVec 1
  field : BitVec 16
  payload : List Byte
  deriving DecidableEq, Repr

/-- The four modes (R23, R24), with codes 0 to 3. -/
inductive Mode where
  | pass | correct | mapx | mapy
  deriving DecidableEq, Repr

/-- The Bayer phase (R28, R134), with codes 0 to 3. -/
inductive BayerPhase where
  | rggb | grbg | gbrg | bggr
  deriving DecidableEq, Repr

/-- The edge policy (R28), with codes 0 and 1. -/
inductive EdgePolicy where
  | replicate | fill
  deriving DecidableEq, Repr

/-- The CRC policy (R32), with codes 0 and 1. -/
inductive CrcPolicy where
  | keep | drop
  deriving DecidableEq, Repr

/-- The nine fields of the frame geometry (R28); positions are in sixty-fourths of a pixel. -/
structure Geometry where
  width : Nat
  height : Nat
  phase : BayerPhase
  cx64 : Nat
  cy64 : Nat
  rref : Nat
  edge : EdgePolicy
  fill : Sample
  bandHeight : Nat
  deriving DecidableEq, Repr

/-- The input policy (R32). -/
structure InputPolicy where
  crc : CrcPolicy
  staleLimit : Nat
  deriving DecidableEq, Repr

/-- A lens identity: lens ID and converter code (R9). -/
structure Identity where
  lensId : BitVec 32
  converter : BitVec 2
  deriving DecidableEq, Repr

/-- A lens record: note row, identity, focal length in 0.1 mm, focus in 0.001 per metre (R9). -/
structure LensRecord where
  row : Nat
  identity : Identity
  focal : Nat
  focus : Nat
  deriving DecidableEq, Repr

/-- The held lens state when present: a lens record with its age in frame heads (R44). -/
structure HeldLens where
  record : LensRecord
  age : Nat
  deriving DecidableEq, Repr

/-- A note of a note list: a lens record and the inherited mark (R40). -/
structure Note where
  record : LensRecord
  inherited : Bool
  deriving DecidableEq, Repr

/-- A band lens state (chapter 6.3): focal length, focus and the inherited mark of R109. -/
structure LensState where
  focal : Nat
  focus : Nat
  inherited : Bool
  deriving DecidableEq, Repr

/-- A band set: seven signed coefficients in units of 2^-16 (R110). -/
structure BandSet where
  k1 : Int
  k2 : Int
  k3 : Int
  redC0 : Int
  redC1 : Int
  blueC0 : Int
  blueC1 : Int
  deriving DecidableEq, Repr

/-- The current band of a context: band index, band lens state, band set (R106). -/
structure Band where
  index : Nat
  lens : Option LensState
  set : BandSet
  deriving DecidableEq, Repr

/-- A rectangle of the frame: first and last column, first and last row.  A port's crop setting (R152) and a clipped crop
(R154) have this form. -/
structure Crop where
  colBase : Nat
  colLimit : Nat
  rowBase : Nat
  rowLimit : Nat
  deriving DecidableEq, Repr

/-! ## The frame queue (chapter 3) -/

/-- The receiver state (R37). -/
inductive Receiver where
  | idle | filling | discarding
  deriving DecidableEq, Repr

/-- The input state of a context: FILLING, or ENDED with the short flag (R40, R42). -/
inductive InputState where
  | filling
  | ended (short : Bool)
  deriving DecidableEq, Repr

/-- A port's delivery of a frame (R158).  A LIVE delivery carries the frame record's clipped crop (R152, R154). -/
inductive Delivery where
  | excluded
  | skipped
  | live (crop : Crop)
  | cut
  deriving DecidableEq, Repr

/-- The eight flags of a frame context (R41). -/
structure FrameFlags where
  unprofiled : Bool
  inherited : Bool
  short : Bool
  overrun : Bool
  sync : Bool
  mismatch : Bool
  range : Bool
  late : Bool
  deriving DecidableEq, Repr

/-- A frame context (R39, R40, R41).  `id` is the model's own name for the context, by which a slot, a store request and
a queued item say which frame they belong to (log entry 3). -/
structure FrameContext where
  id : Nat
  tag : BitVec 16
  group : Fin 8
  mode : Mode
  geometry : Geometry
  policy : InputPolicy
  identity : Option Identity
  entry : Option (Fin 8)
  reachUp : Nat
  reachDown : Nat
  deliveryA : Delivery
  deliveryB : Delivery
  notes : List Note
  input : InputState
  front : Option Nat
  nextLine : Nat
  band : Option Band
  firstBand : Option LensState
  lastBand : Option LensState
  rowsStored : BitVec 16
  rowsMissing : BitVec 16
  crcErrors : BitVec 16
  linesReachClamp : BitVec 16
  linesScaleClamp : BitVec 16
  linesSubstituted : BitVec 16
  lateNotes : BitVec 16
  flags : FrameFlags
  deriving DecidableEq, Repr

/-! ## The line store (chapter 4) -/

/-- The record of a held slot (R65), and of a store request (R54): the frame, the row number, the samples in column
order, the crc_bad mark.  The colour row parity is the parity of `row`. -/
structure StoredRow where
  frame : Nat
  row : Nat
  samples : List Sample
  crcBad : Bool
  deriving DecidableEq, Repr

/-! ## The profile table (chapter 5) -/

/-- A word of a coefficient array with its written flag (R83, R84). -/
structure CoefWord where
  value : Int
  written : Bool
  deriving DecidableEq, Repr

/-- The contents of a profile entry that is not EMPTY (R81). -/
structure Profile where
  identity : Identity
  focal : List Nat
  focus : List Nat
  words : List CoefWord
  reachUp : Nat
  reachDown : Nat
  deriving DecidableEq, Repr

/-- A profile entry by its state (R81).  EMPTY holds nothing and LOADING has hold count 0; READY and RETIRING carry their
hold count (R86). -/
inductive Entry where
  | empty
  | loading (p : Profile)
  | ready (p : Profile) (hold : Nat)
  | retiring (p : Profile) (hold : Nat)
  deriving DecidableEq, Repr

/-! ## The delivery ports (chapter 9) -/

/-- The contents of a frame report (R62, R165). -/
structure Report where
  tag : BitVec 16
  mode : Mode
  entry : Option (Fin 8)
  identity : Option Identity
  flags : FrameFlags
  firstBand : Option LensState
  lastBand : Option LensState
  rowsStored : BitVec 16
  rowsMissing : BitVec 16
  crcErrors : BitVec 16
  linesReachClamp : BitVec 16
  linesScaleClamp : BitVec 16
  linesSubstituted : BitVec 16
  lateNotes : BitVec 16
  deliveryA : Delivery
  deliveryB : Delivery
  deriving DecidableEq, Repr

/-- An item of a port queue (R159).  `frame` is the model's own name of the frame the item is of. -/
inductive Item where
  /-- A frame head (R12): tag, crop width and height, mode, and the identity of a bound frame. -/
  | head (frame : Nat) (tag : BitVec 16) (cropWidth cropHeight : Nat) (mode : Mode) (identity : Option Identity)
  /-- A row (R13): its crop-relative row number and its values. -/
  | row (frame : Nat) (number : Nat) (values : List Sample)
  /-- A frame report (R165). -/
  | report (frame : Nat) (contents : Report)
  /-- A cut marker (R163). -/
  | cutMarker (frame : Nat) (tag : BitVec 16)
  /-- A restart marker (R166). -/
  | restartMarker
  deriving DecidableEq, Repr

/-- A delivery port (R152).  Its frame records stand in the contexts, as their deliveries. -/
structure Port where
  enable : Bool
  crop : Crop
  credits : Nat
  held : Bool
  queue : List Item
  link : LinkState
  deriving DecidableEq, Repr

/-- The three sources of port A's lane arbiter (R162). -/
inductive Source where
  | answer | passThrough | frame
  deriving DecidableEq, Repr

/-- What port A's forward lane carries: the source whose front item is on the lane, and the packet's bytes. -/
structure LaneSend where
  source : Source
  bytes : List Byte
  deriving DecidableEq, Repr

/-! ## The service unit (chapter 10) -/

/-- The status of an answer (R175), codes 0 to 9. -/
inductive Status where
  | ok | unknown | badLen | badArg | wrongMode | state | range | duplicate | incomplete | badStation
  deriving DecidableEq, Repr

/-- An answer as formed at execution (R14, R174). -/
structure Answer where
  tag : Byte
  code : Byte
  status : Status
  results : List Byte
  deriving DecidableEq, Repr

/-- The member set of a route group (R155): whether port A and port B are in it. -/
structure MemberSet where
  a : Bool
  b : Bool
  deriving DecidableEq, Repr

/-! ## The whole part -/

/-- Everything the manual gives the part. -/
structure Device where
  /-- RST is held low (R21, R22). -/
  resetHeld : Bool
  /-- The latched node address (R188). -/
  node : BitVec 3
  /-- Port B fitted, as latched (R188). -/
  portBFitted : Bool
  /-- Port U's link state; the ports hold A's and B's (R20). -/
  linkU : LinkState
  /-- The packet open on each receiving lane: the data symbols collected so far (R1). -/
  openU : Option (List Byte)
  openA : Option (List Byte)
  openB : Option (List Byte)
  /-- The packet on each sending lane (R2): port U's reverse lane, port A's and port B's forward lanes. -/
  laneU : Option (List Byte)
  laneA : Option LaneSend
  laneB : Option (List Byte)
  /-- The pass-through queue (R16). -/
  passThrough : List Packet
  /-- The upstream queue (R19). -/
  upstream : List Packet
  /-- The current mode and the pending mode (R23). -/
  mode : Mode
  pendingMode : Option Mode
  /-- The frame geometry (R28). -/
  geometry : Geometry
  /-- The input policy (R32). -/
  policy : InputPolicy
  /-- The route table (R155). -/
  routes : Vector MemberSet 8
  /-- The receiver state (R37). -/
  receiver : Receiver
  /-- The frame queue, head frame first (R38). -/
  frames : List FrameContext
  /-- The held lens state (R44). -/
  heldLens : Option HeldLens
  /-- The name the next created context gets: the model's own (log entry 3). -/
  nextFrame : Nat
  /-- The line slots; a free slot is none (R65, R66). -/
  slots : Vector (Option StoredRow) 384
  /-- The store request on its way from the frame queue to the line store (R54, R72). -/
  storeReq : Option StoredRow
  /-- The profile entries (R81). -/
  profiles : Vector Entry 8
  /-- The delivery ports (R152). -/
  portA : Port
  portB : Port
  /-- The source the arbiter chose last (R162). -/
  lastSource : Source
  /-- The command queue (R171). -/
  commands : List Packet
  /-- The answer queue (R173). -/
  answers : List Answer
  /-- The counter bank; counter n of R181 stands at place n - 1. -/
  counters : Vector (BitVec 16) 26
  /-- The alert flags and the alert enables, bit by bit as R183 numbers them. -/
  alerts : BitVec 6
  alertEnable : BitVec 6
  deriving DecidableEq, Repr

/-- The state of the block: the part, and the commands that wait to reach it, first in, first out. -/
structure State where
  pending : List Instr
  device : Device
  deriving DecidableEq, Repr

/-- Reasons to stop with a fault.  There is none: the manual gives every command an effect in every state of the part,
so no command raises a fault. -/
inductive Fault where
  deriving DecidableEq, Repr

/-- Reasons to refuse a command. -/
inductive Refusal where
  /-- Raised by exec's arm of a command that has no meaning yet; safe.  No arm raises it now. -/
  | notModelled (mnemonic : String)
  deriving DecidableEq, Repr

/-! ## Reset -/

/-- The geometry after a part reset (R28). -/
def Geometry.reset : Geometry where
  width := 6000
  height := 4000
  phase := .rggb
  cx64 := 191968
  cy64 := 127968
  rref := 3606
  edge := .replicate
  fill := 0
  bandHeight := 32

/-- The input policy after a part reset (R32). -/
def InputPolicy.reset : InputPolicy where
  crc := .keep
  staleLimit := 8

/-- A crop setting after a part reset (R152). -/
def Crop.reset : Crop where
  colBase := 0
  colLimit := 8191
  rowBase := 0
  rowLimit := 16381

/-- A delivery port after a part reset, by its enable: A on, B off (R152, R169). -/
def Port.reset (enable : Bool) : Port where
  enable := enable
  crop := .reset
  credits := 0
  held := false
  queue := []
  link := .down

/-- The part after a part reset with the given straps latched (R21, R36, R64, R80, R103, R132, R155, R162, R169, R188). -/
def Device.afterReset (node : BitVec 3) (portBFitted : Bool) : Device where
  resetHeld := false
  node := node
  portBFitted := portBFitted
  linkU := .down
  openU := none
  openA := none
  openB := none
  laneU := none
  laneA := none
  laneB := none
  passThrough := []
  upstream := []
  mode := .pass
  pendingMode := none
  geometry := .reset
  policy := .reset
  routes := Vector.replicate 8 ⟨true, false⟩
  receiver := .idle
  frames := []
  heldLens := none
  nextFrame := 0
  slots := Vector.replicate 384 none
  storeReq := none
  profiles := Vector.replicate 8 .empty
  portA := .reset true
  portB := .reset false
  lastSource := .frame
  commands := []
  answers := []
  counters := Vector.replicate 26 0
  alerts := 0
  alertEnable := 0x3F

/-- The machine right after reset: the part after a part reset, with no command waiting.  The straps are the pins' and the
manual gives no level for them: node address 0 and port B fitted are DESIGN CHOICE values (log entry 1). -/
def State.reset : State where
  pending := []
  device := .afterReset 0 true

end Sys2Proof.Machine
end

