-- ==== Sys2Proof/Machine/Flags.lean ====
section
/-! DEFINITION. The counter bank, the alert flags and the alert line (R181, R183), and the counts and flags of a frame
context (R40, R41). -/

namespace Sys2Proof.Machine

/-- The 26 counters, in the order of R181. -/
inductive Counter where
  | headerFixed | headerBad | rowsCrc | rowsMissing | rowsStray | rowsOrder | rowsRange | rowsWidth | rowsOverrun
  | rowsDropped | framesDropped | frameSync | framesUnprofiled | lensLate | lensMismatch | lensOverflow
  | linesReachClamp | linesScaleClamp | skipA | skipB | cutB | passDrop | upstreamDrop | serviceDrop | serviceForeign
  | linkLoss
  deriving DecidableEq, Repr

/-- The place of a counter: its number in R181 less one. -/
def Counter.place : Counter → Fin 26
  | .headerFixed => 0 | .headerBad => 1 | .rowsCrc => 2 | .rowsMissing => 3 | .rowsStray => 4 | .rowsOrder => 5
  | .rowsRange => 6 | .rowsWidth => 7 | .rowsOverrun => 8 | .rowsDropped => 9 | .framesDropped => 10 | .frameSync => 11
  | .framesUnprofiled => 12 | .lensLate => 13 | .lensMismatch => 14 | .lensOverflow => 15 | .linesReachClamp => 16
  | .linesScaleClamp => 17 | .skipA => 18 | .skipB => 19 | .cutB => 20 | .passDrop => 21 | .upstreamDrop => 22
  | .serviceDrop => 23 | .serviceForeign => 24 | .linkLoss => 25

/-- A 16-bit count raised by `n`, stopping at 65535 (R40, R181). -/
def satAdd (c : BitVec 16) (n : Nat) : BitVec 16 :=
  BitVec.ofNat 16 (min 65535 (c.toNat + n))

/-- A counter's value (R181). -/
def Device.count (d : Device) (c : Counter) : BitVec 16 :=
  d.counters[c.place]

/-- A counter raised by `n`, stopping at 65535 (R181). -/
def Device.bump (d : Device) (c : Counter) (n : Nat := 1) : Device :=
  { d with counters := d.counters.set c.place (satAdd (d.count c) n) }

/-- The six alert flags (R183). -/
inductive Alert where
  | header | sync | drop | overrun | service | link
  deriving DecidableEq, Repr

/-- The bit of an alert flag in the masks of R183. -/
def Alert.mask : Alert → BitVec 6
  | .header => 1
  | .sync => 2
  | .drop => 4
  | .overrun => 8
  | .service => 16
  | .link => 32

/-- An alert flag set; its enable does not matter (R183). -/
def Device.raise (d : Device) (a : Alert) : Device :=
  { d with alerts := d.alerts ||| a.mask }

/-- The alert is asserted: a flag is set whose enable is on (R183). -/
def Device.alert (d : Device) : Bool :=
  d.alerts &&& d.alertEnable != 0

/-- The level the part drives on ATTN; none while RST is low, when it drives none (R22, R188). -/
def Device.attn (d : Device) : Option Bool :=
  if d.resetHeld then none else some d.alert

/-- A mask's two low unused bits are 0: bits 7 and 6 (R183). -/
def maskFits (mask : Byte) : Bool :=
  mask.toNat < 64

/-- No flag of a context set (R41). -/
def FrameFlags.clear : FrameFlags :=
  ⟨false, false, false, false, false, false, false, false⟩

/-- SYNC set on a context (R41). -/
def FrameContext.setSync (c : FrameContext) : FrameContext :=
  { c with flags := { c.flags with sync := true } }

/-- OVERRUN set on a context (R41, R70). -/
def FrameContext.setOverrun (c : FrameContext) : FrameContext :=
  { c with flags := { c.flags with overrun := true } }

/-- MISMATCH set on a context (R41, R56). -/
def FrameContext.setMismatch (c : FrameContext) : FrameContext :=
  { c with flags := { c.flags with mismatch := true } }

/-- LATE set on a context, and its late notes raised (R41, R58). -/
def FrameContext.setLate (c : FrameContext) : FrameContext :=
  { c with flags := { c.flags with late := true }, lateNotes := satAdd c.lateNotes 1 }

/-- RANGE set on a context when `on` (R41, R111). -/
def FrameContext.setRange (c : FrameContext) (on : Bool) : FrameContext :=
  { c with flags := { c.flags with range := c.flags.range || on } }

end Sys2Proof.Machine
end

