-- ==== Sys2Proof/Machine/Operands.lean ====
section
/-! DEFINITION. What the bytes of packets and request bodies mean, and the bytes of what the part sends: byte order, the
header code, packet lengths, row packing and CRC, lens notes, frame heads, delivered items and answers. -/

namespace Sys2Proof.Machine

/-! ## Byte order: most significant byte first (R2, R14) -/

/-- The number a list of bytes spells, high byte first. -/
def beNat (bytes : List Byte) : Nat :=
  bytes.foldl (fun n b => n * 256 + b.toNat) 0

/-- The low `width` bytes of a number, high byte first. -/
def beBytes : (width : Nat) → (n : Nat) → List Byte
  | 0, _ => []
  | w + 1, n => BitVec.ofNat 8 (n / 256 ^ w) :: beBytes w n

/-- The number in the `width` bytes at offset `off`. -/
def fieldAt (bytes : List Byte) (off width : Nat) : Nat :=
  beNat ((bytes.drop off).take width)

/-- A 24-bit two's-complement value (R177). -/
def signed24 (bytes : List Byte) : Int :=
  (BitVec.ofNat 24 (beNat bytes)).toInt

/-- The bits of a byte, bit 7 first. -/
def byteBits (b : Byte) : List Bool :=
  [b.getLsbD 7, b.getLsbD 6, b.getLsbD 5, b.getLsbD 4, b.getLsbD 3, b.getLsbD 2, b.getLsbD 1, b.getLsbD 0]

/-- The bits of a list of bytes, bit 7 of the first byte first (R7). -/
def bytesBits (bytes : List Byte) : List Bool :=
  bytes.flatMap byteBits

/-- The number a list of bits spells, most significant first. -/
def bitsNat (bits : List Bool) : Nat :=
  bits.foldl (fun n b => n * 2 + b.toNat) 0

/-! ## The common header (R3, R4) -/

/-- The five fields of a header (R3). -/
structure Header where
  kind : BitVec 4
  node : BitVec 3
  spare : BitVec 1
  length : BitVec 16
  field : BitVec 16
  deriving DecidableEq, Repr

/-- The 40 data bits, byte 0 bit 7 first (R3). -/
def Header.bits (h : Header) : BitVec 40 :=
  h.kind ++ h.node ++ h.spare ++ h.length ++ h.field

/-- The fields in 40 data bits (R3). -/
def Header.ofBits (d : BitVec 40) : Header where
  kind := d.extractLsb' 36 4
  node := d.extractLsb' 33 3
  spare := d.extractLsb' 32 1
  length := d.extractLsb' 16 16
  field := d.extractLsb' 0 16

/-- The code word positions of data bits 1 to 40 (R3): 1 to 46 less the powers of two. -/
def dataPositions : List Nat :=
  [3, 5, 6, 7, 9, 10, 11, 12, 13, 14, 15, 17, 18, 19, 20, 21, 22, 23, 24, 25, 26, 27, 28, 29, 30, 31, 33, 34, 35, 36, 37,
    38, 39, 40, 41, 42, 43, 44, 45, 46]

/-- The exclusive-or of the positions of the data bits that are 1, over the listed positions and bit numbers. -/
def xorPositions (d : BitVec 40) : List (Nat × Nat) → BitVec 6
  | [] => 0
  | (pos, i) :: rest => (if d.getMsbD i then BitVec.ofNat 6 pos else 0) ^^^ xorPositions d rest

/-- The check value C of 40 data bits (R3). -/
def checkValue (d : BitVec 40) : BitVec 6 :=
  xorPositions d dataPositions.zipIdx

/-- Whether a bit vector holds an odd number of ones, by its `n` lowest bits. -/
def oddOnes {w : Nat} (x : BitVec w) : (n : Nat) → Bool
  | 0 => false
  | n + 1 => Bool.xor (x.getLsbD n) (oddOnes x n)

/-- The parity bit P: the 47 bits hold an even number of ones (R3). -/
def parityBit (d : BitVec 40) (c : BitVec 6) : Bool :=
  Bool.xor (oddOnes d 40) (oddOnes c 6)

/-- Byte 5 of a header: P, the check value, 0 (R3). -/
def checkByte (d : BitVec 40) : Byte :=
  BitVec.ofBool (parityBit d (checkValue d)) ++ checkValue d ++ 0#1

/-- The six bytes of a header, its check byte made afresh (R2, R3). -/
def Header.bytes (h : Header) : List Byte :=
  beBytes 5 h.bits.toNat ++ [checkByte h.bits]

/-- The outcome of the header check (R4). -/
inductive HeaderCheck where
  | clean (h : Header)
  | corrected (h : Header)
  | uncorrectable
  deriving DecidableEq, Repr

/-- The data bits with the bit at code word position `pos` inverted; a position of no data bit leaves them. -/
def invertAt (d : BitVec 40) (pos : Nat) : BitVec 40 :=
  match dataPositions.idxOf? pos with
  | some i => d ^^^ BitVec.twoPow 40 (39 - i)
  | none => d

/-- The table of R4, on the received data bits, check value and P. -/
def checkCode (d : BitVec 40) (c : BitVec 6) (p : Bool) : HeaderCheck :=
  let s := (c ^^^ checkValue d).toNat
  let odd := Bool.xor (parityBit d c) p
  if s = 0 then (if odd then .corrected (.ofBits d) else .clean (.ofBits d))
  else if odd && s ≤ 46 then .corrected (.ofBits (invertAt d s))
  else .uncorrectable

/-- The header check of R4 on the first six bytes of a packet; bit 0 of byte 5 is ignored. -/
def checkHeader (bytes : List Byte) : HeaderCheck :=
  let b5 := (bytes.drop 5).headD 0
  checkCode (BitVec.ofNat 40 (beNat (bytes.take 5))) (b5.extractLsb' 1 6) (b5.getLsbD 7)

/-! ## Lens notes and frame heads from the front end (R9, R10) -/

/-- The lens record of a note row and the nine bytes of a note body (R9). -/
def lensRecord (row : Nat) (body : List Byte) : LensRecord where
  row := row
  identity := ⟨BitVec.ofNat 32 (fieldAt body 0 4), BitVec.ofNat 2 (fieldAt body 4 1)⟩
  focal := fieldAt body 5 2
  focus := fieldAt body 7 2

/-- The note-present mark of a frame head's flags byte (R10). -/
def notePresent (flags : Byte) : Bool :=
  flags.getLsbD 7

/-- The route group of a frame head's payload (R10). -/
def routeGroup (payload : List Byte) : Fin 8 :=
  ((payload.headD 0).extractLsb' 0 3).toFin

/-- The embedded lens record of a frame head's payload, or its absence (R10). -/
def embeddedNote (payload : List Byte) : Option LensRecord :=
  if notePresent (payload.headD 0) then some (lensRecord (fieldAt payload 1 2) (payload.drop 3)) else none

/-! ## The length check (R6) -/

/-- Whether the payload of a packet on a receiving lane breaks the rule of its kind (R6).  The rule of rows binds those from
the front end alone, which arrive on port U's forward lane (log entry 6). -/
def breaksKindRule (lane : LinkPort) (kind : Nat) (payload : List Byte) : Bool :=
  match kind with
  | 1 =>
    match payload with
    | [] => true
    | flags :: rest =>
      if notePresent flags then rest.length != 11 || fieldAt payload 8 2 == 0 else !rest.isEmpty
  | 2 => lane == .u && payload.length < 2
  | 3 => payload.length != 9 || fieldAt payload 5 2 == 0
  | 4 => !payload.isEmpty
  | _ => false

/-- Whether a packet on a receiving lane is malformed (R6), which is checked before the packet is sorted (R15, R17). -/
def malformed (lane : LinkPort) (h : Header) (payload : List Byte) : Bool :=
  h.length.toNat > Config.maxPayload || h.length.toNat != payload.length
    || breaksKindRule lane h.kind.toNat payload

/-- The packet of a checked header and its payload. -/
def Header.packet (h : Header) (payload : List Byte) : Packet where
  kind := h.kind
  node := h.node
  spare := h.spare
  field := h.field
  payload := payload

/-- The header a packet is sent with (R2). -/
def Packet.header (p : Packet) : Header where
  kind := p.kind
  node := p.node
  spare := p.spare
  length := BitVec.ofNat 16 p.payload.length
  field := p.field

/-- The bytes of a packet as the part sends it (R2). -/
def Packet.bytes (p : Packet) : List Byte :=
  p.header.bytes ++ p.payload

/-! ## Rows (R7, R8) -/

/-- The next `n` samples of a bit stream, each most significant bit first (R7). -/
def unpackSamples : (n : Nat) → List Bool → List Sample
  | 0, _ => []
  | n + 1, bits => BitVec.ofNat 14 (bitsNat (bits.take 14)) :: unpackSamples n (bits.drop 14)

/-- The bits of a sample, most significant first (R7). -/
def sampleBits (s : Sample) : List Bool :=
  (List.range 14).map s.getMsbD

/-- The next `n` bytes of a bit stream, the last padded with zero bits (R7). -/
def packBytes : (n : Nat) → List Bool → List Byte
  | 0, _ => []
  | n + 1, bits =>
    BitVec.ofNat 8 (bitsNat (bits.take 8 ++ List.replicate (8 - (bits.take 8).length) false)) :: packBytes n (bits.drop 8)

/-- The sample bytes of a row: ceil(14 n / 8) of them (R7). -/
def packRow (samples : List Sample) : List Byte :=
  packBytes ((14 * samples.length + 7) / 8) (samples.flatMap sampleBits)

/-- The samples read from the sample bytes of a row: floor(8 (L - 2) / 14) of them (R7). -/
def unpackRow (sampleBytes : List Byte) : List Sample :=
  unpackSamples (8 * sampleBytes.length / 14) (bytesBits sampleBytes)

/-- One bit into the CRC register (R8). -/
def crcBit (crc : BitVec 16) (bit : Bool) : BitVec 16 :=
  if Bool.xor (crc.getLsbD 15) bit then (crc <<< 1) ^^^ 0x1021 else crc <<< 1

/-- The CRC-16 of a list of bytes (R8): the register starts at 0xFFFF and each byte is taken most significant bit first. -/
def crc16 (bytes : List Byte) : BitVec 16 :=
  (bytesBits bytes).foldl crcBit 0xFFFF

/-- The CRC of a row: over the row number's two bytes and every sample byte (R8). -/
def rowCrc (number : BitVec 16) (sampleBytes : List Byte) : BitVec 16 :=
  crc16 (beBytes 2 number.toNat ++ sampleBytes)

/-- The sample bytes of a row packet's payload: all but the last two (R7). -/
def rowSampleBytes (payload : List Byte) : List Byte :=
  payload.take (payload.length - 2)

/-- The crc_bad mark of a row packet (R8). -/
def rowCrcBad (number : BitVec 16) (payload : List Byte) : Bool :=
  (rowCrc number (rowSampleBytes payload)).toNat != fieldAt payload (payload.length - 2) 2

/-! ## Codes -/

/-- The code of a mode (chapter 2.1). -/
def Mode.code : Mode → Byte
  | .pass => 0
  | .correct => 1
  | .mapx => 2
  | .mapy => 3

/-- The mode of a code, if it is one. -/
def Mode.ofCode (code : Byte) : Option Mode :=
  match code.toNat with
  | 0 => some .pass
  | 1 => some .correct
  | 2 => some .mapx
  | 3 => some .mapy
  | _ => none

/-- The code of a pending mode: 255 when absent (R178). -/
def pendingCode : Option Mode → Byte
  | some m => m.code
  | none => 255

/-- The code of a link state (R180). -/
def LinkState.code : LinkState → Byte
  | .down => 0
  | .aligning => 1
  | .up => 2

/-- The code of a receiver state (R180). -/
def Receiver.code : Receiver → Byte
  | .idle => 0
  | .filling => 1
  | .discarding => 2

/-- The code of an input state (R180). -/
def InputState.code : InputState → Byte
  | .filling => 0
  | .ended false => 1
  | .ended true => 2

/-- The code of an entry state (R178). -/
def Entry.code : Entry → Byte
  | .empty => 0
  | .loading _ => 1
  | .ready _ _ => 2
  | .retiring _ _ => 3

/-- The code of a status (R175). -/
def Status.code : Status → Byte
  | .ok => 0
  | .unknown => 1
  | .badLen => 2
  | .badArg => 3
  | .wrongMode => 4
  | .state => 5
  | .range => 6
  | .duplicate => 7
  | .incomplete => 8
  | .badStation => 9

/-- The code of a delivery in a frame report (R165). -/
def Delivery.code : Delivery → BitVec 2
  | .excluded => 0
  | .skipped => 1
  | .live _ => 2
  | .cut => 3

/-- A Bool as one byte. -/
def boolByte (b : Bool) : Byte :=
  if b then 1 else 0

/-! ## What the part sends (R12, R13, R14, R165) -/

/-- A packet the part makes: its own node address, the spare bit 0 (R2, R3). -/
def madePacket (node : BitVec 3) (kind : BitVec 4) (field : BitVec 16) (payload : List Byte) : Packet where
  kind := kind
  node := node
  spare := 0
  field := field
  payload := payload

/-- The payload of a delivered frame head (R12). -/
def headPayload (cropWidth cropHeight : Nat) (mode : Mode) (identity : Option Identity) : List Byte :=
  beBytes 2 cropWidth ++ beBytes 2 cropHeight ++ [mode.code] ++
    match identity with
    | some i => (1#1 ++ 0#5 ++ i.converter : BitVec 8) :: beBytes 4 i.lensId.toNat
    | none => [0]

/-- The payload of a delivered row: packed samples and a fresh CRC (R8, R13). -/
def rowPayload (number : Nat) (values : List Sample) : List Byte :=
  packRow values ++ beBytes 2 (rowCrc (BitVec.ofNat 16 number) (packRow values)).toNat

/-- The flags byte of a frame report: bit 7 UNPROFILED down to bit 0 LATE (R165). -/
def FrameFlags.byte (f : FrameFlags) : Byte :=
  BitVec.ofNat 8 (bitsNat [f.unprofiled, f.inherited, f.short, f.overrun, f.sync, f.mismatch, f.range, f.late])

/-- Focal length and focus of a band lens state in a frame report, 0 when absent (R165). -/
def lensBytes : Option LensState → List Byte
  | some l => beBytes 2 l.focal ++ beBytes 2 l.focus
  | none => [0, 0, 0, 0]

/-- Byte 0 of a frame report: the presence bits, the inherited mark, the mode (R165). -/
def Report.presenceByte (r : Report) : Byte :=
  BitVec.ofNat 8
    (bitsNat [r.entry.isSome, r.identity.isSome, r.firstBand.isSome, r.lastBand.isSome,
        r.firstBand.elim false LensState.inherited, false] * 4 + r.mode.code.toNat)

/-- The 31 payload bytes of a frame report (R165). -/
def Report.payload (r : Report) : List Byte :=
  [r.presenceByte, r.entry.elim 0 fun e => BitVec.ofNat 8 e.val,
    r.identity.elim 0 fun i => (0#6 ++ i.converter : BitVec 8)]
  ++ beBytes 4 (r.identity.elim 0 fun i => i.lensId.toNat)
  ++ [r.flags.byte]
  ++ lensBytes r.firstBand ++ lensBytes r.lastBand
  ++ beBytes 2 r.rowsStored.toNat ++ beBytes 2 r.rowsMissing.toNat ++ beBytes 2 r.crcErrors.toNat
  ++ beBytes 2 r.linesReachClamp.toNat ++ beBytes 2 r.linesScaleClamp.toNat
  ++ beBytes 2 r.linesSubstituted.toNat ++ beBytes 2 r.lateNotes.toNat
  ++ [(0#4 ++ r.deliveryA.code ++ r.deliveryB.code : BitVec 8)]

/-- The packet of a frame item (R161). -/
def Item.packet (node : BitVec 3) : Item → Packet
  | .head _ tag w h mode identity => madePacket node 1 tag (headPayload w h mode identity)
  | .row _ number values => madePacket node 2 (BitVec.ofNat 16 number) (rowPayload number values)
  | .report _ r => madePacket node 6 r.tag r.payload
  | .cutMarker _ tag => madePacket node 7 tag []
  | .restartMarker => madePacket node 8 0 []

/-- The packet of an answer: kind 5, with the tag, the code, the status and the results (R14, R174). -/
def Answer.packet (node : BitVec 3) (a : Answer) : Packet :=
  madePacket node 5 0 (a.tag :: a.code :: a.status.code :: a.results)

/-! ## Request bodies (R14, R174, R177) -/

/-- The command code of a request: byte 1 of its body (R14). -/
def Packet.requestCode (p : Packet) : Option Nat :=
  (p.payload.drop 1).head?.map BitVec.toNat

/-- The argument bytes of a request: its body from byte 2 (R14). -/
def Packet.arguments (p : Packet) : List Byte :=
  p.payload.drop 2

/-- The consecutive two-byte values of a list of bytes (R177). -/
def halfWords : (n : Nat) → List Byte → List Nat
  | 0, _ => []
  | n + 1, bytes => beNat (bytes.take 2) :: halfWords n (bytes.drop 2)

/-- An item of a PROFILE_WRITE (R90): a literal, or a run of a count and a value. -/
inductive WriteItem where
  | literal (value : Int)
  | run (count : Nat) (value : Int)
  deriving DecidableEq, Repr

/-- The items of a PROFILE_WRITE's bytes, or none where a form byte is neither 0 nor 1 or an item is cut short (R177).  The
first argument bounds the number of items; the number of bytes is always enough. -/
def writeItems : (fuel : Nat) → List Byte → Option (List WriteItem)
  | _, [] => some []
  | 0, _ :: _ => none
  | fuel + 1, form :: rest =>
    if form = 0 then
      if rest.length < 3 then none
      else (writeItems fuel (rest.drop 3)).map (.literal (signed24 (rest.take 3)) :: ·)
    else if form = 1 then
      if rest.length < 5 then none
      else (writeItems fuel (rest.drop 5)).map (.run (beNat (rest.take 2)) (signed24 ((rest.drop 2).take 3)) :: ·)
    else none

/-- The number of values an item stands for (R90). -/
def WriteItem.count : WriteItem → Nat
  | .literal _ => 1
  | .run n _ => n

/-- The value of an item (R90). -/
def WriteItem.value : WriteItem → Int
  | .literal v => v
  | .run _ v => v

/-! ## Reading a lane's symbols (R1) -/

/-- What a symbol brings about on a lane: nothing, a completed packet, or an abandoned one (R1). -/
inductive LaneEvent where
  | nothing
  | completed (bytes : List Byte)
  | abandoned
  deriving DecidableEq, Repr

/-- One symbol of a lane whose link is UP: the packet then open, and what came about (R1).  CREDIT, HOLD and RESUME do not
touch the open packet. -/
def readSymbol (opened : Option (List Byte)) (sym : Symbol) : Option (List Byte) × LaneEvent :=
  match sym, opened with
  | .start, none => (some [], .nothing)
  | .start, some _ => (some [], .abandoned)
  | .data _, none => (none, .nothing)
  | .data b, some bytes =>
    if bytes.length < 6 + Config.maxPayload then (some (bytes ++ [b]), .nothing) else (none, .abandoned)
  | .stop, none => (none, .nothing)
  | .stop, some bytes => if bytes.length < 6 then (none, .abandoned) else (none, .completed bytes)
  | .idle, none => (none, .nothing)
  | .idle, some _ => (none, .abandoned)
  | .align, none => (none, .nothing)
  | .align, some _ => (none, .abandoned)
  | .undecodable, none => (none, .nothing)
  | .undecodable, some _ => (none, .abandoned)
  | .credit, _ => (opened, .nothing)
  | .hold, _ => (opened, .nothing)
  | .resume, _ => (opened, .nothing)

/-- The events of a list of symbols, in order (R1). -/
def laneEvents : Option (List Byte) → List Symbol → List LaneEvent
  | _, [] => []
  | opened, sym :: rest =>
    match (readSymbol opened sym).2 with
    | .nothing => laneEvents (readSymbol opened sym).1 rest
    | e => e :: laneEvents (readSymbol opened sym).1 rest

/-- The kind of a completed packet, after any correction; none when its header is uncorrectable (R4, R5). -/
def arrivalKind (bytes : List Byte) : Option Nat :=
  match checkHeader bytes with
  | .clean h => some h.kind.toNat
  | .corrected h => some h.kind.toNat
  | .uncorrectable => none

end Sys2Proof.Machine
end

