-- ==== Sys2Proof/Machine/Ops.lean ====
section
/-! DEFINITION. The shared operations over the part's state: ports and links, the filling context and the end of its
input, the delivery set, queues with a limit. -/

namespace Sys2Proof.Machine

/-! ## Ports and links -/

/-- A delivery port of the part. -/
def Device.port (d : Device) : OutPort → Port
  | .a => d.portA
  | .b => d.portB

/-- A delivery port replaced. -/
def Device.setPort (d : Device) (p : OutPort) (x : Port) : Device :=
  match p with
  | .a => { d with portA := x }
  | .b => { d with portB := x }

/-- The link state of a port (R20). -/
def Device.link (d : Device) : LinkPort → LinkState
  | .u => d.linkU
  | .a => d.portA.link
  | .b => d.portB.link

/-- The link state of a port replaced. -/
def Device.setLink (d : Device) (p : LinkPort) (l : LinkState) : Device :=
  match p with
  | .u => { d with linkU := l }
  | .a => { d with portA := { d.portA with link := l } }
  | .b => { d with portB := { d.portB with link := l } }

/-- The packet open on a receiving lane (R1). -/
def Device.opened (d : Device) : LinkPort → Option (List Byte)
  | .u => d.openU
  | .a => d.openA
  | .b => d.openB

/-- The packet open on a receiving lane replaced. -/
def Device.setOpened (d : Device) (p : LinkPort) (o : Option (List Byte)) : Device :=
  match p with
  | .u => { d with openU := o }
  | .a => { d with openA := o }
  | .b => { d with openB := o }

/-- The row items of a queue: the rows held, of whatever frame (R159). -/
def rowsQueued (q : List Item) : Nat :=
  q.countP fun
    | .row _ _ _ => true
    | _ => false

/-- What a sending lane carries (R2). -/
inductive LaneOutput where
  | idle
  | align
  | packet (bytes : List Byte)
  deriving DecidableEq, Repr

/-- The bytes of the packet on a port's sending lane: U's reverse lane, A's or B's forward lane (R2). -/
def Device.sending (d : Device) : LinkPort → Option (List Byte)
  | .u => d.laneU
  | .a => d.laneA.map LaneSend.bytes
  | .b => d.laneB

/-- What a sending lane carries: IDLE in reset, while DOWN and between packets, ALIGN while ALIGNING, else the packet
(R2, R20, R21). -/
def Device.laneOutput (d : Device) (p : LinkPort) : LaneOutput :=
  if d.resetHeld then .idle
  else match d.link p with
    | .down => .idle
    | .aligning => .align
    | .up => (d.sending p).elim .idle .packet

/-! ## Queues with a limit -/

/-- A packet joins the pass-through queue, or is dropped with PASS_DROP (R16). -/
def Device.joinPassThrough (d : Device) (p : Packet) : Device :=
  if d.passThrough.length < Config.queuePlaces then { d with passThrough := d.passThrough ++ [p] }
  else d.bump .passDrop

/-- A request joins the upstream queue, or is dropped with UPSTREAM_DROP (R19). -/
def Device.joinUpstream (d : Device) (p : Packet) : Device :=
  if d.upstream.length < Config.queuePlaces then { d with upstream := d.upstream ++ [p] }
  else d.bump .upstreamDrop

/-- A request joins the command queue, or is dropped with SERVICE_DROP and the alert flag SERVICE (R171). -/
def Device.joinCommands (d : Device) (p : Packet) : Device :=
  if d.commands.length < Config.queuePlaces then { d with commands := d.commands ++ [p] }
  else (d.bump .serviceDrop).raise .service

/-! ## Deliveries (R158) -/

/-- The delivery of a frame on a port (R39). -/
def FrameContext.delivery (c : FrameContext) : OutPort → Delivery
  | .a => c.deliveryA
  | .b => c.deliveryB

/-- The delivery of a frame on a port replaced. -/
def FrameContext.setDelivery (c : FrameContext) (p : OutPort) (x : Delivery) : FrameContext :=
  match p with
  | .a => { c with deliveryA := x }
  | .b => { c with deliveryB := x }

/-- The clipped crop of a LIVE delivery (R154). -/
def Delivery.crop? : Delivery → Option Crop
  | .live crop => some crop
  | _ => none

/-- A LIVE delivery becomes CUT; any other stays (R166, R167). -/
def Delivery.cutLive : Delivery → Delivery
  | .live _ => .cut
  | x => x

/-- Every LIVE delivery of a port becomes CUT (R166, R167). -/
def Device.cutDeliveries (d : Device) (p : OutPort) : Device :=
  { d with frames := d.frames.map fun c => c.setDelivery p (c.delivery p).cutLive }

/-- An item joins a port's queue at the tail (R159). -/
def Port.append (p : Port) (i : Item) : Port :=
  { p with queue := p.queue ++ [i] }

/-! ## The filling context and the end of its input (R37, R42) -/

/-- The context's input is FILLING. -/
def FrameContext.isFilling (c : FrameContext) : Bool :=
  c.input == .filling

/-- The context whose input is FILLING, if one is held (R38). -/
def Device.filling? (d : Device) : Option FrameContext :=
  d.frames.find? FrameContext.isFilling

/-- The filling context changed by `f`; no other context is touched. -/
def Device.onFilling (d : Device) (f : FrameContext → FrameContext) : Device :=
  { d with frames := d.frames.map fun c => if c.isFilling then f c else c }

/-- Whether the input of a context ends short (R42): always for a frame head or a link loss, and for a tail or a close
when the front is absent or less than H - 1. -/
def FrameContext.endsShort (c : FrameContext) (always : Bool) : Bool :=
  always || c.front.elim true fun f => f + 1 < c.geometry.height

/-- The rows never taken: those after the front, or H rows when the front is absent (R42). -/
def FrameContext.rowsNeverTaken (c : FrameContext) : Nat :=
  c.front.elim c.geometry.height fun f => c.geometry.height - 1 - f

/-- A context whose input ends (R42). -/
def FrameContext.ended (c : FrameContext) (always : Bool) : FrameContext :=
  if c.endsShort always then
    { c with
      input := .ended true
      flags := { c.flags with short := true }
      rowsMissing := satAdd c.rowsMissing c.rowsNeverTaken }
  else { c with input := .ended false }

/-- The filling context's input ends, and the receiver moves to IDLE (R42); nothing where none is filling. -/
def Device.endInput (d : Device) (always : Bool) : Device :=
  match d.filling? with
  | none => d
  | some c =>
    let d := { d.onFilling (·.ended always) with receiver := .idle }
    if c.endsShort always then d.bump .rowsMissing c.rowsNeverTaken else d

end Sys2Proof.Machine
end

