-- ==== Sys2Proof/Machine/Band.lean ====
section
/-! DEFINITION. Bands, band lens states and band sets (chapter 6), and the lookup and hold counts of the profile table
(R98, R100). -/

namespace Sys2Proof.Machine

/-! ## The profile table's entries -/

/-- The contents of an entry (R81). -/
def Entry.profile? : Entry → Option Profile
  | .empty => none
  | .loading p => some p
  | .ready p _ => some p
  | .retiring p _ => some p

/-- The hold count of an entry (R81, R86). -/
def Entry.holdCount : Entry → Nat
  | .empty => 0
  | .loading _ => 0
  | .ready _ n => n
  | .retiring _ n => n

/-- The entry is READY with this identity (R98). -/
def Entry.readyFor (e : Entry) (i : Identity) : Bool :=
  match e with
  | .ready p _ => p.identity == i
  | _ => false

/-- A lookup: the READY entry of an identity (R98). -/
def lookupEntry (profiles : Vector Entry 8) (i : Identity) : Option (Fin 8) :=
  (List.finRange 8).find? fun e => profiles[e].readyFor i

/-- A binding: the hold count rises by one (R98); only a READY entry is bound. -/
def Entry.bind : Entry → Entry
  | .ready p n => .ready p (n + 1)
  | e => e

/-- An unbinding: the hold count falls by one, and a RETIRING entry that reaches 0 becomes EMPTY (R100). -/
def Entry.unbind : Entry → Entry
  | .ready p n => .ready p (n - 1)
  | .retiring p n => if n - 1 = 0 then .empty else .retiring p (n - 1)
  | e => e

/-- One entry of the table changed by `f`. -/
def Device.onEntry (d : Device) (e : Fin 8) (f : Entry → Entry) : Device :=
  { d with profiles := d.profiles.set e (f d.profiles[e]) }

/-- The unbinding of a context that leaves the frame queue (R61, R63, R100). -/
def Device.unbindContext (d : Device) (c : FrameContext) : Device :=
  match c.entry with
  | some e => d.onEntry e Entry.unbind
  | none => d

/-! ## Bands (R104, R105) -/

/-- The band of an output line (R104). -/
def bandOf (g : Geometry) (y : Nat) : Nat :=
  y / g.bandHeight

/-- The centre row of a band (R105). -/
def centreRow (g : Geometry) (b : Nat) : Nat :=
  min (b * g.bandHeight + g.bandHeight / 2) (g.height - 1)

/-! ## The band lens state (R107 to R109) -/

/-- The quotient `n / d` rounded to the nearest integer, halves toward +∞, for a positive `d` (R108, R114). -/
def roundHalfUp (n d : Int) : Int :=
  (2 * n + d) / (2 * d)

/-- The value at `row` between `lo` at `rowLo` and `hi` at `rowHi` (R108). -/
def interpolate (lo hi rowLo rowHi row : Nat) : Nat :=
  ((lo : Int) + roundHalfUp (((hi : Int) - lo) * ((row : Int) - rowLo)) ((rowHi : Int) - rowLo)).toNat

/-- The lower note: the note with the greatest row that is no more than the centre row (R107); the list is in row order
(R40). -/
def lowerNote (notes : List Note) (centre : Nat) : Option Note :=
  (notes.filter fun n => n.record.row ≤ centre).getLast?

/-- The upper note: the note with the least row that is no less than the centre row (R107). -/
def upperNote (notes : List Note) (centre : Nat) : Option Note :=
  notes.find? fun n => centre ≤ n.record.row

/-- The lens state of one note, as it is (R108, R109). -/
def Note.lensState (n : Note) : LensState where
  focal := n.record.focal
  focus := n.record.focus
  inherited := n.inherited

/-- The band lens state at a centre row (R107 to R109). -/
def bandLens (notes : List Note) (centre : Nat) : Option LensState :=
  match lowerNote notes centre, upperNote notes centre with
  | some lo, some hi =>
    if lo.record.row = hi.record.row then some lo.lensState
    else some
      { focal := interpolate lo.record.focal hi.record.focal lo.record.row hi.record.row centre
        focus := interpolate lo.record.focus hi.record.focus lo.record.row hi.record.row centre
        inherited := lo.inherited && hi.inherited }
  | some lo, none => some lo.lensState
  | none, some hi => some hi.lensState
  | none, none => none

/-! ## Stations, weights and the band set (R110 to R114) -/

/-- The identity set (R110). -/
def BandSet.identity : BandSet :=
  ⟨0, 0, 0, 0, 0, 0, 0⟩

/-- A value clamped to the stations; a list of one station is not clamped against (R111). -/
def clampToStations (stations : List Nat) (v : Nat) : Nat :=
  if stations.length ≤ 1 then v
  else max (stations.headD 0) (min (stations.getLastD 0) v)

/-- Column (or row) and weight of a clamped value among the stations (R112). -/
def stationWeight (stations : List Nat) (v : Nat) : Nat × Nat :=
  if stations.length ≤ 1 then (0, 0)
  else if v = stations.headD 0 then (0, 0)
  else if v = stations.getLastD 0 then (stations.length - 1, 0)
  else
    let i := stations.countP (· ≤ v) - 1
    let lo := stations.getD i 0
    (i, 256 * (v - lo) / (stations.getD (i + 1) 0 - lo))

/-- The word of a profile's array at a focal column, a focus row and a place (R83). -/
def Profile.word (p : Profile) (column row place : Nat) : Int :=
  (p.words.map CoefWord.value).getD ((column * p.focus.length + row) * 7 + place) 0

/-- The corners read, with their weights in 65536ths; a corner of weight 0 is left out (R113). -/
def corners (focal focus : Nat × Nat) : List (Nat × Nat × Nat) :=
  [ (focal.1, focus.1, (256 - focal.2) * (256 - focus.2)),
    (focal.1 + 1, focus.1, focal.2 * (256 - focus.2)),
    (focal.1, focus.1 + 1, (256 - focal.2) * focus.2),
    (focal.1 + 1, focus.1 + 1, focal.2 * focus.2) ].filter fun c => c.2.2 != 0

/-- One coefficient: the weighted mean of the corners' words, halves toward +∞ (R114). -/
def Profile.coefficient (p : Profile) (cs : List (Nat × Nat × Nat)) (place : Nat) : Int :=
  roundHalfUp (cs.map fun c => (c.2.2 : Int) * p.word c.1 c.2.1 place).sum 65536

/-- The band set of a lens state on a profile (R111 to R114). -/
def Profile.bandSet (p : Profile) (l : LensState) : BandSet :=
  let cs := corners (stationWeight p.focal (clampToStations p.focal l.focal))
    (stationWeight p.focus (clampToStations p.focus l.focus))
  { k1 := p.coefficient cs 0
    k2 := p.coefficient cs 1
    k3 := p.coefficient cs 2
    redC0 := p.coefficient cs 3
    redC1 := p.coefficient cs 4
    blueC0 := p.coefficient cs 5
    blueC1 := p.coefficient cs 6 }

/-- A clamp to the stations acts on the lens state (R111). -/
def Profile.clamps (p : Profile) (l : LensState) : Bool :=
  clampToStations p.focal l.focal != l.focal || clampToStations p.focus l.focus != l.focus

/-- The contents of a context's bound entry (R99). -/
def boundProfile (profiles : Vector Entry 8) (c : FrameContext) : Option Profile :=
  c.entry.bind fun e => profiles[e].profile?

/-- The band fix for line `y` (R106). -/
def FrameContext.fixBand (c : FrameContext) (profiles : Vector Entry 8) (y : Nat) : FrameContext :=
  let b := bandOf c.geometry y
  let lens := bandLens c.notes (centreRow c.geometry b)
  let fixed : BandSet × Bool :=
    match boundProfile profiles c, lens with
    | some p, some l => (p.bandSet l, p.clamps l)
    | _, _ => (.identity, false)
  { c.setRange fixed.2 with
    band := some ⟨b, lens, fixed.1⟩
    firstBand := if b = 0 then lens else c.firstBand
    lastBand := lens }

end Sys2Proof.Machine
end

