-- ==== Sys2Proof/Machine/Delivery.lean ====
section
/-! DEFINITION. The delivery ports (chapter 9): crops and credit requests, flow symbols, hand-offs and cuts, sending,
port reset and link loss. -/

namespace Sys2Proof.Machine

/-! ## Crops and credit requests (R154, R157) -/

/-- A crop setting clipped to a frame (R154); none when it is empty. -/
def clipCrop (crop : Crop) (g : Geometry) : Option Crop :=
  if g.width ≤ crop.colBase || g.height ≤ crop.rowBase then none
  else some
    { crop with
      colLimit := min crop.colLimit (g.width - 1)
      rowLimit := min crop.rowLimit (g.height - 1) }

/-- The number of columns of a crop (R154). -/
def Crop.width (c : Crop) : Nat :=
  c.colLimit + 1 - c.colBase

/-- The number of rows of a crop (R154). -/
def Crop.height (c : Crop) : Nat :=
  c.rowLimit + 1 - c.rowBase

/-- A port's answer to a credit request (R157): EXCLUDED where it is off, its link is not UP or the clipped crop is empty;
otherwise LIVE with a credit and SKIPPED without. -/
def Port.answerCredit (p : Port) (g : Geometry) : Delivery :=
  if p.enable && p.link == .up then
    match clipCrop p.crop g with
    | none => .excluded
    | some crop => if p.credits = 0 then .skipped else .live crop
  else .excluded

/-- The port after its answer: a LIVE answer spends a credit (R157). -/
def Port.afterAnswer (p : Port) (answer : Delivery) : Port :=
  match answer with
  | .live _ => { p with credits := p.credits - 1 }
  | _ => p

/-- The skip counter of a port (R157). -/
def skipCounter : OutPort → Counter
  | .a => .skipA
  | .b => .skipB

/-- The delivery of a new frame on a port: the credit request's answer for a member of the route group's set, EXCLUDED
for a port outside it (R49, R157). -/
def Device.creditAnswer (d : Device) (p : OutPort) (member : Bool) (g : Geometry) : Delivery :=
  if member then (d.port p).answerCredit g else .excluded

/-- The effect of a credit request's answer on the part: the credit spent or the skip counted (R157). -/
def Device.afterCredit (d : Device) (p : OutPort) (answer : Delivery) : Device :=
  let d := d.setPort p ((d.port p).afterAnswer answer)
  match answer with
  | .skipped => d.bump (skipCounter p)
  | _ => d

/-! ## Flow symbols (R18, R156, R160) -/

/-- A change of a port by a flow symbol, received only while its link is UP (R18). -/
def Device.flow (d : Device) (p : OutPort) (f : Port → Port) : Device :=
  if (d.port p).link = .up then d.setPort p (f (d.port p)) else d

/-- CREDIT: one credit more, stopping at 4 (R156). -/
def Port.credit (p : Port) : Port :=
  { p with credits := min Config.maxCredits (p.credits + 1) }

/-- HOLD: the port is held (R160). -/
def Port.hold (p : Port) : Port :=
  { p with held := true }

/-- RESUME: the port is released (R160). -/
def Port.resume (p : Port) : Port :=
  { p with held := false }

/-! ## Hand-off (R126, R163) -/

/-- The frame head item of a frame on a port with clipped crop `crop` (R12): it names the lens of a bound frame. -/
def headItem (c : FrameContext) (crop : Crop) : Item :=
  .head c.id c.tag crop.width crop.height c.mode (if c.entry.isSome then c.identity else none)

/-- The row item of line `y` on a port with clipped crop `crop` (R163). -/
def rowItem (c : FrameContext) (crop : Crop) (y : Nat) (values : List Sample) : Item :=
  .row c.id (y - crop.rowBase) ((values.drop crop.colBase).take crop.width)

/-- Row `y` lies in the crop's rows. -/
def Crop.hasRow (crop : Crop) (y : Nat) : Bool :=
  decide (crop.rowBase ≤ y) && decide (y ≤ crop.rowLimit)

/-- At line 0 a LIVE port receives the frame head (R126). -/
def Device.handHead (d : Device) (c : FrameContext) (p : OutPort) (y : Nat) : Device :=
  match c.delivery p with
  | .live crop => if y = 0 then d.setPort p ((d.port p).append (headItem c crop)) else d
  | _ => d

/-- Port A takes its slice of line `y` (R126, R163). -/
def Device.handRowA (d : Device) (c : FrameContext) (y : Nat) (values : List Sample) : Device :=
  match c.deliveryA with
  | .live crop => if crop.hasRow y then d.setPort .a (d.portA.append (rowItem c crop y values)) else d
  | _ => d

/-- Port B's limit is reached by a row of line `y`: the frame is LIVE on it, the row lies in its crop, and its queue holds
16 rows (R163). -/
def Device.cutsB (d : Device) (c : FrameContext) (y : Nat) : Bool :=
  (c.deliveryB.crop?.any fun crop => crop.hasRow y) && Config.portBRows ≤ rowsQueued d.portB.queue

/-- Port B takes its slice of line `y`, or cuts the frame: a cut marker, and CUT_B (R163). -/
def Device.handRowB (d : Device) (c : FrameContext) (y : Nat) (values : List Sample) : Device :=
  match c.deliveryB with
  | .live crop =>
    if crop.hasRow y then
      if Config.portBRows ≤ rowsQueued d.portB.queue then
        (d.setPort .b (d.portB.append (.cutMarker c.id c.tag))).bump .cutB
      else d.setPort .b (d.portB.append (rowItem c crop y values))
    else d
  | _ => d

/-- The report placed on a port whose delivery is LIVE (R61, R164). -/
def Device.placeReport (d : Device) (c : FrameContext) (p : OutPort) (r : Report) : Device :=
  match c.delivery p with
  | .live _ => d.setPort p ((d.port p).append (.report c.id r))
  | _ => d

/-! ## Port reset and link loss (R166, R167) -/

/-- A frame item of the port's queue is on its lane. -/
def Device.itemOnLane (d : Device) : OutPort → Bool
  | .a => d.laneA.any fun l => l.source == .frame
  | .b => d.laneB.isSome

/-- The reset of a delivery port (R166). -/
def Device.resetPort (d : Device) (p : OutPort) : Device :=
  let port := d.port p
  let kept := if d.itemOnLane p then port.queue.take 1 else []
  let marker := if port.link = .up then [Item.restartMarker] else []
  (d.setPort p { port with queue := kept ++ marker, credits := 0 }).cutDeliveries p

/-- The lane of a delivery port cut off. -/
def Device.clearLane (d : Device) : OutPort → Device
  | .a => { d with laneA := none }
  | .b => { d with laneB := none }

/-- What a loss of its link does to a delivery port (R20, R167); the link state itself is R20's. -/
def Device.losePort (d : Device) (p : OutPort) : Device :=
  ((d.setPort p { d.port p with queue := [], credits := 0, held := false }).clearLane p).cutDeliveries p

/-- The port of a link returned to UP: credits 0, released, an empty queue (R167). -/
def Port.fresh (p : Port) : Port :=
  { p with queue := [], credits := 0, held := false }

/-! ## Sending (R2, R161, R162) -/

/-- The sources in the order the arbiter looks at them, beginning with the one after the source chosen last (R162). -/
def rotation : Source → List Source
  | .frame => [.answer, .passThrough, .frame]
  | .answer => [.passThrough, .frame, .answer]
  | .passThrough => [.frame, .answer, .passThrough]

/-- The packet at the front of a source of port A's lane (R162). -/
def Device.frontPacket (d : Device) : Source → Option Packet
  | .answer => d.answers.head?.map (Answer.packet d.node)
  | .passThrough => d.passThrough.head?
  | .frame => d.portA.queue.head?.map (Item.packet d.node)

/-- The arbiter's choice: the first source in rotation that is not empty (R162). -/
def Device.nextSource (d : Device) : Option Source :=
  (rotation d.lastSource).find? fun s => (d.frontPacket s).isSome

/-- A choice on port A's lane (R162); nothing where the lane carries a packet, the link is not UP, the port is held or
every source is empty. -/
def Device.arbiterChoice (d : Device) : Device :=
  if d.laneA.isNone && d.portA.link == .up && !d.portA.held then
    match d.nextSource with
    | some s => { d with lastSource := s, laneA := (d.frontPacket s).map fun p => ⟨s, p.bytes⟩ }
    | none => d
  else d

/-- Port B begins the item at the front of its queue (R161). -/
def Device.portBSend (d : Device) : Device :=
  if d.laneB.isNone && d.portB.link == .up && !d.portB.held then
    match d.portB.queue with
    | i :: _ => { d with laneB := some (i.packet d.node).bytes }
    | [] => d
  else d

/-- The upstream queue begins the request at its front (R19). -/
def Device.upstreamSend (d : Device) : Device :=
  if d.laneU.isNone && d.linkU == .up then
    match d.upstream with
    | p :: _ => { d with laneU := some p.bytes }
    | [] => d
  else d

/-- The END of a frame item: it leaves its port queue (R159). -/
def Device.itemSent (d : Device) (p : OutPort) : Device :=
  if d.itemOnLane p then
    (d.setPort p { d.port p with queue := (d.port p).queue.tail }).clearLane p
  else d

/-- The END of an answer: it leaves the answer queue (R173). -/
def Device.answerSent (d : Device) : Device :=
  if d.laneA.any fun l => l.source == .answer then { d with answers := d.answers.tail, laneA := none } else d

/-- The END of a pass-through packet: it leaves the pass-through queue (R16). -/
def Device.passThroughSent (d : Device) : Device :=
  if d.laneA.any fun l => l.source == .passThrough then { d with passThrough := d.passThrough.tail, laneA := none }
  else d

/-- The END of a forwarded request: it leaves the upstream queue (R19). -/
def Device.upstreamSent (d : Device) : Device :=
  if d.laneU.isSome then { d with upstream := d.upstream.tail, laneU := none } else d

end Sys2Proof.Machine
end

