-- ==== Sys2Proof/Machine/LineStore.lean ====
section
/-! DEFINITION. The line store (chapter 4): store, release, free-all and fetch. -/

namespace Sys2Proof.Machine

/-- A slot freed where it holds a row of the frame that satisfies `p`. -/
def freeWhere (frame : Nat) (p : Nat → Bool) (slot : Option StoredRow) : Option StoredRow :=
  match slot with
  | some r => if r.frame == frame && p r.row then none else some r
  | none => none

/-- Free slots, as reported (R68). -/
def Device.freeSlots (d : Device) : Nat :=
  d.slots.toList.countP Option.isNone

/-- Damaged slots, as reported: held slots with the crc_bad mark (R68). -/
def Device.damagedSlots (d : Device) : Nat :=
  d.slots.toList.countP fun slot => slot.any StoredRow.crcBad

/-- The lowest-numbered free slot (R66). -/
def Device.lowestFree (d : Device) : Option Nat :=
  d.slots.toList.findIdx? Option.isNone

/-- A context of this name is in the frame queue. -/
def Device.hasFrame (d : Device) (frame : Nat) : Bool :=
  d.frames.any fun c => c.id == frame

/-- The context of this name changed by `f`. -/
def Device.onFrame (d : Device) (frame : Nat) (f : FrameContext → FrameContext) : Device :=
  { d with frames := d.frames.map fun c => if c.id == frame then f c else c }

/-- A store request taken: into the lowest free slot (R69), dropped for overrun (R70), or discarded where its context has
left (R71). -/
def Device.storeRow (d : Device) (r : StoredRow) : Device :=
  if d.hasFrame r.frame then
    match d.lowestFree with
    | some i =>
      { d with slots := d.slots.setIfInBounds i (some r) }.onFrame r.frame
        fun c => { c with rowsStored := satAdd c.rowsStored 1 }
    | none => (((d.onFrame r.frame FrameContext.setOverrun).bump .rowsOverrun).raise .overrun)
  else d

/-- The line store takes the store request on its way, if there is one (R69 to R72). -/
def Device.takeStoreRequest (d : Device) : Device :=
  match d.storeReq with
  | none => d
  | some r => { d with storeReq := none }.storeRow r

/-- A release for a frame: its slots of row `bound` or less are freed; a negative bound frees none (R73). -/
def Device.release (d : Device) (frame : Nat) (bound : Int) : Device :=
  { d with slots := d.slots.map (freeWhere frame fun row => decide ((row : Int) ≤ bound)) }

/-- A free-all for a frame (R74). -/
def Device.freeAll (d : Device) (frame : Nat) : Device :=
  { d with slots := d.slots.map (freeWhere frame fun _ => true) }

/-- Every slot freed (R79). -/
def Device.freeEverySlot (d : Device) : Device :=
  { d with slots := Vector.replicate 384 none }

/-! ## Fetching (R75 to R77) -/

/-- The rows a frame holds in slots, by slot number: its row list without its order (R67). -/
def heldRows (slots : List (Option StoredRow)) (frame : Nat) : List StoredRow :=
  slots.filterMap fun slot => slot.filter fun r => r.frame == frame

/-- The lower bound of a line's window (R75). -/
def windowLow (c : FrameContext) (y : Nat) : Nat :=
  y - (c.reachUp + 2)

/-- The upper bound of a line's window (R75). -/
def windowHigh (c : FrameContext) (y : Nat) : Nat :=
  min (c.geometry.height - 1) (y + c.reachDown + 2)

/-- The distance of two rows. -/
def rowDistance (j k : Nat) : Nat :=
  (j - k) + (k - j)

/-- Row `i` stands before row `j` as a substitute for row `k`: it is nearer, or as near and above (R76). -/
def betterSubstitute (k i j : Nat) : Bool :=
  rowDistance i k < rowDistance j k || (rowDistance i k == rowDistance j k && i < j)

/-- The better of the substitute found so far and one more row (R76). -/
def pickSubstitute (k : Nat) (best : Option StoredRow) (r : StoredRow) : Option StoredRow :=
  match best with
  | none => some r
  | some b => if betterSubstitute k r.row b.row then some r else some b

/-- The answer to a fetch for a whole row: the held row, a substitute row, or the fill value in every column. -/
inductive Fetched where
  | held (samples : List Sample)
  | substituted (samples : List Sample)
  | filled (value : Sample)
  deriving DecidableEq, Repr

/-- A fetch for row `k` of the frame while line `y` is computed (R75 to R77). -/
def fetchRow (rows : List StoredRow) (c : FrameContext) (y k : Nat) : Fetched :=
  match rows.find? fun r => r.row == k with
  | some r => .held r.samples
  | none =>
    let candidates := rows.filter fun r =>
      r.row % 2 == k % 2 && windowLow c y ≤ r.row && r.row ≤ windowHigh c y
    match candidates.foldl (pickSubstitute k) none with
    | some r => .substituted r.samples
    | none => .filled c.geometry.fill

/-- The answer's sample at a column. -/
def Fetched.at (f : Fetched) (column : Nat) : Sample :=
  match f with
  | .held samples => samples.getD column 0
  | .substituted samples => samples.getD column 0
  | .filled value => value

/-- The answer is marked substituted (R76, R77). -/
def Fetched.isSubstituted : Fetched → Bool
  | .held _ => false
  | .substituted _ => true
  | .filled _ => true

end Sys2Proof.Machine
end

