-- ==== Sys2Proof/Machine/FrameQueue.lean ====
section
/-! DEFINITION. The frame queue (chapter 3): frame heads, rows, lens notes, frame tails, and the close. -/

namespace Sys2Proof.Machine

/-! ## Frame head taken (R45 to R49) -/

/-- A record with its row clamped to H - 1 (R47, R57). -/
def LensRecord.clampRow (r : LensRecord) (height : Nat) : LensRecord :=
  { r with row := min r.row (height - 1) }

/-- A held lens state aged by one frame head, stopping at 255 (R44, R46). -/
def HeldLens.aged (h : HeldLens) : HeldLens :=
  { h with age := min 255 (h.age + 1) }

/-- The first note of a new context: its note list, the INHERITED flag, and the held lens state it leaves (R47). -/
structure FirstNote where
  notes : List Note
  inherited : Bool
  held : Option HeldLens
  deriving DecidableEq, Repr

/-- The choice of the first note (R47), on the held lens state as aged by R46. -/
def firstNote (embedded : Option LensRecord) (held : Option HeldLens) (staleLimit height : Nat) : FirstNote :=
  match embedded with
  | some r => ⟨[⟨r.clampRow height, false⟩], false, some ⟨r.clampRow height, 0⟩⟩
  | none =>
    match held with
    | some h =>
      if h.age ≤ staleLimit then ⟨[⟨{ h.record with row := 0 }, true⟩], true, held⟩ else ⟨[], false, held⟩
    | none => ⟨[], false, none⟩

/-- The identity of a frame: its first note's (R47). -/
def FirstNote.identity (n : FirstNote) : Option Identity :=
  n.notes.head?.map fun note => note.record.identity

/-- The binding asked for at the head: none in PASS or without an identity, else the lookup's answer (R48, R98). -/
def bindingFor (profiles : Vector Entry 8) (mode : Mode) (identity : Option Identity) : Option (Fin 8) :=
  match mode with
  | .pass => none
  | _ => identity.bind (lookupEntry profiles)

/-- The reach a context takes from its bound entry, 0/0 without one (R48). -/
def reachFor (profiles : Vector Entry 8) (entry : Option (Fin 8)) : Nat × Nat :=
  match entry.bind fun e => profiles[e].profile? with
  | some p => (p.reachUp, p.reachDown)
  | none => (0, 0)

/-- A context is created: settings, first note, binding, credits (R34, R46 to R49).  The frame is UNPROFILED when its mode
corrects and it is not bound. -/
def Device.createContext (d : Device) (tag : BitVec 16) (group : Fin 8) (embedded : Option LensRecord) : Device :=
  let mode := d.pendingMode.getD d.mode
  let first := firstNote embedded (d.heldLens.map HeldLens.aged) d.policy.staleLimit d.geometry.height
  let entry := bindingFor d.profiles mode first.identity
  let reach := reachFor d.profiles entry
  let unprofiled := mode != .pass && entry.isNone
  let members := d.routes[group]
  let answerA := d.creditAnswer .a members.a d.geometry
  let answerB := d.creditAnswer .b members.b d.geometry
  let context : FrameContext :=
    { id := d.nextFrame
      tag := tag
      group := group
      mode := mode
      geometry := d.geometry
      policy := d.policy
      identity := first.identity
      entry := entry
      reachUp := reach.1
      reachDown := reach.2
      deliveryA := answerA
      deliveryB := answerB
      notes := first.notes
      input := .filling
      front := none
      nextLine := 0
      band := none
      firstBand := none
      lastBand := none
      rowsStored := 0
      rowsMissing := 0
      crcErrors := 0
      linesReachClamp := 0
      linesScaleClamp := 0
      linesSubstituted := 0
      lateNotes := 0
      flags := { FrameFlags.clear with unprofiled := unprofiled, inherited := first.inherited } }
  let d :=
    { d with
      mode := mode
      pendingMode := none
      heldLens := first.held
      receiver := .filling
      frames := d.frames ++ [context]
      nextFrame := d.nextFrame + 1 }
  let d := match entry with
    | some e => d.onEntry e Entry.bind
    | none => d
  let d := if unprofiled then d.bump .framesUnprofiled else d
  (d.afterCredit .a answerA).afterCredit .b answerB

/-- A head refused because two contexts are held (R45 case 2); an embedded note is held as taken (log entry 9). -/
def Device.refuseHead (d : Device) (embedded : Option LensRecord) : Device :=
  let d := { d with
    receiver := .discarding
    heldLens := match embedded with
      | some r => some ⟨r, 0⟩
      | none => d.heldLens }
  (d.bump .framesDropped).raise .drop

/-- A head ends the filling context's input short, with SYNC (R45 case 1). -/
def Device.endBySync (d : Device) : Device :=
  match d.filling? with
  | none => d
  | some _ => ((d.onFilling FrameContext.setSync).endInput true |>.bump .frameSync).raise .sync

/-- A frame head taken (R45). -/
def Device.takeHead (d : Device) (tag : BitVec 16) (group : Fin 8) (embedded : Option LensRecord) : Device :=
  let d := d.endBySync
  if Config.maxFrames ≤ d.frames.length then d.refuseHead embedded else d.createContext tag group embedded

/-! ## Rows (R50 to R54) -/

/-- Row `r` is not above the front; with the front absent every row is above it (R51). -/
def FrameContext.notAbove (c : FrameContext) (r : Nat) : Bool :=
  c.front.any fun f => r ≤ f

/-- The rows of the gap that row `r` opens: r - front - 1, or r with the front absent (R52). -/
def FrameContext.gap (c : FrameContext) (r : Nat) : Nat :=
  c.front.elim r fun f => r - f - 1

/-- The row is dropped: its CRC is bad and the context's policy is DROP (R53). -/
def FrameContext.drops (c : FrameContext) (crcBad : Bool) : Bool :=
  crcBad && c.policy.crc == .drop

/-- The samples of a row brought to the context's width (R54). -/
def FrameContext.fitRow (c : FrameContext) (samples : List Sample) : List Sample :=
  samples.take c.geometry.width ++ List.replicate (c.geometry.width - samples.length) c.geometry.fill

/-- The context after a row that R51 lets pass: gap, CRC errors, front (R52 to R54). -/
def FrameContext.afterRow (c : FrameContext) (r : Nat) (crcBad : Bool) : FrameContext :=
  { c with
    rowsMissing := satAdd c.rowsMissing (c.gap r + if c.drops crcBad then 1 else 0)
    crcErrors := satAdd c.crcErrors (if crcBad then 1 else 0)
    front := some r }

/-- A row that R51 lets pass (R52 to R54): counters, front, and the store request of a row to be stored. -/
def Device.acceptRow (d : Device) (c : FrameContext) (r : Nat) (samples : List Sample) (crcBad : Bool) : Device :=
  let d := d.onFilling (·.afterRow r crcBad)
  let d := d.bump .rowsMissing (c.gap r + if c.drops crcBad then 1 else 0)
  let d := if crcBad then d.bump .rowsCrc else d
  if c.drops crcBad then d
  else
    let d := if samples.length = c.geometry.width then d else d.bump .rowsWidth
    { d with storeReq := some ⟨c.id, r, c.fitRow samples, crcBad⟩ }

/-- A row taken (R50 to R54). -/
def Device.takeRow (d : Device) (r : Nat) (samples : List Sample) (crcBad : Bool) : Device :=
  match d.receiver with
  | .idle => d.bump .rowsStray
  | .discarding => d.bump .rowsDropped
  | .filling =>
    match d.filling? with
    | none => d
    | some c =>
      if c.geometry.height ≤ r then d.bump .rowsRange
      else if c.notAbove r then d.bump .rowsOrder
      else d.acceptRow c r samples crcBad

/-! ## Lens notes (R55 to R58) -/

/-- A note inserted in row order, in place of a note with the same row (R57). -/
def placeNote (note : Note) : List Note → List Note
  | [] => [note]
  | n :: rest =>
    if note.record.row = n.record.row then note :: rest
    else if note.record.row < n.record.row then note :: n :: rest
    else n :: placeNote note rest

/-- The note list can take a note at this row: it replaces one, or fewer than 8 are held (R57). -/
def notePlaced (notes : List Note) (row : Nat) : Bool :=
  notes.any (fun n => n.record.row == row) || notes.length < Config.maxNotes

/-- A note at this row is late: it lies before the centre row of the current band (R58). -/
def FrameContext.isLate (c : FrameContext) (row : Nat) : Bool :=
  c.band.any fun b => row < centreRow c.geometry b.index

/-- A note of another identity than the filling context's (R56). -/
def FrameContext.mismatches (c : FrameContext) (r : LensRecord) : Bool :=
  c.identity.any fun i => i != r.identity

/-- A note that passes R56, its row clamped, against the filling context `c` (R57, R58). -/
def Device.acceptNote (d : Device) (c : FrameContext) (r : LensRecord) : Device :=
  if notePlaced c.notes r.row then
    let d := { d.onFilling (fun c => { c with notes := placeNote ⟨r, false⟩ c.notes }) with heldLens := some ⟨r, 0⟩ }
    if c.isLate r.row then (d.onFilling FrameContext.setLate).bump .lensLate else d
  else d.bump .lensOverflow

/-- A lens note taken (R55 to R58). -/
def Device.takeNote (d : Device) (r : LensRecord) : Device :=
  match d.receiver with
  | .filling =>
    match d.filling? with
    | none => d
    | some c =>
      if c.mismatches r then (d.onFilling FrameContext.setMismatch).bump .lensMismatch
      else d.acceptNote c (r.clampRow c.geometry.height)
  | _ => { d with heldLens := some ⟨r, 0⟩ }

/-! ## Frame tail (R59) -/

/-- A frame tail taken (R59). -/
def Device.takeTail (d : Device) (tag : BitVec 16) : Device :=
  match d.receiver with
  | .idle => d
  | .discarding => { d with receiver := .idle }
  | .filling =>
    match d.filling? with
    | none => d
    | some c =>
      if c.tag = tag then d.endInput false
      else ((d.onFilling FrameContext.setSync).bump .frameSync).raise .sync

/-! ## Close (R61, R62) -/

/-- The report of a context (R62). -/
def FrameContext.report (c : FrameContext) : Report where
  tag := c.tag
  mode := c.mode
  entry := c.entry
  identity := c.identity
  flags := c.flags
  firstBand := c.firstBand
  lastBand := c.lastBand
  rowsStored := c.rowsStored
  rowsMissing := c.rowsMissing
  crcErrors := c.crcErrors
  linesReachClamp := c.linesReachClamp
  linesScaleClamp := c.linesScaleClamp
  linesSubstituted := c.linesSubstituted
  lateNotes := c.lateNotes
  deliveryA := c.deliveryA
  deliveryB := c.deliveryB

/-- The head frame `c`, its input ended, leaves the part: report, queue, unbinding, free-all (R61 steps 2 to 5). -/
def Device.closeEnded (d : Device) (c : FrameContext) (rest : List FrameContext) : Device :=
  let d := (d.placeReport c .a c.report).placeReport c .b c.report
  ({ d with frames := rest }.unbindContext c).freeAll c.id

/-- The head frame's input, where it is still FILLING, ends by close (R61 step 1). -/
def Device.endBeforeClose (d : Device) : Device :=
  match d.frames with
  | c :: _ => if c.isFilling then d.endInput false else d
  | [] => d

/-- The close of the head frame (R61). -/
def Device.close (d : Device) : Device :=
  match d.endBeforeClose.frames with
  | c :: rest => d.endBeforeClose.closeEnded c rest
  | [] => d.endBeforeClose

end Sys2Proof.Machine
end

