-- ==== Sys2Proof/Machine/Link.lean ====
section
/-! DEFINITION. The pixel link (chapter 1): receiving, sorting, link events, and the meanings of the commands that
arrive on lanes, links and pins. -/

namespace Sys2Proof.Machine

/-! ## Receiving (R1, R4, R6, R15, R17) -/

/-- A damaged packet: HEADER_BAD and the alert flag HEADER (R1, R4, R6). -/
def Device.headerBad (d : Device) : Device :=
  (d.bump .headerBad).raise .header

/-- A checked packet from port U sorted by its kind (R15).  The store request on its way is taken first: the packet waits
for it (R72). -/
def Device.sortU (d : Device) (p : Packet) : Device :=
  let d := d.takeStoreRequest
  match p.kind.toNat with
  | 1 => d.takeHead p.field (routeGroup p.payload) (embeddedNote p.payload)
  | 2 => d.takeRow p.field.toNat (unpackRow (rowSampleBytes p.payload)) (rowCrcBad p.field p.payload)
  | 3 => d.takeNote (lensRecord p.field.toNat p.payload)
  | 4 => d.takeTail p.field
  | _ => d.joinPassThrough p

/-- A checked packet on port A's reverse lane: a service request is taken by its node address, any other packet is refused
(R17, R171). -/
def Device.sortA (d : Device) (p : Packet) : Device :=
  if p.kind = 9 then
    if p.node = d.node then d.joinCommands p else d.joinUpstream p
  else d.bump .serviceForeign

/-- A checked packet on a receiving lane (R15, R17). -/
def Device.sortPacket (d : Device) (lane : LinkPort) (p : Packet) : Device :=
  match lane with
  | .u => d.sortU p
  | .a => d.sortA p
  | .b => d.bump .serviceForeign

/-- A packet whose header passed the check: malformed, or sorted (R6). -/
def Device.checkedPacket (d : Device) (lane : LinkPort) (h : Header) (payload : List Byte) : Device :=
  if malformed lane h payload then d.headerBad else d.sortPacket lane (h.packet payload)

/-- A packet completed on a receiving lane (R4). -/
def Device.receivePacket (d : Device) (lane : LinkPort) (bytes : List Byte) : Device :=
  match checkHeader bytes with
  | .clean h => d.checkedPacket lane h (bytes.drop 6)
  | .corrected h => (d.bump .headerFixed).checkedPacket lane h (bytes.drop 6)
  | .uncorrectable => d.headerBad

/-- A flow symbol on a receiving lane: handed to its port on the reverse lanes, ignored on port U's forward lane (R1, R18). -/
def Device.flowSymbol (d : Device) (lane : LinkPort) (f : Port → Port) : Device :=
  match lane with
  | .u => d
  | .a => d.flow .a f
  | .b => d.flow .b f

/-- What one symbol brings about beyond the open packet (R1). -/
def Device.symbolEffect (d : Device) (lane : LinkPort) (sym : Symbol) (e : LaneEvent) : Device :=
  match e, sym with
  | .completed bytes, _ => d.receivePacket lane bytes
  | .abandoned, _ => d.headerBad
  | .nothing, .credit => d.flowSymbol lane Port.credit
  | .nothing, .hold => d.flowSymbol lane Port.hold
  | .nothing, .resume => d.flowSymbol lane Port.resume
  | .nothing, _ => d

/-- One symbol read on a lane whose link is UP (R1). -/
def Device.takeSymbol (d : Device) (lane : LinkPort) (sym : Symbol) : Device :=
  let r := readSymbol (d.opened lane) sym
  (d.setOpened lane r.1).symbolEffect lane sym r.2

/-- The symbols that arrive on a lane, one by one; on a link that is not UP they carry no packets and no flow symbols
(R1, R18). -/
def Device.takeSymbols (d : Device) (lane : LinkPort) (syms : List Symbol) : Device :=
  if d.link lane = .up then syms.foldl (fun d sym => d.takeSymbol lane sym) d else d

/-! ## Link events (R20) -/

/-- Lane lock: a DOWN link moves to ALIGNING; disregarded on port B where it is not fitted (R20). -/
def Device.laneLock (d : Device) (p : LinkPort) : Device :=
  if p = .b && !d.portBFitted then d
  else if d.link p = .down then d.setLink p .aligning else d

/-- Alignment done: an ALIGNING link moves to UP, and a delivery port starts with credits 0, released and an empty queue
(R20, R167). -/
def Device.alignmentDone (d : Device) (p : LinkPort) : Device :=
  if d.link p = .aligning then
    match p with
    | .u => d.setLink .u .up
    | .a => (d.setPort .a d.portA.fresh).setLink .a .up
    | .b => (d.setPort .b d.portB.fresh).setLink .b .up
  else d

/-- The effects of a loss of a port's link (R20, R60, R167). -/
def Device.loseLink (d : Device) (p : LinkPort) : Device :=
  match p with
  | .u => { ({ d with openU := none, laneU := none }.endInput true) with receiver := .idle }
  | .a => { d with openA := none }.losePort .a
  | .b => { d with openB := none }.losePort .b

/-- Lane loss: an ALIGNING or UP link goes DOWN, with LINK_LOSS, the alert flag LINK and the effects on the port; a DOWN
link stays (R20). -/
def Device.laneLoss (d : Device) (p : LinkPort) : Device :=
  if d.link p = .down then d
  else (((d.loseLink p).setLink p .down).bump .linkLoss).raise .link

/-! ## The reset pin (R21, R187, R188) -/

/-- The part reset with given straps (R188): every block takes its value after part reset.  Two pieces of the model's own
bookkeeping pass through it: the names of contexts go on counting, and a store request on its way stays on its way, to be
discarded when it is taken (R71). -/
def Device.partReset (d : Device) (node : BitVec 3) (portBFitted : Bool) : Device :=
  { Device.afterReset node portBFitted with nextFrame := d.nextFrame, storeReq := d.storeReq }

/-- RST goes low: the sending lanes carry IDLE, so a packet on one is cut off (R21).  The part reset runs at the release. -/
def Device.holdReset (d : Device) : Device :=
  { d with resetHeld := true, laneU := none, laneA := none, laneB := none }

/-! ## The meanings -/

/-- A command's effect on the part: none while RST is held low (R21, R188). -/
def act (f : Device → Device) (s : State) : Host.Outcome State Fault Refusal :=
  .next (if s.device.resetHeld then s else { s with device := f s.device })

/-- PACKET_ABANDONED (R1). -/
def execPacketAbandoned (lane : LinkPort) (syms : List Symbol) (s : State) : Host.Outcome State Fault Refusal :=
  act (·.takeSymbols lane syms) s

/-- UNCORRECTABLE_HEADER (R4). -/
def execUncorrectableHeader (lane : LinkPort) (syms : List Symbol) (s : State) : Host.Outcome State Fault Refusal :=
  act (·.takeSymbols lane syms) s

/-- FRAME_HEAD_TAKEN (R45): the symbols of a packet on port U's forward lane. -/
def execFrameHeadTaken (syms : List Symbol) (s : State) : Host.Outcome State Fault Refusal :=
  act (·.takeSymbols .u syms) s

/-- ROW_TAKEN (R50 to R54). -/
def execRowTaken (syms : List Symbol) (s : State) : Host.Outcome State Fault Refusal :=
  act (·.takeSymbols .u syms) s

/-- LENS_NOTE_TAKEN (R55 to R58). -/
def execLensNoteTaken (syms : List Symbol) (s : State) : Host.Outcome State Fault Refusal :=
  act (·.takeSymbols .u syms) s

/-- FRAME_TAIL_TAKEN (R59). -/
def execFrameTailTaken (syms : List Symbol) (s : State) : Host.Outcome State Fault Refusal :=
  act (·.takeSymbols .u syms) s

/-- PASS_THROUGH_PACKET (R16). -/
def execPassThroughPacket (syms : List Symbol) (s : State) : Host.Outcome State Fault Refusal :=
  act (·.takeSymbols .u syms) s

/-- SERVICE_REQUEST_RECEIVED (R171): the symbols of a packet on port A's reverse lane. -/
def execServiceRequestReceived (syms : List Symbol) (s : State) : Host.Outcome State Fault Refusal :=
  act (·.takeSymbols .a syms) s

/-- REVERSE_PACKET_REFUSED (R17). -/
def execReversePacketRefused (port : OutPort) (syms : List Symbol) (s : State) : Host.Outcome State Fault Refusal :=
  act (·.takeSymbols port.link syms) s

/-- CREDIT (R156). -/
def execCredit (port : OutPort) (s : State) : Host.Outcome State Fault Refusal :=
  act (·.flow port Port.credit) s

/-- HOLD (R160). -/
def execHold (port : OutPort) (s : State) : Host.Outcome State Fault Refusal :=
  act (·.flow port Port.hold) s

/-- RESUME (R160). -/
def execResume (port : OutPort) (s : State) : Host.Outcome State Fault Refusal :=
  act (·.flow port Port.resume) s

/-- LANE_LOCK (R20). -/
def execLaneLock (port : LinkPort) (s : State) : Host.Outcome State Fault Refusal :=
  act (·.laneLock port) s

/-- ALIGNMENT_DONE (R20). -/
def execAlignmentDone (port : LinkPort) (s : State) : Host.Outcome State Fault Refusal :=
  act (·.alignmentDone port) s

/-- LANE_LOSS (R20). -/
def execLaneLoss (port : LinkPort) (s : State) : Host.Outcome State Fault Refusal :=
  act (·.laneLoss port) s

/-- RESET_PIN_ASSERTED (R21). -/
def execResetPinAsserted (s : State) : Host.Outcome State Fault Refusal :=
  act Device.holdReset s

/-- RESET_RELEASE (R188): the part reset, with the straps latched from the pins.  It is the one command taken while RST is
held low. -/
def execResetRelease (nodePins : BitVec 3) (attnHigh : Bool) (s : State) : Host.Outcome State Fault Refusal :=
  .next { s with device := s.device.partReset nodePins attnHigh }

end Sys2Proof.Machine
end

