-- ==== Sys2Proof/Machine/Sample.lean ====
section
/-! DEFINITION. Sample arithmetic (chapter 8): the value of one output site, and of a line. -/

namespace Sys2Proof.Machine

/-- The four colours of the mosaic (R134). -/
inductive Colour where
  | r | gr | gb | b
  deriving DecidableEq, Repr

/-- The colour whose origin is (px, py) under a phase (R134). -/
def colourAt : BayerPhase → (px py : Nat) → Colour
  | .rggb, 0, 0 => .r
  | .rggb, _, 0 => .gr
  | .rggb, 0, _ => .gb
  | .rggb, _, _ => .b
  | .grbg, 0, 0 => .gr
  | .grbg, _, 0 => .r
  | .grbg, 0, _ => .b
  | .grbg, _, _ => .gb
  | .gbrg, 0, 0 => .gb
  | .gbrg, _, 0 => .b
  | .gbrg, 0, _ => .r
  | .gbrg, _, _ => .gr
  | .bggr, 0, 0 => .b
  | .bggr, _, 0 => .gb
  | .bggr, 0, _ => .gr
  | .bggr, _, _ => .r

/-- The colour terms c0 and c1 of a colour (R139). -/
def BandSet.colourTerms (s : BandSet) : Colour → Int × Int
  | .r => (s.redC0, s.redC1)
  | .gr => (0, 0)
  | .gb => (0, 0)
  | .b => (s.blueC0, s.blueC1)

/-- The radius term (R138). -/
def radiusTerm (rref : Nat) (dx dy : Int) : Int :=
  min 262144 (65536 * (dx * dx + dy * dy) / (64 * (rref : Int)) ^ 2)

/-- The floored exact scale (R140). -/
def flooredScale (s : BandSet) (terms : Int × Int) (rho : Int) : Int :=
  65536 + terms.1 + ((s.k1 + terms.2) * rho * 65536 ^ 2 + s.k2 * rho ^ 2 * 65536 + s.k3 * rho ^ 3) / 65536 ^ 3

/-- A value limited to a range. -/
def limit (lo hi v : Int) : Int :=
  max lo (min hi v)

/-- The quotient `n / d` rounded to the nearest integer, halves away from zero, for a positive `d` (R142). -/
def roundHalfAway (n d : Int) : Int :=
  if 0 ≤ n then (2 * n + d) / (2 * d) else -((2 * -n + d) / (2 * d))

/-- The source position of a site after the reach clamp, with the site's two marks (R136 to R143). -/
structure SourcePosition where
  sx : Int
  sy : Int
  scaleClamped : Bool
  reachClamped : Bool
  deriving DecidableEq, Repr

/-- Stages 1 to 6 for the output site (x, y) (R134, R137 to R143). -/
def sourcePosition (c : FrameContext) (s : BandSet) (x y : Nat) : SourcePosition :=
  let g := c.geometry
  let dx : Int := 64 * (x : Int) - g.cx64
  let dy : Int := 64 * (y : Int) - g.cy64
  let floored := flooredScale s (s.colourTerms (colourAt g.phase (x % 2) (y % 2))) (radiusTerm g.rref dx dy)
  let scale := limit 32768 131071 floored
  let sy := g.cy64 + roundHalfAway (dy * scale) 65536
  let sy' := limit (64 * ((y : Int) - c.reachUp)) (64 * ((y : Int) + c.reachDown)) sy
  { sx := g.cx64 + roundHalfAway (dx * scale) 65536
    sy := sy'
    scaleClamped := floored != scale
    reachClamped := sy != sy' }

/-- A position code, limited to 0..16383 (R144). -/
def positionCode (displacement : Int) : Sample :=
  BitVec.ofInt 14 (limit 0 16383 (8192 + displacement))

/-- A neighbour of non-zero weight: weight in 1024ths and lattice indices (R146). -/
structure Neighbour where
  weight : Nat
  column : Int
  row : Int
  deriving DecidableEq, Repr

/-- The lattice index and the fraction, in thirty-seconds of a step, of a coordinate along one axis, for a colour origin
of parity `p` (R145). -/
def latticeCell (position : Int) (p : Nat) : Int × Nat :=
  let a := position - 64 * p
  (a / 128, ((a % 128) / 4).toNat)

/-- The neighbours that take part in a site: those of non-zero weight (R146). -/
def neighbours (u v : Int × Nat) : List Neighbour :=
  [ (⟨(32 - u.2) * (32 - v.2), u.1, v.1⟩ : Neighbour),
    ⟨u.2 * (32 - v.2), u.1 + 1, v.1⟩,
    ⟨(32 - u.2) * v.2, u.1, v.1 + 1⟩,
    ⟨u.2 * v.2, u.1 + 1, v.1 + 1⟩ ].filter fun n => n.weight != 0

/-- A neighbour lies inside the image (R147). -/
def Neighbour.inside (n : Neighbour) (g : Geometry) : Bool :=
  decide (0 ≤ n.column) && decide (n.column ≤ (g.width / 2 : Nat) - 1)
    && decide (0 ≤ n.row) && decide (n.row ≤ (g.height / 2 : Nat) - 1)

/-- The value of a neighbour, and whether it sets the substitution mark: by the edge policy outside the image, and by a
fetch otherwise (R148 to R150).  `fetch` answers for a pixel row. -/
def Neighbour.sample (n : Neighbour) (g : Geometry) (px py : Nat) (fetch : Nat → Fetched) : Sample × Bool :=
  if n.inside g || g.edge == .replicate then
    let i := (limit 0 ((g.width / 2 : Nat) - 1) n.column).toNat
    let j := (limit 0 ((g.height / 2 : Nat) - 1) n.row).toNat
    let answer := fetch (2 * j + py)
    (answer.at (2 * i + px), answer.isSubstituted)
  else (g.fill, false)

/-- The weighted mean, halves upward (R151). -/
def resample (values : List (Nat × Sample)) : Sample :=
  BitVec.ofNat 14 (((values.map fun v => v.1 * v.2.toNat).sum + 512) / 1024)

/-- What a site gives: its value and its three marks (R125, R136). -/
structure SiteResult where
  value : Sample
  reachClamped : Bool
  scaleClamped : Bool
  substituted : Bool
  deriving DecidableEq, Repr

/-- The value of a site in CORRECT and PASS: stages 8 to 10 (R145 to R151). -/
def resampledSite (c : FrameContext) (fetch : Nat → Fetched) (x y : Nat) (p : SourcePosition) : Sample × Bool :=
  let px := x % 2
  let py := y % 2
  let read := (neighbours (latticeCell p.sx px) (latticeCell p.sy py)).map
    fun n => (n.weight, n.sample c.geometry px py fetch)
  (resample (read.map fun r => (r.1, r.2.1)), read.any fun r => r.2.2)

/-- The output site (x, y) by the context's mode (R136, R144, R151). -/
def site (c : FrameContext) (s : BandSet) (fetch : Nat → Fetched) (x y : Nat) : SiteResult :=
  let p := sourcePosition c s x y
  let v : Sample × Bool :=
    match c.mode with
    | .pass => resampledSite c fetch x y p
    | .correct => resampledSite c fetch x y p
    | .mapx => (positionCode (p.sx - 64 * (x : Int)), false)
    | .mapy => (positionCode (p.sy - 64 * (y : Int)), false)
  { value := v.1
    reachClamped := p.reachClamped
    scaleClamped := p.scaleClamped
    substituted := v.2 }

/-- What a line gives: its W values and its three marks (R123, R125). -/
structure LineResult where
  values : List Sample
  reachClamped : Bool
  scaleClamped : Bool
  substituted : Bool
  deriving DecidableEq, Repr

/-- The band set in force for a context; the identity set where it has no current band (R106, R110). -/
def FrameContext.bandSet (c : FrameContext) : BandSet :=
  c.band.elim .identity Band.set

/-- Line `y` of the head frame, on the rows the frame holds (R121 steps 2 and 3, R123, R125). -/
def computeLine (rows : List StoredRow) (c : FrameContext) (y : Nat) : LineResult :=
  let sites := (List.range c.geometry.width).map fun x => site c c.bandSet (fetchRow rows c y) x y
  { values := sites.map SiteResult.value
    reachClamped := sites.any SiteResult.reachClamped
    scaleClamped := sites.any SiteResult.scaleClamped
    substituted := sites.any SiteResult.substituted }

end Sys2Proof.Machine
end

