-- ==== Sys2Proof/Machine/Remap.lean ====
section
/-! DEFINITION. The remap engine (chapter 7): its condition, and the production of a line. -/

namespace Sys2Proof.Machine

/-- The engine's condition (R117). -/
inductive EngineCondition where
  | noFrame | waitInput | waitPort | ready
  deriving DecidableEq, Repr

/-- The input test for the context's next line (R118). -/
def FrameContext.inputTest (c : FrameContext) : Bool :=
  !c.isFilling || c.front.any fun f => min (c.nextLine + c.reachDown + 2) (c.geometry.height - 1) ≤ f

/-- The port test for the head frame (R119). -/
def Device.portTest (d : Device) (c : FrameContext) : Bool :=
  !(c.deliveryA.crop?.isSome && Config.portARows ≤ rowsQueued d.portA.queue)

/-- The engine's condition (R117); WAIT INPUT when both tests fail. -/
def Device.engine (d : Device) : EngineCondition :=
  match d.frames with
  | [] => .noFrame
  | c :: _ => if !c.inputTest then .waitInput else if !d.portTest c then .waitPort else .ready

/-- Step 1: the band fix at the first line of a band (R121, R122). -/
def FrameContext.atLine (c : FrameContext) (profiles : Vector Entry 8) : FrameContext :=
  if c.nextLine % c.geometry.bandHeight = 0 then c.fixBand profiles c.nextLine else c

/-- Steps 2 and 3: the line's values and marks, on the rows the frame holds (R121, R123, R125). -/
def Device.lineOf (d : Device) (c : FrameContext) : LineResult :=
  computeLine (heldRows d.slots.toList c.id) c c.nextLine

/-- Step 4: the items the ports receive (R121, R126, R163). -/
def Device.handOff (d : Device) (c : FrameContext) (values : List Sample) : Device :=
  let d := (d.handHead c .a c.nextLine).handRowA c c.nextLine values
  (d.handHead c .b c.nextLine).handRowB c c.nextLine values

/-- Steps 4, 6 and 7 in the context: port B's cut, the counts of the marks, the next output line (R121, R125, R163). -/
def FrameContext.afterLine (c : FrameContext) (line : LineResult) (cutB : Bool) : FrameContext :=
  { c with
    deliveryB := if cutB then .cut else c.deliveryB
    linesReachClamp := satAdd c.linesReachClamp line.reachClamped.toNat
    linesScaleClamp := satAdd c.linesScaleClamp line.scaleClamped.toNat
    linesSubstituted := satAdd c.linesSubstituted line.substituted.toNat
    nextLine := c.nextLine + 1 }

/-- Step 6 in the counter bank (R121, R125). -/
def Device.countMarks (d : Device) (line : LineResult) : Device :=
  (d.bump .linesReachClamp line.reachClamped.toNat).bump .linesScaleClamp line.scaleClamped.toNat

/-- The production of line y = `c.nextLine` of the head frame, up to and with the advance (R121 steps 1 to 7). -/
def Device.lineOnHead (d : Device) (c : FrameContext) (rest : List FrameContext) : Device :=
  let c := c.atLine d.profiles
  let line := d.lineOf c
  let d' := ((d.handOff c line.values).release c.id ((c.nextLine : Int) - c.reachUp - 2)).countMarks line
  { d' with frames := c.afterLine line (d.cutsB c c.nextLine) :: rest }

/-- The line-production event (R121): nothing unless the engine is READY; after line H - 1 the frame closes. -/
def Device.produceLine (d : Device) : Device :=
  if d.engine = .ready then
    match d.frames with
    | [] => d
    | c :: rest =>
      let d := d.lineOnHead c rest
      if c.nextLine + 1 = c.geometry.height then d.close else d
  else d

end Sys2Proof.Machine
end

