-- ==== Sys2Proof/Machine/Service.lean ====
section
/-! DEFINITION. The service unit (chapter 10): execution of the oldest request, the settings commands, identification and
status, counters and alerts; and the meanings of these commands, of the line store, the remap engine and the sendings. -/

namespace Sys2Proof.Machine

/-! ## Execution (R172, R174) -/

/-- What a command answers: status and results (R174). -/
structure Reply where
  status : Status
  results : List Byte
  deriving DecidableEq, Repr

/-- The answer queue has room (R172). -/
def Device.answerRoom (d : Device) : Bool :=
  d.answers.length < Config.queuePlaces

/-- An answer joins the tail of the answer queue (R172). -/
def Device.answer (d : Device) (tag code : Byte) (r : Reply) : Device :=
  { d with answers := d.answers ++ [⟨tag, code, r.status, r.results⟩] }

/-- The oldest request is executed as the command `code` (R172, R174): it leaves the command queue, the command acts, its
answer joins the answer queue.  Nothing happens where no request waits, the answer queue is full, or the oldest request
is not this command's (log entry 4).  `mine` says which arguments are this row's (log entry 7), `fits` is the length check
of R174, and `run` the command on its arguments. -/
def Device.execute (d : Device) (code : Nat) (mine fits : List Byte → Bool)
    (run : List Byte → Device → Device × Reply) : Device :=
  match d.commands with
  | [] => d
  | r :: rest =>
    match r.payload with
    | tag :: c :: args =>
      if c.toNat == code && mine args && d.answerRoom then
        let out := if fits args then run args { d with commands := rest }
          else ({ d with commands := rest }, ⟨.badLen, []⟩)
        out.1.answer tag c out.2
      else d
    | _ => d

/-- A command of a fixed argument length (R176). -/
def Device.executeFixed (d : Device) (code length : Nat) (run : List Byte → Device → Device × Reply) : Device :=
  d.execute code (fun _ => true) (fun args => args.length == length) run

/-- The codes of the command list (R176). -/
def knownCode (code : Nat) : Bool :=
  1 ≤ code && code ≤ 17

/-- Execution of a request whose body is too short for its code (BADLEN) or whose code is not in the list (UNKNOWN)
(R174). -/
def Device.executeUnknown (d : Device) : Device :=
  match d.commands with
  | [] => d
  | r :: rest =>
    if d.answerRoom then
      match r.payload with
      | [] => { d with commands := rest }.answer 0 0 ⟨.badLen, []⟩
      | [tag] => { d with commands := rest }.answer tag 0 ⟨.badLen, []⟩
      | tag :: c :: _ => if knownCode c.toNat then d else { d with commands := rest }.answer tag c ⟨.unknown, []⟩
    else d

/-- A refusal with results: nothing changes (R175). -/
def refuse (d : Device) (status : Status) (results : List Byte) : Device × Reply :=
  (d, ⟨status, results⟩)

/-- A refusal with BADARG that names one argument or field (R178). -/
def badArg (d : Device) (number : Byte) : Device × Reply :=
  refuse d .badArg [number]

/-! ## Identification, status, counters, alerts (R179 to R185) -/

/-- The results of IDENTIFY (R179). -/
def Device.identity (d : Device) : List Byte :=
  beBytes 2 Config.vendorCode ++ beBytes 2 Config.partCode ++ beBytes 1 Config.revision
    ++ [BitVec.ofNat 8 d.node.toNat, boolByte d.portBFitted]
    ++ beBytes 2 Config.lineSlots ++ beBytes 1 Config.profileEntries ++ beBytes 1 Config.maxFocalStations
    ++ beBytes 1 Config.maxFocusStations ++ beBytes 1 Config.maxNotes ++ beBytes 1 Config.maxFrames

/-- IDENTIFY (R179). -/
def runIdentify (_args : List Byte) (d : Device) : Device × Reply :=
  (d, ⟨.ok, d.identity⟩)

/-- One context in READ_STATUS: tag, input state, front or 65535, next output line (R180). -/
def FrameContext.statusBytes (c : FrameContext) : List Byte :=
  beBytes 2 c.tag.toNat ++ [c.input.code] ++ beBytes 2 (c.front.getD 65535) ++ beBytes 2 c.nextLine

/-- The held lens state in READ_STATUS (R180). -/
def heldBytes : Option HeldLens → List Byte
  | none => [0]
  | some h =>
    [1] ++ beBytes 2 h.record.row ++ beBytes 4 h.record.identity.lensId.toNat
      ++ [BitVec.ofNat 8 h.record.identity.converter.toNat]
      ++ beBytes 2 h.record.focal ++ beBytes 2 h.record.focus ++ beBytes 1 h.age

/-- Credits and hold of a port in READ_STATUS (R180). -/
def Port.statusBytes (p : Port) : List Byte :=
  [BitVec.ofNat 8 p.credits, boolByte p.held]

/-- The results of READ_STATUS (R180). -/
def Device.statusBytes (d : Device) : List Byte :=
  [d.mode.code, pendingCode d.pendingMode, d.receiver.code, BitVec.ofNat 8 d.frames.length]
    ++ d.frames.flatMap FrameContext.statusBytes
    ++ beBytes 2 d.freeSlots ++ beBytes 2 d.damagedSlots
    ++ heldBytes d.heldLens
    ++ [d.linkU.code, d.portA.link.code, d.portB.link.code]
    ++ d.portA.statusBytes ++ d.portB.statusBytes
    ++ [d.alerts.setWidth 8, d.alertEnable.setWidth 8]

/-- READ_STATUS (R180). -/
def runReadStatus (_args : List Byte) (d : Device) : Device × Reply :=
  (d, ⟨.ok, d.statusBytes⟩)

/-- The pairs of READ_COUNTERS: number and value (R182). -/
def counterPairs (counters : Vector (BitVec 16) 26) : List Byte :=
  counters.toList.zipIdx.flatMap fun c => BitVec.ofNat 8 (c.2 + 1) :: beBytes 2 c.1.toNat

/-- Every counter 0 (R182, R186). -/
def Device.zeroCounters (d : Device) : Device :=
  { d with counters := Vector.replicate 26 0 }

/-- READ_COUNTERS (R182). -/
def runReadCounters (args : List Byte) (d : Device) : Device × Reply :=
  let clear := args.headD 0
  if 1 < clear.toNat then badArg d 1
  else (if clear = 1 then d.zeroCounters else d, ⟨.ok, 26 :: counterPairs d.counters⟩)

/-- CLEAR_ALERTS (R184). -/
def runClearAlerts (args : List Byte) (d : Device) : Device × Reply :=
  let mask := args.headD 0
  if maskFits mask then
    let after := d.alerts &&& ~~~(mask.setWidth 6)
    ({ d with alerts := after }, ⟨.ok, [after.setWidth 8]⟩)
  else badArg d 1

/-- SET_ALERTS (R185). -/
def runSetAlerts (args : List Byte) (d : Device) : Device × Reply :=
  let mask := args.headD 0
  if maskFits mask then ({ d with alertEnable := mask.setWidth 6 }, ⟨.ok, [mask]⟩) else badArg d 1

/-! ## Modes and geometry (R25, R26, R29, R30, R33) -/

/-- A requested mode is admitted against the reference mode (R25). -/
def modeAdmitted (reference requested : Mode) : Bool :=
  requested == reference || reference == .pass || requested == .pass

/-- The reference mode: the pending mode when present, else the current mode (R25). -/
def Device.referenceMode (d : Device) : Mode :=
  d.pendingMode.getD d.mode

/-- The results of every SET_MODE answer: current mode and pending mode (R26). -/
def Device.modeResults (d : Device) : List Byte :=
  [d.mode.code, pendingCode d.pendingMode]

/-- SET_MODE (R26). -/
def runSetMode (args : List Byte) (d : Device) : Device × Reply :=
  match Mode.ofCode (args.headD 0) with
  | none => (d, ⟨.badArg, d.modeResults⟩)
  | some m =>
    if modeAdmitted d.referenceMode m then
      let d := { d with pendingMode := if m = d.mode then none else some m }
      (d, ⟨.ok, d.modeResults⟩)
    else (d, ⟨.wrongMode, d.modeResults⟩)

/-- The nine fields of a SET_GEOMETRY as sent (R176). -/
structure GeometryFields where
  width : Nat
  height : Nat
  phase : Nat
  cx64 : Nat
  cy64 : Nat
  rref : Nat
  edge : Nat
  fill : Nat
  bandHeight : Nat
  deriving DecidableEq, Repr

/-- The fields in the 19 argument bytes (R176). -/
def GeometryFields.ofBytes (args : List Byte) : GeometryFields where
  width := fieldAt args 0 2
  height := fieldAt args 2 2
  phase := fieldAt args 4 1
  cx64 := fieldAt args 5 4
  cy64 := fieldAt args 9 4
  rref := fieldAt args 13 2
  edge := fieldAt args 15 1
  fill := fieldAt args 16 2
  bandHeight := fieldAt args 18 1

/-- The number of the first field out of range (R30). -/
def GeometryFields.firstBad (g : GeometryFields) : Option Byte :=
  if g.width < 64 || 8192 < g.width || g.width % 16 != 0 then some 1
  else if g.height < 64 || 16382 < g.height || g.height % 2 != 0 then some 2
  else if 3 < g.phase then some 3
  else if 64 * g.width - 1 < g.cx64 then some 4
  else if 64 * g.height - 1 < g.cy64 then some 5
  else if g.rref = 0 || 8191 < g.rref then some 6
  else if 1 < g.edge then some 7
  else if 16383 < g.fill then some 8
  else if g.bandHeight != 16 && g.bandHeight != 32 && g.bandHeight != 64 && g.bandHeight != 128 then some 9
  else none

/-- The phase of a code (R28). -/
def BayerPhase.ofCode (code : Nat) : BayerPhase :=
  match code with
  | 0 => .rggb
  | 1 => .grbg
  | 2 => .gbrg
  | _ => .bggr

/-- The geometry of checked fields (R28). -/
def GeometryFields.geometry (g : GeometryFields) : Geometry where
  width := g.width
  height := g.height
  phase := BayerPhase.ofCode g.phase
  cx64 := g.cx64
  cy64 := g.cy64
  rref := g.rref
  edge := if g.edge = 0 then .replicate else .fill
  fill := BitVec.ofNat 14 g.fill
  bandHeight := g.bandHeight

/-- SET_GEOMETRY is admitted: current mode PASS, and nothing or PASS pending (R29). -/
def Device.geometryAdmitted (d : Device) : Bool :=
  d.mode == .pass && (d.pendingMode == none || d.pendingMode == some .pass)

/-- SET_GEOMETRY (R29, R30). -/
def runSetGeometry (args : List Byte) (d : Device) : Device × Reply :=
  let g := GeometryFields.ofBytes args
  if d.geometryAdmitted then
    match g.firstBad with
    | some n => badArg d n
    | none => ({ d with geometry := g.geometry }, ⟨.ok, []⟩)
  else refuse d .wrongMode []

/-- SET_INPUT (R33). -/
def runSetInput (args : List Byte) (d : Device) : Device × Reply :=
  let crc := fieldAt args 0 1
  let stale := fieldAt args 1 1
  if 1 < crc then badArg d 1
  else if stale = 0 then badArg d 2
  else ({ d with policy := ⟨if crc = 0 then .keep else .drop, stale⟩ }, ⟨.ok, []⟩)

/-! ## Routes and ports (R153, R155) -/

/-- SET_ROUTE (R155). -/
def runSetRoute (args : List Byte) (d : Device) : Device × Reply :=
  let group := fieldAt args 0 1
  let set := fieldAt args 1 1
  if 7 < group then badArg d 1
  else if 3 < set then badArg d 2
  else ({ d with routes := d.routes.setIfInBounds group ⟨set == 1 || set == 3, set == 2 || set == 3⟩ }, ⟨.ok, []⟩)

/-- The arguments 2 to 6 of a SET_PORT as sent (R153, R176). -/
structure PortFields where
  enable : Nat
  crop : Crop
  deriving DecidableEq, Repr

/-- The fields in the ten argument bytes (R176). -/
def PortFields.ofBytes (args : List Byte) : PortFields where
  enable := fieldAt args 1 1
  crop := ⟨fieldAt args 2 2, fieldAt args 4 2, fieldAt args 6 2, fieldAt args 8 2⟩

/-- The number of the first argument of SET_PORT out of range, or in conflict (R153 checks 3 and 4). -/
def PortFields.firstBad (p : PortFields) : Option Byte :=
  if 1 < p.enable then some 2
  else if 8176 < p.crop.colBase || p.crop.colBase % 16 != 0 then some 3
  else if p.crop.colLimit < 15 || 8191 < p.crop.colLimit || (p.crop.colLimit + 1) % 16 != 0 then some 4
  else if 16380 < p.crop.rowBase || p.crop.rowBase % 2 != 0 then some 5
  else if p.crop.rowLimit < 1 || 16381 < p.crop.rowLimit || p.crop.rowLimit % 2 != 1 then some 6
  else if p.crop.colLimit < p.crop.colBase then some 4
  else if p.crop.rowLimit < p.crop.rowBase then some 6
  else none

/-- The port of a port code 0 or 1 (R153). -/
def portOfCode (code : Nat) : OutPort :=
  if code = 0 then .a else .b

/-- SET_PORT (R153). -/
def runSetPort (args : List Byte) (d : Device) : Device × Reply :=
  let code := fieldAt args 0 1
  let f := PortFields.ofBytes args
  if 1 < code then badArg d 1
  else if code = 1 && !d.portBFitted then refuse d .state []
  else match f.firstBad with
    | some n => badArg d n
    | none =>
      let p := portOfCode code
      (d.setPort p { d.port p with enable := f.enable == 1, crop := f.crop }, ⟨.ok, []⟩)

/-! ## The meanings -/

/-- STORE_REQUEST (R69 to R72). -/
def execStoreRequest (s : State) : Host.Outcome State Fault Refusal :=
  act Device.takeStoreRequest s

/-- LINE_PRODUCTION (R121). -/
def execLineProduction (s : State) : Host.Outcome State Fault Refusal :=
  act Device.produceLine s

/-- ARBITER_CHOICE (R162). -/
def execArbiterChoice (s : State) : Host.Outcome State Fault Refusal :=
  act Device.arbiterChoice s

/-- PORT_B_SEND (R161). -/
def execPortBSend (s : State) : Host.Outcome State Fault Refusal :=
  act Device.portBSend s

/-- UPSTREAM_SEND (R19). -/
def execUpstreamSend (s : State) : Host.Outcome State Fault Refusal :=
  act Device.upstreamSend s

/-- PORT_ITEM_SENT (R159). -/
def execPortItemSent (port : OutPort) (s : State) : Host.Outcome State Fault Refusal :=
  act (·.itemSent port) s

/-- ANSWER_SENT (R173). -/
def execAnswerSent (s : State) : Host.Outcome State Fault Refusal :=
  act Device.answerSent s

/-- PASS_THROUGH_SENT (R16). -/
def execPassThroughSent (s : State) : Host.Outcome State Fault Refusal :=
  act Device.passThroughSent s

/-- UPSTREAM_SENT (R19). -/
def execUpstreamSent (s : State) : Host.Outcome State Fault Refusal :=
  act Device.upstreamSent s

/-- UNKNOWN_COMMAND (R174). -/
def execUnknownCommand (s : State) : Host.Outcome State Fault Refusal :=
  act Device.executeUnknown s

/-- IDENTIFY (R179). -/
def execIdentify (s : State) : Host.Outcome State Fault Refusal :=
  act (·.executeFixed 1 0 runIdentify) s

/-- READ_STATUS (R180). -/
def execReadStatus (s : State) : Host.Outcome State Fault Refusal :=
  act (·.executeFixed 2 0 runReadStatus) s

/-- READ_COUNTERS (R182). -/
def execReadCounters (s : State) : Host.Outcome State Fault Refusal :=
  act (·.executeFixed 3 1 runReadCounters) s

/-- CLEAR_ALERTS (R184). -/
def execClearAlerts (s : State) : Host.Outcome State Fault Refusal :=
  act (·.executeFixed 4 1 runClearAlerts) s

/-- SET_ALERTS (R185). -/
def execSetAlerts (s : State) : Host.Outcome State Fault Refusal :=
  act (·.executeFixed 5 1 runSetAlerts) s

/-- SET_MODE (R26). -/
def execSetMode (s : State) : Host.Outcome State Fault Refusal :=
  act (·.executeFixed 6 1 runSetMode) s

/-- SET_GEOMETRY (R29, R30). -/
def execSetGeometry (s : State) : Host.Outcome State Fault Refusal :=
  act (·.executeFixed 7 19 runSetGeometry) s

/-- SET_INPUT (R33). -/
def execSetInput (s : State) : Host.Outcome State Fault Refusal :=
  act (·.executeFixed 8 2 runSetInput) s

/-- SET_ROUTE (R155). -/
def execSetRoute (s : State) : Host.Outcome State Fault Refusal :=
  act (·.executeFixed 9 2 runSetRoute) s

/-- SET_PORT (R153). -/
def execSetPort (s : State) : Host.Outcome State Fault Refusal :=
  act (·.executeFixed 10 10 runSetPort) s

end Sys2Proof.Machine
end

