-- ==== Sys2Proof/Machine/ProfileTable.lean ====
section
/-! DEFINITION. The profile commands (chapter 5.3, R176 to R178) and their meanings. -/

namespace Sys2Proof.Machine

/-! ## PROFILE_OPEN (R89, R177) -/

/-- The arguments of a PROFILE_OPEN as sent (R177). -/
structure OpenFields where
  entry : Nat
  lensId : BitVec 32
  converter : Nat
  focalCount : Nat
  focusCount : Nat
  focal : List Nat
  focus : List Nat
  reachUp : Nat
  reachDown : Nat
  deriving DecidableEq, Repr

/-- The fields in the argument bytes (R177). -/
def OpenFields.ofBytes (args : List Byte) : OpenFields :=
  let nf := fieldAt args 6 1
  let nd := fieldAt args 7 1
  { entry := fieldAt args 0 1
    lensId := BitVec.ofNat 32 (fieldAt args 1 4)
    converter := fieldAt args 5 1
    focalCount := nf
    focusCount := nd
    focal := halfWords nf (args.drop 8)
    focus := halfWords nd (args.drop (8 + 2 * nf))
    reachUp := fieldAt args (8 + 2 * (nf + nd)) 2
    reachDown := fieldAt args (10 + 2 * (nf + nd)) 2 }

/-- The length check of PROFILE_OPEN (R177). -/
def openFits (args : List Byte) : Bool :=
  8 ≤ args.length && args.length == 12 + 2 * (fieldAt args 6 1 + fieldAt args 7 1)

/-- The 1-based position of the first station not greater than the one before it (R89 checks 7 and 8), for a list whose
first station stands at position `pos`. -/
def stationFault : (pos : Nat) → List Nat → Option Nat
  | pos, a :: b :: rest => if b ≤ a then some (pos + 1) else stationFault (pos + 1) (b :: rest)
  | _, _ => none

/-- The profile a PROFILE_OPEN opens: every word 0 and unwritten, each reach clamped to 180 (R84, R89). -/
def OpenFields.profile (f : OpenFields) : Profile where
  identity := ⟨f.lensId, BitVec.ofNat 2 f.converter⟩
  focal := f.focal
  focus := f.focus
  words := List.replicate (f.focalCount * f.focusCount * 7) ⟨0, false⟩
  reachUp := min f.reachUp Config.maxReach
  reachDown := min f.reachDown Config.maxReach

/-- The refusal of a PROFILE_OPEN on an entry in `state`, by checks 2 to 8 in order (R89, R178). -/
def OpenFields.refusal (f : OpenFields) (e : Entry) : Option Reply :=
  if e != .empty then some ⟨.state, [e.code]⟩
  else if 3 < f.converter then some ⟨.badArg, [3, e.code]⟩
  else if f.focalCount = 0 || Config.maxFocalStations < f.focalCount then some ⟨.badArg, [4, e.code]⟩
  else if f.focusCount = 0 || Config.maxFocusStations < f.focusCount then some ⟨.badArg, [5, e.code]⟩
  else if f.focal.any (· == 0) then some ⟨.badArg, [6, e.code]⟩
  else match stationFault 1 f.focal with
    | some pos => some ⟨.badStation, [1, BitVec.ofNat 8 pos]⟩
    | none =>
      match stationFault 1 f.focus with
      | some pos => some ⟨.badStation, [2, BitVec.ofNat 8 pos]⟩
      | none => none

/-- PROFILE_OPEN (R89). -/
def runProfileOpen (args : List Byte) (d : Device) : Device × Reply :=
  let f := OpenFields.ofBytes args
  if h : f.entry < 8 then
    let e : Fin 8 := ⟨f.entry, h⟩
    match f.refusal d.profiles[e] with
    | some r => (d, r)
    | none =>
      (d.onEntry e fun _ => .loading f.profile,
        ⟨.ok, [BitVec.ofNat 8 f.entry, BitVec.ofNat 8 f.profile.reachUp, BitVec.ofNat 8 f.profile.reachDown]
          ++ beBytes 2 f.profile.words.length⟩)
  else refuse d .badArg [1, 0]

/-! ## PROFILE_WRITE (R90 to R92, R177) -/

/-- The items in a PROFILE_WRITE's argument bytes, from the fourth on (R177). -/
def itemsOf (args : List Byte) : Option (List WriteItem) :=
  writeItems args.length (args.drop 3)

/-- The length check of PROFILE_WRITE (R177). -/
def writeFits (args : List Byte) : Bool :=
  3 ≤ args.length && (itemsOf args).isSome

/-- The expanded sequence of values (R90). -/
def expand (items : List WriteItem) : List Int :=
  items.flatMap fun i => List.replicate i.count i.value

/-- A run whose count is not in 2..255 (R91 check 3). -/
def WriteItem.badCount : WriteItem → Bool
  | .literal _ => false
  | .run n _ => n < 2 || 255 < n

/-- A value lies outside the range of the place of an index (R83, R91). -/
def outOfRange (index : Nat) (value : Int) : Bool :=
  if index % 7 < 3 then value < -131071 || 131071 < value else value < -32767 || 32767 < value

/-- The number of the first item with a value out of range, and the first index where it is (R91 check 5): the items are
numbered from `number` and the first value goes to `index`. -/
def valueFault : (number index : Nat) → List WriteItem → Option (Nat × Nat)
  | _, _, [] => none
  | number, index, item :: rest =>
    match (List.range item.count).find? fun j => outOfRange (index + j) item.value with
    | some j => some (number, index + j)
    | none => valueFault (number + 1) (index + item.count) rest

/-- The values written into an array from `start` on, with their flags set (R92). -/
def writeWords (words : List CoefWord) (start : Nat) (values : List Int) : List CoefWord :=
  words.take start ++ values.map (⟨·, true⟩) ++ words.drop (start + values.length)

/-- The written count of a profile (R84). -/
def Profile.writtenCount (p : Profile) : Nat :=
  p.words.countP CoefWord.written

/-- The refusal of a PROFILE_WRITE into the array of a LOADING entry, by checks 3 to 5 in order (R91, R178). -/
def writeRefusal (words : List CoefWord) (start : Nat) (items : List WriteItem) : Option Reply :=
  match items.findIdx? WriteItem.badCount with
  | some i => some ⟨.badArg, beBytes 2 (i + 1) ++ beBytes 2 0⟩
  | none =>
    if words.length < start + (expand items).length then
      some ⟨.range, beBytes 2 words.length ++ beBytes 4 (expand items).length⟩
    else (valueFault 1 start items).map fun f => ⟨.badArg, beBytes 2 f.1 ++ beBytes 2 f.2⟩

/-- PROFILE_WRITE (R91, R92). -/
def runProfileWrite (args : List Byte) (d : Device) : Device × Reply :=
  let start := fieldAt args 1 2
  let items := (itemsOf args).getD []
  if h : fieldAt args 0 1 < 8 then
    let e : Fin 8 := ⟨fieldAt args 0 1, h⟩
    match d.profiles[e] with
    | .loading p =>
      match writeRefusal p.words start items with
      | some r => (d, r)
      | none =>
        let written := { p with words := writeWords p.words start (expand items) }
        (d.onEntry e fun _ => .loading written,
          ⟨.ok, beBytes 2 written.writtenCount ++ beBytes 2 (start + (expand items).length)⟩)
    | other => refuse d .state [other.code]
  else refuse d .badArg (beBytes 2 0 ++ beBytes 2 0)

/-! ## PROFILE_CLOSE, PROFILE_RETIRE, PROFILE_QUERY (R93, R95, R97) -/

/-- PROFILE_CLOSE (R93). -/
def runProfileClose (args : List Byte) (d : Device) : Device × Reply :=
  if h : fieldAt args 0 1 < 8 then
    let e : Fin 8 := ⟨fieldAt args 0 1, h⟩
    match d.profiles[e] with
    | .loading p =>
      match p.words.findIdx? fun w => !w.written with
      | some i => refuse d .incomplete (beBytes 2 i ++ beBytes 2 p.writtenCount)
      | none =>
        match lookupEntry d.profiles p.identity with
        | some other => refuse d .duplicate [BitVec.ofNat 8 other.val]
        | none => (d.onEntry e fun _ => .ready p 0, ⟨.ok, [BitVec.ofNat 8 e.val]⟩)
    | other => refuse d .state [other.code]
  else badArg d 1

/-- An entry withdrawn from lookup, by PROFILE_RETIRE or a profile reset (R95, R101). -/
def Entry.retire : Entry → Entry
  | .empty => .empty
  | .loading _ => .empty
  | .ready p n => if n = 0 then .empty else .retiring p n
  | .retiring p n => .retiring p n

/-- PROFILE_RETIRE (R95). -/
def runProfileRetire (args : List Byte) (d : Device) : Device × Reply :=
  if h : fieldAt args 0 1 < 8 then
    let e : Fin 8 := ⟨fieldAt args 0 1, h⟩
    let after := d.profiles[e].retire
    (d.onEntry e Entry.retire, ⟨.ok, [after.code, BitVec.ofNat 8 after.holdCount]⟩)
  else badArg d 1

/-- The results of PROFILE_QUERY for an entry (R97, R178). -/
def Entry.queryBytes (e : Entry) : List Byte :=
  match e.profile? with
  | none => List.replicate 15 0
  | some p =>
    [e.code] ++ beBytes 4 p.identity.lensId.toNat ++ [BitVec.ofNat 8 p.identity.converter.toNat]
      ++ beBytes 1 p.focal.length ++ beBytes 1 p.focus.length ++ beBytes 1 p.reachUp ++ beBytes 1 p.reachDown
      ++ beBytes 2 p.words.length ++ beBytes 2 p.writtenCount ++ beBytes 1 e.holdCount

/-- PROFILE_QUERY (R97). -/
def runProfileQuery (args : List Byte) (d : Device) : Device × Reply :=
  if h : fieldAt args 0 1 < 8 then
    let e : Fin 8 := ⟨fieldAt args 0 1, h⟩
    (d, ⟨.ok, d.profiles[e].queryBytes⟩)
  else badArg d 1

/-! ## The meanings -/

/-- PROFILE_OPEN (R89). -/
def execProfileOpen (s : State) : Host.Outcome State Fault Refusal :=
  act (·.execute 11 (fun _ => true) openFits runProfileOpen) s

/-- PROFILE_WRITE (R92). -/
def execProfileWrite (s : State) : Host.Outcome State Fault Refusal :=
  act (·.execute 12 (fun _ => true) writeFits runProfileWrite) s

/-- PROFILE_CLOSE (R93). -/
def execProfileClose (s : State) : Host.Outcome State Fault Refusal :=
  act (·.executeFixed 13 1 runProfileClose) s

/-- PROFILE_RETIRE (R95). -/
def execProfileRetire (s : State) : Host.Outcome State Fault Refusal :=
  act (·.executeFixed 14 1 runProfileRetire) s

/-- PROFILE_QUERY (R97). -/
def execProfileQuery (s : State) : Host.Outcome State Fault Refusal :=
  act (·.executeFixed 15 1 runProfileQuery) s

end Sys2Proof.Machine
end

