-- ==== Sys2Proof/Machine/Resets.lean ====
section
/-! DEFINITION. The block resets and RESET_PART (R63, R101, R166, R186, R187) and their meanings. -/

namespace Sys2Proof.Machine

/-- The reset of PIPELINE: every context removed without a report and unbound, every slot freed, the receiver IDLE, the
held lens state absent (R63, R79, R102, R131, R168). -/
def Device.resetPipeline (d : Device) : Device :=
  let d := d.frames.foldl Device.unbindContext d
  { d with frames := [], receiver := .idle, heldLens := none }.freeEverySlot

/-- The reset of PROFILES: every entry withdrawn (R101). -/
def Device.resetProfiles (d : Device) : Device :=
  { d with profiles := d.profiles.map Entry.retire }

/-- The reset of COUNTERS: every counter 0 and every alert flag clear (R186). -/
def Device.resetCounters (d : Device) : Device :=
  { d.zeroCounters with alerts := 0 }

/-- Whether a RESET_BLOCK's arguments stand under the row of block `code`: they name that block, or are refused (R174,
R186; log entry 7). -/
def blockMine (code : Nat) (args : List Byte) : Bool :=
  args.length != 1 || fieldAt args 0 1 == code || 4 < fieldAt args 0 1

/-- RESET_BLOCK on its checked argument (R186). -/
def runResetBlock (reset : Device → Device) (args : List Byte) (d : Device) : Device × Reply :=
  if 4 < fieldAt args 0 1 then badArg d 1 else (reset d, ⟨.ok, [args.headD 0]⟩)

/-- A RESET_BLOCK of one block executed (R186). -/
def Device.executeResetBlock (d : Device) (code : Nat) (reset : Device → Device) : Device :=
  d.execute 16 (blockMine code) (fun args => args.length == 1) (runResetBlock reset)

/-- RESET_PART executed (R187): with argument bytes it is refused with BADLEN, and answered when there is room; otherwise
the part reset is taken whatever the number of answers, with the straps as latched, and makes no answer. -/
def Device.executeResetPart (d : Device) : Device :=
  match d.commands with
  | [] => d
  | r :: rest =>
    match r.payload with
    | tag :: c :: args =>
      if c.toNat = 17 then
        if args.isEmpty then d.partReset d.node d.portBFitted
        else if d.answerRoom then { d with commands := rest }.answer tag c ⟨.badLen, []⟩
        else d
      else d
    | _ => d

/-! ## The meanings -/

/-- RESET_BLOCK of PIPELINE (R63). -/
def execResetBlockPipeline (s : State) : Host.Outcome State Fault Refusal :=
  act (·.executeResetBlock 0 Device.resetPipeline) s

/-- RESET_BLOCK of PROFILES (R101). -/
def execResetBlockProfiles (s : State) : Host.Outcome State Fault Refusal :=
  act (·.executeResetBlock 1 Device.resetProfiles) s

/-- RESET_BLOCK of PORT_A (R166). -/
def execResetBlockPortA (s : State) : Host.Outcome State Fault Refusal :=
  act (·.executeResetBlock 2 (·.resetPort .a)) s

/-- RESET_BLOCK of PORT_B (R166). -/
def execResetBlockPortB (s : State) : Host.Outcome State Fault Refusal :=
  act (·.executeResetBlock 3 (·.resetPort .b)) s

/-- RESET_BLOCK of COUNTERS (R186). -/
def execResetBlockCounters (s : State) : Host.Outcome State Fault Refusal :=
  act (·.executeResetBlock 4 Device.resetCounters) s

/-- RESET_PART (R187). -/
def execResetPart (s : State) : Host.Outcome State Fault Refusal :=
  act Device.executeResetPart s

end Sys2Proof.Machine
end

