-- ==== Sys2Proof/Machine/Dispatch.lean ====
section
/-! DEFINITION. exec: one arm per command, each a call of the command's meaning. -/

namespace Sys2Proof.Machine

def exec (i : Instr) (s : State) : Host.Outcome State Fault Refusal :=
  match i with
  | .packetAbandoned lane syms => Sys2Proof.Machine.execPacketAbandoned lane syms s
  | .frameHeadTaken syms => Sys2Proof.Machine.execFrameHeadTaken syms s
  | .rowTaken syms => Sys2Proof.Machine.execRowTaken syms s
  | .storeRequest => Sys2Proof.Machine.execStoreRequest s
  | .lensNoteTaken syms => Sys2Proof.Machine.execLensNoteTaken syms s
  | .frameTailTaken syms => Sys2Proof.Machine.execFrameTailTaken syms s
  | .passThroughPacket syms => Sys2Proof.Machine.execPassThroughPacket syms s
  | .serviceRequestReceived syms => Sys2Proof.Machine.execServiceRequestReceived syms s
  | .reversePacketRefused port syms => Sys2Proof.Machine.execReversePacketRefused port syms s
  | .credit port => Sys2Proof.Machine.execCredit port s
  | .hold port => Sys2Proof.Machine.execHold port s
  | .resume port => Sys2Proof.Machine.execResume port s
  | .laneLock port => Sys2Proof.Machine.execLaneLock port s
  | .alignmentDone port => Sys2Proof.Machine.execAlignmentDone port s
  | .laneLoss port => Sys2Proof.Machine.execLaneLoss port s
  | .resetPinAsserted => Sys2Proof.Machine.execResetPinAsserted s
  | .resetRelease nodePins attnHigh => Sys2Proof.Machine.execResetRelease nodePins attnHigh s
  | .lineProduction => Sys2Proof.Machine.execLineProduction s
  | .arbiterChoice => Sys2Proof.Machine.execArbiterChoice s
  | .portBSend => Sys2Proof.Machine.execPortBSend s
  | .upstreamSend => Sys2Proof.Machine.execUpstreamSend s
  | .portItemSent port => Sys2Proof.Machine.execPortItemSent port s
  | .answerSent => Sys2Proof.Machine.execAnswerSent s
  | .passThroughSent => Sys2Proof.Machine.execPassThroughSent s
  | .upstreamSent => Sys2Proof.Machine.execUpstreamSent s
  | .unknownCommand => Sys2Proof.Machine.execUnknownCommand s
  | .identify => Sys2Proof.Machine.execIdentify s
  | .readStatus => Sys2Proof.Machine.execReadStatus s
  | .readCounters => Sys2Proof.Machine.execReadCounters s
  | .clearAlerts => Sys2Proof.Machine.execClearAlerts s
  | .setAlerts => Sys2Proof.Machine.execSetAlerts s
  | .setMode => Sys2Proof.Machine.execSetMode s
  | .setGeometry => Sys2Proof.Machine.execSetGeometry s
  | .setInput => Sys2Proof.Machine.execSetInput s
  | .setRoute => Sys2Proof.Machine.execSetRoute s
  | .setPort => Sys2Proof.Machine.execSetPort s
  | .profileOpen => Sys2Proof.Machine.execProfileOpen s
  | .profileWrite => Sys2Proof.Machine.execProfileWrite s
  | .profileClose => Sys2Proof.Machine.execProfileClose s
  | .profileRetire => Sys2Proof.Machine.execProfileRetire s
  | .profileQuery => Sys2Proof.Machine.execProfileQuery s
  | .resetBlockPipeline => Sys2Proof.Machine.execResetBlockPipeline s
  | .resetBlockProfiles => Sys2Proof.Machine.execResetBlockProfiles s
  | .resetBlockPortA => Sys2Proof.Machine.execResetBlockPortA s
  | .resetBlockPortB => Sys2Proof.Machine.execResetBlockPortB s
  | .resetBlockCounters => Sys2Proof.Machine.execResetBlockCounters s
  | .resetPart => Sys2Proof.Machine.execResetPart s
  | .uncorrectableHeader lane syms => Sys2Proof.Machine.execUncorrectableHeader lane syms s

end Sys2Proof.Machine
end

