-- ==== Sys2Proof/Safety.lean ====
section
/-! DEFINITION. What it means for the part to be in order: the laws the manual says the part keeps, as invariants of
Device, and the words the obligations are stated in. -/

namespace Sys2Proof.Machine

/-! ## Words of the statements -/

/-- A receiving lane reads symbols, and no packet is open on it (R1, R21). -/
structure Device.Receiving (d : Device) (lane : LinkPort) : Prop where
  running : d.resetHeld = false
  up : d.link lane = .up
  closed : d.opened lane = none

/-- The commands that stand for symbols arriving on a lane: the rows of the table that a packet on it can come under. -/
def arrivals (lane : LinkPort) (syms : List Symbol) : List Instr :=
  [.packetAbandoned lane syms, .uncorrectableHeader lane syms] ++
    match lane with
    | .u => [.frameHeadTaken syms, .rowTaken syms, .lensNoteTaken syms, .frameTailTaken syms, .passThroughPacket syms]
    | .a => [.serviceRequestReceived syms, .reversePacketRefused .a syms]
    | .b => [.reversePacketRefused .b syms]

/-- The symbols of a packet as it is sent: START, header, payload, END (R2). -/
def Packet.symbols (p : Packet) : List Symbol :=
  Symbol.packet p.bytes

/-- The nine bytes of a note body (R9); `high` is bits 7..2 of the converter byte, which are ignored. -/
def noteBody (i : Identity) (high : BitVec 6) (focal focus : BitVec 16) : List Byte :=
  beBytes 4 i.lensId.toNat ++ [(high ++ i.converter : BitVec 8)] ++ beBytes 2 focal.toNat ++ beBytes 2 focus.toNat

/-- The lens record of a note row and body (R9). -/
def noteRecord (row : BitVec 16) (i : Identity) (focal focus : BitVec 16) : LensRecord :=
  ⟨row.toNat, i, focal.toNat, focus.toNat⟩

/-- An embedded lens note as it is sent: note row, identity, ignored bits, focal length, focus (R10). -/
structure SentNote where
  row : BitVec 16
  identity : Identity
  high : BitVec 6
  focal : BitVec 16
  focus : BitVec 16
  deriving DecidableEq, Repr

/-- The record of a note as sent (R9). -/
def SentNote.record (n : SentNote) : LensRecord :=
  noteRecord n.row n.identity n.focal n.focus

/-- The payload of a frame head from the front end (R10); `ignored` is bits 6..3 of the flags byte. -/
def frontHeadPayload (group : BitVec 3) (ignored : BitVec 4) : Option SentNote → List Byte
  | none => [(0#1 ++ ignored ++ group : BitVec 8)]
  | some n =>
    (1#1 ++ ignored ++ group : BitVec 8) :: (beBytes 2 n.row.toNat ++ noteBody n.identity n.high n.focal n.focus)

/-- A frame head as the front end may send it: its embedded note, if any, has a focal length (R6, R10). -/
def SentNote.Valid (n : Option SentNote) : Prop :=
  ∀ m, n = some m → m.focal ≠ 0

/-- A LIVE delivery cut, any other left as it is. -/
def cutIfLive : Delivery → Delivery
  | .live _ => .cut
  | other => other

/-- A header's 48 bits, byte 0 first. -/
def headerBits (h : Header) : BitVec 48 :=
  BitVec.ofNat 48 (beNat h.bytes)

/-- The 40 data bits of a header, from byte 0 bit 7 to byte 4 bit 0 (R3). -/
def Header.dataBits (h : Header) : BitVec 40 :=
  h.kind ++ h.node ++ h.spare ++ h.length ++ h.field

/-- The code word positions of data bits 1 to 40: those of 1 to 46 that are not powers of two, in increasing order (R3). -/
def codePositions : List Nat :=
  (List.range 47).filter fun n => n ∉ [0, 1, 2, 4, 8, 16, 32]

/-- The exclusive-or of the positions of all data bits that are 1 (R3). -/
def codeCheck (data : BitVec 40) : BitVec 6 :=
  ((codePositions.zipIdx.filter fun x => data.getMsbD x.2).map fun x => BitVec.ofNat 6 x.1).foldl (· ^^^ ·) 0

/-- The number of ones among the 47 bits of a code word (R3). -/
def codeOnes (data : BitVec 40) (c : BitVec 6) (p : Bool) : Nat :=
  (List.range 40).countP data.getLsbD + (List.range 6).countP c.getLsbD + p.toNat

/-- The six bytes of a header with these fields, check value, parity bit and bit 0 of byte 5, in the layout of R3. -/
def headerLayout (h : Header) (c : BitVec 6) (p low : Bool) : List Byte :=
  [h.kind ++ h.node ++ h.spare, h.length.extractLsb' 8 8, h.length.extractLsb' 0 8, h.field.extractLsb' 8 8,
    h.field.extractLsb' 0 8, BitVec.ofBool p ++ c ++ BitVec.ofBool low]

/-- The CRC register after one more bit, with the generator polynomial x^16 + x^12 + x^5 + 1 (R8). -/
def crcShift (register : BitVec 16) (bit : Bool) : BitVec 16 :=
  (register <<< 1) ^^^
    if register.getMsbD 0 = bit then 0 else BitVec.twoPow 16 12 ^^^ BitVec.twoPow 16 5 ^^^ BitVec.twoPow 16 0

/-- A packet on a receiving lane that breaks the payload rule of its kind, that of rows on port U's lane alone (R6, R10; log
entry 6). -/
def BreaksKindRule (lane : LinkPort) (kind : BitVec 4) (payload : List Byte) : Prop :=
  (kind = 1 ∧ payload = []) ∨
  (kind = 1 ∧ ∃ flags rest, payload = flags :: rest ∧ flags.getLsbD 7 = false ∧ rest ≠ []) ∨
  (kind = 1 ∧ ∃ flags rest, payload = flags :: rest ∧ flags.getLsbD 7 = true ∧
    (rest.length ≠ 11 ∨ fieldAt payload 8 2 = 0)) ∨
  (lane = .u ∧ kind = 2 ∧ payload.length < 2) ∨
  (kind = 3 ∧ (payload.length ≠ 9 ∨ fieldAt payload 5 2 = 0)) ∨
  (kind = 4 ∧ payload ≠ [])

/-- The oldest request waits with this body, and the answer queue has room (R172). -/
structure Device.Asked (d : Device) (body : List Byte) (rest : List Packet) : Prop where
  running : d.resetHeld = false
  oldest : ∃ p : Packet, p.payload = body ∧ d.commands = p :: rest
  room : d.answers.length < 8

/-- The part after the oldest request has been executed with no other effect: it has left the command queue and its
answer stands at the tail of the answer queue (R172, R174). -/
def Device.answered (d : Device) (rest : List Packet) (tag code : Byte) (status : Status) (results : List Byte) : Device :=
  { d with commands := rest, answers := d.answers ++ [⟨tag, code, status, results⟩] }

/-- The filling context stands last, and no other fills (R38). -/
structure FillsLast (frames pre : List FrameContext) (c : FrameContext) : Prop where
  split : frames = pre ++ [c]
  filling : c.input = .filling
  others : ∀ x ∈ pre, x.input ≠ .filling

/-- No context fills. -/
def NoneFills (frames : List FrameContext) : Prop :=
  ∀ x ∈ frames, x.input ≠ .filling

/-- The rows after the front, or H rows when the front is absent (R42). -/
def rowsAfterFront (c : FrameContext) : Nat :=
  match c.front with
  | some f => c.geometry.height - 1 - f
  | none => c.geometry.height

/-- A context whose input has ended short (R42). -/
def endedShort (c : FrameContext) : FrameContext :=
  { c with
    input := .ended true
    flags := { c.flags with short := true }
    rowsMissing := satAdd c.rowsMissing (rowsAfterFront c) }

/-- What a created context is to one port (R49, R154, R157): `member` says whether the route group's set holds the port,
`port` and `port'` are the port before and after, `delivery` the context's, `skips` and `skips'` the port's skip
counter. -/
structure CreditGiven (member : Bool) (g : Geometry) (port port' : Port) (delivery : Delivery)
    (skips skips' : BitVec 16) : Prop where
  excluded : (member = false ∨ port.enable = false ∨ port.link ≠ .up ∨ g.width ≤ port.crop.colBase ∨
      g.height ≤ port.crop.rowBase) → delivery = .excluded ∧ port' = port ∧ skips' = skips
  live : member = true → port.enable = true → port.link = .up → port.crop.colBase < g.width →
    port.crop.rowBase < g.height → port.credits ≠ 0 →
    delivery = .live ⟨port.crop.colBase, min port.crop.colLimit (g.width - 1), port.crop.rowBase,
      min port.crop.rowLimit (g.height - 1)⟩ ∧
      port' = { port with credits := port.credits - 1 } ∧ skips' = skips
  skipped : member = true → port.enable = true → port.link = .up → port.crop.colBase < g.width →
    port.crop.rowBase < g.height → port.credits = 0 →
    delivery = .skipped ∧ port' = port ∧ skips' = satAdd skips 1

/-! ### Hand-offs -/

/-- The items port A receives at a line (R126). -/
def itemsA (c : FrameContext) (y : Nat) (values : List Sample) : List Item :=
  match c.deliveryA with
  | .live crop => (if y = 0 then [headItem c crop] else []) ++ if crop.hasRow y then [rowItem c crop y values] else []
  | _ => []

/-- The items port B receives at a line, its queue then holding `rows` rows (R126, R163). -/
def itemsB (c : FrameContext) (y : Nat) (values : List Sample) (rows : Nat) : List Item :=
  match c.deliveryB with
  | .live crop =>
    (if y = 0 then [headItem c crop] else []) ++
      if crop.hasRow y then [if 16 ≤ rows then .cutMarker c.id c.tag else rowItem c crop y values] else []
  | _ => []

/-- The report item a port receives at the close of a frame: one where the delivery is LIVE (R164). -/
def reportItem (c : FrameContext) (p : OutPort) : List Item :=
  match c.delivery p with
  | .live _ => [.report c.id c.report]
  | _ => []

/-! ### Rounding -/

/-- `q` is `n / d` rounded to the nearest integer, halves toward +∞ (R108, R114). -/
def RoundedUp (n d q : Int) : Prop :=
  2 * (d * q) - d ≤ 2 * n ∧ 2 * n < 2 * (d * q) + d

/-- `q` is `n / d` rounded to the nearest integer, halves away from zero (R142). -/
def RoundedAway (n d q : Int) : Prop :=
  (0 ≤ n → 2 * (d * q) - d ≤ 2 * n ∧ 2 * n < 2 * (d * q) + d) ∧
    (n < 0 → 2 * (d * q) - d < 2 * n ∧ 2 * n ≤ 2 * (d * q) + d)

/-- `q` is `n / d` floored to an integer (R138, R140). -/
def Floored (n d q : Int) : Prop :=
  d * q ≤ n ∧ n < d * (q + 1)

/-! ### Band sets -/

/-- The index and the weight a clamped value takes among a list of stations, each case tried in turn (R112). -/
def StationCell (stations : List Nat) (v i w : Nat) : Prop :=
  if stations.length = 1 then i = 0 ∧ w = 0
  else if stations[0]? = some v then i = 0 ∧ w = 0
  else if stations[stations.length - 1]? = some v then i = stations.length - 1 ∧ w = 0
  else ∃ lo hi, stations[i]? = some lo ∧ stations[i + 1]? = some hi ∧ lo ≤ v ∧ v < hi ∧ w = 256 * (v - lo) / (hi - lo)

/-- The seven coefficients of a band set, by place (R110). -/
def BandSet.places (s : BandSet) : List Int :=
  [s.k1, s.k2, s.k3, s.redC0, s.redC1, s.blueC0, s.blueC1]

/-! ### Sites -/

/-- The origins of the four colours under a phase (R134). -/
def colourOrigins : BayerPhase → List (Colour × Nat × Nat)
  | .rggb => [(.r, 0, 0), (.gr, 1, 0), (.gb, 0, 1), (.b, 1, 1)]
  | .grbg => [(.r, 1, 0), (.gr, 0, 0), (.gb, 1, 1), (.b, 0, 1)]
  | .gbrg => [(.r, 0, 1), (.gr, 1, 1), (.gb, 0, 0), (.b, 1, 0)]
  | .bggr => [(.r, 1, 1), (.gr, 0, 1), (.gb, 1, 0), (.b, 0, 0)]

/-- A coordinate lies in the lattice cell of index `i`, at fraction `u` of a lattice step, for a colour origin `parity`
(R145). -/
def OnLattice (position : Int) (parity : Nat) (i : Int) (u : Nat) : Prop :=
  u ≤ 31 ∧ 128 * i + 4 * u ≤ position - 64 * parity ∧ position - 64 * parity < 128 * i + 4 * u + 4

/-- What the answer to a fetch gives at a column: its sample, and the mark of a substitute and of a fill (R76, R77). -/
def Fetched.Gives (f : Fetched) (column : Nat) (value : Sample) (marked : Bool) : Prop :=
  match f with
  | .held samples => (∀ v, samples[column]? = some v → value = v) ∧ marked = false
  | .substituted samples => (∀ v, samples[column]? = some v → value = v) ∧ marked = true
  | .filled v => value = v ∧ marked = true

/-- What the neighbour at lattice indices (i, j) of the colour with origin (px, py) gives a site: inside the image, its
fetched sample; under REPLICATE, that of the nearest lattice site inside; outside under FILL, the fill value, without a
fetch or a mark (R147 to R150). -/
structure NeighbourGives (g : Geometry) (fetch : Nat → Fetched) (px py : Nat) (i j : Int) (value : Sample)
    (marked : Bool) : Prop where
  inside : ∀ m n : Nat, i = m → j = n → m < g.width / 2 → n < g.height / 2 →
    (fetch (2 * n + py)).Gives (2 * m + px) value marked
  replicate : g.edge = .replicate → ∀ m n : Nat, (m : Int) = max 0 (min (((g.width / 2 : Nat) : Int) - 1) i) →
    (n : Int) = max 0 (min (((g.height / 2 : Nat) : Int) - 1) j) → (fetch (2 * n + py)).Gives (2 * m + px) value marked
  fill : g.edge = .fill → (i < 0 ∨ (g.width / 2 : Nat) ≤ i ∨ j < 0 ∨ (g.height / 2 : Nat) ≤ j) →
    value = g.fill ∧ marked = false

/-- One of a site's four neighbours as the site reads it: its weight in 1024ths, its lattice indices, and what it gives. -/
structure ReadNeighbour where
  weight : Nat
  i : Int
  j : Int
  value : Sample
  marked : Bool
  deriving DecidableEq, Repr

/-! ### What the part sends -/

/-- Focal length and focus of a band lens state in a frame report, sent as 0 when absent (R165). -/
def sentLens : Option LensState → List Byte
  | some l => beBytes 2 l.focal ++ beBytes 2 l.focus
  | none => [0, 0, 0, 0]

/-- The payload of a frame report, in the order of the table of R165. -/
def sentReport (r : Report) : List Byte :=
  [(BitVec.ofBool r.entry.isSome ++ BitVec.ofBool r.identity.isSome ++ BitVec.ofBool r.firstBand.isSome
      ++ BitVec.ofBool r.lastBand.isSome ++ BitVec.ofBool (r.firstBand.any LensState.inherited) ++ 0#1
      ++ r.mode.code.setWidth 2 : BitVec 8)]
    ++ (match r.entry with
      | some e => [BitVec.ofNat 8 e]
      | none => [0])
    ++ (match r.identity with
      | some i => [(0#6 ++ i.converter : BitVec 8)] ++ beBytes 4 i.lensId.toNat
      | none => [0, 0, 0, 0, 0])
    ++ [(BitVec.ofBool r.flags.unprofiled ++ BitVec.ofBool r.flags.inherited ++ BitVec.ofBool r.flags.short
      ++ BitVec.ofBool r.flags.overrun ++ BitVec.ofBool r.flags.sync ++ BitVec.ofBool r.flags.mismatch
      ++ BitVec.ofBool r.flags.range ++ BitVec.ofBool r.flags.late : BitVec 8)]
    ++ sentLens r.firstBand ++ sentLens r.lastBand
    ++ beBytes 2 r.rowsStored.toNat ++ beBytes 2 r.rowsMissing.toNat ++ beBytes 2 r.crcErrors.toNat
    ++ beBytes 2 r.linesReachClamp.toNat ++ beBytes 2 r.linesScaleClamp.toNat
    ++ beBytes 2 r.linesSubstituted.toNat ++ beBytes 2 r.lateNotes.toNat
    ++ [(0#4 ++ r.deliveryA.code ++ r.deliveryB.code : BitVec 8)]

/-- The packets of the items of a port queue, from a part of this node address (R12, R13, R165). -/
structure ItemPackets (node : BitVec 3) : Prop where
  unboundHead : ∀ frame tag w h (mode : Mode),
    (Item.head frame tag w h mode none).packet node = ⟨1, node, 0, tag, beBytes 2 w ++ beBytes 2 h ++ [mode.code, 0]⟩
  boundHead : ∀ frame tag w h (mode : Mode) (i : Identity),
    (Item.head frame tag w h mode (some i)).packet node = ⟨1, node, 0, tag, beBytes 2 w ++ beBytes 2 h
      ++ [mode.code, (1#1 ++ 0#5 ++ i.converter : BitVec 8)] ++ beBytes 4 i.lensId.toNat⟩
  row : ∀ frame number values, (Item.row frame number values).packet node = ⟨2, node, 0, BitVec.ofNat 16 number,
    packRow values ++ beBytes 2 (rowCrc (BitVec.ofNat 16 number) (packRow values)).toNat⟩
  report : ∀ frame (r : Report), (Item.report frame r).packet node = ⟨6, node, 0, r.tag, sentReport r⟩
  cutMarker : ∀ frame tag, (Item.cutMarker frame tag).packet node = ⟨7, node, 0, tag, []⟩
  restartMarker : Item.restartMarker.packet node = ⟨8, node, 0, 0, []⟩

/-- What the items of a frame carry: of its context, of the clipped crop of the port, and of the line (R12, R62, R163). -/
structure ItemContents (c : FrameContext) : Prop where
  boundHead : ∀ crop e, c.entry = some e → headItem c crop =
    .head c.id c.tag (crop.colLimit + 1 - crop.colBase) (crop.rowLimit + 1 - crop.rowBase) c.mode c.identity
  unboundHead : ∀ crop, c.entry = none → headItem c crop =
    .head c.id c.tag (crop.colLimit + 1 - crop.colBase) (crop.rowLimit + 1 - crop.rowBase) c.mode none
  deliveries : c.delivery .a = c.deliveryA ∧ c.delivery .b = c.deliveryB
  rows : ∀ (crop : Crop) y, crop.hasRow y = true ↔ crop.rowBase ≤ y ∧ y ≤ crop.rowLimit
  row : ∀ (crop : Crop) y values, rowItem c crop y values =
    .row c.id (y - crop.rowBase) ((values.drop crop.colBase).take (crop.colLimit + 1 - crop.colBase))
  report : c.report = ⟨c.tag, c.mode, c.entry, c.identity, c.flags, c.firstBand, c.lastBand, c.rowsStored, c.rowsMissing,
    c.crcErrors, c.linesReachClamp, c.linesScaleClamp, c.linesSubstituted, c.lateNotes, c.deliveryA, c.deliveryB⟩

/-- What a sending lane carries, by its link and the packet begun on it: IDLE while DOWN and between packets, ALIGN while
ALIGNING (R2, R20). -/
def LaneCarries (link : LinkState) (begun : Option (List Byte)) (output : LaneOutput) : Prop :=
  (link = .down → output = .idle) ∧ (link = .aligning → output = .align) ∧
    (link = .up → begun = none → output = .idle) ∧ ∀ bytes, link = .up → begun = some bytes → output = .packet bytes

/-- The packet at the front of each source of port A's lane, or none where the source is empty (R14, R162). -/
structure FrontPackets (d : Device) : Prop where
  answer : ∀ a rest, d.answers = a :: rest →
    d.frontPacket .answer = some ⟨5, d.node, 0, 0, [a.tag, a.code, a.status.code] ++ a.results⟩
  noAnswer : d.answers = [] → d.frontPacket .answer = none
  passThrough : ∀ p rest, d.passThrough = p :: rest → d.frontPacket .passThrough = some p
  noPassThrough : d.passThrough = [] → d.frontPacket .passThrough = none
  frame : ∀ i rest, d.portA.queue = i :: rest → d.frontPacket .frame = some (i.packet d.node)
  noFrame : d.portA.queue = [] → d.frontPacket .frame = none

/-! ### Lines -/

/-- The engine is READY for the head frame `c` (R117 to R119). -/
structure EngineReady (d : Device) (c : FrameContext) : Prop where
  running : d.resetHeld = false
  input : c.input = .filling →
    ∃ f, c.front = some f ∧ min (c.nextLine + c.reachDown + 2) (c.geometry.height - 1) ≤ f
  port : ∀ crop, c.deliveryA = .live crop → rowsQueued d.portA.queue < 4

/-- The next line's row cuts the frame on port B (R163). -/
def CutsOnB (d : Device) (c : FrameContext) : Prop :=
  ∃ crop, c.deliveryB = .live crop ∧ crop.rowBase ≤ c.nextLine ∧ c.nextLine ≤ crop.rowLimit ∧
    16 ≤ rowsQueued d.portB.queue

/-- The head frame's next line, on the rows held for it and with the band its step 1 leaves (R121). -/
def Device.headLine (d : Device) (c : FrameContext) : LineResult :=
  computeLine (heldRows d.slots.toList c.id) (c.atLine d.profiles) c.nextLine

/-- What the production of the head frame's next line leaves, up to and with the advance (R121, R125 to R127, R163): `d'`
is the part and `c'` the head frame after it. -/
structure LineDone (d : Device) (c : FrameContext) (rest : List FrameContext) (d' : Device) (c' : FrameContext) : Prop where
  context : c' = { c.atLine d.profiles with
    deliveryB := c'.deliveryB
    linesReachClamp := satAdd c.linesReachClamp (d.headLine c).reachClamped.toNat
    linesScaleClamp := satAdd c.linesScaleClamp (d.headLine c).scaleClamped.toNat
    linesSubstituted := satAdd c.linesSubstituted (d.headLine c).substituted.toNat
    nextLine := c.nextLine + 1 }
  part : d' = { d with
    frames := c' :: rest
    portA := { d.portA with queue := d.portA.queue ++ itemsA c c.nextLine (d.headLine c).values }
    portB := { d.portB with
      queue := d.portB.queue ++ itemsB c c.nextLine (d.headLine c).values (rowsQueued d.portB.queue) }
    slots := d'.slots
    counters := d'.counters }
  cut : CutsOnB d c → c'.deliveryB = .cut ∧ d'.count .cutB = satAdd (d.count .cutB) 1
  uncut : ¬ CutsOnB d c → c'.deliveryB = c.deliveryB ∧ d'.count .cutB = d.count .cutB
  reachCount : d'.count .linesReachClamp = satAdd (d.count .linesReachClamp) (d.headLine c).reachClamped.toNat
  scaleCount : d'.count .linesScaleClamp = satAdd (d.count .linesScaleClamp) (d.headLine c).scaleClamped.toNat
  otherCounts : ∀ k : Counter, k ≠ .cutB → k ≠ .linesReachClamp → k ≠ .linesScaleClamp → d'.count k = d.count k
  freed : ∀ (i : Fin 384) r, d.slots[i] = some r → r.frame = c.id → r.row + c.reachUp + 2 ≤ c.nextLine → d'.slots[i] = none
  kept : ∀ i : Fin 384,
    (∀ r, d.slots[i] = some r → r.frame = c.id → c.nextLine < r.row + c.reachUp + 2) → d'.slots[i] = d.slots[i]

/-- A row the window of line `y` holds, of the parity of row `k` (R75, R76). -/
def Substitutes (c : FrameContext) (y k : Nat) (r : StoredRow) : Prop :=
  r.row % 2 = k % 2 ∧ y ≤ r.row + c.reachUp + 2 ∧ r.row < c.geometry.height ∧ r.row ≤ y + c.reachDown + 2

/-! ### Requests -/

/-- The rows of the table that are the execution of the oldest request, with the request's command code (R176). -/
def executions : List (Instr × Byte) :=
  [(.identify, 1), (.readStatus, 2), (.readCounters, 3), (.clearAlerts, 4), (.setAlerts, 5), (.setMode, 6),
    (.setGeometry, 7), (.setInput, 8), (.setRoute, 9), (.setPort, 10), (.profileOpen, 11), (.profileWrite, 12),
    (.profileClose, 13), (.profileRetire, 14), (.profileQuery, 15), (.resetBlockPipeline, 16), (.resetBlockProfiles, 16),
    (.resetBlockPortA, 16), (.resetBlockPortB, 16), (.resetBlockCounters, 16), (.resetPart, 17)]

/-- The executions of a fixed number of argument bytes, with it (R176). -/
def fixedLengths : List (Instr × Byte × Nat) :=
  [(.identify, 1, 0), (.readStatus, 2, 0), (.readCounters, 3, 1), (.clearAlerts, 4, 1), (.setAlerts, 5, 1), (.setMode, 6, 1),
    (.setGeometry, 7, 19), (.setInput, 8, 2), (.setRoute, 9, 2), (.setPort, 10, 10), (.profileClose, 13, 1),
    (.profileRetire, 14, 1), (.profileQuery, 15, 1), (.resetBlockPipeline, 16, 1), (.resetBlockProfiles, 16, 1),
    (.resetBlockPortA, 16, 1), (.resetBlockPortB, 16, 1), (.resetBlockCounters, 16, 1), (.resetPart, 17, 0)]

/-- The executions of RESET_BLOCK, with the block code (R186). -/
def blockResets : List (Instr × Byte) :=
  [(.resetBlockPipeline, 0), (.resetBlockProfiles, 1), (.resetBlockPortA, 2), (.resetBlockPortB, 3),
    (.resetBlockCounters, 4)]

/-- The nine fields of a SET_GEOMETRY as sent (R28, R176). -/
structure SentGeometry where
  width : BitVec 16
  height : BitVec 16
  phase : Byte
  cx64 : BitVec 32
  cy64 : BitVec 32
  rref : BitVec 16
  edge : Byte
  fill : BitVec 16
  bandHeight : Byte
  deriving DecidableEq, Repr

/-- The argument bytes of a SET_GEOMETRY (R176). -/
def SentGeometry.bytes (g : SentGeometry) : List Byte :=
  beBytes 2 g.width.toNat ++ beBytes 2 g.height.toNat ++ [g.phase] ++ beBytes 4 g.cx64.toNat ++ beBytes 4 g.cy64.toNat
    ++ beBytes 2 g.rref.toNat ++ [g.edge] ++ beBytes 2 g.fill.toNat ++ [g.bandHeight]

/-- Field `n` of a SET_GEOMETRY is in range (R30). -/
def SentGeometry.InRange (g : SentGeometry) : Nat → Prop
  | 1 => 64 ≤ g.width.toNat ∧ g.width.toNat ≤ 8192 ∧ g.width.toNat % 16 = 0
  | 2 => 64 ≤ g.height.toNat ∧ g.height.toNat ≤ 16382 ∧ g.height.toNat % 2 = 0
  | 3 => g.phase.toNat ≤ 3
  | 4 => g.cx64.toNat < 64 * g.width.toNat
  | 5 => g.cy64.toNat < 64 * g.height.toNat
  | 6 => 1 ≤ g.rref.toNat ∧ g.rref.toNat ≤ 8191
  | 7 => g.edge.toNat ≤ 1
  | 8 => g.fill.toNat ≤ 16383
  | 9 => g.bandHeight = 16 ∨ g.bandHeight = 32 ∨ g.bandHeight = 64 ∨ g.bandHeight = 128
  | _ => True

/-- The Bayer phase of a code (R28). -/
def SentGeometry.bayer (g : SentGeometry) : BayerPhase :=
  if g.phase = 0 then .rggb else if g.phase = 1 then .grbg else if g.phase = 2 then .gbrg else .bggr

/-- The arguments of a SET_PORT after the port code, as sent (R153, R176). -/
structure SentPort where
  enable : Byte
  colBase : BitVec 16
  colLimit : BitVec 16
  rowBase : BitVec 16
  rowLimit : BitVec 16
  deriving DecidableEq, Repr

/-- The argument bytes of a SET_PORT after the port code (R176). -/
def SentPort.bytes (p : SentPort) : List Byte :=
  p.enable :: (beBytes 2 p.colBase.toNat ++ beBytes 2 p.colLimit.toNat ++ beBytes 2 p.rowBase.toNat
    ++ beBytes 2 p.rowLimit.toNat)

/-- Argument `n` of a SET_PORT is in range (R153). -/
def SentPort.InRange (p : SentPort) : Nat → Prop
  | 2 => p.enable.toNat ≤ 1
  | 3 => p.colBase.toNat ≤ 8176 ∧ p.colBase.toNat % 16 = 0
  | 4 => 15 ≤ p.colLimit.toNat ∧ p.colLimit.toNat ≤ 8191 ∧ (p.colLimit.toNat + 1) % 16 = 0
  | 5 => p.rowBase.toNat ≤ 16380 ∧ p.rowBase.toNat % 2 = 0
  | 6 => 1 ≤ p.rowLimit.toNat ∧ p.rowLimit.toNat ≤ 16381 ∧ p.rowLimit.toNat % 2 = 1
  | _ => True

/-- The arguments of a PROFILE_OPEN as sent, its two counts being the lengths of its lists (R89, R177). -/
structure SentOpen where
  entry : Byte
  lensId : BitVec 32
  converter : Byte
  focal : List (BitVec 16)
  focus : List (BitVec 16)
  reachUp : BitVec 16
  reachDown : BitVec 16
  deriving DecidableEq, Repr

/-- The bytes of two-byte values. -/
def halfWordBytes (l : List (BitVec 16)) : List Byte :=
  l.flatMap fun v => beBytes 2 v.toNat

/-- The argument bytes of a PROFILE_OPEN (R177). -/
def SentOpen.bytes (o : SentOpen) : List Byte :=
  [o.entry] ++ beBytes 4 o.lensId.toNat ++ [o.converter, BitVec.ofNat 8 o.focal.length, BitVec.ofNat 8 o.focus.length]
    ++ halfWordBytes o.focal ++ halfWordBytes o.focus ++ beBytes 2 o.reachUp.toNat ++ beBytes 2 o.reachDown.toNat

/-- A list's first station not greater than the one before it stands at this 1-based position (R89). -/
def FirstFault (l : List (BitVec 16)) (position : Nat) : Prop :=
  ∃ before a b after, l = before ++ a :: b :: after ∧ (before ++ [a]).Pairwise (· < ·) ∧ b ≤ a ∧
    position = before.length + 2

/-- Checks 3 to 6 of a PROFILE_OPEN, by the argument they name (R89). -/
def SentOpen.InRange (o : SentOpen) : Nat → Prop
  | 3 => o.converter.toNat ≤ 3
  | 4 => 1 ≤ o.focal.length ∧ o.focal.length ≤ 12
  | 5 => 1 ≤ o.focus.length ∧ o.focus.length ≤ 6
  | 6 => 0 ∉ o.focal
  | _ => True

/-- An item of a PROFILE_WRITE as sent (R90, R177). -/
inductive SentItem where
  | literal (value : BitVec 24)
  | run (count : BitVec 16) (value : BitVec 24)
  deriving DecidableEq, Repr

/-- The bytes of an item (R177). -/
def SentItem.bytes : SentItem → List Byte
  | .literal v => 0 :: beBytes 3 v.toNat
  | .run n v => 1 :: (beBytes 2 n.toNat ++ beBytes 3 v.toNat)

/-- The values an item stands for (R90). -/
def SentItem.values : SentItem → List Int
  | .literal v => [v.toInt]
  | .run n v => List.replicate n.toNat v.toInt

/-- An item's count is in order: a run's lies within 2 to 255 (R90, R91). -/
def SentItem.CountOk : SentItem → Prop
  | .literal _ => True
  | .run n _ => 2 ≤ n.toNat ∧ n.toNat ≤ 255

/-- A value lies within the range of the place of an index (R83, R110). -/
def InPlace (index : Nat) (value : Int) : Prop :=
  (index % 7 < 3 → -131071 ≤ value ∧ value ≤ 131071) ∧ (3 ≤ index % 7 → -32767 ≤ value ∧ value ≤ 32767)

/-- Every value of a sequence, written from index `start` on, lies within the range of its place. -/
def AllInPlace (start : Nat) (values : List Int) : Prop :=
  ∀ j v, values[j]? = some v → InPlace (start + j) v

/-- The argument bytes of a PROFILE_WRITE (R177). -/
def writeBytes (entry : Byte) (start : BitVec 16) (items : List SentItem) : List Byte :=
  entry :: (beBytes 2 start.toNat ++ items.flatMap SentItem.bytes)

/-- A part in which every piece of state has the value the manual gives it after a part reset (R21, R23, R28, R32, R64,
R80, R103, R132, R152, R155, R169, R188). -/
structure AfterPartReset (node : BitVec 3) (fitted : Bool) (d : Device) : Prop where
  released : d.resetHeld = false
  straps : d.node = node ∧ d.portBFitted = fitted
  links : d.linkU = .down ∧ d.portA.link = .down ∧ d.portB.link = .down
  noOpenPacket : d.openU = none ∧ d.openA = none ∧ d.openB = none
  noSending : d.laneU = none ∧ d.laneA = none ∧ d.laneB = none
  linkQueues : d.passThrough = [] ∧ d.upstream = []
  modes : d.mode = .pass ∧ d.pendingMode = none
  geometry : d.geometry = ⟨6000, 4000, .rggb, 191968, 127968, 3606, .replicate, 0, 32⟩
  policy : d.policy = ⟨.keep, 8⟩
  routes : ∀ g : Fin 8, d.routes[g] = ⟨true, false⟩
  frameQueue : d.receiver = .idle ∧ d.frames = [] ∧ d.heldLens = none
  slots : ∀ i : Fin 384, d.slots[i] = none
  profiles : ∀ e : Fin 8, d.profiles[e] = .empty
  enables : d.portA.enable = true ∧ d.portB.enable = false
  crops : d.portA.crop = ⟨0, 8191, 0, 16381⟩ ∧ d.portB.crop = ⟨0, 8191, 0, 16381⟩
  credits : d.portA.credits = 0 ∧ d.portB.credits = 0
  holds : d.portA.held = false ∧ d.portB.held = false
  portQueues : d.portA.queue = [] ∧ d.portB.queue = []
  arbiter : d.lastSource = .frame
  serviceQueues : d.commands = [] ∧ d.answers = []
  counters : ∀ c : Counter, d.count c = 0
  alerts : d.alerts = 0 ∧ d.alertEnable = 63 ∧ d.alert = false

/-! ## Laws of the part -/

/-- A geometry within the ranges of R28. -/
structure Geometry.Ok (g : Geometry) : Prop where
  width : 64 ≤ g.width ∧ g.width ≤ 8192 ∧ g.width % 16 = 0
  height : 64 ≤ g.height ∧ g.height ≤ 16382 ∧ g.height % 2 = 0
  centreX : g.cx64 < 64 * g.width
  centreY : g.cy64 < 64 * g.height
  radius : 1 ≤ g.rref ∧ g.rref ≤ 8191
  bandHeight : g.bandHeight = 16 ∨ g.bandHeight = 32 ∨ g.bandHeight = 64 ∨ g.bandHeight = 128

/-- Credits, queues and ages within the limits of R16, R19, R44, R152, R159, R171 and R173, and a pending mode that
differs from the current mode (R23). -/
structure BoundsLaw (d : Device) : Prop where
  creditsA : d.portA.credits ≤ 4
  creditsB : d.portB.credits ≤ 4
  rowsA : rowsQueued d.portA.queue ≤ 4
  rowsB : rowsQueued d.portB.queue ≤ 16
  passThrough : d.passThrough.length ≤ 8
  upstream : d.upstream.length ≤ 8
  commands : d.commands.length ≤ 8
  answers : d.answers.length ≤ 8
  age : ∀ h, d.heldLens = some h → h.age ≤ 255
  pending : d.pendingMode ≠ some d.mode

/-- A context in order: geometry in range, front and next line within the frame, at most eight notes in increasing row
order (R28, R40, R51). -/
structure FrameContext.Ok (c : FrameContext) : Prop where
  geometry : c.geometry.Ok
  front : ∀ f, c.front = some f → f < c.geometry.height
  nextLine : c.nextLine < c.geometry.height
  noteCount : c.notes.length ≤ 8
  noteOrder : c.notes.Pairwise fun a b => a.record.row < b.record.row
  noteRows : ∀ n ∈ c.notes, n.record.row < c.geometry.height

/-- The law of the frame queue (R37, R38): at most two contexts, none but the newest FILLING, the receiver FILLING
exactly while one fills; the waiting context has produced no line and has no band (R117). -/
structure FrameLaw (d : Device) : Prop where
  geometry : d.geometry.Ok
  atMostTwo : d.frames.length ≤ 2
  onlyNewestFills : ∀ c ∈ d.frames.dropLast, c.input ≠ .filling
  receiver : d.receiver = .filling ↔ ∃ c ∈ d.frames, c.input = .filling
  contexts : ∀ c ∈ d.frames, c.Ok
  waiting : ∀ c ∈ d.frames.tail, c.nextLine = 0 ∧ c.band = none

/-- The number of contexts bound to an entry (R86). -/
def boundContexts (frames : List FrameContext) (e : Fin 8) : Nat :=
  frames.countP fun c => c.entry == some e

/-- The contents of an entry in order (R81 to R85): station lists strictly increasing and of the right lengths, an array
of the right length whose words lie in the range of their place, reach at most 180. -/
structure Profile.Ok (p : Profile) : Prop where
  focalCount : 1 ≤ p.focal.length ∧ p.focal.length ≤ 12
  focusCount : 1 ≤ p.focus.length ∧ p.focus.length ≤ 6
  focalOrder : p.focal.Pairwise (· < ·)
  focusOrder : p.focus.Pairwise (· < ·)
  focalRange : ∀ v ∈ p.focal, 1 ≤ v ∧ v ≤ 65535
  focusRange : ∀ v ∈ p.focus, v ≤ 65535
  arrayLength : p.words.length = p.focal.length * p.focus.length * 7
  wordRange : ∀ i (w : CoefWord), p.words[i]? = some w →
    (i % 7 < 3 → -131071 ≤ w.value ∧ w.value ≤ 131071) ∧ (3 ≤ i % 7 → -32767 ≤ w.value ∧ w.value ≤ 32767)
  reach : p.reachUp ≤ 180 ∧ p.reachDown ≤ 180

/-- Every word of a profile is written (R84). -/
def Profile.Complete (p : Profile) : Prop :=
  ∀ w ∈ p.words, w.written = true

/-- An entry in order (R81, R84, R87). -/
def Entry.Ok : Entry → Prop
  | .empty => True
  | .loading p => p.Ok
  | .ready p _ => p.Ok ∧ p.Complete
  | .retiring p n => p.Ok ∧ p.Complete ∧ 1 ≤ n

/-- A context's binding in order (R39, R48): its reach is its entry's, 0/0 without one; a PASS frame has none. -/
structure BindingOk (profiles : Vector Entry 8) (c : FrameContext) : Prop where
  bound : ∀ e, c.entry = some e →
    ∃ p, profiles[e].profile? = some p ∧ c.reachUp = p.reachUp ∧ c.reachDown = p.reachDown
  unbound : c.entry = none → c.reachUp = 0 ∧ c.reachDown = 0
  inPass : c.mode = .pass → c.entry = none

/-- The law of the profile table (R61, R93, R98): an entry's hold count is the number of contexts bound to it; no two
READY entries carry one identity; entries and bindings are in order. -/
structure ProfileLaw (d : Device) : Prop where
  holds : ∀ e : Fin 8, d.profiles[e].holdCount = boundContexts d.frames e
  oneReady : ∀ (e f : Fin 8) (p q : Profile) (m n : Nat),
    d.profiles[e] = .ready p m → d.profiles[f] = .ready q n → p.identity = q.identity → e = f
  entries : ∀ e : Fin 8, d.profiles[e].Ok
  bindings : ∀ c ∈ d.frames, BindingOk d.profiles c

/-- A row in order for the contexts held: where its context is present, the row is no later than the front and as wide as
the frame (R65, R67). -/
def RowFits (frames : List FrameContext) (r : StoredRow) : Prop :=
  ∀ c ∈ frames, c.id = r.frame → r.samples.length = c.geometry.width ∧ ∃ f, c.front = some f ∧ r.row ≤ f

/-- The law of the line store (R67): every held slot holds a row of a context present, no two slots the same row of one
frame; the store request on its way is later than every row its frame holds.  Contexts have names of their own. -/
structure StoreLaw (d : Device) : Prop where
  names : (d.frames.map FrameContext.id).Nodup
  oldNames : ∀ c ∈ d.frames, c.id < d.nextFrame
  present : ∀ (i : Fin 384) r, d.slots[i] = some r → ∃ c ∈ d.frames, c.id = r.frame
  fits : ∀ (i : Fin 384) r, d.slots[i] = some r → RowFits d.frames r
  oneSlot : ∀ (i j : Fin 384) r r', d.slots[i] = some r → d.slots[j] = some r' → r.frame = r'.frame → r.row = r'.row → i = j
  request : ∀ r, d.storeReq = some r →
    r.frame < d.nextFrame ∧ RowFits d.frames r ∧
      ∀ (i : Fin 384) r', d.slots[i] = some r' → r'.frame = r.frame → r'.row < r.row

/-- A delivery port and its lane while its link is not UP: nothing credited, queued or being sent, and released (R167). -/
def Port.Quiet (p : Port) : Prop :=
  p.credits = 0 ∧ p.held = false ∧ p.queue = []

/-- A delivery is LIVE (R158). -/
def Delivery.isLive : Delivery → Prop
  | .live _ => True
  | _ => False

/-- The law of the links (R1, R2, R20, R157, R167): while a link is not UP no packet is open or being sent on its lanes,
and a delivery port is quiet and has no LIVE delivery; port B's link is DOWN where it is not fitted; what a lane carries
is the packet at the front of its source. -/
structure LinkLaw (d : Device) : Prop where
  quietU : d.linkU ≠ .up → d.openU = none ∧ d.laneU = none
  quietA : d.portA.link ≠ .up →
    d.openA = none ∧ d.laneA = none ∧ d.portA.Quiet ∧ ∀ c ∈ d.frames, ¬ c.deliveryA.isLive
  quietB : d.portB.link ≠ .up →
    d.openB = none ∧ d.laneB = none ∧ d.portB.Quiet ∧ ∀ c ∈ d.frames, ¬ c.deliveryB.isLive
  notFitted : d.portBFitted = false → d.portB.link = .down
  frontU : ∀ bytes, d.laneU = some bytes → d.upstream.head?.map Packet.bytes = some bytes
  frontA : ∀ l, d.laneA = some l → (d.frontPacket l.source).map Packet.bytes = some l.bytes
  frontB : ∀ bytes, d.laneB = some bytes → d.portB.queue.head?.map (fun i => (i.packet d.node).bytes) = some bytes
  openLength : ∀ p bytes, d.opened p = some bytes → bytes.length ≤ 6 + 16384

end Sys2Proof.Machine
end

