-- ==== Sys2Proof/Certificates/Slice0/Obligations.lean ====
section
/-! DEFINITION. The statements for the provers.  A statement about a command's effect says the whole next state, so that
what the command leaves unchanged is part of it.  `q` is the queue of the commands behind it and `d` the part. -/

open Sys2Proof Sys2Proof.Machine

/-! ## The step, the reset pin and the part reset -/

/-- A step is exec of the command at the front of the queue, on the state with the queue's rest. -/
def Obligations.StepRunsFrontCommand : Prop :=
  ∀ (c : Instr) (q : List Instr) (d : Device), step ⟨c :: q, d⟩ = exec c ⟨q, d⟩

/-- The part never stops: every command answers a next state and leaves the queue behind it, and on an empty queue the
part idles (log entry 2). -/
def Obligations.NeverStops : Prop :=
  (∀ (c : Instr) (q : List Instr) (d : Device), ∃ d', exec c ⟨q, d⟩ = .next ⟨q, d'⟩) ∧
    ∀ d : Device, step ⟨[], d⟩ = .next ⟨[], d⟩

/-- RST going low holds the part in reset and cuts off the packets on the sending lanes.  While it is held every command
but RESET_RELEASE has no effect, every sending lane carries IDLE, and ATTN is not driven (R21, R22, R188; log entry 8). -/
def Obligations.HeldInReset : Prop :=
  (∀ (q : List Instr) (d : Device), d.resetHeld = false →
    exec .resetPinAsserted ⟨q, d⟩ = .next ⟨q, { d with resetHeld := true, laneU := none, laneA := none, laneB := none }⟩) ∧
  ∀ (q : List Instr) (d : Device), d.resetHeld = true →
    (∀ c : Instr, (∀ n a, c ≠ .resetRelease n a) → exec c ⟨q, d⟩ = .next ⟨q, d⟩) ∧
      (∀ lane, d.laneOutput lane = .idle) ∧ d.attn = none

/-- RESET_RELEASE takes the part reset and latches the straps: every piece of state has the value the manual gives it
after a part reset.  The names of contexts go on counting and a store request on its way stays on its way (log entries 3
and 10). -/
def Obligations.ResetRelease : Prop :=
  ∀ (node : BitVec 3) (fitted : Bool) (q : List Instr) (d : Device), ∃ d',
    exec (.resetRelease node fitted) ⟨q, d⟩ = .next ⟨q, d'⟩ ∧ AfterPartReset node fitted d' ∧
      d'.nextFrame = d.nextFrame ∧ d'.storeReq = d.storeReq

/-- RESET_PART with no argument bytes takes the part reset whatever the number of answers, with the straps as latched, and
makes no answer; with argument bytes it is answered BADLEN and resets nothing (R187).  By the model's choice the names of
contexts go on counting, and a store request on its way stays on its way (log entries 3 and 10). -/
def Obligations.ResetPart : Prop :=
  (∀ (tag : Byte) (p : Packet) (rest : List Packet) (q : List Instr) (d : Device), d.resetHeld = false →
    p.payload = [tag, 17] → d.commands = p :: rest → ∃ d',
      exec .resetPart ⟨q, d⟩ = .next ⟨q, d'⟩ ∧ AfterPartReset d.node d.portBFitted d' ∧
        d'.nextFrame = d.nextFrame ∧ d'.storeReq = d.storeReq) ∧
  ∀ (tag a : Byte) (args : List Byte) (rest : List Packet) (q : List Instr) (d : Device),
    d.Asked (tag :: 17 :: a :: args) rest →
      exec .resetPart ⟨q, d⟩ = .next ⟨q, d.answered rest tag 17 .badLen []⟩

/-- The machine right after reset: no command waits, the part is as after a part reset, its straps at the values of log
entry 1, and every law of the part holds. -/
def Obligations.ResetState : Prop :=
  State.reset.pending = [] ∧ AfterPartReset 0 true State.reset.device ∧ State.reset.device.nextFrame = 0 ∧
    State.reset.device.storeReq = none ∧ BoundsLaw State.reset.device ∧ FrameLaw State.reset.device ∧
    ProfileLaw State.reset.device ∧ StoreLaw State.reset.device ∧ LinkLaw State.reset.device

/-! ## Counters and alerts -/

/-- The 26 counters stand at the places of their numbers, counter n at place n - 1, and the six alert flags have the bits of
their table.  A counter is raised by the number named and stops at 65535, as a count of a context is, and no other counter
and nothing else changes; an alert flag is set whatever its enable, and no other flag and nothing else changes; the alert is
asserted exactly while a flag is set whose enable is on, and ATTN follows it (R22, R40, R181, R183). -/
def Obligations.CountersAndAlerts : Prop :=
  [Counter.headerFixed, .headerBad, .rowsCrc, .rowsMissing, .rowsStray, .rowsOrder, .rowsRange, .rowsWidth, .rowsOverrun,
    .rowsDropped, .framesDropped, .frameSync, .framesUnprofiled, .lensLate, .lensMismatch, .lensOverflow, .linesReachClamp,
    .linesScaleClamp, .skipA, .skipB, .cutB, .passDrop, .upstreamDrop, .serviceDrop, .serviceForeign, .linkLoss].map
    Counter.place = List.finRange 26 ∧
  (∀ (d : Device) (c : Counter), d.count c = d.counters[c.place]) ∧
  [Alert.header, .sync, .drop, .overrun, .service, .link].map Alert.mask =
    [0b000001, 0b000010, 0b000100, 0b001000, 0b010000, 0b100000] ∧
  (∀ (count : BitVec 16) (n : Nat), (satAdd count n).toNat = min 65535 (count.toNat + n)) ∧
  (∀ (d : Device) (c : Counter) (n : Nat),
    ((d.bump c n).count c).toNat = min 65535 ((d.count c).toNat + n) ∧
    (∀ c', c' ≠ c → (d.bump c n).count c' = d.count c') ∧
    d.bump c n = { d with counters := (d.bump c n).counters }) ∧
  (∀ (d : Device) (a : Alert),
    (d.raise a).alerts &&& a.mask ≠ 0 ∧
    (∀ a', a' ≠ a → (d.raise a).alerts &&& a'.mask = d.alerts &&& a'.mask) ∧
    d.raise a = { d with alerts := (d.raise a).alerts }) ∧
  ∀ d : Device,
    (d.alert = true ↔ ∃ a : Alert, d.alerts &&& a.mask ≠ 0 ∧ d.alertEnable &&& a.mask ≠ 0) ∧
    (d.resetHeld = false → d.attn = some d.alert)

/-! ## Link events -/

/-- Lane lock moves a DOWN link to ALIGNING, save on port B where it is not fitted, and alignment done moves an ALIGNING
link to UP, a delivery port then starting with credits 0, released and an empty queue; in every other state the event
changes nothing (R20, R167). -/
def Obligations.LinkMoves : Prop :=
  (∀ d : Device, d.link .u = d.linkU ∧ d.link .a = d.portA.link ∧ d.link .b = d.portB.link) ∧
  ∀ (q : List Instr) (d : Device), d.resetHeld = false →
    (d.linkU = .down → exec (.laneLock .u) ⟨q, d⟩ = .next ⟨q, { d with linkU := .aligning }⟩) ∧
    (d.portA.link = .down →
      exec (.laneLock .a) ⟨q, d⟩ = .next ⟨q, { d with portA := { d.portA with link := .aligning } }⟩) ∧
    (d.portB.link = .down → d.portBFitted = true →
      exec (.laneLock .b) ⟨q, d⟩ = .next ⟨q, { d with portB := { d.portB with link := .aligning } }⟩) ∧
    (d.portBFitted = false → exec (.laneLock .b) ⟨q, d⟩ = .next ⟨q, d⟩) ∧
    (∀ p, d.link p ≠ .down → exec (.laneLock p) ⟨q, d⟩ = .next ⟨q, d⟩) ∧
    (d.linkU = .aligning → exec (.alignmentDone .u) ⟨q, d⟩ = .next ⟨q, { d with linkU := .up }⟩) ∧
    (d.portA.link = .aligning → exec (.alignmentDone .a) ⟨q, d⟩ =
      .next ⟨q, { d with portA := ⟨d.portA.enable, d.portA.crop, 0, false, [], .up⟩ }⟩) ∧
    (d.portB.link = .aligning → exec (.alignmentDone .b) ⟨q, d⟩ =
      .next ⟨q, { d with portB := ⟨d.portB.enable, d.portB.crop, 0, false, [], .up⟩ }⟩) ∧
    (∀ p, d.link p ≠ .aligning → exec (.alignmentDone p) ⟨q, d⟩ = .next ⟨q, d⟩)

/-- Lane loss: a DOWN link stays; otherwise the link goes DOWN with LINK_LOSS and the alert flag LINK.  On port U the
packet open is abandoned uncounted, a request being sent is cut off and stays in its queue, the filling frame ends short
and the receiver moves to IDLE; on a delivery port the item or packet on the lane is cut off, the queue discarded, the
credits 0, the port released, and every LIVE delivery cut (R20, R60, R167). -/
def Obligations.LaneLoss : Prop :=
  ∀ (q : List Instr) (d : Device), d.resetHeld = false →
    (∀ p, d.link p = .down → exec (.laneLoss p) ⟨q, d⟩ = .next ⟨q, d⟩) ∧
    (d.linkU ≠ .down → NoneFills d.frames → exec (.laneLoss .u) ⟨q, d⟩ =
      .next ⟨q, ({ d with openU := none, laneU := none, linkU := .down, receiver := .idle }.bump .linkLoss).raise .link⟩) ∧
    (∀ pre c, d.linkU ≠ .down → FillsLast d.frames pre c → exec (.laneLoss .u) ⟨q, d⟩ =
      .next ⟨q, (({ d with
          openU := none, laneU := none, linkU := .down, receiver := .idle,
          frames := pre ++ [endedShort c] }.bump .rowsMissing (rowsAfterFront c)).bump .linkLoss).raise .link⟩) ∧
    (d.portA.link ≠ .down → exec (.laneLoss .a) ⟨q, d⟩ =
      .next ⟨q, ({ d with
          openA := none, laneA := none,
          portA := ⟨d.portA.enable, d.portA.crop, 0, false, [], .down⟩,
          frames := d.frames.map fun (c : FrameContext) => { c with deliveryA := cutIfLive c.deliveryA } }.bump .linkLoss).raise .link⟩) ∧
    (d.portB.link ≠ .down → exec (.laneLoss .b) ⟨q, d⟩ =
      .next ⟨q, ({ d with
          openB := none, laneB := none,
          portB := ⟨d.portB.enable, d.portB.crop, 0, false, [], .down⟩,
          frames := d.frames.map fun (c : FrameContext) => { c with deliveryB := cutIfLive c.deliveryB } }.bump .linkLoss).raise .link⟩)

/-! ## Symbols and packets -/

/-- Symbols are read one by one: reading a list is reading its parts in turn, and the rows of the table a packet on a
lane can come under all read the lane's symbols alike (R1; log entry 5). -/
def Obligations.SymbolsOneByOne : Prop :=
  (∀ (lane : LinkPort) (xs ys : List Symbol) (q : List Instr) (d d1 : Device),
    exec (.packetAbandoned lane xs) ⟨q, d⟩ = .next ⟨q, d1⟩ →
      exec (.packetAbandoned lane (xs ++ ys)) ⟨q, d⟩ = exec (.packetAbandoned lane ys) ⟨q, d1⟩) ∧
  ∀ (lane : LinkPort) (syms : List Symbol), ∀ c ∈ arrivals lane syms, ∀ (q : List Instr) (d : Device),
    exec c ⟨q, d⟩ = exec (.packetAbandoned lane syms) ⟨q, d⟩

/-- What one symbol does on a lane (R1): on a link not UP nothing; outside a packet START opens one and everything else
but a flow symbol is ignored; inside one a data symbol joins it, END completes it, and a START, IDLE, ALIGN, undecodable
symbol, short END or a data symbol too many abandons it, with HEADER_BAD and the alert flag HEADER. -/
def Obligations.LaneReading : Prop :=
  (∀ d : Device, d.opened .u = d.openU ∧ d.opened .a = d.openA ∧ d.opened .b = d.openB) ∧
  (∀ (d : Device) (packet : Option (List Byte)), d.setOpened .u packet = { d with openU := packet } ∧
    d.setOpened .a packet = { d with openA := packet } ∧ d.setOpened .b packet = { d with openB := packet }) ∧
  ∀ (lane : LinkPort) (q : List Instr) (d : Device), d.resetHeld = false →
    (d.link lane ≠ .up → ∀ syms, exec (.packetAbandoned lane syms) ⟨q, d⟩ = .next ⟨q, d⟩) ∧
    (d.link lane = .up → d.opened lane = none →
      exec (.packetAbandoned lane [.start]) ⟨q, d⟩ = .next ⟨q, d.setOpened lane (some [])⟩ ∧
      (∀ b, exec (.packetAbandoned lane [.data b]) ⟨q, d⟩ = .next ⟨q, d⟩) ∧
      ∀ s ∈ [Symbol.stop, .idle, .align, .undecodable], exec (.packetAbandoned lane [s]) ⟨q, d⟩ = .next ⟨q, d⟩) ∧
    (∀ bytes, d.link lane = .up → d.opened lane = some bytes →
      (∀ b, bytes.length < 6 + 16384 →
        exec (.packetAbandoned lane [.data b]) ⟨q, d⟩ = .next ⟨q, d.setOpened lane (some (bytes ++ [b]))⟩) ∧
      (∀ b, 6 + 16384 ≤ bytes.length → exec (.packetAbandoned lane [.data b]) ⟨q, d⟩ =
        .next ⟨q, ((d.setOpened lane none).bump .headerBad).raise .header⟩) ∧
      exec (.packetAbandoned lane [.start]) ⟨q, d⟩ =
        .next ⟨q, ((d.setOpened lane (some [])).bump .headerBad).raise .header⟩ ∧
      (∀ s ∈ [Symbol.idle, .align, .undecodable], exec (.packetAbandoned lane [s]) ⟨q, d⟩ =
        .next ⟨q, ((d.setOpened lane none).bump .headerBad).raise .header⟩) ∧
      (bytes.length < 6 → exec (.packetAbandoned lane [.stop]) ⟨q, d⟩ =
        .next ⟨q, ((d.setOpened lane none).bump .headerBad).raise .header⟩) ∧
      (6 ≤ bytes.length → exec (.packetAbandoned lane [.stop]) ⟨q, d⟩ =
        .next ⟨q, (d.setOpened lane none).receivePacket lane bytes⟩))

/-- CREDIT, HOLD and RESUME act on the port whose reverse lane carried them while its link is UP: CREDIT raises the
credits by one and stops at 4, HOLD holds the port, RESUME releases it, and nothing else changes.  On a link not UP they
are not received.  Among other symbols they do the same and leave the open packet as it is, and on port U's forward lane
they are ignored (R1, R18, R156, R160). -/
def Obligations.FlowSymbols : Prop :=
  (∀ d : Device, d.port .a = d.portA ∧ d.port .b = d.portB) ∧
  (∀ (d : Device) (port : Port), d.setPort .a port = { d with portA := port } ∧
    d.setPort .b port = { d with portB := port }) ∧
  OutPort.a.link = .a ∧ OutPort.b.link = .b ∧
  ∀ (q : List Instr) (d : Device), d.resetHeld = false →
    (∀ p : OutPort, (d.port p).link = .up →
      exec (.credit p) ⟨q, d⟩ =
        .next ⟨q, d.setPort p { d.port p with credits := min 4 ((d.port p).credits + 1) }⟩ ∧
      exec (.hold p) ⟨q, d⟩ = .next ⟨q, d.setPort p { d.port p with held := true }⟩ ∧
      exec (.resume p) ⟨q, d⟩ = .next ⟨q, d.setPort p { d.port p with held := false }⟩) ∧
    (∀ p : OutPort, (d.port p).link ≠ .up →
      exec (.credit p) ⟨q, d⟩ = .next ⟨q, d⟩ ∧ exec (.hold p) ⟨q, d⟩ = .next ⟨q, d⟩ ∧
        exec (.resume p) ⟨q, d⟩ = .next ⟨q, d⟩) ∧
    (∀ p : OutPort,
      exec (.packetAbandoned p.link [.credit]) ⟨q, d⟩ = exec (.credit p) ⟨q, d⟩ ∧
      exec (.packetAbandoned p.link [.hold]) ⟨q, d⟩ = exec (.hold p) ⟨q, d⟩ ∧
      exec (.packetAbandoned p.link [.resume]) ⟨q, d⟩ = exec (.resume p) ⟨q, d⟩) ∧
    ∀ s ∈ [Symbol.credit, .hold, .resume], exec (.packetAbandoned .u [s]) ⟨q, d⟩ = .next ⟨q, d⟩

/-- Decode and encode agree: a header as the part sends it passes the check clean with every field as it was, whatever
follows it.  Its bytes: kind, node address and spare bit; payload length; frame or row field; then P, C5 to C0 and 0, with C
the exclusive-or of the code word positions of all data bits that are 1 and P such that the 47 bits hold an even number of
ones.  Numbers stand high byte first, in what is sent and in what is read (R2, R3, R4). -/
def Obligations.HeaderRoundTrip : Prop :=
  (∀ (h : Header) (payload : List Byte), h.bytes.length = 6 ∧ checkHeader (h.bytes ++ payload) = .clean h) ∧
  codePositions = [3, 5, 6, 7, 9, 10, 11, 12, 13, 14, 15, 17, 18, 19, 20, 21, 22, 23, 24, 25, 26, 27, 28, 29, 30, 31, 33, 34,
    35, 36, 37, 38, 39, 40, 41, 42, 43, 44, 45, 46] ∧
  (∀ h : Header, ∃ p : Bool, h.bytes = headerLayout h (codeCheck h.dataBits) p false ∧
    codeOnes h.dataBits (codeCheck h.dataBits) p % 2 = 0) ∧
  (∀ (width n : Nat), (beBytes width n).length = width ∧
    ∀ i, i < width → (beBytes width n)[i]? = some (BitVec.ofNat 8 (n / 256 ^ (width - 1 - i)))) ∧
  ∀ (before after : List Byte) (width n : Nat),
    fieldAt (before ++ beBytes width n ++ after) before.length width = n % 256 ^ width

/-- Any one of the 47 code word bits inverted is corrected, any two are uncorrectable, and bit 0 of byte 5 is ignored.  On
any six bytes the check is that of the table: by the syndrome S, the received check value exclusive-ored with that of the
received data bits, and the parity of the 47 received bits; a corrected header has the data bit at position S inverted, and
its fields as received where S names a check bit (R3, R4). -/
def Obligations.HeaderErrors : Prop :=
  (∀ (h : Header) (c : BitVec 6) (p low : Bool) (payload : List Byte),
    let checked := checkHeader (headerLayout h c p low ++ payload)
    let s := (c ^^^ codeCheck h.dataBits).toNat
    let even := codeOnes h.dataBits c p % 2 = 0
    (s = 0 → even → checked = .clean h) ∧ (s = 0 → ¬ even → checked = .corrected h) ∧
    (s ∈ [1, 2, 4, 8, 16, 32] → ¬ even → checked = .corrected h) ∧
    (∀ i h', codePositions[i]? = some s → ¬ even → h'.dataBits = h.dataBits ^^^ BitVec.twoPow 40 (39 - i) →
      checked = .corrected h') ∧
    (47 ≤ s → checked = .uncorrectable) ∧ (s ≠ 0 → even → checked = .uncorrectable)) ∧
  ∀ h : Header,
    (∀ i : Fin 47, checkHeader (beBytes 6 (headerBits h ^^^ BitVec.twoPow 48 (i + 1)).toNat) = .corrected h) ∧
    (∀ i j : Fin 47, i ≠ j →
      checkHeader (beBytes 6 (headerBits h ^^^ BitVec.twoPow 48 (i + 1) ^^^ BitVec.twoPow 48 (j + 1)).toNat) =
        .uncorrectable) ∧
    checkHeader (beBytes 6 (headerBits h ^^^ 1).toNat) = .clean h

/-- A packet completed on a lane: with an uncorrectable header it is discarded with HEADER_BAD and the alert flag HEADER;
so is a malformed one, whose length field is above 16384 or differs from its payload or which breaks the rule of its
kind; a corrected header counts in HEADER_FIXED and the packet goes on as if it had come clean (R4, R6; the rule of rows
binds port U's lane alone, log entry 6). -/
def Obligations.DamagedPackets : Prop :=
  ∀ (lane : LinkPort) (bytes : List Byte) (q : List Instr) (d : Device), d.Receiving lane → 6 ≤ bytes.length →
    bytes.length ≤ 6 + 16384 → ∀ c ∈ arrivals lane (Symbol.packet bytes),
    (checkHeader bytes = .uncorrectable → exec c ⟨q, d⟩ = .next ⟨q, (d.bump .headerBad).raise .header⟩) ∧
    (∀ h, checkHeader bytes = .clean h →
      (16384 < h.length.toNat ∨ h.length.toNat ≠ (bytes.drop 6).length ∨ BreaksKindRule lane h.kind (bytes.drop 6)) →
      exec c ⟨q, d⟩ = .next ⟨q, (d.bump .headerBad).raise .header⟩) ∧
    (∀ h, checkHeader bytes = .corrected h →
      exec c ⟨q, d⟩ =
        exec (.packetAbandoned lane (Symbol.packet (h.bytes ++ bytes.drop 6))) ⟨q, d.bump .headerFixed⟩)

/-! ## Packets from the front end

Each statement is about a packet as it is sent, arriving whole on port U's forward lane with no packet open and no store
request on its way; `StoreRequestFirst` says what happens when one is. -/

/-- The store request on its way is taken first when a checked packet from port U arrives, and the packet then meets the
part the line store leaves (R72; log entry 10). -/
def Obligations.StoreRequestFirst : Prop :=
  ∀ (p : Packet) (q : List Instr) (d : Device), d.Receiving .u → p.payload.length ≤ 16384 →
    ¬ BreaksKindRule .u p.kind p.payload → ∀ c ∈ arrivals .u p.symbols, ∃ d1,
      exec .storeRequest ⟨q, d⟩ = .next ⟨q, d1⟩ ∧ d1.storeReq = none ∧ exec c ⟨q, d⟩ = exec c ⟨q, d1⟩

/-- A frame head that finds a filling frame ends its input short with SYNC, counts FRAME_SYNC, sets the alert flag SYNC,
and is then handled again (R45 case 1, R42). -/
def Obligations.HeadEndsFilling : Prop :=
  ∀ (node : BitVec 3) (spare : BitVec 1) (tag : BitVec 16) (group : BitVec 3) (ignored : BitVec 4)
    (note : Option SentNote) (pre : List FrameContext) (c : FrameContext) (q : List Instr) (d : Device),
    SentNote.Valid note → d.Receiving .u → d.storeReq = none → FillsLast d.frames pre c →
    exec (.frameHeadTaken (Packet.symbols ⟨1, node, spare, tag, frontHeadPayload group ignored note⟩)) ⟨q, d⟩ =
      exec (.frameHeadTaken (Packet.symbols ⟨1, node, spare, tag, frontHeadPayload group ignored note⟩))
        ⟨q, (({ d with
          frames := pre ++ [endedShort { c with flags := { c.flags with sync := true } }],
          receiver := .idle }.bump .rowsMissing (rowsAfterFront c)).bump .frameSync).raise .sync⟩

/-- A frame head that finds two contexts, none filling, is refused: the receiver moves to DISCARDING, FRAMES_DROPPED and
the alert flag DROP are raised, an embedded note becomes the held lens state with age 0, as taken, and nothing else changes
(R45 case 2, R44; log entry 9). -/
def Obligations.HeadRefused : Prop :=
  ∀ (node : BitVec 3) (spare : BitVec 1) (tag : BitVec 16) (group : BitVec 3) (ignored : BitVec 4)
    (note : Option SentNote) (q : List Instr) (d : Device),
    SentNote.Valid note → d.Receiving .u → d.storeReq = none → NoneFills d.frames → 2 ≤ d.frames.length →
    exec (.frameHeadTaken (Packet.symbols ⟨1, node, spare, tag, frontHeadPayload group ignored note⟩)) ⟨q, d⟩ =
      .next ⟨q, ({ d with
        receiver := .discarding,
        heldLens := match note with
          | some n => some ⟨n.record, 0⟩
          | none => d.heldLens }.bump .framesDropped).raise .drop⟩

/-- A frame head that finds fewer than two contexts, none filling, creates one at the tail of the frame queue: a pending
mode takes effect, the settings are copied, the counts are 0, the front absent, the next line 0, no band is held, and the
receiver is FILLING.  Beyond that only the held lens state, the profile table, the ports' credits and the counters
FRAMES_UNPROFILED, SKIP_A and SKIP_B can change (R27, R34, R39, R40, R41, R45 case 3, R46; what they become is stated in
FirstNote, Binding and CreditRequests).  The context's name is the model's own (log entry 3). -/
def Obligations.HeadCreates : Prop :=
  ∀ (node : BitVec 3) (spare : BitVec 1) (tag : BitVec 16) (group : BitVec 3) (ignored : BitVec 4)
    (note : Option SentNote) (q : List Instr) (d : Device),
    SentNote.Valid note → d.Receiving .u → d.storeReq = none → NoneFills d.frames → d.frames.length < 2 →
    ∃ (c : FrameContext) (d' : Device),
      exec (.frameHeadTaken (Packet.symbols ⟨1, node, spare, tag, frontHeadPayload group ignored note⟩)) ⟨q, d⟩ =
        .next ⟨q, d'⟩ ∧
      d' = { d with
        mode := d.pendingMode.getD d.mode,
        pendingMode := none,
        receiver := .filling,
        frames := d.frames ++ [c],
        nextFrame := d.nextFrame + 1,
        heldLens := d'.heldLens,
        profiles := d'.profiles,
        portA := { d.portA with credits := d'.portA.credits },
        portB := { d.portB with credits := d'.portB.credits },
        counters := d'.counters } ∧
      (∀ k : Counter, k ≠ .framesUnprofiled → k ≠ .skipA → k ≠ .skipB → d'.count k = d.count k) ∧
      c = { c with
        id := d.nextFrame, tag := tag, group := group.toFin, mode := d.pendingMode.getD d.mode,
        geometry := d.geometry, policy := d.policy, input := .filling, front := none, nextLine := 0,
        band := none, firstBand := none, lastBand := none,
        rowsStored := 0, rowsMissing := 0, crcErrors := 0, linesReachClamp := 0, linesScaleClamp := 0,
        linesSubstituted := 0, lateNotes := 0,
        flags := ⟨c.flags.unprofiled, c.flags.inherited, false, false, false, false, false, false⟩ }

/-- The first note and the identity of a created context, and the held lens state it leaves: the embedded note, clamped to
the frame; else a copy of the held record at row 0, inherited, when its raised age is within the stale limit; else none.
The age rises by one, stopping at 255 (R44, R46, R47). -/
def Obligations.FirstNote : Prop :=
  ∀ (node : BitVec 3) (spare : BitVec 1) (tag : BitVec 16) (group : BitVec 3) (ignored : BitVec 4)
    (note : Option SentNote) (q : List Instr) (d : Device),
    SentNote.Valid note → d.Receiving .u → d.storeReq = none → NoneFills d.frames → d.frames.length < 2 →
    ∃ (c : FrameContext) (d' : Device),
      exec (.frameHeadTaken (Packet.symbols ⟨1, node, spare, tag, frontHeadPayload group ignored note⟩)) ⟨q, d⟩ =
        .next ⟨q, d'⟩ ∧
      d'.frames = d.frames ++ [c] ∧
      (∀ n, note = some n →
        c.notes = [⟨{ n.record with row := min n.row.toNat (d.geometry.height - 1) }, false⟩] ∧
        c.identity = some n.identity ∧ c.flags.inherited = false ∧
        d'.heldLens = some ⟨{ n.record with row := min n.row.toNat (d.geometry.height - 1) }, 0⟩) ∧
      (∀ h, note = none → d.heldLens = some h → min 255 (h.age + 1) ≤ d.policy.staleLimit →
        c.notes = [⟨{ h.record with row := 0 }, true⟩] ∧ c.identity = some h.record.identity ∧
        c.flags.inherited = true ∧ d'.heldLens = some ⟨h.record, min 255 (h.age + 1)⟩) ∧
      (∀ h, note = none → d.heldLens = some h → d.policy.staleLimit < min 255 (h.age + 1) →
        c.notes = [] ∧ c.identity = none ∧ c.flags.inherited = false ∧
        d'.heldLens = some ⟨h.record, min 255 (h.age + 1)⟩) ∧
      (note = none → d.heldLens = none →
        c.notes = [] ∧ c.identity = none ∧ c.flags.inherited = false ∧ d'.heldLens = none)

/-- The binding of a created context: in PASS none is asked for; otherwise the READY entry of its identity is bound, its
hold count rises by one and its reach is taken; without one, or without an identity, the frame is UNPROFILED with reach
0/0 and FRAMES_UNPROFILED rises (R48, R98). -/
def Obligations.Binding : Prop :=
  ∀ (node : BitVec 3) (spare : BitVec 1) (tag : BitVec 16) (group : BitVec 3) (ignored : BitVec 4)
    (note : Option SentNote) (q : List Instr) (d : Device),
    SentNote.Valid note → d.Receiving .u → d.storeReq = none → NoneFills d.frames → d.frames.length < 2 →
    ∃ (c : FrameContext) (d' : Device),
      exec (.frameHeadTaken (Packet.symbols ⟨1, node, spare, tag, frontHeadPayload group ignored note⟩)) ⟨q, d⟩ =
        .next ⟨q, d'⟩ ∧
      d'.frames = d.frames ++ [c] ∧
      (c.mode = .pass →
        c.entry = none ∧ c.reachUp = 0 ∧ c.reachDown = 0 ∧ c.flags.unprofiled = false ∧ d'.profiles = d.profiles ∧
        d'.count .framesUnprofiled = d.count .framesUnprofiled) ∧
      (∀ i (e : Fin 8) p n, c.mode ≠ .pass → c.identity = some i → d.profiles[e] = .ready p n → p.identity = i →
        (∀ (f : Fin 8) p' n', d.profiles[f] = .ready p' n' → p'.identity = i → f = e) →
        c.entry = some e ∧ c.reachUp = p.reachUp ∧ c.reachDown = p.reachDown ∧ c.flags.unprofiled = false ∧
        d'.profiles = d.profiles.set e (.ready p (n + 1)) ∧
        d'.count .framesUnprofiled = d.count .framesUnprofiled) ∧
      (c.mode ≠ .pass →
        (∀ i, c.identity = some i → ∀ (e : Fin 8) p n, d.profiles[e] = .ready p n → p.identity ≠ i) →
        c.entry = none ∧ c.reachUp = 0 ∧ c.reachDown = 0 ∧ c.flags.unprofiled = true ∧ d'.profiles = d.profiles ∧
        d'.count .framesUnprofiled = satAdd (d.count .framesUnprofiled) 1)

/-- The credits of a created context: each port of the route group's member set that is enabled, UP and has a non-empty
clipped crop takes the frame on LIVE for one credit, or skips it without one and counts the skip; any other port is
EXCLUDED (R49, R154, R157). -/
def Obligations.CreditRequests : Prop :=
  ∀ (node : BitVec 3) (spare : BitVec 1) (tag : BitVec 16) (group : BitVec 3) (ignored : BitVec 4)
    (note : Option SentNote) (q : List Instr) (d : Device),
    SentNote.Valid note → d.Receiving .u → d.storeReq = none → NoneFills d.frames → d.frames.length < 2 →
    ∃ (c : FrameContext) (d' : Device),
      exec (.frameHeadTaken (Packet.symbols ⟨1, node, spare, tag, frontHeadPayload group ignored note⟩)) ⟨q, d⟩ =
        .next ⟨q, d'⟩ ∧
      d'.frames = d.frames ++ [c] ∧
      CreditGiven d.routes[group.toFin].a d.geometry d.portA d'.portA c.deliveryA (d.count .skipA) (d'.count .skipA) ∧
      CreditGiven d.routes[group.toFin].b d.geometry d.portB d'.portB c.deliveryB (d.count .skipB) (d'.count .skipB)

/-- Rows that are discarded: in IDLE with ROWS_STRAY, in DISCARDING with ROWS_DROPPED; in FILLING with ROWS_RANGE when
the row number is H or more, and with ROWS_ORDER when it is not above the front.  Nothing else changes (R50, R51). -/
def Obligations.RowsDiscarded : Prop :=
  ∀ (node : BitVec 3) (spare : BitVec 1) (row : BitVec 16) (payload : List Byte) (q : List Instr) (d : Device),
    2 ≤ payload.length → payload.length ≤ 16384 → d.Receiving .u → d.storeReq = none →
    (d.receiver = .idle →
      exec (.rowTaken (Packet.symbols ⟨2, node, spare, row, payload⟩)) ⟨q, d⟩ = .next ⟨q, d.bump .rowsStray⟩) ∧
    (d.receiver = .discarding →
      exec (.rowTaken (Packet.symbols ⟨2, node, spare, row, payload⟩)) ⟨q, d⟩ = .next ⟨q, d.bump .rowsDropped⟩) ∧
    (∀ pre c, d.receiver = .filling → FillsLast d.frames pre c → c.geometry.height ≤ row.toNat →
      exec (.rowTaken (Packet.symbols ⟨2, node, spare, row, payload⟩)) ⟨q, d⟩ = .next ⟨q, d.bump .rowsRange⟩) ∧
    (∀ pre c f, d.receiver = .filling → FillsLast d.frames pre c → row.toNat < c.geometry.height → c.front = some f →
      row.toNat ≤ f →
      exec (.rowTaken (Packet.symbols ⟨2, node, spare, row, payload⟩)) ⟨q, d⟩ = .next ⟨q, d.bump .rowsOrder⟩)

/-- A row above the front of the filling frame: the gap joins rows missing, a bad CRC is counted, the front advances.  Under
DROP a bad row counts as missing and is not stored; every other row becomes a store request, cut or padded with the fill
value to the frame's width, with ROWS_WIDTH where that changes it (R7, R8, R52, R53, R54). -/
def Obligations.RowTaken : Prop :=
  ∀ (node : BitVec 3) (spare : BitVec 1) (row : BitVec 16) (payload : List Byte) (pre : List FrameContext)
    (c : FrameContext) (q : List Instr) (d : Device),
    2 ≤ payload.length → payload.length ≤ 16384 → d.Receiving .u → d.storeReq = none →
    d.receiver = .filling → FillsLast d.frames pre c → row.toNat < c.geometry.height →
    (∀ f, c.front = some f → f < row.toNat) →
    let samples := unpackRow (rowSampleBytes payload)
    let bad := rowCrcBad row payload
    let gap := match c.front with
      | some f => row.toNat - f - 1
      | none => row.toNat
    (bad = true → c.policy.crc = .drop →
      exec (.rowTaken (Packet.symbols ⟨2, node, spare, row, payload⟩)) ⟨q, d⟩ =
        .next ⟨q, ({ d with frames := pre ++ [{ c with
            rowsMissing := satAdd c.rowsMissing (gap + 1),
            crcErrors := satAdd c.crcErrors 1,
            front := some row.toNat }] }.bump .rowsMissing (gap + 1)).bump .rowsCrc⟩) ∧
    (¬ (bad = true ∧ c.policy.crc = .drop) →
      exec (.rowTaken (Packet.symbols ⟨2, node, spare, row, payload⟩)) ⟨q, d⟩ =
        .next ⟨q, (({ d with
          frames := pre ++ [{ c with
            rowsMissing := satAdd c.rowsMissing gap,
            crcErrors := satAdd c.crcErrors (if bad then 1 else 0),
            front := some row.toNat }],
          storeReq := some ⟨c.id, row.toNat,
            samples.take c.geometry.width ++ List.replicate (c.geometry.width - samples.length) c.geometry.fill,
            bad⟩ }.bump .rowsMissing gap).bump .rowsCrc (if bad then 1 else 0)).bump .rowsWidth
              (if samples.length = c.geometry.width then 0 else 1)⟩)

/-- A lens note taken in IDLE or DISCARDING becomes the held lens state with age 0, as taken, and nothing else changes
(R9, R37, R44, R55). -/
def Obligations.NoteOutsideFrame : Prop :=
  ∀ (node : BitVec 3) (spare : BitVec 1) (row : BitVec 16) (i : Identity) (high : BitVec 6) (focal focus : BitVec 16)
    (q : List Instr) (d : Device), focal ≠ 0 → d.Receiving .u → d.storeReq = none → d.receiver ≠ .filling →
    exec (.lensNoteTaken (Packet.symbols ⟨3, node, spare, row, noteBody i high focal focus⟩)) ⟨q, d⟩ =
      .next ⟨q, { d with heldLens := some ⟨noteRecord row i focal focus, 0⟩ }⟩

/-- A lens note taken in FILLING: of another identity than the frame's it is discarded, with MISMATCH and LENS_MISMATCH.
Otherwise, its row clamped to H - 1, it replaces the note of its row or is inserted in row order, and becomes the held
lens state with age 0; it is late, with LATE, the late notes count and LENS_LATE, when its row lies before the centre of
the current band.  A ninth note of a new row is discarded with LENS_OVERFLOW (R44, R56, R57, R58, R105). -/
def Obligations.NoteInFrame : Prop :=
  ∀ (node : BitVec 3) (spare : BitVec 1) (row : BitVec 16) (i : Identity) (high : BitVec 6) (focal focus : BitVec 16)
    (pre : List FrameContext) (c : FrameContext) (q : List Instr) (d : Device),
    focal ≠ 0 → d.Receiving .u → d.storeReq = none → d.receiver = .filling → FillsLast d.frames pre c →
    let taken := exec (.lensNoteTaken (Packet.symbols ⟨3, node, spare, row, noteBody i high focal focus⟩)) ⟨q, d⟩
    let at' := min row.toNat (c.geometry.height - 1)
    let record : LensRecord := { noteRecord row i focal focus with row := at' }
    let late := ∃ b, c.band = some b ∧
      at' < min (b.index * c.geometry.bandHeight + c.geometry.bandHeight / 2) (c.geometry.height - 1)
    (∀ j, c.identity = some j → j ≠ i →
      taken = .next ⟨q, { d with
        frames := pre ++ [{ c with flags := { c.flags with mismatch := true } }] }.bump .lensMismatch⟩) ∧
    ((∀ j, c.identity = some j → j = i) →
      (∀ xs zs ys, c.notes = xs ++ zs ++ ys → (∀ x ∈ xs, x.record.row < at') → (∀ y ∈ ys, at' < y.record.row) →
        (∀ z ∈ zs, z.record.row = at') → zs.length ≤ 1 → (zs ≠ [] ∨ c.notes.length < 8) →
        (¬ late → taken = .next ⟨q, { d with
          frames := pre ++ [{ c with notes := xs ++ (⟨record, false⟩ : Note) :: ys }],
          heldLens := some ⟨record, 0⟩ }⟩) ∧
        (late → taken = .next ⟨q, { d with
          frames := pre ++ [{ c with
            notes := xs ++ (⟨record, false⟩ : Note) :: ys,
            flags := { c.flags with late := true },
            lateNotes := satAdd c.lateNotes 1 }],
          heldLens := some ⟨record, 0⟩ }.bump .lensLate⟩)) ∧
      ((∀ x ∈ c.notes, x.record.row ≠ at') → 8 ≤ c.notes.length → taken = .next ⟨q, d.bump .lensOverflow⟩))

/-- A frame tail: in IDLE ignored; in DISCARDING it brings the receiver to IDLE; in FILLING with another tag it sets SYNC on
the frame, counts FRAME_SYNC and sets the alert flag SYNC; with the frame's tag it ends the input, short when the front is
absent or above H - 1, and the receiver moves to IDLE (R42, R59). -/
def Obligations.FrameTail : Prop :=
  ∀ (node : BitVec 3) (spare : BitVec 1) (tag : BitVec 16) (q : List Instr) (d : Device),
    d.Receiving .u → d.storeReq = none →
    let taken := exec (.frameTailTaken (Packet.symbols ⟨4, node, spare, tag, []⟩)) ⟨q, d⟩
    (d.receiver = .idle → taken = .next ⟨q, d⟩) ∧
    (d.receiver = .discarding → taken = .next ⟨q, { d with receiver := .idle }⟩) ∧
    (∀ pre c, d.receiver = .filling → FillsLast d.frames pre c → c.tag ≠ tag →
      taken = .next ⟨q, ({ d with
        frames := pre ++ [{ c with flags := { c.flags with sync := true } }] }.bump .frameSync).raise .sync⟩) ∧
    (∀ pre c f, d.receiver = .filling → FillsLast d.frames pre c → c.tag = tag → c.front = some f →
      c.geometry.height ≤ f + 1 →
      taken = .next ⟨q, { d with frames := pre ++ [{ c with input := .ended false }], receiver := .idle }⟩) ∧
    (∀ pre c, d.receiver = .filling → FillsLast d.frames pre c → c.tag = tag →
      (∀ f, c.front = some f → f + 1 < c.geometry.height) →
      taken = .next ⟨q, { d with frames := pre ++ [endedShort c], receiver := .idle }.bump .rowsMissing (rowsAfterFront c)⟩)

/-- An answer or a foreign packet from port U joins the pass-through queue whole, or is discarded with PASS_DROP where 8 are
held (R5, R15, R16). -/
def Obligations.PassThrough : Prop :=
  ∀ (p : Packet) (q : List Instr) (d : Device), (∀ k ∈ [(1 : BitVec 4), 2, 3, 4], p.kind ≠ k) →
    p.payload.length ≤ 16384 → d.Receiving .u → d.storeReq = none →
    (d.passThrough.length < 8 →
      exec (.passThroughPacket p.symbols) ⟨q, d⟩ = .next ⟨q, { d with passThrough := d.passThrough ++ [p] }⟩) ∧
    (8 ≤ d.passThrough.length → exec (.passThroughPacket p.symbols) ⟨q, d⟩ = .next ⟨q, d.bump .passDrop⟩)

/-! ## Packets on the reverse lanes -/

/-- A service request on port A's reverse lane with the part's node address joins the command queue whole, or is discarded
with SERVICE_DROP and the alert flag SERVICE where 8 are held; with another address it joins the upstream queue, or is
discarded with UPSTREAM_DROP where 8 are held (R17, R19, R171). -/
def Obligations.ServiceRequestReceived : Prop :=
  ∀ (p : Packet) (q : List Instr) (d : Device), p.kind = 9 → p.payload.length ≤ 16384 → d.Receiving .a →
    let taken := exec (.serviceRequestReceived p.symbols) ⟨q, d⟩
    (p.node = d.node → d.commands.length < 8 → taken = .next ⟨q, { d with commands := d.commands ++ [p] }⟩) ∧
    (p.node = d.node → 8 ≤ d.commands.length → taken = .next ⟨q, (d.bump .serviceDrop).raise .service⟩) ∧
    (p.node ≠ d.node → d.upstream.length < 8 → taken = .next ⟨q, { d with upstream := d.upstream ++ [p] }⟩) ∧
    (p.node ≠ d.node → 8 ≤ d.upstream.length → taken = .next ⟨q, d.bump .upstreamDrop⟩)

/-- Any other packet on port A's reverse lane, and every packet on port B's, that passes the length check is discarded with
SERVICE_FOREIGN; a frame head, lens note or frame tail that breaks the payload rule of its kind is malformed there too, and
is discarded with HEADER_BAD and the alert flag HEADER instead (R6, R17).  That a row of fewer than 2 bytes, which is not
from the front end there, passes the check is the model's inference (log entry 6). -/
def Obligations.ReversePacketRefused : Prop :=
  ∀ (p : Packet) (q : List Instr) (d : Device), p.payload.length ≤ 16384 →
    (p.kind ≠ 9 → d.Receiving .a → ¬ BreaksKindRule .a p.kind p.payload →
      exec (.reversePacketRefused .a p.symbols) ⟨q, d⟩ = .next ⟨q, d.bump .serviceForeign⟩) ∧
    (d.Receiving .b → ¬ BreaksKindRule .b p.kind p.payload →
      exec (.reversePacketRefused .b p.symbols) ⟨q, d⟩ = .next ⟨q, d.bump .serviceForeign⟩) ∧
    ∀ port : OutPort, d.Receiving port.link → BreaksKindRule port.link p.kind p.payload →
      exec (.reversePacketRefused port p.symbols) ⟨q, d⟩ = .next ⟨q, (d.bump .headerBad).raise .header⟩

/-! ## The line store -/

/-- The line store takes the store request on its way: into the lowest-numbered free slot, the frame's rows stored rising
by one; with no slot free the row is dropped with OVERRUN, ROWS_OVERRUN and the alert flag OVERRUN; where its context has
left it is discarded (R65, R66, R69, R70, R71).  That without a request nothing happens is the model's choice (log
entry 4). -/
def Obligations.StoreRequest : Prop :=
  ∀ (q : List Instr) (d : Device), d.resetHeld = false →
    (d.storeReq = none → exec .storeRequest ⟨q, d⟩ = .next ⟨q, d⟩) ∧
    (∀ r pre c post (i : Fin 384), d.storeReq = some r → d.frames = pre ++ c :: post → c.id = r.frame →
      (∀ x ∈ pre ++ post, x.id ≠ r.frame) → d.slots[i] = none → (∀ j : Fin 384, j < i → d.slots[j] ≠ none) →
      exec .storeRequest ⟨q, d⟩ = .next ⟨q, { d with
        storeReq := none,
        slots := d.slots.set i (some r),
        frames := pre ++ { c with rowsStored := satAdd c.rowsStored 1 } :: post }⟩) ∧
    (∀ r pre c post, d.storeReq = some r → d.frames = pre ++ c :: post → c.id = r.frame →
      (∀ x ∈ pre ++ post, x.id ≠ r.frame) → (∀ i : Fin 384, d.slots[i] ≠ none) →
      exec .storeRequest ⟨q, d⟩ = .next ⟨q, ({ d with
        storeReq := none,
        frames := pre ++ { c with flags := { c.flags with overrun := true } } :: post }.bump
          .rowsOverrun).raise .overrun⟩) ∧
    (∀ r, d.storeReq = some r → (∀ x ∈ d.frames, x.id ≠ r.frame) →
      exec .storeRequest ⟨q, d⟩ = .next ⟨q, { d with storeReq := none }⟩)

/-! ## The remap engine and the sample arithmetic -/

/-- LINE_PRODUCTION changes nothing while the engine is not READY: in NO FRAME; in WAIT INPUT, the head frame's input
FILLING and its front absent or above the line's bound; in WAIT PORT, the frame LIVE on port A and 4 rows queued there
(R117, R118, R119; log entry 4). -/
def Obligations.LineWaits : Prop :=
  ∀ (q : List Instr) (d : Device),
    (d.frames = [] → exec .lineProduction ⟨q, d⟩ = .next ⟨q, d⟩) ∧
    (∀ c rest, d.frames = c :: rest → c.input = .filling →
      (∀ f, c.front = some f → f < min (c.nextLine + c.reachDown + 2) (c.geometry.height - 1)) →
      exec .lineProduction ⟨q, d⟩ = .next ⟨q, d⟩) ∧
    (∀ c rest crop, d.frames = c :: rest → c.deliveryA = .live crop → 4 ≤ rowsQueued d.portA.queue →
      exec .lineProduction ⟨q, d⟩ = .next ⟨q, d⟩)

/-- In READY the next line of the head frame is produced: band, hand-off to the ports, release, counts of the marks, and
the next output line one further (R121, R125, R126, R127, R163). -/
def Obligations.LineProduced : Prop :=
  ∀ (c : FrameContext) (rest : List FrameContext) (q : List Instr) (d : Device),
    d.frames = c :: rest → EngineReady d c → c.nextLine + 1 ≠ c.geometry.height → ∃ c' d',
      exec .lineProduction ⟨q, d⟩ = .next ⟨q, d'⟩ ∧ LineDone d c rest d' c'

/-- After line H - 1 the frame closes in the same event: an input still FILLING ends (it has its last row, since the engine
was READY), the report joins the queue of each port that is LIVE, the context leaves, its entry is unbound, and every slot
held for it is freed (R61, R62, R74, R100, R121, R164). -/
def Obligations.LastLine : Prop :=
  ∀ (c : FrameContext) (rest : List FrameContext) (q : List Instr) (d : Device),
    d.frames = c :: rest → EngineReady d c → c.nextLine + 1 = c.geometry.height → (c.input = .filling → NoneFills rest) →
    ∃ c1 c2 d1 d',
      exec .lineProduction ⟨q, d⟩ = .next ⟨q, d'⟩ ∧ LineDone d c rest d1 c1 ∧
      (c1.input = .filling → c2 = { c1 with input := .ended false }) ∧
      (c1.input ≠ .filling → c2 = c1) ∧
      d' = { d1 with
        frames := rest,
        receiver := if c.input = .filling then .idle else d.receiver,
        portA := { d1.portA with queue := d1.portA.queue ++ reportItem c2 .a },
        portB := { d1.portB with queue := d1.portB.queue ++ reportItem c2 .b },
        profiles := d'.profiles,
        slots := d'.slots } ∧
      (c.entry = none → d'.profiles = d.profiles) ∧
      (∀ e p n, c.entry = some e → d.profiles[e] = .ready p n → d'.profiles = d.profiles.set e (.ready p (n - 1))) ∧
      (∀ e p n, c.entry = some e → d.profiles[e] = .retiring p n → n ≤ 1 → d'.profiles = d.profiles.set e .empty) ∧
      (∀ e p n, c.entry = some e → d.profiles[e] = .retiring p n → 1 < n →
        d'.profiles = d.profiles.set e (.retiring p (n - 1))) ∧
      (∀ (i : Fin 384) r, d.slots[i] = some r → r.frame = c.id → d'.slots[i] = none) ∧
      ∀ i : Fin 384, (∀ r, d.slots[i] = some r → r.frame ≠ c.id) → d'.slots[i] = d.slots[i]

/-- The band of a line: fixed at the first line of each band, kept at the others.  The fix forms the lens state at the
band's centre row, takes the band set from the bound entry, or the identity set without an entry or a lens state, and sets
RANGE where a clamp to the stations acted; nothing else of the context changes (R104, R105, R106, R110, R111). -/
def Obligations.BandFixed : Prop :=
  ∀ (c : FrameContext) (profiles : Vector Entry 8),
    (c.nextLine % c.geometry.bandHeight ≠ 0 → c.atLine profiles = c) ∧
    (c.nextLine % c.geometry.bandHeight = 0 →
      let b := c.nextLine / c.geometry.bandHeight
      let lens := bandLens c.notes
        (min (b * c.geometry.bandHeight + c.geometry.bandHeight / 2) (c.geometry.height - 1))
      ∃ set range,
        c.atLine profiles = { c with
          band := some ⟨b, lens, set⟩,
          firstBand := if b = 0 then lens else c.firstBand,
          lastBand := lens,
          flags := { c.flags with range := c.flags.range || range } } ∧
        (∀ e p l, c.entry = some e → profiles[e].profile? = some p → lens = some l →
          set = p.bandSet l ∧ range = p.clamps l) ∧
        (c.entry = none ∨ lens = none → set = ⟨0, 0, 0, 0, 0, 0, 0⟩ ∧ range = false))

/-- The band lens state at a centre row, on notes in row order: the note at the row as it is; between two notes, their
values interpolated along the rows, halves toward +∞, inherited where both are; beyond the notes, the nearest as it is;
without notes, none (R107, R108, R109). -/
def Obligations.BandLens : Prop :=
  ∀ (before after : List Note) (lo hi : Note) (centre : Nat),
    bandLens [] centre = none ∧
    ((before ++ lo :: after).Pairwise (fun a b => a.record.row < b.record.row) → lo.record.row = centre →
      bandLens (before ++ lo :: after) centre = some ⟨lo.record.focal, lo.record.focus, lo.inherited⟩) ∧
    ((before ++ lo :: hi :: after).Pairwise (fun a b => a.record.row < b.record.row) → lo.record.row < centre →
      centre < hi.record.row → ∃ f d : Nat,
      bandLens (before ++ lo :: hi :: after) centre = some ⟨f, d, lo.inherited && hi.inherited⟩ ∧
      RoundedUp (((hi.record.focal : Int) - lo.record.focal) * (centre - lo.record.row))
        (hi.record.row - lo.record.row) (f - lo.record.focal) ∧
      RoundedUp (((hi.record.focus : Int) - lo.record.focus) * (centre - lo.record.row))
        (hi.record.row - lo.record.row) (d - lo.record.focus)) ∧
    ((hi :: after).Pairwise (fun a b => a.record.row < b.record.row) → centre < hi.record.row →
      bandLens (hi :: after) centre = some ⟨hi.record.focal, hi.record.focus, hi.inherited⟩) ∧
    ((before ++ [lo]).Pairwise (fun a b => a.record.row < b.record.row) → lo.record.row < centre →
      bandLens (before ++ [lo]) centre = some ⟨lo.record.focal, lo.record.focus, lo.inherited⟩)

/-- A clamp to the stations acts exactly on a value before the first or behind the last of two or more stations.  Each
clamped value has its index and weight among its stations, 0 to 255; each coefficient is the sum of the words of its place
in the four corner sets, by the corners' weights in 65536ths, rounded to the nearest, halves upward.  At a pair of stations
the band set is the profile's own set there; everywhere its coefficients lie within the ranges of their places (R83, R110,
R111, R112, R113, R114). -/
def Obligations.BandSets : Prop :=
  ∀ (p : Profile), p.Ok →
    let word (column row place : Nat) : Int :=
      (p.words.map CoefWord.value).getD ((column * p.focus.length + row) * 7 + place) 0
    (∀ l : LensState, p.clamps l = true ↔
      (2 ≤ p.focal.length ∧ (l.focal < p.focal.headD 0 ∨ p.focal.getLastD 0 < l.focal)) ∨
      (2 ≤ p.focus.length ∧ (l.focus < p.focus.headD 0 ∨ p.focus.getLastD 0 < l.focus))) ∧
    (∀ l : LensState, ∃ i wf j wd : Nat,
      StationCell p.focal (max (p.focal.headD 0) (min (p.focal.getLastD 0) l.focal)) i wf ∧ wf ≤ 255 ∧
      StationCell p.focus (max (p.focus.headD 0) (min (p.focus.getLastD 0) l.focus)) j wd ∧ wd ≤ 255 ∧
      ∀ place coefficient, (p.bandSet l).places[place]? = some coefficient →
        RoundedUp
          ((256 - wf) * (256 - wd) * word i j place + wf * (256 - wd) * word (i + 1) j place
            + (256 - wf) * wd * word i (j + 1) place + wf * wd * word (i + 1) (j + 1) place)
          65536 coefficient) ∧
    (∀ (l : LensState) (i j : Nat), p.focal[i]? = some l.focal → p.focus[j]? = some l.focus →
      (p.bandSet l).places = (List.range 7).map (word i j)) ∧
    (∀ l : LensState,
      (∀ k ∈ [(p.bandSet l).k1, (p.bandSet l).k2, (p.bandSet l).k3], -131071 ≤ k ∧ k ≤ 131071) ∧
      (∀ k ∈ [(p.bandSet l).redC0, (p.bandSet l).redC1, (p.bandSet l).blueC0, (p.bandSet l).blueC1],
        -32767 ≤ k ∧ k ≤ 32767))

/-- A line has one value for each column, by the set of the context's band, and carries a mark exactly where one of its
sites sets it.  In MAPX and MAPY a site's value is the position code of its displacement, limited to 0 to 16383, and sets
no substitution mark (R123, R125, R144). -/
def Obligations.LineValues : Prop :=
  (∀ (c : FrameContext) (b : Band), c.band = some b → c.bandSet = b.set) ∧
  ∀ (rows : List StoredRow) (c : FrameContext) (y : Nat),
    let at' (x : Nat) := site c c.bandSet (fetchRow rows c y) x y
    let line := computeLine rows c y
    line.values.length = c.geometry.width ∧
    (∀ x, x < c.geometry.width → line.values[x]? = some (at' x).value) ∧
    (line.reachClamped = true ↔ ∃ x, x < c.geometry.width ∧ (at' x).reachClamped = true) ∧
    (line.scaleClamped = true ↔ ∃ x, x < c.geometry.width ∧ (at' x).scaleClamped = true) ∧
    (line.substituted = true ↔ ∃ x, x < c.geometry.width ∧ (at' x).substituted = true) ∧
    (∀ x : Nat, c.mode = .mapx → (at' x).substituted = false ∧
      ((at' x).value.toNat : Int) = max 0 (min 16383 (8192 + ((sourcePosition c c.bandSet x y).sx - 64 * x)))) ∧
    (∀ x : Nat, c.mode = .mapy → (at' x).substituted = false ∧
      ((at' x).value.toNat : Int) = max 0 (min 16383 (8192 + ((sourcePosition c c.bandSet x y).sy - 64 * y))))

/-- Every source row read for output line y lies within y - U - 2 to y + D + 2: a site depends on no other row of the line
store (R75, R146, R148, R150). -/
def Obligations.RowsRead : Prop :=
  ∀ (c : FrameContext) (set : BandSet) (fetch fetch' : Nat → Fetched) (x y : Nat),
    c.geometry.Ok → x < c.geometry.width → y < c.geometry.height →
    (∀ k, y ≤ k + c.reachUp + 2 → k ≤ y + c.reachDown + 2 → k < c.geometry.height → fetch k = fetch' k) →
    site c set fetch x y = site c set fetch' x y

/-- A fetch for a row: the row where it is held; else the nearest row of its parity in the line's window, the upper of two
at one distance; else the fill value.  The rows fetched from are those the slots hold for the frame (R67, R75, R76, R77). -/
def Obligations.FetchRow : Prop :=
  (∀ (slots : List (Option StoredRow)) (frame : Nat) (r : StoredRow),
    r ∈ heldRows slots frame ↔ some r ∈ slots ∧ r.frame = frame) ∧
  (∀ (answer : Fetched) (column : Nat), answer.Gives column (answer.at column) answer.isSubstituted) ∧
  ∀ (rows : List StoredRow) (c : FrameContext) (y k : Nat), 0 < c.geometry.height →
    (∀ r ∈ rows, r.row = k → (∀ r' ∈ rows, r'.row = k → r' = r) → fetchRow rows c y k = .held r.samples) ∧
    (∀ r ∈ rows, (∀ r' ∈ rows, r'.row ≠ k) → Substitutes c y k r →
      (∀ r' ∈ rows, Substitutes c y k r' → r' = r ∨
        ((r.row : Int) - k).natAbs < ((r'.row : Int) - k).natAbs ∨
        (((r.row : Int) - k).natAbs = ((r'.row : Int) - k).natAbs ∧ r.row < r'.row)) →
      fetchRow rows c y k = .substituted r.samples) ∧
    ((∀ r' ∈ rows, r'.row ≠ k ∧ ¬ Substitutes c y k r') → fetchRow rows c y k = .filled c.geometry.fill)

/-- On the identity set and reach 0/0 a site is its own source: in PASS and CORRECT its value is its own sample as the line
store answers it, marked substituted exactly when that answer is; in MAPX and MAPY the code 8192.  No clamp mark is set
(R124). -/
def Obligations.IdentityMapping : Prop :=
  ∀ (c : FrameContext) (fetch : Nat → Fetched) (x y : Nat), c.geometry.Ok → x < c.geometry.width → y < c.geometry.height →
    c.reachUp = 0 → c.reachDown = 0 →
    let s := site c ⟨0, 0, 0, 0, 0, 0, 0⟩ fetch x y
    s.reachClamped = false ∧ s.scaleClamped = false ∧
    (c.mode = .pass ∨ c.mode = .correct → s.value = (fetch y).at x ∧ s.substituted = (fetch y).isSubstituted) ∧
    (c.mode = .mapx ∨ c.mode = .mapy → s.value = 8192 ∧ s.substituted = false)

/-- The source position of a site.  Its colour, by the phase and its parities, gives the colour terms; the radius term is the
floored quotient of the squared distance by the squared reference radius, in units of 2^-16, at most 262144; the scale is
the floored polynomial in it, limited to 32768 to 131071, marked where the limit acts; each product is rounded to the
nearest, halves away from zero; the source row is limited to the reach, marked where that limit acts (R134, R137 to R143;
the reference radius is at least 1, R28). -/
def Obligations.SourcePositions : Prop :=
  ∀ (c : FrameContext) (set : BandSet) (x y : Nat), 1 ≤ c.geometry.rref →
    let g := c.geometry
    let dx : Int := 64 * (x : Int) - g.cx64
    let dy : Int := 64 * (y : Int) - g.cy64
    let p := sourcePosition c set x y
    ∃ (colour : Colour) (c0 c1 quotient rho floored scale sy : Int),
      (colour, x % 2, y % 2) ∈ colourOrigins g.phase ∧
      (colour = .r → c0 = set.redC0 ∧ c1 = set.redC1) ∧ (colour = .b → c0 = set.blueC0 ∧ c1 = set.blueC1) ∧
      (colour = .gr ∨ colour = .gb → c0 = 0 ∧ c1 = 0) ∧
      Floored (65536 * (dx * dx + dy * dy)) ((64 * (g.rref : Int)) ^ 2) quotient ∧
      0 ≤ rho ∧ rho = min 262144 quotient ∧
      Floored (65536 ^ 3 * (65536 + c0) + 65536 ^ 2 * ((set.k1 + c1) * rho) + 65536 * (set.k2 * rho ^ 2) + set.k3 * rho ^ 3)
        (65536 ^ 3) floored ∧
      scale = max 32768 (min 131071 floored) ∧ (p.scaleClamped = true ↔ floored < 32768 ∨ 131071 < floored) ∧
      RoundedAway (dx * scale) 65536 (p.sx - g.cx64) ∧ RoundedAway (dy * scale) 65536 (sy - g.cy64) ∧
      p.sy = max (64 * ((y : Int) - c.reachUp)) (min (64 * ((y : Int) + c.reachDown)) sy) ∧
      (p.reachClamped = true ↔ sy < 64 * ((y : Int) - c.reachUp) ∨ 64 * ((y : Int) + c.reachDown) < sy)

/-- The lattice cell of a coordinate holds it to within four sixty-fourths, its fraction within 0 to 31; the neighbours
that take part have non-zero weights that sum to 1024; the resampled value is their weighted mean, halves upward.  In PASS
and CORRECT a site lies in the cell of its source position and reads the cell's four lattice sites, each by its own weight
and those of weight 0 not at all: its value is their weighted mean, and it is marked where one read is marked.  Inside the
image a neighbour gives its fetched sample; outside, the nearest lattice site's under REPLICATE, the fill value without a
fetch or a mark under FILL (R145 to R151). -/
def Obligations.Resampling : Prop :=
  (∀ (position : Int) (parity : Nat),
    OnLattice position parity (latticeCell position parity).1 (latticeCell position parity).2) ∧
  (∀ u v : Int × Nat, u.2 ≤ 31 → v.2 ≤ 31 →
    ((neighbours u v).map Neighbour.weight).sum = 1024 ∧ ∀ n ∈ neighbours u v, n.weight ≠ 0) ∧
  (∀ values : List (Nat × Sample), (values.map Prod.fst).sum = 1024 →
    (resample values).toNat = ((values.map fun v => v.1 * v.2.toNat).sum + 512) / 1024) ∧
  ∀ (c : FrameContext) (set : BandSet) (fetch : Nat → Fetched) (x y : Nat), c.mode = .pass ∨ c.mode = .correct →
    let p := sourcePosition c set x y
    let s := site c set fetch x y
    ∃ (i j : Int) (u v : Nat) (near right below diagonal : Sample × Bool),
      OnLattice p.sx (x % 2) i u ∧ OnLattice p.sy (y % 2) j v ∧
      let read : List ReadNeighbour :=
        [⟨(32 - u) * (32 - v), i, j, near.1, near.2⟩, ⟨u * (32 - v), i + 1, j, right.1, right.2⟩,
          ⟨(32 - u) * v, i, j + 1, below.1, below.2⟩, ⟨u * v, i + 1, j + 1, diagonal.1, diagonal.2⟩]
      (∀ n ∈ read, n.weight ≠ 0 → NeighbourGives c.geometry fetch (x % 2) (y % 2) n.i n.j n.value n.marked) ∧
      s.value.toNat = ((read.map fun n => n.weight * n.value.toNat).sum + 512) / 1024 ∧
      (s.substituted = true ↔ ∃ n ∈ read, n.weight ≠ 0 ∧ n.marked = true)

/-- Decode and encode agree: the samples of a row as the part packs them are read back as they were, and its CRC is good.
Packing n samples gives ceil(14 n / 8) bytes, each sample most significant bit first from bit 7 of the first byte on, the
last byte padded with zeros.  Of a payload of L bytes the first L - 2 give floor(8 (L - 2) / 14) samples, read from as many
bits in that order, later bits ignored, and the last two are the CRC, which is bad where it differs from that of the row
number and the sample bytes.  The CRC starts at 65535 and takes each byte most significant bit first; the nine bytes 49 to
57 give 0x29B1 (R7, R8). -/
def Obligations.RowRoundTrip : Prop :=
  (∀ (number : Nat) (samples : List Sample),
    rowSampleBytes (rowPayload number samples) = packRow samples ∧ unpackRow (packRow samples) = samples ∧
      rowCrcBad (BitVec.ofNat 16 number) (rowPayload number samples) = false) ∧
  (∀ samples : List Sample, (packRow samples).length = (14 * samples.length + 7) / 8 ∧
    ∀ (k : Nat) (b : Byte), (packRow samples)[k]? = some b → ∀ j, j < 8 →
      (∀ s, samples[(8 * k + j) / 14]? = some s → b.getMsbD j = s.getMsbD ((8 * k + j) % 14)) ∧
      (14 * samples.length ≤ 8 * k + j → b.getMsbD j = false)) ∧
  (∀ bytes : List Byte, (unpackRow bytes).length = 8 * bytes.length / 14 ∧
    ∀ (i : Nat) (s : Sample), (unpackRow bytes)[i]? = some s → ∀ j, j < 14 →
      ∃ b, bytes[(14 * i + j) / 8]? = some b ∧ s.getMsbD j = b.getMsbD ((14 * i + j) % 8)) ∧
  (∀ (number : BitVec 16) (bytes : List Byte) (high low : Byte),
    rowSampleBytes (bytes ++ [high, low]) = bytes ∧
    (rowCrcBad number (bytes ++ [high, low]) = true ↔ rowCrc number bytes ≠ high ++ low) ∧
    rowCrc number bytes = crc16 ([number.extractLsb' 8 8, number.extractLsb' 0 8] ++ bytes)) ∧
  crc16 [] = 65535 ∧
  (∀ (bytes : List Byte) (b : Byte), crc16 (bytes ++ [b]) = ((List.range 8).map b.getMsbD).foldl crcShift (crc16 bytes)) ∧
  crc16 [49, 50, 51, 52, 53, 54, 55, 56, 57] = 0x29B1

/-! ## Sending -/

/-- What the part sends: a packet is its header and its payload; frame head, row, frame report, markers and answer have the
kind, node address, field and payload of their layout, and what they carry is the context's, the clipped crop's and the
line's (R2, R12, R13, R14, R62, R163, R165; the codes of modes and statuses are stated in IdentifyAndStatus).  The starts of
packets.  ARBITER_CHOICE: with the lane free, port A UP and released, the first of the answer queue, the pass-through queue
and port A's queue that is not empty, in rotation from the one after the source chosen last, begins its front item and is
the source chosen last.  PORT_B_SEND and UPSTREAM_SEND: the item, or the request, at the front begins (R19, R161, R162).
A sending lane carries IDLE while its link is DOWN and between packets, ALIGN while it is ALIGNING, and while it is UP the
packet begun, whole from START to END (R2, R20).  That otherwise nothing happens, the lane busy, the link not UP, the port
held or the queue empty, is the model's choice (log entry 4). -/
def Obligations.SendingsBegin : Prop :=
  Sys2Proof.Machine.rotation .frame = [.answer, .passThrough, .frame] ∧
    Sys2Proof.Machine.rotation .answer = [.passThrough, .frame, .answer] ∧
    Sys2Proof.Machine.rotation .passThrough = [.frame, .answer, .passThrough] ∧
  (∀ p : Packet, p.bytes =
    Header.bytes ⟨p.kind, p.node, p.spare, BitVec.ofNat 16 p.payload.length, p.field⟩ ++ p.payload) ∧
  [Delivery.excluded, .skipped, .cut].map Delivery.code = [0, 1, 3] ∧ (∀ crop, (Delivery.live crop).code = 2) ∧
  (∀ node, ItemPackets node) ∧ (∀ r, (sentReport r).length = 31) ∧ (∀ c, ItemContents c) ∧ (∀ d, FrontPackets d) ∧
  (∀ queue, rowsQueued queue = queue.countP fun i => match i with | .row _ _ _ => true | _ => false) ∧
  (∀ p : Packet, p.symbols = [.start] ++ p.bytes.map .data ++ [.stop]) ∧
  (∀ d : Device, d.resetHeld = false → LaneCarries d.linkU d.laneU (d.laneOutput .u) ∧
    LaneCarries d.portA.link (d.laneA.map LaneSend.bytes) (d.laneOutput .a) ∧
    LaneCarries d.portB.link d.laneB (d.laneOutput .b)) ∧
  ∀ (q : List Instr) (d : Device), d.resetHeld = false →
    (d.laneA ≠ none ∨ d.portA.link ≠ .up ∨ d.portA.held = true ∨
      (d.answers = [] ∧ d.passThrough = [] ∧ d.portA.queue = []) → exec .arbiterChoice ⟨q, d⟩ = .next ⟨q, d⟩) ∧
    (∀ pre s post p, d.laneA = none → d.portA.link = .up → d.portA.held = false →
      Sys2Proof.Machine.rotation d.lastSource = pre ++ s :: post → (∀ t ∈ pre, d.frontPacket t = none) →
      d.frontPacket s = some p →
      exec .arbiterChoice ⟨q, d⟩ = .next ⟨q, { d with lastSource := s, laneA := some ⟨s, p.bytes⟩ }⟩) ∧
    (d.laneB ≠ none ∨ d.portB.link ≠ .up ∨ d.portB.held = true ∨ d.portB.queue = [] →
      exec .portBSend ⟨q, d⟩ = .next ⟨q, d⟩) ∧
    (∀ i rest, d.laneB = none → d.portB.link = .up → d.portB.held = false → d.portB.queue = i :: rest →
      exec .portBSend ⟨q, d⟩ = .next ⟨q, { d with laneB := some (i.packet d.node).bytes }⟩) ∧
    (d.laneU ≠ none ∨ d.linkU ≠ .up ∨ d.upstream = [] → exec .upstreamSend ⟨q, d⟩ = .next ⟨q, d⟩) ∧
    (∀ p rest, d.laneU = none → d.linkU = .up → d.upstream = p :: rest →
      exec .upstreamSend ⟨q, d⟩ = .next ⟨q, { d with laneU := some p.bytes }⟩)

/-- The ends of packets: the item whose END has gone leaves the front of its queue and the lane is free (R16, R19, R159,
R173).  That nothing happens where the lane carries no such item is the model's choice (log entry 4). -/
def Obligations.SendingsEnd : Prop :=
  ∀ (bytes : List Byte) (q : List Instr) (d : Device), d.resetHeld = false →
    (d.laneA = some ⟨.frame, bytes⟩ → exec (.portItemSent .a) ⟨q, d⟩ =
      .next ⟨q, { d with portA := { d.portA with queue := d.portA.queue.tail }, laneA := none }⟩) ∧
    (d.laneB = some bytes → exec (.portItemSent .b) ⟨q, d⟩ =
      .next ⟨q, { d with portB := { d.portB with queue := d.portB.queue.tail }, laneB := none }⟩) ∧
    (d.laneA = some ⟨.answer, bytes⟩ → exec .answerSent ⟨q, d⟩ =
      .next ⟨q, { d with answers := d.answers.tail, laneA := none }⟩) ∧
    (d.laneA = some ⟨.passThrough, bytes⟩ → exec .passThroughSent ⟨q, d⟩ =
      .next ⟨q, { d with passThrough := d.passThrough.tail, laneA := none }⟩) ∧
    (d.laneU = some bytes → exec .upstreamSent ⟨q, d⟩ =
      .next ⟨q, { d with upstream := d.upstream.tail, laneU := none }⟩) ∧
    ((∀ l, d.laneA = some l → l.source ≠ .frame) → exec (.portItemSent .a) ⟨q, d⟩ = .next ⟨q, d⟩) ∧
    (d.laneB = none → exec (.portItemSent .b) ⟨q, d⟩ = .next ⟨q, d⟩) ∧
    ((∀ l, d.laneA = some l → l.source ≠ .answer) → exec .answerSent ⟨q, d⟩ = .next ⟨q, d⟩) ∧
    ((∀ l, d.laneA = some l → l.source ≠ .passThrough) → exec .passThroughSent ⟨q, d⟩ = .next ⟨q, d⟩) ∧
    (d.laneU = none → exec .upstreamSent ⟨q, d⟩ = .next ⟨q, d⟩)

/-! ## Service requests

`d.Asked body rest`: the oldest request has this body, `rest` stands behind it, and the answer queue has room.
`d.answered rest tag code status results`: the request has left, its answer stands at the tail of the answer queue, and
nothing else has changed. -/

/-- An execution happens only for the oldest request, as the command of its code, with room for its answer; otherwise the
row changes nothing: no request, a body of fewer than 2 bytes, another code, another block's RESET_BLOCK, no room.  The body
is checked first: too short, an unlisted code, or arguments that do not fit are answered BADLEN or UNKNOWN and change
nothing else (R172, R174, R176; log entries 4 and 7). -/
def Obligations.Execution : Prop :=
  ∀ (q : List Instr) (d : Device) (rest : List Packet),
    (∀ e ∈ executions,
      (d.commands = [] → exec e.1 ⟨q, d⟩ = .next ⟨q, d⟩) ∧
      (∀ p, d.commands = p :: rest → p.payload.length < 2 → exec e.1 ⟨q, d⟩ = .next ⟨q, d⟩) ∧
      (∀ p tag code args, d.commands = p :: rest → p.payload = tag :: code :: args → code ≠ e.2 →
        exec e.1 ⟨q, d⟩ = .next ⟨q, d⟩) ∧
      (∀ p args tag, p.payload = tag :: e.2 :: args → d.commands = p :: rest → 8 ≤ d.answers.length →
        (e.2 ≠ 17 ∨ args ≠ []) → exec e.1 ⟨q, d⟩ = .next ⟨q, d⟩)) ∧
    (∀ e ∈ blockResets, ∀ p tag (code : Byte), d.commands = p :: rest → p.payload = [tag, 16, code] → code.toNat ≤ 4 →
      code ≠ e.2 → exec e.1 ⟨q, d⟩ = .next ⟨q, d⟩) ∧
    (d.commands = [] ∨ 8 ≤ d.answers.length → exec .unknownCommand ⟨q, d⟩ = .next ⟨q, d⟩) ∧
    (d.Asked [] rest → exec .unknownCommand ⟨q, d⟩ = .next ⟨q, d.answered rest 0 0 .badLen []⟩) ∧
    (∀ tag, d.Asked [tag] rest → exec .unknownCommand ⟨q, d⟩ = .next ⟨q, d.answered rest tag 0 .badLen []⟩) ∧
    (∀ (tag code : Byte) args, d.Asked (tag :: code :: args) rest → (code = 0 ∨ 17 < code.toNat) →
      exec .unknownCommand ⟨q, d⟩ = .next ⟨q, d.answered rest tag code .unknown []⟩) ∧
    (∀ (tag code : Byte) args, d.Asked (tag :: code :: args) rest → 1 ≤ code.toNat → code.toNat ≤ 17 →
      exec .unknownCommand ⟨q, d⟩ = .next ⟨q, d⟩) ∧
    (∀ e ∈ fixedLengths, ∀ tag args, d.Asked (tag :: e.2.1 :: args) rest → args.length ≠ e.2.2 →
      exec e.1 ⟨q, d⟩ = .next ⟨q, d.answered rest tag e.2.1 .badLen []⟩)

/-- IDENTIFY answers the part's constants and its latched straps, READ_STATUS the picture of the part; neither changes
anything else (R179, R180).  The codes of modes, of an absent pending mode, of receiver, input, link and entry states (R178,
R180) and of statuses (R175). -/
def Obligations.IdentifyAndStatus : Prop :=
  [Mode.pass, .correct, .mapx, .mapy].map Mode.code = [0, 1, 2, 3] ∧
  pendingCode none = 255 ∧ (∀ m, pendingCode (some m) = m.code) ∧
  [Receiver.idle, .filling, .discarding].map Receiver.code = [0, 1, 2] ∧
  [InputState.filling, .ended false, .ended true].map InputState.code = [0, 1, 2] ∧
  [LinkState.down, .aligning, .up].map LinkState.code = [0, 1, 2] ∧
  (∀ p n, [Entry.empty, .loading p, .ready p n, .retiring p n].map Entry.code = [0, 1, 2, 3]) ∧
  [Status.ok, .unknown, .badLen, .badArg, .wrongMode, .state, .range, .duplicate, .incomplete, .badStation].map
    Status.code = [0, 1, 2, 3, 4, 5, 6, 7, 8, 9] ∧
  ∀ (tag : Byte) (q : List Instr) (d : Device) (rest : List Packet),
    (d.Asked [tag, 1] rest → exec .identify ⟨q, d⟩ = .next ⟨q, d.answered rest tag 1 .ok
      (beBytes 2 2071 ++ beBytes 2 340 ++ [1, (0#5 ++ d.node : BitVec 8), if d.portBFitted then 1 else 0]
        ++ beBytes 2 384 ++ [8, 12, 6, 8, 2])⟩) ∧
    (d.Asked [tag, 2] rest → exec .readStatus ⟨q, d⟩ = .next ⟨q, d.answered rest tag 2 .ok
      ([d.mode.code, pendingCode d.pendingMode, d.receiver.code, BitVec.ofNat 8 d.frames.length]
        ++ d.frames.flatMap (fun c =>
          beBytes 2 c.tag.toNat ++ [c.input.code] ++ beBytes 2 (c.front.getD 65535) ++ beBytes 2 c.nextLine)
        ++ beBytes 2 (d.slots.toList.countP Option.isNone)
        ++ beBytes 2 (d.slots.toList.countP fun slot => slot.any StoredRow.crcBad)
        ++ (match d.heldLens with
          | none => [0]
          | some h => [1] ++ beBytes 2 h.record.row ++ beBytes 4 h.record.identity.lensId.toNat
              ++ [(0#6 ++ h.record.identity.converter : BitVec 8)] ++ beBytes 2 h.record.focal
              ++ beBytes 2 h.record.focus ++ beBytes 1 h.age)
        ++ [d.linkU.code, d.portA.link.code, d.portB.link.code]
        ++ [BitVec.ofNat 8 d.portA.credits, if d.portA.held then 1 else 0]
        ++ [BitVec.ofNat 8 d.portB.credits, if d.portB.held then 1 else 0]
        ++ [(0#2 ++ d.alerts : BitVec 8), (0#2 ++ d.alertEnable : BitVec 8)])⟩)

/-- READ_COUNTERS answers the 26 counters and zeroes them where clear is 1.  CLEAR_ALERTS clears the flags of its mask,
SET_ALERTS writes the enables; a mask with bit 7 or 6 set, and a clear above 1, are refused with BADARG and result 1 and
change nothing else (R182, R184, R185). -/
def Obligations.CountersAndAlertsCommands : Prop :=
  ∀ (tag a : Byte) (q : List Instr) (d : Device) (rest : List Packet),
    (d.Asked [tag, 3, a] rest →
      let pairs := (26 : Byte) :: (List.finRange 26).flatMap fun (i : Fin 26) =>
        BitVec.ofNat 8 (i.val + 1) :: beBytes 2 (d.counters[i]).toNat
      (1 < a.toNat → exec .readCounters ⟨q, d⟩ = .next ⟨q, d.answered rest tag 3 .badArg [1]⟩) ∧
      (a = 0 → exec .readCounters ⟨q, d⟩ = .next ⟨q, d.answered rest tag 3 .ok pairs⟩) ∧
      (a = 1 → exec .readCounters ⟨q, d⟩ =
        .next ⟨q, { d with counters := Vector.replicate 26 0 }.answered rest tag 3 .ok pairs⟩)) ∧
    (d.Asked [tag, 4, a] rest →
      (64 ≤ a.toNat → exec .clearAlerts ⟨q, d⟩ = .next ⟨q, d.answered rest tag 4 .badArg [1]⟩) ∧
      (∀ m : BitVec 6, a = (0#2 ++ m : BitVec 8) → exec .clearAlerts ⟨q, d⟩ =
        .next ⟨q, { d with alerts := d.alerts &&& ~~~m }.answered rest tag 4 .ok [(0#2 ++ (d.alerts &&& ~~~m) : BitVec 8)]⟩)) ∧
    (d.Asked [tag, 5, a] rest →
      (64 ≤ a.toNat → exec .setAlerts ⟨q, d⟩ = .next ⟨q, d.answered rest tag 5 .badArg [1]⟩) ∧
      (∀ m : BitVec 6, a = (0#2 ++ m : BitVec 8) → exec .setAlerts ⟨q, d⟩ =
        .next ⟨q, { d with alertEnable := m }.answered rest tag 5 .ok [a]⟩))

/-- SET_MODE: a code above 3 is refused with BADARG.  A requested mode is admitted when it equals the reference (the pending
mode, else the current mode), or either is PASS; it then becomes the pending mode, or leaves none where it equals the
current mode.  Any other is refused with WRONGMODE.  Every answer carries the current and the pending mode (R25, R26). -/
def Obligations.SetMode : Prop :=
  ∀ (tag code : Byte) (q : List Instr) (d : Device) (rest : List Packet), d.Asked [tag, 6, code] rest →
    let reference := d.pendingMode.getD d.mode
    (3 < code.toNat → exec .setMode ⟨q, d⟩ =
      .next ⟨q, d.answered rest tag 6 .badArg [d.mode.code, pendingCode d.pendingMode]⟩) ∧
    ∀ m : Mode, code = m.code →
      ((m = reference ∨ reference = .pass ∨ m = .pass) →
        let pending := if m = d.mode then none else some m
        exec .setMode ⟨q, d⟩ = .next ⟨q, { d with pendingMode := pending }.answered rest tag 6 .ok
          [d.mode.code, pendingCode pending]⟩) ∧
      (¬ (m = reference ∨ reference = .pass ∨ m = .pass) → exec .setMode ⟨q, d⟩ =
        .next ⟨q, d.answered rest tag 6 .wrongMode [d.mode.code, pendingCode d.pendingMode]⟩)

/-- SET_GEOMETRY: outside PASS, or with another mode than PASS pending, it is refused with WRONGMODE before its fields are
looked at; else the first field out of range is refused with BADARG and its number; else all nine are written.  A refused
request changes nothing else (R29, R30). -/
def Obligations.SetGeometry : Prop :=
  ∀ (tag : Byte) (g : SentGeometry) (q : List Instr) (d : Device) (rest : List Packet),
    d.Asked (tag :: 7 :: g.bytes) rest →
    let admitted := d.mode = .pass ∧ (d.pendingMode = none ∨ d.pendingMode = some .pass)
    (¬ admitted → exec .setGeometry ⟨q, d⟩ = .next ⟨q, d.answered rest tag 7 .wrongMode []⟩) ∧
    (∀ n ∈ [1, 2, 3, 4, 5, 6, 7, 8, 9], admitted → ¬ g.InRange n → (∀ m, m < n → g.InRange m) →
      exec .setGeometry ⟨q, d⟩ = .next ⟨q, d.answered rest tag 7 .badArg [BitVec.ofNat 8 n]⟩) ∧
    (admitted → (∀ n, g.InRange n) → exec .setGeometry ⟨q, d⟩ = .next ⟨q, { d with
      geometry := ⟨g.width.toNat, g.height.toNat, g.bayer, g.cx64.toNat, g.cy64.toNat, g.rref.toNat,
        if g.edge = 0 then .replicate else .fill, g.fill.setWidth 14, g.bandHeight.toNat⟩ }.answered rest tag 7 .ok []⟩)

/-- SET_INPUT writes the CRC policy and the stale limit, SET_ROUTE a group's member set; the first argument out of range is
refused with BADARG and its number, and nothing else changes (R33, R155). -/
def Obligations.SetInputAndRoute : Prop :=
  ∀ (tag a b : Byte) (q : List Instr) (d : Device) (rest : List Packet),
    (d.Asked [tag, 8, a, b] rest →
      (1 < a.toNat → exec .setInput ⟨q, d⟩ = .next ⟨q, d.answered rest tag 8 .badArg [1]⟩) ∧
      (a.toNat ≤ 1 → b = 0 → exec .setInput ⟨q, d⟩ = .next ⟨q, d.answered rest tag 8 .badArg [2]⟩) ∧
      (a.toNat ≤ 1 → b ≠ 0 → exec .setInput ⟨q, d⟩ = .next ⟨q, { d with
        policy := ⟨if a = 0 then .keep else .drop, b.toNat⟩ }.answered rest tag 8 .ok []⟩)) ∧
    (d.Asked [tag, 9, a, b] rest →
      (7 < a.toNat → exec .setRoute ⟨q, d⟩ = .next ⟨q, d.answered rest tag 9 .badArg [1]⟩) ∧
      (a.toNat ≤ 7 → 3 < b.toNat → exec .setRoute ⟨q, d⟩ = .next ⟨q, d.answered rest tag 9 .badArg [2]⟩) ∧
      (∀ g : Fin 8, a.toNat = g → b.toNat ≤ 3 → exec .setRoute ⟨q, d⟩ = .next ⟨q, { d with
        routes := d.routes.set g ⟨b.getLsbD 0, b.getLsbD 1⟩ }.answered rest tag 9 .ok []⟩))

/-- SET_PORT: a port code above 1 is refused with BADARG and result 1, port B where it is not fitted with STATE; then the
first of arguments 2 to 6 out of range, then a base above its limit, with BADARG and the number; else the port's enable and
crop are written.  A refused request changes nothing else (R153). -/
def Obligations.SetPort : Prop :=
  ∀ (tag code : Byte) (s : SentPort) (q : List Instr) (d : Device) (rest : List Packet),
    d.Asked (tag :: 10 :: code :: s.bytes) rest →
    let crop : Crop := ⟨s.colBase.toNat, s.colLimit.toNat, s.rowBase.toNat, s.rowLimit.toNat⟩
    let reached := code = 0 ∨ (code = 1 ∧ d.portBFitted = true)
    (1 < code.toNat → exec .setPort ⟨q, d⟩ = .next ⟨q, d.answered rest tag 10 .badArg [1]⟩) ∧
    (code = 1 → d.portBFitted = false → exec .setPort ⟨q, d⟩ = .next ⟨q, d.answered rest tag 10 .state []⟩) ∧
    (∀ n ∈ [2, 3, 4, 5, 6], reached → ¬ s.InRange n → (∀ m, m < n → s.InRange m) →
      exec .setPort ⟨q, d⟩ = .next ⟨q, d.answered rest tag 10 .badArg [BitVec.ofNat 8 n]⟩) ∧
    (reached → (∀ n, s.InRange n) → s.colLimit < s.colBase →
      exec .setPort ⟨q, d⟩ = .next ⟨q, d.answered rest tag 10 .badArg [4]⟩) ∧
    (reached → (∀ n, s.InRange n) → s.colBase ≤ s.colLimit → s.rowLimit < s.rowBase →
      exec .setPort ⟨q, d⟩ = .next ⟨q, d.answered rest tag 10 .badArg [6]⟩) ∧
    (code = 0 → (∀ n, s.InRange n) → s.colBase ≤ s.colLimit → s.rowBase ≤ s.rowLimit →
      exec .setPort ⟨q, d⟩ = .next ⟨q, { d with
        portA := { d.portA with enable := s.enable == 1, crop := crop } }.answered rest tag 10 .ok []⟩) ∧
    (code = 1 → d.portBFitted = true → (∀ n, s.InRange n) → s.colBase ≤ s.colLimit → s.rowBase ≤ s.rowLimit →
      exec .setPort ⟨q, d⟩ = .next ⟨q, { d with
        portB := { d.portB with enable := s.enable == 1, crop := crop } }.answered rest tag 10 .ok []⟩)

/-! ## The profile table -/

/-- PROFILE_OPEN, by its checks in order: the entry number, an entry not EMPTY, arguments 3 to 6, a station fault in the
focal and then in the focus list; a request that passes puts the entry into LOADING with its lists, reach clamped to 180,
and every word 0 and unwritten.  A refused request changes nothing else (R89; the length check of R177). -/
def Obligations.ProfileOpen : Prop :=
  ∀ (tag : Byte) (q : List Instr) (d : Device) (rest : List Packet),
    (∀ args, d.Asked (tag :: 11 :: args) rest → (args.length < 8 ∨
        args.length ≠ 12 + 2 * ((args.getD 6 0).toNat + (args.getD 7 0).toNat)) →
      exec .profileOpen ⟨q, d⟩ = .next ⟨q, d.answered rest tag 11 .badLen []⟩) ∧
    ∀ o : SentOpen, o.focal.length < 256 → o.focus.length < 256 → d.Asked (tag :: 11 :: o.bytes) rest →
      (8 ≤ o.entry.toNat → exec .profileOpen ⟨q, d⟩ = .next ⟨q, d.answered rest tag 11 .badArg [1, 0]⟩) ∧
      ∀ e : Fin 8, o.entry.toNat = e →
        (d.profiles[e] ≠ .empty →
          exec .profileOpen ⟨q, d⟩ = .next ⟨q, d.answered rest tag 11 .state [(d.profiles[e]).code]⟩) ∧
        (d.profiles[e] = .empty →
          (∀ n ∈ [3, 4, 5, 6], ¬ o.InRange n → (∀ m, m < n → o.InRange m) →
            exec .profileOpen ⟨q, d⟩ = .next ⟨q, d.answered rest tag 11 .badArg [BitVec.ofNat 8 n, 0]⟩) ∧
          (∀ position, (∀ n, o.InRange n) → FirstFault o.focal position →
            exec .profileOpen ⟨q, d⟩ = .next ⟨q, d.answered rest tag 11 .badStation [1, BitVec.ofNat 8 position]⟩) ∧
          (∀ position, (∀ n, o.InRange n) → o.focal.Pairwise (· < ·) → FirstFault o.focus position →
            exec .profileOpen ⟨q, d⟩ = .next ⟨q, d.answered rest tag 11 .badStation [2, BitVec.ofNat 8 position]⟩) ∧
          ((∀ n, o.InRange n) → o.focal.Pairwise (· < ·) → o.focus.Pairwise (· < ·) →
            let length := o.focal.length * o.focus.length * 7
            let up := min o.reachUp.toNat 180
            let down := min o.reachDown.toNat 180
            exec .profileOpen ⟨q, d⟩ = .next ⟨q, { d with
              profiles := d.profiles.set e (.loading ⟨⟨o.lensId, o.converter.setWidth 2⟩, o.focal.map BitVec.toNat,
                o.focus.map BitVec.toNat, List.replicate length ⟨0, false⟩, up, down⟩) }.answered rest tag 11 .ok
                  ([o.entry, BitVec.ofNat 8 up, BitVec.ofNat 8 down] ++ beBytes 2 length)⟩))

/-- PROFILE_WRITE: arguments that are not an entry, a start index and whole items are of the wrong length; then, by its
checks in order: the entry number, an entry not LOADING, a run's count, the end of the array, a
value out of the range of its place; a request that passes writes the expanded sequence from the start index on and marks
those words written.  A refused request changes nothing else (R90, R91, R92, R177). -/
def Obligations.ProfileWrite : Prop :=
  ∀ (tag : Byte) (q : List Instr) (d : Device) (rest : List Packet),
    (∀ args, (∀ entry start items, args ≠ writeBytes entry start items) → d.Asked (tag :: 12 :: args) rest →
      exec .profileWrite ⟨q, d⟩ = .next ⟨q, d.answered rest tag 12 .badLen []⟩) ∧
    ∀ (entry : Byte) (start : BitVec 16) (items : List SentItem), d.Asked (tag :: 12 :: writeBytes entry start items) rest →
    let values := items.flatMap SentItem.values
    (8 ≤ entry.toNat → exec .profileWrite ⟨q, d⟩ = .next ⟨q, d.answered rest tag 12 .badArg [0, 0, 0, 0]⟩) ∧
    ∀ e : Fin 8, entry.toNat = e →
      ((∀ p, d.profiles[e] ≠ .loading p) →
        exec .profileWrite ⟨q, d⟩ = .next ⟨q, d.answered rest tag 12 .state [(d.profiles[e]).code]⟩) ∧
      ∀ p, d.profiles[e] = .loading p →
        (∀ before item after, items = before ++ item :: after → (∀ i ∈ before, i.CountOk) → ¬ item.CountOk →
          exec .profileWrite ⟨q, d⟩ =
            .next ⟨q, d.answered rest tag 12 .badArg (beBytes 2 (before.length + 1) ++ [0, 0])⟩) ∧
        ((∀ i ∈ items, i.CountOk) → p.words.length < start.toNat + values.length →
          exec .profileWrite ⟨q, d⟩ =
            .next ⟨q, d.answered rest tag 12 .range (beBytes 2 p.words.length ++ beBytes 4 values.length)⟩) ∧
        ((∀ i ∈ items, i.CountOk) → start.toNat + values.length ≤ p.words.length →
          (∀ before item after j v, items = before ++ item :: after →
            let first := start.toNat + (before.flatMap SentItem.values).length
            AllInPlace start.toNat (before.flatMap SentItem.values) → item.values[j]? = some v →
            AllInPlace first (item.values.take j) → ¬ InPlace (first + j) v →
            exec .profileWrite ⟨q, d⟩ =
              .next ⟨q, d.answered rest tag 12 .badArg (beBytes 2 (before.length + 1) ++ beBytes 2 (first + j))⟩) ∧
          (AllInPlace start.toNat values → ∃ words : List CoefWord,
            words.length = p.words.length ∧
            (∀ k, start.toNat ≤ k → k < start.toNat + values.length →
              words[k]? = some ⟨values.getD (k - start.toNat) 0, true⟩) ∧
            (∀ k, k < start.toNat ∨ start.toNat + values.length ≤ k → words[k]? = p.words[k]?) ∧
            exec .profileWrite ⟨q, d⟩ = .next ⟨q, { d with
              profiles := d.profiles.set e (.loading { p with words := words }) }.answered rest tag 12 .ok
                (beBytes 2 (words.countP CoefWord.written) ++ beBytes 2 (start.toNat + values.length))⟩))

/-- PROFILE_CLOSE makes a complete LOADING entry READY unless another READY entry has its identity; PROFILE_RETIRE empties
an entry that no frame is bound to and moves a bound READY entry to RETIRING; PROFILE_QUERY reports an entry.  An entry
number above 7 is refused with BADARG and result 1; a refused request changes nothing else (R93, R95, R97). -/
def Obligations.ProfileCloseRetireQuery : Prop :=
  (∀ p n, [Entry.empty, .loading p, .ready p n, .retiring p n].map Entry.profile? = [none, some p, some p, some p] ∧
    [Entry.empty, .loading p, .ready p n, .retiring p n].map Entry.holdCount = [0, 0, n, n]) ∧
  ∀ (tag entry : Byte) (q : List Instr) (d : Device) (rest : List Packet),
    (d.Asked [tag, 13, entry] rest →
      (8 ≤ entry.toNat → exec .profileClose ⟨q, d⟩ = .next ⟨q, d.answered rest tag 13 .badArg [1]⟩) ∧
      ∀ e : Fin 8, entry.toNat = e →
        ((∀ p, d.profiles[e] ≠ .loading p) →
          exec .profileClose ⟨q, d⟩ = .next ⟨q, d.answered rest tag 13 .state [(d.profiles[e]).code]⟩) ∧
        ∀ p, d.profiles[e] = .loading p →
          (∀ before w after, p.words = before ++ w :: after → (∀ x ∈ before, x.written = true) → w.written = false →
            exec .profileClose ⟨q, d⟩ = .next ⟨q, d.answered rest tag 13 .incomplete
              (beBytes 2 before.length ++ beBytes 2 (p.words.countP CoefWord.written))⟩) ∧
          (∀ (f : Fin 8) p' n, p.Complete → d.profiles[f] = .ready p' n → p'.identity = p.identity →
            (∀ (g : Fin 8) p' n, d.profiles[g] = .ready p' n → p'.identity = p.identity → g = f) →
            exec .profileClose ⟨q, d⟩ = .next ⟨q, d.answered rest tag 13 .duplicate [BitVec.ofNat 8 f]⟩) ∧
          (p.Complete → (∀ (g : Fin 8) p' n, d.profiles[g] = .ready p' n → p'.identity ≠ p.identity) →
            exec .profileClose ⟨q, d⟩ = .next ⟨q,
              { d with profiles := d.profiles.set e (.ready p 0) }.answered rest tag 13 .ok [entry]⟩)) ∧
    (d.Asked [tag, 14, entry] rest →
      (8 ≤ entry.toNat → exec .profileRetire ⟨q, d⟩ = .next ⟨q, d.answered rest tag 14 .badArg [1]⟩) ∧
      ∀ e : Fin 8, entry.toNat = e →
        (d.profiles[e] = .empty ∨ (∃ p, d.profiles[e] = .loading p) ∨ (∃ p, d.profiles[e] = .ready p 0) →
          exec .profileRetire ⟨q, d⟩ = .next ⟨q,
            { d with profiles := d.profiles.set e .empty }.answered rest tag 14 .ok [0, 0]⟩) ∧
        (∀ p n, (d.profiles[e] = .ready p n ∧ n ≠ 0) ∨ d.profiles[e] = .retiring p n →
          exec .profileRetire ⟨q, d⟩ = .next ⟨q,
            { d with profiles := d.profiles.set e (.retiring p n) }.answered rest tag 14 .ok [3, BitVec.ofNat 8 n]⟩)) ∧
    (d.Asked [tag, 15, entry] rest →
      (8 ≤ entry.toNat → exec .profileQuery ⟨q, d⟩ = .next ⟨q, d.answered rest tag 15 .badArg [1]⟩) ∧
      ∀ e : Fin 8, entry.toNat = e →
        (d.profiles[e] = .empty → exec .profileQuery ⟨q, d⟩ =
          .next ⟨q, d.answered rest tag 15 .ok (List.replicate 15 0)⟩) ∧
        (∀ p, (d.profiles[e]).profile? = some p → exec .profileQuery ⟨q, d⟩ = .next ⟨q, d.answered rest tag 15 .ok
          ([(d.profiles[e]).code] ++ beBytes 4 p.identity.lensId.toNat ++ [(0#6 ++ p.identity.converter : BitVec 8)]
            ++ [BitVec.ofNat 8 p.focal.length, BitVec.ofNat 8 p.focus.length, BitVec.ofNat 8 p.reachUp,
              BitVec.ofNat 8 p.reachDown]
            ++ beBytes 2 p.words.length ++ beBytes 2 (p.words.countP CoefWord.written)
            ++ [BitVec.ofNat 8 (d.profiles[e]).holdCount])⟩))

/-! ## Block resets -/

/-- The block resets, each answered OK with the block code, and nothing else changed.  PIPELINE: no context, IDLE, no held
lens state, every slot free, every binding released.  PROFILES: each entry withdrawn as by a retire.  PORT_A and PORT_B:
the queue holds the item on the lane, if any, and a restart marker where the link is UP; credits 0; LIVE deliveries cut.
COUNTERS: counters 0, alert flags clear.  A block code above 4 is refused with BADARG and result 1 (R63, R79, R101, R102,
R166, R186); that any of the five rows may execute such a request is the model's choice (log entry 7). -/
def Obligations.BlockResets : Prop :=
  ∀ (tag : Byte) (q : List Instr) (d : Device) (rest : List Packet),
    (∀ e ∈ blockResets, ∀ code : Byte, 4 < code.toNat → d.Asked [tag, 16, code] rest →
      exec e.1 ⟨q, d⟩ = .next ⟨q, d.answered rest tag 16 .badArg [1]⟩) ∧
    (d.Asked [tag, 16, 0] rest → ∃ profiles : Vector Entry 8,
      exec .resetBlockPipeline ⟨q, d⟩ = .next ⟨q, Device.answered { d with
        frames := [], receiver := .idle, heldLens := none, slots := Vector.replicate 384 none,
        profiles := profiles } rest tag 16 .ok [0]⟩ ∧
      ∀ e : Fin 8,
        (boundContexts d.frames e = 0 → profiles[e] = d.profiles[e]) ∧
        (∀ p n, d.profiles[e] = .ready p n → profiles[e] = .ready p (n - boundContexts d.frames e)) ∧
        (∀ p n, d.profiles[e] = .retiring p n → n = boundContexts d.frames e → 0 < n → profiles[e] = .empty) ∧
        (∀ p n, d.profiles[e] = .retiring p n → boundContexts d.frames e < n →
          profiles[e] = .retiring p (n - boundContexts d.frames e))) ∧
    (d.Asked [tag, 16, 1] rest → ∃ profiles : Vector Entry 8,
      exec .resetBlockProfiles ⟨q, d⟩ = .next ⟨q, Device.answered { d with profiles := profiles } rest tag 16 .ok [1]⟩ ∧
      ∀ e : Fin 8,
        (d.profiles[e] = .empty ∨ (∃ p, d.profiles[e] = .loading p) ∨ (∃ p, d.profiles[e] = .ready p 0) →
          profiles[e] = .empty) ∧
        (∀ p n, (d.profiles[e] = .ready p n ∧ n ≠ 0) ∨ d.profiles[e] = .retiring p n → profiles[e] = .retiring p n)) ∧
    (d.Asked [tag, 16, 2] rest → exec .resetBlockPortA ⟨q, d⟩ = .next ⟨q, Device.answered { d with
      portA := { d.portA with
        queue := (if d.laneA.map LaneSend.source = some .frame then d.portA.queue.take 1 else [])
          ++ (if d.portA.link = .up then [.restartMarker] else []),
        credits := 0 },
      frames := d.frames.map fun (c : FrameContext) => { c with deliveryA := cutIfLive c.deliveryA } } rest tag 16 .ok [2]⟩) ∧
    (d.Asked [tag, 16, 3] rest → exec .resetBlockPortB ⟨q, d⟩ = .next ⟨q, Device.answered { d with
      portB := { d.portB with
        queue := (if d.laneB = none then [] else d.portB.queue.take 1)
          ++ (if d.portB.link = .up then [.restartMarker] else []),
        credits := 0 },
      frames := d.frames.map fun (c : FrameContext) => { c with deliveryB := cutIfLive c.deliveryB } } rest tag 16 .ok [3]⟩) ∧
    (d.Asked [tag, 16, 4] rest → exec .resetBlockCounters ⟨q, d⟩ = .next ⟨q, Device.answered { d with
      counters := Vector.replicate 26 0, alerts := 0 } rest tag 16 .ok [4]⟩)

/-! ## The laws of the part -/

/-- Every step keeps the law of the frame queue, and with it the law of the line store: at most two contexts, none but the
newest FILLING, the receiver FILLING exactly while one fills; every held slot holds a row of a context present, no two the
same row of one frame (R37, R38, R40, R67). -/
def Obligations.FrameAndStoreLawsKept : Prop :=
  ∀ s t : State, FrameLaw s.device → step s = .next t →
    FrameLaw t.device ∧ (StoreLaw s.device → StoreLaw t.device)

/-- Every step keeps the law of the profile table: an entry's hold count is the number of contexts bound to it, no two READY
entries carry one identity, and entries and bindings are in order (R61, R81, R84, R93, R98). -/
def Obligations.ProfileLawKept : Prop :=
  ∀ s t : State, ProfileLaw s.device → step s = .next t → ProfileLaw t.device

/-- Every step keeps the bounds of credits, queues and ages, and the law of the links: nothing open, sent, credited or
queued on a link that is not UP (R16, R19, R20, R23, R152, R159, R167, R171, R173). -/
def Obligations.BoundsAndLinkLawsKept : Prop :=
  (∀ s t : State, BoundsLaw s.device → step s = .next t → BoundsLaw t.device) ∧
    ∀ s t : State, LinkLaw s.device → step s = .next t → LinkLaw t.device
end

