-- ==== Sys2Proof/Laws/State.lean ====
section
/-! SUPPORT. What each elementary update leaves in each field of Device: one lemma per field and update, true by
definition, so that no proof unfolds a record update. -/

namespace Sys2Proof.Machine

/-! ## Device.bump -/

@[simp] theorem Device.bump_resetHeld (d : Device) (c : Counter) (n : Nat) : (d.bump c n).resetHeld = d.resetHeld := rfl
@[simp] theorem Device.bump_node (d : Device) (c : Counter) (n : Nat) : (d.bump c n).node = d.node := rfl
@[simp] theorem Device.bump_portBFitted (d : Device) (c : Counter) (n : Nat) : (d.bump c n).portBFitted = d.portBFitted := rfl
@[simp] theorem Device.bump_linkU (d : Device) (c : Counter) (n : Nat) : (d.bump c n).linkU = d.linkU := rfl
@[simp] theorem Device.bump_openU (d : Device) (c : Counter) (n : Nat) : (d.bump c n).openU = d.openU := rfl
@[simp] theorem Device.bump_openA (d : Device) (c : Counter) (n : Nat) : (d.bump c n).openA = d.openA := rfl
@[simp] theorem Device.bump_openB (d : Device) (c : Counter) (n : Nat) : (d.bump c n).openB = d.openB := rfl
@[simp] theorem Device.bump_laneU (d : Device) (c : Counter) (n : Nat) : (d.bump c n).laneU = d.laneU := rfl
@[simp] theorem Device.bump_laneA (d : Device) (c : Counter) (n : Nat) : (d.bump c n).laneA = d.laneA := rfl
@[simp] theorem Device.bump_laneB (d : Device) (c : Counter) (n : Nat) : (d.bump c n).laneB = d.laneB := rfl
@[simp] theorem Device.bump_passThrough (d : Device) (c : Counter) (n : Nat) : (d.bump c n).passThrough = d.passThrough := rfl
@[simp] theorem Device.bump_upstream (d : Device) (c : Counter) (n : Nat) : (d.bump c n).upstream = d.upstream := rfl
@[simp] theorem Device.bump_mode (d : Device) (c : Counter) (n : Nat) : (d.bump c n).mode = d.mode := rfl
@[simp] theorem Device.bump_pendingMode (d : Device) (c : Counter) (n : Nat) : (d.bump c n).pendingMode = d.pendingMode := rfl
@[simp] theorem Device.bump_geometry (d : Device) (c : Counter) (n : Nat) : (d.bump c n).geometry = d.geometry := rfl
@[simp] theorem Device.bump_policy (d : Device) (c : Counter) (n : Nat) : (d.bump c n).policy = d.policy := rfl
@[simp] theorem Device.bump_routes (d : Device) (c : Counter) (n : Nat) : (d.bump c n).routes = d.routes := rfl
@[simp] theorem Device.bump_receiver (d : Device) (c : Counter) (n : Nat) : (d.bump c n).receiver = d.receiver := rfl
@[simp] theorem Device.bump_frames (d : Device) (c : Counter) (n : Nat) : (d.bump c n).frames = d.frames := rfl
@[simp] theorem Device.bump_heldLens (d : Device) (c : Counter) (n : Nat) : (d.bump c n).heldLens = d.heldLens := rfl
@[simp] theorem Device.bump_nextFrame (d : Device) (c : Counter) (n : Nat) : (d.bump c n).nextFrame = d.nextFrame := rfl
@[simp] theorem Device.bump_slots (d : Device) (c : Counter) (n : Nat) : (d.bump c n).slots = d.slots := rfl
@[simp] theorem Device.bump_storeReq (d : Device) (c : Counter) (n : Nat) : (d.bump c n).storeReq = d.storeReq := rfl
@[simp] theorem Device.bump_profiles (d : Device) (c : Counter) (n : Nat) : (d.bump c n).profiles = d.profiles := rfl
@[simp] theorem Device.bump_portA (d : Device) (c : Counter) (n : Nat) : (d.bump c n).portA = d.portA := rfl
@[simp] theorem Device.bump_portB (d : Device) (c : Counter) (n : Nat) : (d.bump c n).portB = d.portB := rfl
@[simp] theorem Device.bump_lastSource (d : Device) (c : Counter) (n : Nat) : (d.bump c n).lastSource = d.lastSource := rfl
@[simp] theorem Device.bump_commands (d : Device) (c : Counter) (n : Nat) : (d.bump c n).commands = d.commands := rfl
@[simp] theorem Device.bump_answers (d : Device) (c : Counter) (n : Nat) : (d.bump c n).answers = d.answers := rfl
@[simp] theorem Device.bump_counters (d : Device) (c : Counter) (n : Nat) : (d.bump c n).counters = (d.counters.set c.place (satAdd (d.count c) n)) := rfl
@[simp] theorem Device.bump_alerts (d : Device) (c : Counter) (n : Nat) : (d.bump c n).alerts = d.alerts := rfl
@[simp] theorem Device.bump_alertEnable (d : Device) (c : Counter) (n : Nat) : (d.bump c n).alertEnable = d.alertEnable := rfl

/-! ## Device.raise -/

@[simp] theorem Device.raise_resetHeld (d : Device) (a : Alert) : (d.raise a).resetHeld = d.resetHeld := rfl
@[simp] theorem Device.raise_node (d : Device) (a : Alert) : (d.raise a).node = d.node := rfl
@[simp] theorem Device.raise_portBFitted (d : Device) (a : Alert) : (d.raise a).portBFitted = d.portBFitted := rfl
@[simp] theorem Device.raise_linkU (d : Device) (a : Alert) : (d.raise a).linkU = d.linkU := rfl
@[simp] theorem Device.raise_openU (d : Device) (a : Alert) : (d.raise a).openU = d.openU := rfl
@[simp] theorem Device.raise_openA (d : Device) (a : Alert) : (d.raise a).openA = d.openA := rfl
@[simp] theorem Device.raise_openB (d : Device) (a : Alert) : (d.raise a).openB = d.openB := rfl
@[simp] theorem Device.raise_laneU (d : Device) (a : Alert) : (d.raise a).laneU = d.laneU := rfl
@[simp] theorem Device.raise_laneA (d : Device) (a : Alert) : (d.raise a).laneA = d.laneA := rfl
@[simp] theorem Device.raise_laneB (d : Device) (a : Alert) : (d.raise a).laneB = d.laneB := rfl
@[simp] theorem Device.raise_passThrough (d : Device) (a : Alert) : (d.raise a).passThrough = d.passThrough := rfl
@[simp] theorem Device.raise_upstream (d : Device) (a : Alert) : (d.raise a).upstream = d.upstream := rfl
@[simp] theorem Device.raise_mode (d : Device) (a : Alert) : (d.raise a).mode = d.mode := rfl
@[simp] theorem Device.raise_pendingMode (d : Device) (a : Alert) : (d.raise a).pendingMode = d.pendingMode := rfl
@[simp] theorem Device.raise_geometry (d : Device) (a : Alert) : (d.raise a).geometry = d.geometry := rfl
@[simp] theorem Device.raise_policy (d : Device) (a : Alert) : (d.raise a).policy = d.policy := rfl
@[simp] theorem Device.raise_routes (d : Device) (a : Alert) : (d.raise a).routes = d.routes := rfl
@[simp] theorem Device.raise_receiver (d : Device) (a : Alert) : (d.raise a).receiver = d.receiver := rfl
@[simp] theorem Device.raise_frames (d : Device) (a : Alert) : (d.raise a).frames = d.frames := rfl
@[simp] theorem Device.raise_heldLens (d : Device) (a : Alert) : (d.raise a).heldLens = d.heldLens := rfl
@[simp] theorem Device.raise_nextFrame (d : Device) (a : Alert) : (d.raise a).nextFrame = d.nextFrame := rfl
@[simp] theorem Device.raise_slots (d : Device) (a : Alert) : (d.raise a).slots = d.slots := rfl
@[simp] theorem Device.raise_storeReq (d : Device) (a : Alert) : (d.raise a).storeReq = d.storeReq := rfl
@[simp] theorem Device.raise_profiles (d : Device) (a : Alert) : (d.raise a).profiles = d.profiles := rfl
@[simp] theorem Device.raise_portA (d : Device) (a : Alert) : (d.raise a).portA = d.portA := rfl
@[simp] theorem Device.raise_portB (d : Device) (a : Alert) : (d.raise a).portB = d.portB := rfl
@[simp] theorem Device.raise_lastSource (d : Device) (a : Alert) : (d.raise a).lastSource = d.lastSource := rfl
@[simp] theorem Device.raise_commands (d : Device) (a : Alert) : (d.raise a).commands = d.commands := rfl
@[simp] theorem Device.raise_answers (d : Device) (a : Alert) : (d.raise a).answers = d.answers := rfl
@[simp] theorem Device.raise_counters (d : Device) (a : Alert) : (d.raise a).counters = d.counters := rfl
@[simp] theorem Device.raise_alerts (d : Device) (a : Alert) : (d.raise a).alerts = d.alerts ||| a.mask := rfl
@[simp] theorem Device.raise_alertEnable (d : Device) (a : Alert) : (d.raise a).alertEnable = d.alertEnable := rfl

/-! ## Device.onFilling -/

@[simp] theorem Device.onFilling_resetHeld (d : Device) (f : FrameContext → FrameContext) : (d.onFilling f).resetHeld = d.resetHeld := rfl
@[simp] theorem Device.onFilling_node (d : Device) (f : FrameContext → FrameContext) : (d.onFilling f).node = d.node := rfl
@[simp] theorem Device.onFilling_portBFitted (d : Device) (f : FrameContext → FrameContext) : (d.onFilling f).portBFitted = d.portBFitted := rfl
@[simp] theorem Device.onFilling_linkU (d : Device) (f : FrameContext → FrameContext) : (d.onFilling f).linkU = d.linkU := rfl
@[simp] theorem Device.onFilling_openU (d : Device) (f : FrameContext → FrameContext) : (d.onFilling f).openU = d.openU := rfl
@[simp] theorem Device.onFilling_openA (d : Device) (f : FrameContext → FrameContext) : (d.onFilling f).openA = d.openA := rfl
@[simp] theorem Device.onFilling_openB (d : Device) (f : FrameContext → FrameContext) : (d.onFilling f).openB = d.openB := rfl
@[simp] theorem Device.onFilling_laneU (d : Device) (f : FrameContext → FrameContext) : (d.onFilling f).laneU = d.laneU := rfl
@[simp] theorem Device.onFilling_laneA (d : Device) (f : FrameContext → FrameContext) : (d.onFilling f).laneA = d.laneA := rfl
@[simp] theorem Device.onFilling_laneB (d : Device) (f : FrameContext → FrameContext) : (d.onFilling f).laneB = d.laneB := rfl
@[simp] theorem Device.onFilling_passThrough (d : Device) (f : FrameContext → FrameContext) : (d.onFilling f).passThrough = d.passThrough := rfl
@[simp] theorem Device.onFilling_upstream (d : Device) (f : FrameContext → FrameContext) : (d.onFilling f).upstream = d.upstream := rfl
@[simp] theorem Device.onFilling_mode (d : Device) (f : FrameContext → FrameContext) : (d.onFilling f).mode = d.mode := rfl
@[simp] theorem Device.onFilling_pendingMode (d : Device) (f : FrameContext → FrameContext) : (d.onFilling f).pendingMode = d.pendingMode := rfl
@[simp] theorem Device.onFilling_geometry (d : Device) (f : FrameContext → FrameContext) : (d.onFilling f).geometry = d.geometry := rfl
@[simp] theorem Device.onFilling_policy (d : Device) (f : FrameContext → FrameContext) : (d.onFilling f).policy = d.policy := rfl
@[simp] theorem Device.onFilling_routes (d : Device) (f : FrameContext → FrameContext) : (d.onFilling f).routes = d.routes := rfl
@[simp] theorem Device.onFilling_receiver (d : Device) (f : FrameContext → FrameContext) : (d.onFilling f).receiver = d.receiver := rfl
@[simp] theorem Device.onFilling_frames (d : Device) (f : FrameContext → FrameContext) : (d.onFilling f).frames = d.frames.map fun c => if c.isFilling then f c else c := rfl
@[simp] theorem Device.onFilling_heldLens (d : Device) (f : FrameContext → FrameContext) : (d.onFilling f).heldLens = d.heldLens := rfl
@[simp] theorem Device.onFilling_nextFrame (d : Device) (f : FrameContext → FrameContext) : (d.onFilling f).nextFrame = d.nextFrame := rfl
@[simp] theorem Device.onFilling_slots (d : Device) (f : FrameContext → FrameContext) : (d.onFilling f).slots = d.slots := rfl
@[simp] theorem Device.onFilling_storeReq (d : Device) (f : FrameContext → FrameContext) : (d.onFilling f).storeReq = d.storeReq := rfl
@[simp] theorem Device.onFilling_profiles (d : Device) (f : FrameContext → FrameContext) : (d.onFilling f).profiles = d.profiles := rfl
@[simp] theorem Device.onFilling_portA (d : Device) (f : FrameContext → FrameContext) : (d.onFilling f).portA = d.portA := rfl
@[simp] theorem Device.onFilling_portB (d : Device) (f : FrameContext → FrameContext) : (d.onFilling f).portB = d.portB := rfl
@[simp] theorem Device.onFilling_lastSource (d : Device) (f : FrameContext → FrameContext) : (d.onFilling f).lastSource = d.lastSource := rfl
@[simp] theorem Device.onFilling_commands (d : Device) (f : FrameContext → FrameContext) : (d.onFilling f).commands = d.commands := rfl
@[simp] theorem Device.onFilling_answers (d : Device) (f : FrameContext → FrameContext) : (d.onFilling f).answers = d.answers := rfl
@[simp] theorem Device.onFilling_counters (d : Device) (f : FrameContext → FrameContext) : (d.onFilling f).counters = d.counters := rfl
@[simp] theorem Device.onFilling_alerts (d : Device) (f : FrameContext → FrameContext) : (d.onFilling f).alerts = d.alerts := rfl
@[simp] theorem Device.onFilling_alertEnable (d : Device) (f : FrameContext → FrameContext) : (d.onFilling f).alertEnable = d.alertEnable := rfl

/-! ## Device.onFrame -/

@[simp] theorem Device.onFrame_resetHeld (d : Device) (i : Nat) (f : FrameContext → FrameContext) : (d.onFrame i f).resetHeld = d.resetHeld := rfl
@[simp] theorem Device.onFrame_node (d : Device) (i : Nat) (f : FrameContext → FrameContext) : (d.onFrame i f).node = d.node := rfl
@[simp] theorem Device.onFrame_portBFitted (d : Device) (i : Nat) (f : FrameContext → FrameContext) : (d.onFrame i f).portBFitted = d.portBFitted := rfl
@[simp] theorem Device.onFrame_linkU (d : Device) (i : Nat) (f : FrameContext → FrameContext) : (d.onFrame i f).linkU = d.linkU := rfl
@[simp] theorem Device.onFrame_openU (d : Device) (i : Nat) (f : FrameContext → FrameContext) : (d.onFrame i f).openU = d.openU := rfl
@[simp] theorem Device.onFrame_openA (d : Device) (i : Nat) (f : FrameContext → FrameContext) : (d.onFrame i f).openA = d.openA := rfl
@[simp] theorem Device.onFrame_openB (d : Device) (i : Nat) (f : FrameContext → FrameContext) : (d.onFrame i f).openB = d.openB := rfl
@[simp] theorem Device.onFrame_laneU (d : Device) (i : Nat) (f : FrameContext → FrameContext) : (d.onFrame i f).laneU = d.laneU := rfl
@[simp] theorem Device.onFrame_laneA (d : Device) (i : Nat) (f : FrameContext → FrameContext) : (d.onFrame i f).laneA = d.laneA := rfl
@[simp] theorem Device.onFrame_laneB (d : Device) (i : Nat) (f : FrameContext → FrameContext) : (d.onFrame i f).laneB = d.laneB := rfl
@[simp] theorem Device.onFrame_passThrough (d : Device) (i : Nat) (f : FrameContext → FrameContext) : (d.onFrame i f).passThrough = d.passThrough := rfl
@[simp] theorem Device.onFrame_upstream (d : Device) (i : Nat) (f : FrameContext → FrameContext) : (d.onFrame i f).upstream = d.upstream := rfl
@[simp] theorem Device.onFrame_mode (d : Device) (i : Nat) (f : FrameContext → FrameContext) : (d.onFrame i f).mode = d.mode := rfl
@[simp] theorem Device.onFrame_pendingMode (d : Device) (i : Nat) (f : FrameContext → FrameContext) : (d.onFrame i f).pendingMode = d.pendingMode := rfl
@[simp] theorem Device.onFrame_geometry (d : Device) (i : Nat) (f : FrameContext → FrameContext) : (d.onFrame i f).geometry = d.geometry := rfl
@[simp] theorem Device.onFrame_policy (d : Device) (i : Nat) (f : FrameContext → FrameContext) : (d.onFrame i f).policy = d.policy := rfl
@[simp] theorem Device.onFrame_routes (d : Device) (i : Nat) (f : FrameContext → FrameContext) : (d.onFrame i f).routes = d.routes := rfl
@[simp] theorem Device.onFrame_receiver (d : Device) (i : Nat) (f : FrameContext → FrameContext) : (d.onFrame i f).receiver = d.receiver := rfl
@[simp] theorem Device.onFrame_frames (d : Device) (i : Nat) (f : FrameContext → FrameContext) : (d.onFrame i f).frames = d.frames.map fun c => if c.id == i then f c else c := rfl
@[simp] theorem Device.onFrame_heldLens (d : Device) (i : Nat) (f : FrameContext → FrameContext) : (d.onFrame i f).heldLens = d.heldLens := rfl
@[simp] theorem Device.onFrame_nextFrame (d : Device) (i : Nat) (f : FrameContext → FrameContext) : (d.onFrame i f).nextFrame = d.nextFrame := rfl
@[simp] theorem Device.onFrame_slots (d : Device) (i : Nat) (f : FrameContext → FrameContext) : (d.onFrame i f).slots = d.slots := rfl
@[simp] theorem Device.onFrame_storeReq (d : Device) (i : Nat) (f : FrameContext → FrameContext) : (d.onFrame i f).storeReq = d.storeReq := rfl
@[simp] theorem Device.onFrame_profiles (d : Device) (i : Nat) (f : FrameContext → FrameContext) : (d.onFrame i f).profiles = d.profiles := rfl
@[simp] theorem Device.onFrame_portA (d : Device) (i : Nat) (f : FrameContext → FrameContext) : (d.onFrame i f).portA = d.portA := rfl
@[simp] theorem Device.onFrame_portB (d : Device) (i : Nat) (f : FrameContext → FrameContext) : (d.onFrame i f).portB = d.portB := rfl
@[simp] theorem Device.onFrame_lastSource (d : Device) (i : Nat) (f : FrameContext → FrameContext) : (d.onFrame i f).lastSource = d.lastSource := rfl
@[simp] theorem Device.onFrame_commands (d : Device) (i : Nat) (f : FrameContext → FrameContext) : (d.onFrame i f).commands = d.commands := rfl
@[simp] theorem Device.onFrame_answers (d : Device) (i : Nat) (f : FrameContext → FrameContext) : (d.onFrame i f).answers = d.answers := rfl
@[simp] theorem Device.onFrame_counters (d : Device) (i : Nat) (f : FrameContext → FrameContext) : (d.onFrame i f).counters = d.counters := rfl
@[simp] theorem Device.onFrame_alerts (d : Device) (i : Nat) (f : FrameContext → FrameContext) : (d.onFrame i f).alerts = d.alerts := rfl
@[simp] theorem Device.onFrame_alertEnable (d : Device) (i : Nat) (f : FrameContext → FrameContext) : (d.onFrame i f).alertEnable = d.alertEnable := rfl

/-! ## Device.cutDeliveries -/

@[simp] theorem Device.cutDeliveries_resetHeld (d : Device) (p : OutPort) : (d.cutDeliveries p).resetHeld = d.resetHeld := rfl
@[simp] theorem Device.cutDeliveries_node (d : Device) (p : OutPort) : (d.cutDeliveries p).node = d.node := rfl
@[simp] theorem Device.cutDeliveries_portBFitted (d : Device) (p : OutPort) : (d.cutDeliveries p).portBFitted = d.portBFitted := rfl
@[simp] theorem Device.cutDeliveries_linkU (d : Device) (p : OutPort) : (d.cutDeliveries p).linkU = d.linkU := rfl
@[simp] theorem Device.cutDeliveries_openU (d : Device) (p : OutPort) : (d.cutDeliveries p).openU = d.openU := rfl
@[simp] theorem Device.cutDeliveries_openA (d : Device) (p : OutPort) : (d.cutDeliveries p).openA = d.openA := rfl
@[simp] theorem Device.cutDeliveries_openB (d : Device) (p : OutPort) : (d.cutDeliveries p).openB = d.openB := rfl
@[simp] theorem Device.cutDeliveries_laneU (d : Device) (p : OutPort) : (d.cutDeliveries p).laneU = d.laneU := rfl
@[simp] theorem Device.cutDeliveries_laneA (d : Device) (p : OutPort) : (d.cutDeliveries p).laneA = d.laneA := rfl
@[simp] theorem Device.cutDeliveries_laneB (d : Device) (p : OutPort) : (d.cutDeliveries p).laneB = d.laneB := rfl
@[simp] theorem Device.cutDeliveries_passThrough (d : Device) (p : OutPort) : (d.cutDeliveries p).passThrough = d.passThrough := rfl
@[simp] theorem Device.cutDeliveries_upstream (d : Device) (p : OutPort) : (d.cutDeliveries p).upstream = d.upstream := rfl
@[simp] theorem Device.cutDeliveries_mode (d : Device) (p : OutPort) : (d.cutDeliveries p).mode = d.mode := rfl
@[simp] theorem Device.cutDeliveries_pendingMode (d : Device) (p : OutPort) : (d.cutDeliveries p).pendingMode = d.pendingMode := rfl
@[simp] theorem Device.cutDeliveries_geometry (d : Device) (p : OutPort) : (d.cutDeliveries p).geometry = d.geometry := rfl
@[simp] theorem Device.cutDeliveries_policy (d : Device) (p : OutPort) : (d.cutDeliveries p).policy = d.policy := rfl
@[simp] theorem Device.cutDeliveries_routes (d : Device) (p : OutPort) : (d.cutDeliveries p).routes = d.routes := rfl
@[simp] theorem Device.cutDeliveries_receiver (d : Device) (p : OutPort) : (d.cutDeliveries p).receiver = d.receiver := rfl
@[simp] theorem Device.cutDeliveries_frames (d : Device) (p : OutPort) : (d.cutDeliveries p).frames = d.frames.map fun c => c.setDelivery p (c.delivery p).cutLive := rfl
@[simp] theorem Device.cutDeliveries_heldLens (d : Device) (p : OutPort) : (d.cutDeliveries p).heldLens = d.heldLens := rfl
@[simp] theorem Device.cutDeliveries_nextFrame (d : Device) (p : OutPort) : (d.cutDeliveries p).nextFrame = d.nextFrame := rfl
@[simp] theorem Device.cutDeliveries_slots (d : Device) (p : OutPort) : (d.cutDeliveries p).slots = d.slots := rfl
@[simp] theorem Device.cutDeliveries_storeReq (d : Device) (p : OutPort) : (d.cutDeliveries p).storeReq = d.storeReq := rfl
@[simp] theorem Device.cutDeliveries_profiles (d : Device) (p : OutPort) : (d.cutDeliveries p).profiles = d.profiles := rfl
@[simp] theorem Device.cutDeliveries_portA (d : Device) (p : OutPort) : (d.cutDeliveries p).portA = d.portA := rfl
@[simp] theorem Device.cutDeliveries_portB (d : Device) (p : OutPort) : (d.cutDeliveries p).portB = d.portB := rfl
@[simp] theorem Device.cutDeliveries_lastSource (d : Device) (p : OutPort) : (d.cutDeliveries p).lastSource = d.lastSource := rfl
@[simp] theorem Device.cutDeliveries_commands (d : Device) (p : OutPort) : (d.cutDeliveries p).commands = d.commands := rfl
@[simp] theorem Device.cutDeliveries_answers (d : Device) (p : OutPort) : (d.cutDeliveries p).answers = d.answers := rfl
@[simp] theorem Device.cutDeliveries_counters (d : Device) (p : OutPort) : (d.cutDeliveries p).counters = d.counters := rfl
@[simp] theorem Device.cutDeliveries_alerts (d : Device) (p : OutPort) : (d.cutDeliveries p).alerts = d.alerts := rfl
@[simp] theorem Device.cutDeliveries_alertEnable (d : Device) (p : OutPort) : (d.cutDeliveries p).alertEnable = d.alertEnable := rfl

/-! ## Device.onEntry -/

@[simp] theorem Device.onEntry_resetHeld (d : Device) (e : Fin 8) (f : Entry → Entry) : (d.onEntry e f).resetHeld = d.resetHeld := rfl
@[simp] theorem Device.onEntry_node (d : Device) (e : Fin 8) (f : Entry → Entry) : (d.onEntry e f).node = d.node := rfl
@[simp] theorem Device.onEntry_portBFitted (d : Device) (e : Fin 8) (f : Entry → Entry) : (d.onEntry e f).portBFitted = d.portBFitted := rfl
@[simp] theorem Device.onEntry_linkU (d : Device) (e : Fin 8) (f : Entry → Entry) : (d.onEntry e f).linkU = d.linkU := rfl
@[simp] theorem Device.onEntry_openU (d : Device) (e : Fin 8) (f : Entry → Entry) : (d.onEntry e f).openU = d.openU := rfl
@[simp] theorem Device.onEntry_openA (d : Device) (e : Fin 8) (f : Entry → Entry) : (d.onEntry e f).openA = d.openA := rfl
@[simp] theorem Device.onEntry_openB (d : Device) (e : Fin 8) (f : Entry → Entry) : (d.onEntry e f).openB = d.openB := rfl
@[simp] theorem Device.onEntry_laneU (d : Device) (e : Fin 8) (f : Entry → Entry) : (d.onEntry e f).laneU = d.laneU := rfl
@[simp] theorem Device.onEntry_laneA (d : Device) (e : Fin 8) (f : Entry → Entry) : (d.onEntry e f).laneA = d.laneA := rfl
@[simp] theorem Device.onEntry_laneB (d : Device) (e : Fin 8) (f : Entry → Entry) : (d.onEntry e f).laneB = d.laneB := rfl
@[simp] theorem Device.onEntry_passThrough (d : Device) (e : Fin 8) (f : Entry → Entry) : (d.onEntry e f).passThrough = d.passThrough := rfl
@[simp] theorem Device.onEntry_upstream (d : Device) (e : Fin 8) (f : Entry → Entry) : (d.onEntry e f).upstream = d.upstream := rfl
@[simp] theorem Device.onEntry_mode (d : Device) (e : Fin 8) (f : Entry → Entry) : (d.onEntry e f).mode = d.mode := rfl
@[simp] theorem Device.onEntry_pendingMode (d : Device) (e : Fin 8) (f : Entry → Entry) : (d.onEntry e f).pendingMode = d.pendingMode := rfl
@[simp] theorem Device.onEntry_geometry (d : Device) (e : Fin 8) (f : Entry → Entry) : (d.onEntry e f).geometry = d.geometry := rfl
@[simp] theorem Device.onEntry_policy (d : Device) (e : Fin 8) (f : Entry → Entry) : (d.onEntry e f).policy = d.policy := rfl
@[simp] theorem Device.onEntry_routes (d : Device) (e : Fin 8) (f : Entry → Entry) : (d.onEntry e f).routes = d.routes := rfl
@[simp] theorem Device.onEntry_receiver (d : Device) (e : Fin 8) (f : Entry → Entry) : (d.onEntry e f).receiver = d.receiver := rfl
@[simp] theorem Device.onEntry_frames (d : Device) (e : Fin 8) (f : Entry → Entry) : (d.onEntry e f).frames = d.frames := rfl
@[simp] theorem Device.onEntry_heldLens (d : Device) (e : Fin 8) (f : Entry → Entry) : (d.onEntry e f).heldLens = d.heldLens := rfl
@[simp] theorem Device.onEntry_nextFrame (d : Device) (e : Fin 8) (f : Entry → Entry) : (d.onEntry e f).nextFrame = d.nextFrame := rfl
@[simp] theorem Device.onEntry_slots (d : Device) (e : Fin 8) (f : Entry → Entry) : (d.onEntry e f).slots = d.slots := rfl
@[simp] theorem Device.onEntry_storeReq (d : Device) (e : Fin 8) (f : Entry → Entry) : (d.onEntry e f).storeReq = d.storeReq := rfl
@[simp] theorem Device.onEntry_profiles (d : Device) (e : Fin 8) (f : Entry → Entry) : (d.onEntry e f).profiles = d.profiles.set e (f d.profiles[e]) := rfl
@[simp] theorem Device.onEntry_portA (d : Device) (e : Fin 8) (f : Entry → Entry) : (d.onEntry e f).portA = d.portA := rfl
@[simp] theorem Device.onEntry_portB (d : Device) (e : Fin 8) (f : Entry → Entry) : (d.onEntry e f).portB = d.portB := rfl
@[simp] theorem Device.onEntry_lastSource (d : Device) (e : Fin 8) (f : Entry → Entry) : (d.onEntry e f).lastSource = d.lastSource := rfl
@[simp] theorem Device.onEntry_commands (d : Device) (e : Fin 8) (f : Entry → Entry) : (d.onEntry e f).commands = d.commands := rfl
@[simp] theorem Device.onEntry_answers (d : Device) (e : Fin 8) (f : Entry → Entry) : (d.onEntry e f).answers = d.answers := rfl
@[simp] theorem Device.onEntry_counters (d : Device) (e : Fin 8) (f : Entry → Entry) : (d.onEntry e f).counters = d.counters := rfl
@[simp] theorem Device.onEntry_alerts (d : Device) (e : Fin 8) (f : Entry → Entry) : (d.onEntry e f).alerts = d.alerts := rfl
@[simp] theorem Device.onEntry_alertEnable (d : Device) (e : Fin 8) (f : Entry → Entry) : (d.onEntry e f).alertEnable = d.alertEnable := rfl

/-! ## Device.release -/

@[simp] theorem Device.release_resetHeld (d : Device) (i : Nat) (b : Int) : (d.release i b).resetHeld = d.resetHeld := rfl
@[simp] theorem Device.release_node (d : Device) (i : Nat) (b : Int) : (d.release i b).node = d.node := rfl
@[simp] theorem Device.release_portBFitted (d : Device) (i : Nat) (b : Int) : (d.release i b).portBFitted = d.portBFitted := rfl
@[simp] theorem Device.release_linkU (d : Device) (i : Nat) (b : Int) : (d.release i b).linkU = d.linkU := rfl
@[simp] theorem Device.release_openU (d : Device) (i : Nat) (b : Int) : (d.release i b).openU = d.openU := rfl
@[simp] theorem Device.release_openA (d : Device) (i : Nat) (b : Int) : (d.release i b).openA = d.openA := rfl
@[simp] theorem Device.release_openB (d : Device) (i : Nat) (b : Int) : (d.release i b).openB = d.openB := rfl
@[simp] theorem Device.release_laneU (d : Device) (i : Nat) (b : Int) : (d.release i b).laneU = d.laneU := rfl
@[simp] theorem Device.release_laneA (d : Device) (i : Nat) (b : Int) : (d.release i b).laneA = d.laneA := rfl
@[simp] theorem Device.release_laneB (d : Device) (i : Nat) (b : Int) : (d.release i b).laneB = d.laneB := rfl
@[simp] theorem Device.release_passThrough (d : Device) (i : Nat) (b : Int) : (d.release i b).passThrough = d.passThrough := rfl
@[simp] theorem Device.release_upstream (d : Device) (i : Nat) (b : Int) : (d.release i b).upstream = d.upstream := rfl
@[simp] theorem Device.release_mode (d : Device) (i : Nat) (b : Int) : (d.release i b).mode = d.mode := rfl
@[simp] theorem Device.release_pendingMode (d : Device) (i : Nat) (b : Int) : (d.release i b).pendingMode = d.pendingMode := rfl
@[simp] theorem Device.release_geometry (d : Device) (i : Nat) (b : Int) : (d.release i b).geometry = d.geometry := rfl
@[simp] theorem Device.release_policy (d : Device) (i : Nat) (b : Int) : (d.release i b).policy = d.policy := rfl
@[simp] theorem Device.release_routes (d : Device) (i : Nat) (b : Int) : (d.release i b).routes = d.routes := rfl
@[simp] theorem Device.release_receiver (d : Device) (i : Nat) (b : Int) : (d.release i b).receiver = d.receiver := rfl
@[simp] theorem Device.release_frames (d : Device) (i : Nat) (b : Int) : (d.release i b).frames = d.frames := rfl
@[simp] theorem Device.release_heldLens (d : Device) (i : Nat) (b : Int) : (d.release i b).heldLens = d.heldLens := rfl
@[simp] theorem Device.release_nextFrame (d : Device) (i : Nat) (b : Int) : (d.release i b).nextFrame = d.nextFrame := rfl
@[simp] theorem Device.release_slots (d : Device) (i : Nat) (b : Int) : (d.release i b).slots = d.slots.map (freeWhere i fun row => decide ((row : Int) ≤ b)) := rfl
@[simp] theorem Device.release_storeReq (d : Device) (i : Nat) (b : Int) : (d.release i b).storeReq = d.storeReq := rfl
@[simp] theorem Device.release_profiles (d : Device) (i : Nat) (b : Int) : (d.release i b).profiles = d.profiles := rfl
@[simp] theorem Device.release_portA (d : Device) (i : Nat) (b : Int) : (d.release i b).portA = d.portA := rfl
@[simp] theorem Device.release_portB (d : Device) (i : Nat) (b : Int) : (d.release i b).portB = d.portB := rfl
@[simp] theorem Device.release_lastSource (d : Device) (i : Nat) (b : Int) : (d.release i b).lastSource = d.lastSource := rfl
@[simp] theorem Device.release_commands (d : Device) (i : Nat) (b : Int) : (d.release i b).commands = d.commands := rfl
@[simp] theorem Device.release_answers (d : Device) (i : Nat) (b : Int) : (d.release i b).answers = d.answers := rfl
@[simp] theorem Device.release_counters (d : Device) (i : Nat) (b : Int) : (d.release i b).counters = d.counters := rfl
@[simp] theorem Device.release_alerts (d : Device) (i : Nat) (b : Int) : (d.release i b).alerts = d.alerts := rfl
@[simp] theorem Device.release_alertEnable (d : Device) (i : Nat) (b : Int) : (d.release i b).alertEnable = d.alertEnable := rfl

/-! ## Device.freeAll -/

@[simp] theorem Device.freeAll_resetHeld (d : Device) (i : Nat) : (d.freeAll i).resetHeld = d.resetHeld := rfl
@[simp] theorem Device.freeAll_node (d : Device) (i : Nat) : (d.freeAll i).node = d.node := rfl
@[simp] theorem Device.freeAll_portBFitted (d : Device) (i : Nat) : (d.freeAll i).portBFitted = d.portBFitted := rfl
@[simp] theorem Device.freeAll_linkU (d : Device) (i : Nat) : (d.freeAll i).linkU = d.linkU := rfl
@[simp] theorem Device.freeAll_openU (d : Device) (i : Nat) : (d.freeAll i).openU = d.openU := rfl
@[simp] theorem Device.freeAll_openA (d : Device) (i : Nat) : (d.freeAll i).openA = d.openA := rfl
@[simp] theorem Device.freeAll_openB (d : Device) (i : Nat) : (d.freeAll i).openB = d.openB := rfl
@[simp] theorem Device.freeAll_laneU (d : Device) (i : Nat) : (d.freeAll i).laneU = d.laneU := rfl
@[simp] theorem Device.freeAll_laneA (d : Device) (i : Nat) : (d.freeAll i).laneA = d.laneA := rfl
@[simp] theorem Device.freeAll_laneB (d : Device) (i : Nat) : (d.freeAll i).laneB = d.laneB := rfl
@[simp] theorem Device.freeAll_passThrough (d : Device) (i : Nat) : (d.freeAll i).passThrough = d.passThrough := rfl
@[simp] theorem Device.freeAll_upstream (d : Device) (i : Nat) : (d.freeAll i).upstream = d.upstream := rfl
@[simp] theorem Device.freeAll_mode (d : Device) (i : Nat) : (d.freeAll i).mode = d.mode := rfl
@[simp] theorem Device.freeAll_pendingMode (d : Device) (i : Nat) : (d.freeAll i).pendingMode = d.pendingMode := rfl
@[simp] theorem Device.freeAll_geometry (d : Device) (i : Nat) : (d.freeAll i).geometry = d.geometry := rfl
@[simp] theorem Device.freeAll_policy (d : Device) (i : Nat) : (d.freeAll i).policy = d.policy := rfl
@[simp] theorem Device.freeAll_routes (d : Device) (i : Nat) : (d.freeAll i).routes = d.routes := rfl
@[simp] theorem Device.freeAll_receiver (d : Device) (i : Nat) : (d.freeAll i).receiver = d.receiver := rfl
@[simp] theorem Device.freeAll_frames (d : Device) (i : Nat) : (d.freeAll i).frames = d.frames := rfl
@[simp] theorem Device.freeAll_heldLens (d : Device) (i : Nat) : (d.freeAll i).heldLens = d.heldLens := rfl
@[simp] theorem Device.freeAll_nextFrame (d : Device) (i : Nat) : (d.freeAll i).nextFrame = d.nextFrame := rfl
@[simp] theorem Device.freeAll_slots (d : Device) (i : Nat) : (d.freeAll i).slots = d.slots.map (freeWhere i fun _ => true) := rfl
@[simp] theorem Device.freeAll_storeReq (d : Device) (i : Nat) : (d.freeAll i).storeReq = d.storeReq := rfl
@[simp] theorem Device.freeAll_profiles (d : Device) (i : Nat) : (d.freeAll i).profiles = d.profiles := rfl
@[simp] theorem Device.freeAll_portA (d : Device) (i : Nat) : (d.freeAll i).portA = d.portA := rfl
@[simp] theorem Device.freeAll_portB (d : Device) (i : Nat) : (d.freeAll i).portB = d.portB := rfl
@[simp] theorem Device.freeAll_lastSource (d : Device) (i : Nat) : (d.freeAll i).lastSource = d.lastSource := rfl
@[simp] theorem Device.freeAll_commands (d : Device) (i : Nat) : (d.freeAll i).commands = d.commands := rfl
@[simp] theorem Device.freeAll_answers (d : Device) (i : Nat) : (d.freeAll i).answers = d.answers := rfl
@[simp] theorem Device.freeAll_counters (d : Device) (i : Nat) : (d.freeAll i).counters = d.counters := rfl
@[simp] theorem Device.freeAll_alerts (d : Device) (i : Nat) : (d.freeAll i).alerts = d.alerts := rfl
@[simp] theorem Device.freeAll_alertEnable (d : Device) (i : Nat) : (d.freeAll i).alertEnable = d.alertEnable := rfl

/-! ## Device.answer -/

@[simp] theorem Device.answer_resetHeld (d : Device) (t c : Byte) (r : Reply) : (d.answer t c r).resetHeld = d.resetHeld := rfl
@[simp] theorem Device.answer_node (d : Device) (t c : Byte) (r : Reply) : (d.answer t c r).node = d.node := rfl
@[simp] theorem Device.answer_portBFitted (d : Device) (t c : Byte) (r : Reply) : (d.answer t c r).portBFitted = d.portBFitted := rfl
@[simp] theorem Device.answer_linkU (d : Device) (t c : Byte) (r : Reply) : (d.answer t c r).linkU = d.linkU := rfl
@[simp] theorem Device.answer_openU (d : Device) (t c : Byte) (r : Reply) : (d.answer t c r).openU = d.openU := rfl
@[simp] theorem Device.answer_openA (d : Device) (t c : Byte) (r : Reply) : (d.answer t c r).openA = d.openA := rfl
@[simp] theorem Device.answer_openB (d : Device) (t c : Byte) (r : Reply) : (d.answer t c r).openB = d.openB := rfl
@[simp] theorem Device.answer_laneU (d : Device) (t c : Byte) (r : Reply) : (d.answer t c r).laneU = d.laneU := rfl
@[simp] theorem Device.answer_laneA (d : Device) (t c : Byte) (r : Reply) : (d.answer t c r).laneA = d.laneA := rfl
@[simp] theorem Device.answer_laneB (d : Device) (t c : Byte) (r : Reply) : (d.answer t c r).laneB = d.laneB := rfl
@[simp] theorem Device.answer_passThrough (d : Device) (t c : Byte) (r : Reply) : (d.answer t c r).passThrough = d.passThrough := rfl
@[simp] theorem Device.answer_upstream (d : Device) (t c : Byte) (r : Reply) : (d.answer t c r).upstream = d.upstream := rfl
@[simp] theorem Device.answer_mode (d : Device) (t c : Byte) (r : Reply) : (d.answer t c r).mode = d.mode := rfl
@[simp] theorem Device.answer_pendingMode (d : Device) (t c : Byte) (r : Reply) : (d.answer t c r).pendingMode = d.pendingMode := rfl
@[simp] theorem Device.answer_geometry (d : Device) (t c : Byte) (r : Reply) : (d.answer t c r).geometry = d.geometry := rfl
@[simp] theorem Device.answer_policy (d : Device) (t c : Byte) (r : Reply) : (d.answer t c r).policy = d.policy := rfl
@[simp] theorem Device.answer_routes (d : Device) (t c : Byte) (r : Reply) : (d.answer t c r).routes = d.routes := rfl
@[simp] theorem Device.answer_receiver (d : Device) (t c : Byte) (r : Reply) : (d.answer t c r).receiver = d.receiver := rfl
@[simp] theorem Device.answer_frames (d : Device) (t c : Byte) (r : Reply) : (d.answer t c r).frames = d.frames := rfl
@[simp] theorem Device.answer_heldLens (d : Device) (t c : Byte) (r : Reply) : (d.answer t c r).heldLens = d.heldLens := rfl
@[simp] theorem Device.answer_nextFrame (d : Device) (t c : Byte) (r : Reply) : (d.answer t c r).nextFrame = d.nextFrame := rfl
@[simp] theorem Device.answer_slots (d : Device) (t c : Byte) (r : Reply) : (d.answer t c r).slots = d.slots := rfl
@[simp] theorem Device.answer_storeReq (d : Device) (t c : Byte) (r : Reply) : (d.answer t c r).storeReq = d.storeReq := rfl
@[simp] theorem Device.answer_profiles (d : Device) (t c : Byte) (r : Reply) : (d.answer t c r).profiles = d.profiles := rfl
@[simp] theorem Device.answer_portA (d : Device) (t c : Byte) (r : Reply) : (d.answer t c r).portA = d.portA := rfl
@[simp] theorem Device.answer_portB (d : Device) (t c : Byte) (r : Reply) : (d.answer t c r).portB = d.portB := rfl
@[simp] theorem Device.answer_lastSource (d : Device) (t c : Byte) (r : Reply) : (d.answer t c r).lastSource = d.lastSource := rfl
@[simp] theorem Device.answer_commands (d : Device) (t c : Byte) (r : Reply) : (d.answer t c r).commands = d.commands := rfl
@[simp] theorem Device.answer_answers (d : Device) (t c : Byte) (r : Reply) : (d.answer t c r).answers = d.answers ++ [⟨t, c, r.status, r.results⟩] := rfl
@[simp] theorem Device.answer_counters (d : Device) (t c : Byte) (r : Reply) : (d.answer t c r).counters = d.counters := rfl
@[simp] theorem Device.answer_alerts (d : Device) (t c : Byte) (r : Reply) : (d.answer t c r).alerts = d.alerts := rfl
@[simp] theorem Device.answer_alertEnable (d : Device) (t c : Byte) (r : Reply) : (d.answer t c r).alertEnable = d.alertEnable := rfl

/-! ## Device.setPort -/

@[simp] theorem Device.setPort_a_resetHeld (d : Device) (x : Port) : (d.setPort .a x).resetHeld = d.resetHeld := rfl
@[simp] theorem Device.setPort_a_node (d : Device) (x : Port) : (d.setPort .a x).node = d.node := rfl
@[simp] theorem Device.setPort_a_portBFitted (d : Device) (x : Port) : (d.setPort .a x).portBFitted = d.portBFitted := rfl
@[simp] theorem Device.setPort_a_linkU (d : Device) (x : Port) : (d.setPort .a x).linkU = d.linkU := rfl
@[simp] theorem Device.setPort_a_openU (d : Device) (x : Port) : (d.setPort .a x).openU = d.openU := rfl
@[simp] theorem Device.setPort_a_openA (d : Device) (x : Port) : (d.setPort .a x).openA = d.openA := rfl
@[simp] theorem Device.setPort_a_openB (d : Device) (x : Port) : (d.setPort .a x).openB = d.openB := rfl
@[simp] theorem Device.setPort_a_laneU (d : Device) (x : Port) : (d.setPort .a x).laneU = d.laneU := rfl
@[simp] theorem Device.setPort_a_laneA (d : Device) (x : Port) : (d.setPort .a x).laneA = d.laneA := rfl
@[simp] theorem Device.setPort_a_laneB (d : Device) (x : Port) : (d.setPort .a x).laneB = d.laneB := rfl
@[simp] theorem Device.setPort_a_passThrough (d : Device) (x : Port) : (d.setPort .a x).passThrough = d.passThrough := rfl
@[simp] theorem Device.setPort_a_upstream (d : Device) (x : Port) : (d.setPort .a x).upstream = d.upstream := rfl
@[simp] theorem Device.setPort_a_mode (d : Device) (x : Port) : (d.setPort .a x).mode = d.mode := rfl
@[simp] theorem Device.setPort_a_pendingMode (d : Device) (x : Port) : (d.setPort .a x).pendingMode = d.pendingMode := rfl
@[simp] theorem Device.setPort_a_geometry (d : Device) (x : Port) : (d.setPort .a x).geometry = d.geometry := rfl
@[simp] theorem Device.setPort_a_policy (d : Device) (x : Port) : (d.setPort .a x).policy = d.policy := rfl
@[simp] theorem Device.setPort_a_routes (d : Device) (x : Port) : (d.setPort .a x).routes = d.routes := rfl
@[simp] theorem Device.setPort_a_receiver (d : Device) (x : Port) : (d.setPort .a x).receiver = d.receiver := rfl
@[simp] theorem Device.setPort_a_frames (d : Device) (x : Port) : (d.setPort .a x).frames = d.frames := rfl
@[simp] theorem Device.setPort_a_heldLens (d : Device) (x : Port) : (d.setPort .a x).heldLens = d.heldLens := rfl
@[simp] theorem Device.setPort_a_nextFrame (d : Device) (x : Port) : (d.setPort .a x).nextFrame = d.nextFrame := rfl
@[simp] theorem Device.setPort_a_slots (d : Device) (x : Port) : (d.setPort .a x).slots = d.slots := rfl
@[simp] theorem Device.setPort_a_storeReq (d : Device) (x : Port) : (d.setPort .a x).storeReq = d.storeReq := rfl
@[simp] theorem Device.setPort_a_profiles (d : Device) (x : Port) : (d.setPort .a x).profiles = d.profiles := rfl
@[simp] theorem Device.setPort_a_portA (d : Device) (x : Port) : (d.setPort .a x).portA = x := rfl
@[simp] theorem Device.setPort_a_portB (d : Device) (x : Port) : (d.setPort .a x).portB = d.portB := rfl
@[simp] theorem Device.setPort_a_lastSource (d : Device) (x : Port) : (d.setPort .a x).lastSource = d.lastSource := rfl
@[simp] theorem Device.setPort_a_commands (d : Device) (x : Port) : (d.setPort .a x).commands = d.commands := rfl
@[simp] theorem Device.setPort_a_answers (d : Device) (x : Port) : (d.setPort .a x).answers = d.answers := rfl
@[simp] theorem Device.setPort_a_counters (d : Device) (x : Port) : (d.setPort .a x).counters = d.counters := rfl
@[simp] theorem Device.setPort_a_alerts (d : Device) (x : Port) : (d.setPort .a x).alerts = d.alerts := rfl
@[simp] theorem Device.setPort_a_alertEnable (d : Device) (x : Port) : (d.setPort .a x).alertEnable = d.alertEnable := rfl

@[simp] theorem Device.setPort_b_resetHeld (d : Device) (x : Port) : (d.setPort .b x).resetHeld = d.resetHeld := rfl
@[simp] theorem Device.setPort_b_node (d : Device) (x : Port) : (d.setPort .b x).node = d.node := rfl
@[simp] theorem Device.setPort_b_portBFitted (d : Device) (x : Port) : (d.setPort .b x).portBFitted = d.portBFitted := rfl
@[simp] theorem Device.setPort_b_linkU (d : Device) (x : Port) : (d.setPort .b x).linkU = d.linkU := rfl
@[simp] theorem Device.setPort_b_openU (d : Device) (x : Port) : (d.setPort .b x).openU = d.openU := rfl
@[simp] theorem Device.setPort_b_openA (d : Device) (x : Port) : (d.setPort .b x).openA = d.openA := rfl
@[simp] theorem Device.setPort_b_openB (d : Device) (x : Port) : (d.setPort .b x).openB = d.openB := rfl
@[simp] theorem Device.setPort_b_laneU (d : Device) (x : Port) : (d.setPort .b x).laneU = d.laneU := rfl
@[simp] theorem Device.setPort_b_laneA (d : Device) (x : Port) : (d.setPort .b x).laneA = d.laneA := rfl
@[simp] theorem Device.setPort_b_laneB (d : Device) (x : Port) : (d.setPort .b x).laneB = d.laneB := rfl
@[simp] theorem Device.setPort_b_passThrough (d : Device) (x : Port) : (d.setPort .b x).passThrough = d.passThrough := rfl
@[simp] theorem Device.setPort_b_upstream (d : Device) (x : Port) : (d.setPort .b x).upstream = d.upstream := rfl
@[simp] theorem Device.setPort_b_mode (d : Device) (x : Port) : (d.setPort .b x).mode = d.mode := rfl
@[simp] theorem Device.setPort_b_pendingMode (d : Device) (x : Port) : (d.setPort .b x).pendingMode = d.pendingMode := rfl
@[simp] theorem Device.setPort_b_geometry (d : Device) (x : Port) : (d.setPort .b x).geometry = d.geometry := rfl
@[simp] theorem Device.setPort_b_policy (d : Device) (x : Port) : (d.setPort .b x).policy = d.policy := rfl
@[simp] theorem Device.setPort_b_routes (d : Device) (x : Port) : (d.setPort .b x).routes = d.routes := rfl
@[simp] theorem Device.setPort_b_receiver (d : Device) (x : Port) : (d.setPort .b x).receiver = d.receiver := rfl
@[simp] theorem Device.setPort_b_frames (d : Device) (x : Port) : (d.setPort .b x).frames = d.frames := rfl
@[simp] theorem Device.setPort_b_heldLens (d : Device) (x : Port) : (d.setPort .b x).heldLens = d.heldLens := rfl
@[simp] theorem Device.setPort_b_nextFrame (d : Device) (x : Port) : (d.setPort .b x).nextFrame = d.nextFrame := rfl
@[simp] theorem Device.setPort_b_slots (d : Device) (x : Port) : (d.setPort .b x).slots = d.slots := rfl
@[simp] theorem Device.setPort_b_storeReq (d : Device) (x : Port) : (d.setPort .b x).storeReq = d.storeReq := rfl
@[simp] theorem Device.setPort_b_profiles (d : Device) (x : Port) : (d.setPort .b x).profiles = d.profiles := rfl
@[simp] theorem Device.setPort_b_portA (d : Device) (x : Port) : (d.setPort .b x).portA = d.portA := rfl
@[simp] theorem Device.setPort_b_portB (d : Device) (x : Port) : (d.setPort .b x).portB = x := rfl
@[simp] theorem Device.setPort_b_lastSource (d : Device) (x : Port) : (d.setPort .b x).lastSource = d.lastSource := rfl
@[simp] theorem Device.setPort_b_commands (d : Device) (x : Port) : (d.setPort .b x).commands = d.commands := rfl
@[simp] theorem Device.setPort_b_answers (d : Device) (x : Port) : (d.setPort .b x).answers = d.answers := rfl
@[simp] theorem Device.setPort_b_counters (d : Device) (x : Port) : (d.setPort .b x).counters = d.counters := rfl
@[simp] theorem Device.setPort_b_alerts (d : Device) (x : Port) : (d.setPort .b x).alerts = d.alerts := rfl
@[simp] theorem Device.setPort_b_alertEnable (d : Device) (x : Port) : (d.setPort .b x).alertEnable = d.alertEnable := rfl

/-! ## Device.setLink -/

@[simp] theorem Device.setLink_u_resetHeld (d : Device) (l : LinkState) : (d.setLink .u l).resetHeld = d.resetHeld := rfl
@[simp] theorem Device.setLink_u_node (d : Device) (l : LinkState) : (d.setLink .u l).node = d.node := rfl
@[simp] theorem Device.setLink_u_portBFitted (d : Device) (l : LinkState) : (d.setLink .u l).portBFitted = d.portBFitted := rfl
@[simp] theorem Device.setLink_u_linkU (d : Device) (l : LinkState) : (d.setLink .u l).linkU = l := rfl
@[simp] theorem Device.setLink_u_openU (d : Device) (l : LinkState) : (d.setLink .u l).openU = d.openU := rfl
@[simp] theorem Device.setLink_u_openA (d : Device) (l : LinkState) : (d.setLink .u l).openA = d.openA := rfl
@[simp] theorem Device.setLink_u_openB (d : Device) (l : LinkState) : (d.setLink .u l).openB = d.openB := rfl
@[simp] theorem Device.setLink_u_laneU (d : Device) (l : LinkState) : (d.setLink .u l).laneU = d.laneU := rfl
@[simp] theorem Device.setLink_u_laneA (d : Device) (l : LinkState) : (d.setLink .u l).laneA = d.laneA := rfl
@[simp] theorem Device.setLink_u_laneB (d : Device) (l : LinkState) : (d.setLink .u l).laneB = d.laneB := rfl
@[simp] theorem Device.setLink_u_passThrough (d : Device) (l : LinkState) : (d.setLink .u l).passThrough = d.passThrough := rfl
@[simp] theorem Device.setLink_u_upstream (d : Device) (l : LinkState) : (d.setLink .u l).upstream = d.upstream := rfl
@[simp] theorem Device.setLink_u_mode (d : Device) (l : LinkState) : (d.setLink .u l).mode = d.mode := rfl
@[simp] theorem Device.setLink_u_pendingMode (d : Device) (l : LinkState) : (d.setLink .u l).pendingMode = d.pendingMode := rfl
@[simp] theorem Device.setLink_u_geometry (d : Device) (l : LinkState) : (d.setLink .u l).geometry = d.geometry := rfl
@[simp] theorem Device.setLink_u_policy (d : Device) (l : LinkState) : (d.setLink .u l).policy = d.policy := rfl
@[simp] theorem Device.setLink_u_routes (d : Device) (l : LinkState) : (d.setLink .u l).routes = d.routes := rfl
@[simp] theorem Device.setLink_u_receiver (d : Device) (l : LinkState) : (d.setLink .u l).receiver = d.receiver := rfl
@[simp] theorem Device.setLink_u_frames (d : Device) (l : LinkState) : (d.setLink .u l).frames = d.frames := rfl
@[simp] theorem Device.setLink_u_heldLens (d : Device) (l : LinkState) : (d.setLink .u l).heldLens = d.heldLens := rfl
@[simp] theorem Device.setLink_u_nextFrame (d : Device) (l : LinkState) : (d.setLink .u l).nextFrame = d.nextFrame := rfl
@[simp] theorem Device.setLink_u_slots (d : Device) (l : LinkState) : (d.setLink .u l).slots = d.slots := rfl
@[simp] theorem Device.setLink_u_storeReq (d : Device) (l : LinkState) : (d.setLink .u l).storeReq = d.storeReq := rfl
@[simp] theorem Device.setLink_u_profiles (d : Device) (l : LinkState) : (d.setLink .u l).profiles = d.profiles := rfl
@[simp] theorem Device.setLink_u_portA (d : Device) (l : LinkState) : (d.setLink .u l).portA = d.portA := rfl
@[simp] theorem Device.setLink_u_portB (d : Device) (l : LinkState) : (d.setLink .u l).portB = d.portB := rfl
@[simp] theorem Device.setLink_u_lastSource (d : Device) (l : LinkState) : (d.setLink .u l).lastSource = d.lastSource := rfl
@[simp] theorem Device.setLink_u_commands (d : Device) (l : LinkState) : (d.setLink .u l).commands = d.commands := rfl
@[simp] theorem Device.setLink_u_answers (d : Device) (l : LinkState) : (d.setLink .u l).answers = d.answers := rfl
@[simp] theorem Device.setLink_u_counters (d : Device) (l : LinkState) : (d.setLink .u l).counters = d.counters := rfl
@[simp] theorem Device.setLink_u_alerts (d : Device) (l : LinkState) : (d.setLink .u l).alerts = d.alerts := rfl
@[simp] theorem Device.setLink_u_alertEnable (d : Device) (l : LinkState) : (d.setLink .u l).alertEnable = d.alertEnable := rfl

@[simp] theorem Device.setLink_a_resetHeld (d : Device) (l : LinkState) : (d.setLink .a l).resetHeld = d.resetHeld := rfl
@[simp] theorem Device.setLink_a_node (d : Device) (l : LinkState) : (d.setLink .a l).node = d.node := rfl
@[simp] theorem Device.setLink_a_portBFitted (d : Device) (l : LinkState) : (d.setLink .a l).portBFitted = d.portBFitted := rfl
@[simp] theorem Device.setLink_a_linkU (d : Device) (l : LinkState) : (d.setLink .a l).linkU = d.linkU := rfl
@[simp] theorem Device.setLink_a_openU (d : Device) (l : LinkState) : (d.setLink .a l).openU = d.openU := rfl
@[simp] theorem Device.setLink_a_openA (d : Device) (l : LinkState) : (d.setLink .a l).openA = d.openA := rfl
@[simp] theorem Device.setLink_a_openB (d : Device) (l : LinkState) : (d.setLink .a l).openB = d.openB := rfl
@[simp] theorem Device.setLink_a_laneU (d : Device) (l : LinkState) : (d.setLink .a l).laneU = d.laneU := rfl
@[simp] theorem Device.setLink_a_laneA (d : Device) (l : LinkState) : (d.setLink .a l).laneA = d.laneA := rfl
@[simp] theorem Device.setLink_a_laneB (d : Device) (l : LinkState) : (d.setLink .a l).laneB = d.laneB := rfl
@[simp] theorem Device.setLink_a_passThrough (d : Device) (l : LinkState) : (d.setLink .a l).passThrough = d.passThrough := rfl
@[simp] theorem Device.setLink_a_upstream (d : Device) (l : LinkState) : (d.setLink .a l).upstream = d.upstream := rfl
@[simp] theorem Device.setLink_a_mode (d : Device) (l : LinkState) : (d.setLink .a l).mode = d.mode := rfl
@[simp] theorem Device.setLink_a_pendingMode (d : Device) (l : LinkState) : (d.setLink .a l).pendingMode = d.pendingMode := rfl
@[simp] theorem Device.setLink_a_geometry (d : Device) (l : LinkState) : (d.setLink .a l).geometry = d.geometry := rfl
@[simp] theorem Device.setLink_a_policy (d : Device) (l : LinkState) : (d.setLink .a l).policy = d.policy := rfl
@[simp] theorem Device.setLink_a_routes (d : Device) (l : LinkState) : (d.setLink .a l).routes = d.routes := rfl
@[simp] theorem Device.setLink_a_receiver (d : Device) (l : LinkState) : (d.setLink .a l).receiver = d.receiver := rfl
@[simp] theorem Device.setLink_a_frames (d : Device) (l : LinkState) : (d.setLink .a l).frames = d.frames := rfl
@[simp] theorem Device.setLink_a_heldLens (d : Device) (l : LinkState) : (d.setLink .a l).heldLens = d.heldLens := rfl
@[simp] theorem Device.setLink_a_nextFrame (d : Device) (l : LinkState) : (d.setLink .a l).nextFrame = d.nextFrame := rfl
@[simp] theorem Device.setLink_a_slots (d : Device) (l : LinkState) : (d.setLink .a l).slots = d.slots := rfl
@[simp] theorem Device.setLink_a_storeReq (d : Device) (l : LinkState) : (d.setLink .a l).storeReq = d.storeReq := rfl
@[simp] theorem Device.setLink_a_profiles (d : Device) (l : LinkState) : (d.setLink .a l).profiles = d.profiles := rfl
@[simp] theorem Device.setLink_a_portA (d : Device) (l : LinkState) : (d.setLink .a l).portA = { d.portA with link := l } := rfl
@[simp] theorem Device.setLink_a_portB (d : Device) (l : LinkState) : (d.setLink .a l).portB = d.portB := rfl
@[simp] theorem Device.setLink_a_lastSource (d : Device) (l : LinkState) : (d.setLink .a l).lastSource = d.lastSource := rfl
@[simp] theorem Device.setLink_a_commands (d : Device) (l : LinkState) : (d.setLink .a l).commands = d.commands := rfl
@[simp] theorem Device.setLink_a_answers (d : Device) (l : LinkState) : (d.setLink .a l).answers = d.answers := rfl
@[simp] theorem Device.setLink_a_counters (d : Device) (l : LinkState) : (d.setLink .a l).counters = d.counters := rfl
@[simp] theorem Device.setLink_a_alerts (d : Device) (l : LinkState) : (d.setLink .a l).alerts = d.alerts := rfl
@[simp] theorem Device.setLink_a_alertEnable (d : Device) (l : LinkState) : (d.setLink .a l).alertEnable = d.alertEnable := rfl

@[simp] theorem Device.setLink_b_resetHeld (d : Device) (l : LinkState) : (d.setLink .b l).resetHeld = d.resetHeld := rfl
@[simp] theorem Device.setLink_b_node (d : Device) (l : LinkState) : (d.setLink .b l).node = d.node := rfl
@[simp] theorem Device.setLink_b_portBFitted (d : Device) (l : LinkState) : (d.setLink .b l).portBFitted = d.portBFitted := rfl
@[simp] theorem Device.setLink_b_linkU (d : Device) (l : LinkState) : (d.setLink .b l).linkU = d.linkU := rfl
@[simp] theorem Device.setLink_b_openU (d : Device) (l : LinkState) : (d.setLink .b l).openU = d.openU := rfl
@[simp] theorem Device.setLink_b_openA (d : Device) (l : LinkState) : (d.setLink .b l).openA = d.openA := rfl
@[simp] theorem Device.setLink_b_openB (d : Device) (l : LinkState) : (d.setLink .b l).openB = d.openB := rfl
@[simp] theorem Device.setLink_b_laneU (d : Device) (l : LinkState) : (d.setLink .b l).laneU = d.laneU := rfl
@[simp] theorem Device.setLink_b_laneA (d : Device) (l : LinkState) : (d.setLink .b l).laneA = d.laneA := rfl
@[simp] theorem Device.setLink_b_laneB (d : Device) (l : LinkState) : (d.setLink .b l).laneB = d.laneB := rfl
@[simp] theorem Device.setLink_b_passThrough (d : Device) (l : LinkState) : (d.setLink .b l).passThrough = d.passThrough := rfl
@[simp] theorem Device.setLink_b_upstream (d : Device) (l : LinkState) : (d.setLink .b l).upstream = d.upstream := rfl
@[simp] theorem Device.setLink_b_mode (d : Device) (l : LinkState) : (d.setLink .b l).mode = d.mode := rfl
@[simp] theorem Device.setLink_b_pendingMode (d : Device) (l : LinkState) : (d.setLink .b l).pendingMode = d.pendingMode := rfl
@[simp] theorem Device.setLink_b_geometry (d : Device) (l : LinkState) : (d.setLink .b l).geometry = d.geometry := rfl
@[simp] theorem Device.setLink_b_policy (d : Device) (l : LinkState) : (d.setLink .b l).policy = d.policy := rfl
@[simp] theorem Device.setLink_b_routes (d : Device) (l : LinkState) : (d.setLink .b l).routes = d.routes := rfl
@[simp] theorem Device.setLink_b_receiver (d : Device) (l : LinkState) : (d.setLink .b l).receiver = d.receiver := rfl
@[simp] theorem Device.setLink_b_frames (d : Device) (l : LinkState) : (d.setLink .b l).frames = d.frames := rfl
@[simp] theorem Device.setLink_b_heldLens (d : Device) (l : LinkState) : (d.setLink .b l).heldLens = d.heldLens := rfl
@[simp] theorem Device.setLink_b_nextFrame (d : Device) (l : LinkState) : (d.setLink .b l).nextFrame = d.nextFrame := rfl
@[simp] theorem Device.setLink_b_slots (d : Device) (l : LinkState) : (d.setLink .b l).slots = d.slots := rfl
@[simp] theorem Device.setLink_b_storeReq (d : Device) (l : LinkState) : (d.setLink .b l).storeReq = d.storeReq := rfl
@[simp] theorem Device.setLink_b_profiles (d : Device) (l : LinkState) : (d.setLink .b l).profiles = d.profiles := rfl
@[simp] theorem Device.setLink_b_portA (d : Device) (l : LinkState) : (d.setLink .b l).portA = d.portA := rfl
@[simp] theorem Device.setLink_b_portB (d : Device) (l : LinkState) : (d.setLink .b l).portB = { d.portB with link := l } := rfl
@[simp] theorem Device.setLink_b_lastSource (d : Device) (l : LinkState) : (d.setLink .b l).lastSource = d.lastSource := rfl
@[simp] theorem Device.setLink_b_commands (d : Device) (l : LinkState) : (d.setLink .b l).commands = d.commands := rfl
@[simp] theorem Device.setLink_b_answers (d : Device) (l : LinkState) : (d.setLink .b l).answers = d.answers := rfl
@[simp] theorem Device.setLink_b_counters (d : Device) (l : LinkState) : (d.setLink .b l).counters = d.counters := rfl
@[simp] theorem Device.setLink_b_alerts (d : Device) (l : LinkState) : (d.setLink .b l).alerts = d.alerts := rfl
@[simp] theorem Device.setLink_b_alertEnable (d : Device) (l : LinkState) : (d.setLink .b l).alertEnable = d.alertEnable := rfl

/-! ## Device.setOpened -/

@[simp] theorem Device.setOpened_u_resetHeld (d : Device) (o : Option (List Byte)) : (d.setOpened .u o).resetHeld = d.resetHeld := rfl
@[simp] theorem Device.setOpened_u_node (d : Device) (o : Option (List Byte)) : (d.setOpened .u o).node = d.node := rfl
@[simp] theorem Device.setOpened_u_portBFitted (d : Device) (o : Option (List Byte)) : (d.setOpened .u o).portBFitted = d.portBFitted := rfl
@[simp] theorem Device.setOpened_u_linkU (d : Device) (o : Option (List Byte)) : (d.setOpened .u o).linkU = d.linkU := rfl
@[simp] theorem Device.setOpened_u_openU (d : Device) (o : Option (List Byte)) : (d.setOpened .u o).openU = o := rfl
@[simp] theorem Device.setOpened_u_openA (d : Device) (o : Option (List Byte)) : (d.setOpened .u o).openA = d.openA := rfl
@[simp] theorem Device.setOpened_u_openB (d : Device) (o : Option (List Byte)) : (d.setOpened .u o).openB = d.openB := rfl
@[simp] theorem Device.setOpened_u_laneU (d : Device) (o : Option (List Byte)) : (d.setOpened .u o).laneU = d.laneU := rfl
@[simp] theorem Device.setOpened_u_laneA (d : Device) (o : Option (List Byte)) : (d.setOpened .u o).laneA = d.laneA := rfl
@[simp] theorem Device.setOpened_u_laneB (d : Device) (o : Option (List Byte)) : (d.setOpened .u o).laneB = d.laneB := rfl
@[simp] theorem Device.setOpened_u_passThrough (d : Device) (o : Option (List Byte)) : (d.setOpened .u o).passThrough = d.passThrough := rfl
@[simp] theorem Device.setOpened_u_upstream (d : Device) (o : Option (List Byte)) : (d.setOpened .u o).upstream = d.upstream := rfl
@[simp] theorem Device.setOpened_u_mode (d : Device) (o : Option (List Byte)) : (d.setOpened .u o).mode = d.mode := rfl
@[simp] theorem Device.setOpened_u_pendingMode (d : Device) (o : Option (List Byte)) : (d.setOpened .u o).pendingMode = d.pendingMode := rfl
@[simp] theorem Device.setOpened_u_geometry (d : Device) (o : Option (List Byte)) : (d.setOpened .u o).geometry = d.geometry := rfl
@[simp] theorem Device.setOpened_u_policy (d : Device) (o : Option (List Byte)) : (d.setOpened .u o).policy = d.policy := rfl
@[simp] theorem Device.setOpened_u_routes (d : Device) (o : Option (List Byte)) : (d.setOpened .u o).routes = d.routes := rfl
@[simp] theorem Device.setOpened_u_receiver (d : Device) (o : Option (List Byte)) : (d.setOpened .u o).receiver = d.receiver := rfl
@[simp] theorem Device.setOpened_u_frames (d : Device) (o : Option (List Byte)) : (d.setOpened .u o).frames = d.frames := rfl
@[simp] theorem Device.setOpened_u_heldLens (d : Device) (o : Option (List Byte)) : (d.setOpened .u o).heldLens = d.heldLens := rfl
@[simp] theorem Device.setOpened_u_nextFrame (d : Device) (o : Option (List Byte)) : (d.setOpened .u o).nextFrame = d.nextFrame := rfl
@[simp] theorem Device.setOpened_u_slots (d : Device) (o : Option (List Byte)) : (d.setOpened .u o).slots = d.slots := rfl
@[simp] theorem Device.setOpened_u_storeReq (d : Device) (o : Option (List Byte)) : (d.setOpened .u o).storeReq = d.storeReq := rfl
@[simp] theorem Device.setOpened_u_profiles (d : Device) (o : Option (List Byte)) : (d.setOpened .u o).profiles = d.profiles := rfl
@[simp] theorem Device.setOpened_u_portA (d : Device) (o : Option (List Byte)) : (d.setOpened .u o).portA = d.portA := rfl
@[simp] theorem Device.setOpened_u_portB (d : Device) (o : Option (List Byte)) : (d.setOpened .u o).portB = d.portB := rfl
@[simp] theorem Device.setOpened_u_lastSource (d : Device) (o : Option (List Byte)) : (d.setOpened .u o).lastSource = d.lastSource := rfl
@[simp] theorem Device.setOpened_u_commands (d : Device) (o : Option (List Byte)) : (d.setOpened .u o).commands = d.commands := rfl
@[simp] theorem Device.setOpened_u_answers (d : Device) (o : Option (List Byte)) : (d.setOpened .u o).answers = d.answers := rfl
@[simp] theorem Device.setOpened_u_counters (d : Device) (o : Option (List Byte)) : (d.setOpened .u o).counters = d.counters := rfl
@[simp] theorem Device.setOpened_u_alerts (d : Device) (o : Option (List Byte)) : (d.setOpened .u o).alerts = d.alerts := rfl
@[simp] theorem Device.setOpened_u_alertEnable (d : Device) (o : Option (List Byte)) : (d.setOpened .u o).alertEnable = d.alertEnable := rfl

@[simp] theorem Device.setOpened_a_resetHeld (d : Device) (o : Option (List Byte)) : (d.setOpened .a o).resetHeld = d.resetHeld := rfl
@[simp] theorem Device.setOpened_a_node (d : Device) (o : Option (List Byte)) : (d.setOpened .a o).node = d.node := rfl
@[simp] theorem Device.setOpened_a_portBFitted (d : Device) (o : Option (List Byte)) : (d.setOpened .a o).portBFitted = d.portBFitted := rfl
@[simp] theorem Device.setOpened_a_linkU (d : Device) (o : Option (List Byte)) : (d.setOpened .a o).linkU = d.linkU := rfl
@[simp] theorem Device.setOpened_a_openU (d : Device) (o : Option (List Byte)) : (d.setOpened .a o).openU = d.openU := rfl
@[simp] theorem Device.setOpened_a_openA (d : Device) (o : Option (List Byte)) : (d.setOpened .a o).openA = o := rfl
@[simp] theorem Device.setOpened_a_openB (d : Device) (o : Option (List Byte)) : (d.setOpened .a o).openB = d.openB := rfl
@[simp] theorem Device.setOpened_a_laneU (d : Device) (o : Option (List Byte)) : (d.setOpened .a o).laneU = d.laneU := rfl
@[simp] theorem Device.setOpened_a_laneA (d : Device) (o : Option (List Byte)) : (d.setOpened .a o).laneA = d.laneA := rfl
@[simp] theorem Device.setOpened_a_laneB (d : Device) (o : Option (List Byte)) : (d.setOpened .a o).laneB = d.laneB := rfl
@[simp] theorem Device.setOpened_a_passThrough (d : Device) (o : Option (List Byte)) : (d.setOpened .a o).passThrough = d.passThrough := rfl
@[simp] theorem Device.setOpened_a_upstream (d : Device) (o : Option (List Byte)) : (d.setOpened .a o).upstream = d.upstream := rfl
@[simp] theorem Device.setOpened_a_mode (d : Device) (o : Option (List Byte)) : (d.setOpened .a o).mode = d.mode := rfl
@[simp] theorem Device.setOpened_a_pendingMode (d : Device) (o : Option (List Byte)) : (d.setOpened .a o).pendingMode = d.pendingMode := rfl
@[simp] theorem Device.setOpened_a_geometry (d : Device) (o : Option (List Byte)) : (d.setOpened .a o).geometry = d.geometry := rfl
@[simp] theorem Device.setOpened_a_policy (d : Device) (o : Option (List Byte)) : (d.setOpened .a o).policy = d.policy := rfl
@[simp] theorem Device.setOpened_a_routes (d : Device) (o : Option (List Byte)) : (d.setOpened .a o).routes = d.routes := rfl
@[simp] theorem Device.setOpened_a_receiver (d : Device) (o : Option (List Byte)) : (d.setOpened .a o).receiver = d.receiver := rfl
@[simp] theorem Device.setOpened_a_frames (d : Device) (o : Option (List Byte)) : (d.setOpened .a o).frames = d.frames := rfl
@[simp] theorem Device.setOpened_a_heldLens (d : Device) (o : Option (List Byte)) : (d.setOpened .a o).heldLens = d.heldLens := rfl
@[simp] theorem Device.setOpened_a_nextFrame (d : Device) (o : Option (List Byte)) : (d.setOpened .a o).nextFrame = d.nextFrame := rfl
@[simp] theorem Device.setOpened_a_slots (d : Device) (o : Option (List Byte)) : (d.setOpened .a o).slots = d.slots := rfl
@[simp] theorem Device.setOpened_a_storeReq (d : Device) (o : Option (List Byte)) : (d.setOpened .a o).storeReq = d.storeReq := rfl
@[simp] theorem Device.setOpened_a_profiles (d : Device) (o : Option (List Byte)) : (d.setOpened .a o).profiles = d.profiles := rfl
@[simp] theorem Device.setOpened_a_portA (d : Device) (o : Option (List Byte)) : (d.setOpened .a o).portA = d.portA := rfl
@[simp] theorem Device.setOpened_a_portB (d : Device) (o : Option (List Byte)) : (d.setOpened .a o).portB = d.portB := rfl
@[simp] theorem Device.setOpened_a_lastSource (d : Device) (o : Option (List Byte)) : (d.setOpened .a o).lastSource = d.lastSource := rfl
@[simp] theorem Device.setOpened_a_commands (d : Device) (o : Option (List Byte)) : (d.setOpened .a o).commands = d.commands := rfl
@[simp] theorem Device.setOpened_a_answers (d : Device) (o : Option (List Byte)) : (d.setOpened .a o).answers = d.answers := rfl
@[simp] theorem Device.setOpened_a_counters (d : Device) (o : Option (List Byte)) : (d.setOpened .a o).counters = d.counters := rfl
@[simp] theorem Device.setOpened_a_alerts (d : Device) (o : Option (List Byte)) : (d.setOpened .a o).alerts = d.alerts := rfl
@[simp] theorem Device.setOpened_a_alertEnable (d : Device) (o : Option (List Byte)) : (d.setOpened .a o).alertEnable = d.alertEnable := rfl

@[simp] theorem Device.setOpened_b_resetHeld (d : Device) (o : Option (List Byte)) : (d.setOpened .b o).resetHeld = d.resetHeld := rfl
@[simp] theorem Device.setOpened_b_node (d : Device) (o : Option (List Byte)) : (d.setOpened .b o).node = d.node := rfl
@[simp] theorem Device.setOpened_b_portBFitted (d : Device) (o : Option (List Byte)) : (d.setOpened .b o).portBFitted = d.portBFitted := rfl
@[simp] theorem Device.setOpened_b_linkU (d : Device) (o : Option (List Byte)) : (d.setOpened .b o).linkU = d.linkU := rfl
@[simp] theorem Device.setOpened_b_openU (d : Device) (o : Option (List Byte)) : (d.setOpened .b o).openU = d.openU := rfl
@[simp] theorem Device.setOpened_b_openA (d : Device) (o : Option (List Byte)) : (d.setOpened .b o).openA = d.openA := rfl
@[simp] theorem Device.setOpened_b_openB (d : Device) (o : Option (List Byte)) : (d.setOpened .b o).openB = o := rfl
@[simp] theorem Device.setOpened_b_laneU (d : Device) (o : Option (List Byte)) : (d.setOpened .b o).laneU = d.laneU := rfl
@[simp] theorem Device.setOpened_b_laneA (d : Device) (o : Option (List Byte)) : (d.setOpened .b o).laneA = d.laneA := rfl
@[simp] theorem Device.setOpened_b_laneB (d : Device) (o : Option (List Byte)) : (d.setOpened .b o).laneB = d.laneB := rfl
@[simp] theorem Device.setOpened_b_passThrough (d : Device) (o : Option (List Byte)) : (d.setOpened .b o).passThrough = d.passThrough := rfl
@[simp] theorem Device.setOpened_b_upstream (d : Device) (o : Option (List Byte)) : (d.setOpened .b o).upstream = d.upstream := rfl
@[simp] theorem Device.setOpened_b_mode (d : Device) (o : Option (List Byte)) : (d.setOpened .b o).mode = d.mode := rfl
@[simp] theorem Device.setOpened_b_pendingMode (d : Device) (o : Option (List Byte)) : (d.setOpened .b o).pendingMode = d.pendingMode := rfl
@[simp] theorem Device.setOpened_b_geometry (d : Device) (o : Option (List Byte)) : (d.setOpened .b o).geometry = d.geometry := rfl
@[simp] theorem Device.setOpened_b_policy (d : Device) (o : Option (List Byte)) : (d.setOpened .b o).policy = d.policy := rfl
@[simp] theorem Device.setOpened_b_routes (d : Device) (o : Option (List Byte)) : (d.setOpened .b o).routes = d.routes := rfl
@[simp] theorem Device.setOpened_b_receiver (d : Device) (o : Option (List Byte)) : (d.setOpened .b o).receiver = d.receiver := rfl
@[simp] theorem Device.setOpened_b_frames (d : Device) (o : Option (List Byte)) : (d.setOpened .b o).frames = d.frames := rfl
@[simp] theorem Device.setOpened_b_heldLens (d : Device) (o : Option (List Byte)) : (d.setOpened .b o).heldLens = d.heldLens := rfl
@[simp] theorem Device.setOpened_b_nextFrame (d : Device) (o : Option (List Byte)) : (d.setOpened .b o).nextFrame = d.nextFrame := rfl
@[simp] theorem Device.setOpened_b_slots (d : Device) (o : Option (List Byte)) : (d.setOpened .b o).slots = d.slots := rfl
@[simp] theorem Device.setOpened_b_storeReq (d : Device) (o : Option (List Byte)) : (d.setOpened .b o).storeReq = d.storeReq := rfl
@[simp] theorem Device.setOpened_b_profiles (d : Device) (o : Option (List Byte)) : (d.setOpened .b o).profiles = d.profiles := rfl
@[simp] theorem Device.setOpened_b_portA (d : Device) (o : Option (List Byte)) : (d.setOpened .b o).portA = d.portA := rfl
@[simp] theorem Device.setOpened_b_portB (d : Device) (o : Option (List Byte)) : (d.setOpened .b o).portB = d.portB := rfl
@[simp] theorem Device.setOpened_b_lastSource (d : Device) (o : Option (List Byte)) : (d.setOpened .b o).lastSource = d.lastSource := rfl
@[simp] theorem Device.setOpened_b_commands (d : Device) (o : Option (List Byte)) : (d.setOpened .b o).commands = d.commands := rfl
@[simp] theorem Device.setOpened_b_answers (d : Device) (o : Option (List Byte)) : (d.setOpened .b o).answers = d.answers := rfl
@[simp] theorem Device.setOpened_b_counters (d : Device) (o : Option (List Byte)) : (d.setOpened .b o).counters = d.counters := rfl
@[simp] theorem Device.setOpened_b_alerts (d : Device) (o : Option (List Byte)) : (d.setOpened .b o).alerts = d.alerts := rfl
@[simp] theorem Device.setOpened_b_alertEnable (d : Device) (o : Option (List Byte)) : (d.setOpened .b o).alertEnable = d.alertEnable := rfl

/-! ## Device.clearLane -/

@[simp] theorem Device.clearLane_a_resetHeld (d : Device) : (d.clearLane .a).resetHeld = d.resetHeld := rfl
@[simp] theorem Device.clearLane_a_node (d : Device) : (d.clearLane .a).node = d.node := rfl
@[simp] theorem Device.clearLane_a_portBFitted (d : Device) : (d.clearLane .a).portBFitted = d.portBFitted := rfl
@[simp] theorem Device.clearLane_a_linkU (d : Device) : (d.clearLane .a).linkU = d.linkU := rfl
@[simp] theorem Device.clearLane_a_openU (d : Device) : (d.clearLane .a).openU = d.openU := rfl
@[simp] theorem Device.clearLane_a_openA (d : Device) : (d.clearLane .a).openA = d.openA := rfl
@[simp] theorem Device.clearLane_a_openB (d : Device) : (d.clearLane .a).openB = d.openB := rfl
@[simp] theorem Device.clearLane_a_laneU (d : Device) : (d.clearLane .a).laneU = d.laneU := rfl
@[simp] theorem Device.clearLane_a_laneA (d : Device) : (d.clearLane .a).laneA = none := rfl
@[simp] theorem Device.clearLane_a_laneB (d : Device) : (d.clearLane .a).laneB = d.laneB := rfl
@[simp] theorem Device.clearLane_a_passThrough (d : Device) : (d.clearLane .a).passThrough = d.passThrough := rfl
@[simp] theorem Device.clearLane_a_upstream (d : Device) : (d.clearLane .a).upstream = d.upstream := rfl
@[simp] theorem Device.clearLane_a_mode (d : Device) : (d.clearLane .a).mode = d.mode := rfl
@[simp] theorem Device.clearLane_a_pendingMode (d : Device) : (d.clearLane .a).pendingMode = d.pendingMode := rfl
@[simp] theorem Device.clearLane_a_geometry (d : Device) : (d.clearLane .a).geometry = d.geometry := rfl
@[simp] theorem Device.clearLane_a_policy (d : Device) : (d.clearLane .a).policy = d.policy := rfl
@[simp] theorem Device.clearLane_a_routes (d : Device) : (d.clearLane .a).routes = d.routes := rfl
@[simp] theorem Device.clearLane_a_receiver (d : Device) : (d.clearLane .a).receiver = d.receiver := rfl
@[simp] theorem Device.clearLane_a_frames (d : Device) : (d.clearLane .a).frames = d.frames := rfl
@[simp] theorem Device.clearLane_a_heldLens (d : Device) : (d.clearLane .a).heldLens = d.heldLens := rfl
@[simp] theorem Device.clearLane_a_nextFrame (d : Device) : (d.clearLane .a).nextFrame = d.nextFrame := rfl
@[simp] theorem Device.clearLane_a_slots (d : Device) : (d.clearLane .a).slots = d.slots := rfl
@[simp] theorem Device.clearLane_a_storeReq (d : Device) : (d.clearLane .a).storeReq = d.storeReq := rfl
@[simp] theorem Device.clearLane_a_profiles (d : Device) : (d.clearLane .a).profiles = d.profiles := rfl
@[simp] theorem Device.clearLane_a_portA (d : Device) : (d.clearLane .a).portA = d.portA := rfl
@[simp] theorem Device.clearLane_a_portB (d : Device) : (d.clearLane .a).portB = d.portB := rfl
@[simp] theorem Device.clearLane_a_lastSource (d : Device) : (d.clearLane .a).lastSource = d.lastSource := rfl
@[simp] theorem Device.clearLane_a_commands (d : Device) : (d.clearLane .a).commands = d.commands := rfl
@[simp] theorem Device.clearLane_a_answers (d : Device) : (d.clearLane .a).answers = d.answers := rfl
@[simp] theorem Device.clearLane_a_counters (d : Device) : (d.clearLane .a).counters = d.counters := rfl
@[simp] theorem Device.clearLane_a_alerts (d : Device) : (d.clearLane .a).alerts = d.alerts := rfl
@[simp] theorem Device.clearLane_a_alertEnable (d : Device) : (d.clearLane .a).alertEnable = d.alertEnable := rfl

@[simp] theorem Device.clearLane_b_resetHeld (d : Device) : (d.clearLane .b).resetHeld = d.resetHeld := rfl
@[simp] theorem Device.clearLane_b_node (d : Device) : (d.clearLane .b).node = d.node := rfl
@[simp] theorem Device.clearLane_b_portBFitted (d : Device) : (d.clearLane .b).portBFitted = d.portBFitted := rfl
@[simp] theorem Device.clearLane_b_linkU (d : Device) : (d.clearLane .b).linkU = d.linkU := rfl
@[simp] theorem Device.clearLane_b_openU (d : Device) : (d.clearLane .b).openU = d.openU := rfl
@[simp] theorem Device.clearLane_b_openA (d : Device) : (d.clearLane .b).openA = d.openA := rfl
@[simp] theorem Device.clearLane_b_openB (d : Device) : (d.clearLane .b).openB = d.openB := rfl
@[simp] theorem Device.clearLane_b_laneU (d : Device) : (d.clearLane .b).laneU = d.laneU := rfl
@[simp] theorem Device.clearLane_b_laneA (d : Device) : (d.clearLane .b).laneA = d.laneA := rfl
@[simp] theorem Device.clearLane_b_laneB (d : Device) : (d.clearLane .b).laneB = none := rfl
@[simp] theorem Device.clearLane_b_passThrough (d : Device) : (d.clearLane .b).passThrough = d.passThrough := rfl
@[simp] theorem Device.clearLane_b_upstream (d : Device) : (d.clearLane .b).upstream = d.upstream := rfl
@[simp] theorem Device.clearLane_b_mode (d : Device) : (d.clearLane .b).mode = d.mode := rfl
@[simp] theorem Device.clearLane_b_pendingMode (d : Device) : (d.clearLane .b).pendingMode = d.pendingMode := rfl
@[simp] theorem Device.clearLane_b_geometry (d : Device) : (d.clearLane .b).geometry = d.geometry := rfl
@[simp] theorem Device.clearLane_b_policy (d : Device) : (d.clearLane .b).policy = d.policy := rfl
@[simp] theorem Device.clearLane_b_routes (d : Device) : (d.clearLane .b).routes = d.routes := rfl
@[simp] theorem Device.clearLane_b_receiver (d : Device) : (d.clearLane .b).receiver = d.receiver := rfl
@[simp] theorem Device.clearLane_b_frames (d : Device) : (d.clearLane .b).frames = d.frames := rfl
@[simp] theorem Device.clearLane_b_heldLens (d : Device) : (d.clearLane .b).heldLens = d.heldLens := rfl
@[simp] theorem Device.clearLane_b_nextFrame (d : Device) : (d.clearLane .b).nextFrame = d.nextFrame := rfl
@[simp] theorem Device.clearLane_b_slots (d : Device) : (d.clearLane .b).slots = d.slots := rfl
@[simp] theorem Device.clearLane_b_storeReq (d : Device) : (d.clearLane .b).storeReq = d.storeReq := rfl
@[simp] theorem Device.clearLane_b_profiles (d : Device) : (d.clearLane .b).profiles = d.profiles := rfl
@[simp] theorem Device.clearLane_b_portA (d : Device) : (d.clearLane .b).portA = d.portA := rfl
@[simp] theorem Device.clearLane_b_portB (d : Device) : (d.clearLane .b).portB = d.portB := rfl
@[simp] theorem Device.clearLane_b_lastSource (d : Device) : (d.clearLane .b).lastSource = d.lastSource := rfl
@[simp] theorem Device.clearLane_b_commands (d : Device) : (d.clearLane .b).commands = d.commands := rfl
@[simp] theorem Device.clearLane_b_answers (d : Device) : (d.clearLane .b).answers = d.answers := rfl
@[simp] theorem Device.clearLane_b_counters (d : Device) : (d.clearLane .b).counters = d.counters := rfl
@[simp] theorem Device.clearLane_b_alerts (d : Device) : (d.clearLane .b).alerts = d.alerts := rfl
@[simp] theorem Device.clearLane_b_alertEnable (d : Device) : (d.clearLane .b).alertEnable = d.alertEnable := rfl

end Sys2Proof.Machine
end

