-- ==== Sys2Proof/Laws/Steps.lean ====
section
/-! SUPPORT. Everything a command can do, said once: exec answers a next state with the queue as it was, and a predicate
of the part that every shared operation keeps is kept by every command. -/

namespace Sys2Proof.Machine

/-- A predicate of the part that everything an arriving symbol can bring about keeps. -/
structure KeptByPackets (P : Device → Prop) : Prop where
  bump : ∀ d c n, P d → P (d.bump c n)
  raise : ∀ d a, P d → P (d.raise a)
  setOpened : ∀ d lane sym, P d → d.link lane = .up →
    P (d.setOpened lane (readSymbol (d.opened lane) sym).1)
  takeStoreRequest : ∀ d, P d → P d.takeStoreRequest
  takeHead : ∀ d tag group (payload : List Byte), P d → P (d.takeHead tag group (embeddedNote payload))
  takeRow : ∀ d r samples bad, P d → d.storeReq = none → P (d.takeRow r samples bad)
  takeNote : ∀ d r, P d → P (d.takeNote r)
  takeTail : ∀ d tag, P d → P (d.takeTail tag)
  joinPassThrough : ∀ d p, P d → P (d.joinPassThrough p)
  joinUpstream : ∀ d p, P d → P (d.joinUpstream p)
  joinCommands : ∀ d p, P d → P (d.joinCommands p)
  credit : ∀ d p, P d → P (d.flow p Port.credit)
  hold : ∀ d p, P d → P (d.flow p Port.hold)
  resume : ∀ d p, P d → P (d.flow p Port.resume)

/-- A predicate of the part that every shared operation keeps. -/
structure Kept (P : Device → Prop) : Prop extends KeptByPackets P where
  laneLock : ∀ d p, P d → P (d.laneLock p)
  alignmentDone : ∀ d p, P d → P (d.alignmentDone p)
  laneLoss : ∀ d p, P d → P (d.laneLoss p)
  holdReset : ∀ d, P d → P d.holdReset
  partReset : ∀ d node fitted, P d → P (d.partReset node fitted)
  produceLine : ∀ d, P d → P d.produceLine
  arbiterChoice : ∀ d, P d → P d.arbiterChoice
  portBSend : ∀ d, P d → P d.portBSend
  upstreamSend : ∀ d, P d → P d.upstreamSend
  itemSent : ∀ d p, P d → P (d.itemSent p)
  answerSent : ∀ d, P d → P d.answerSent
  passThroughSent : ∀ d, P d → P d.passThroughSent
  upstreamSent : ∀ d, P d → P d.upstreamSent
  popCommand : ∀ d r rest, P d → d.commands = r :: rest → P { d with commands := rest }
  answer : ∀ d tag code r, P d → d.answers.length < 8 → P (d.answer tag code r)
  zeroCounters : ∀ d, P d → P d.zeroCounters
  alerts : ∀ d v, P d → P { d with alerts := v }
  alertEnable : ∀ d v, P d → P { d with alertEnable := v }
  setMode : ∀ d args, P d → P (runSetMode args d).1
  setGeometry : ∀ d args, P d → P (runSetGeometry args d).1
  setInput : ∀ d v, P d → P { d with policy := v }
  setRoute : ∀ d g v, P d → P { d with routes := d.routes.setIfInBounds g v }
  setPort : ∀ d p enable crop, P d → P (d.setPort p { d.port p with enable := enable, crop := crop })
  profileOpen : ∀ d args, P d → P (runProfileOpen args d).1
  profileWrite : ∀ d args, P d → P (runProfileWrite args d).1
  profileClose : ∀ d args, P d → P (runProfileClose args d).1
  profileRetire : ∀ d e, P d → P (d.onEntry e Entry.retire)
  resetPipeline : ∀ d, P d → P d.resetPipeline
  resetProfiles : ∀ d, P d → P d.resetProfiles
  resetPort : ∀ d p, P d → P (d.resetPort p)

/-! ## exec, command by command -/

@[simp] theorem exec_packetAbandoned (lane : LinkPort) (syms : List Symbol) (s : State) : exec (.packetAbandoned lane syms) s = act (·.takeSymbols lane syms) s := rfl
@[simp] theorem exec_frameHeadTaken (syms : List Symbol) (s : State) : exec (.frameHeadTaken syms) s = act (·.takeSymbols .u syms) s := rfl
@[simp] theorem exec_rowTaken (syms : List Symbol) (s : State) : exec (.rowTaken syms) s = act (·.takeSymbols .u syms) s := rfl
@[simp] theorem exec_storeRequest (s : State) : exec (.storeRequest) s = act Device.takeStoreRequest s := rfl
@[simp] theorem exec_lensNoteTaken (syms : List Symbol) (s : State) : exec (.lensNoteTaken syms) s = act (·.takeSymbols .u syms) s := rfl
@[simp] theorem exec_frameTailTaken (syms : List Symbol) (s : State) : exec (.frameTailTaken syms) s = act (·.takeSymbols .u syms) s := rfl
@[simp] theorem exec_passThroughPacket (syms : List Symbol) (s : State) : exec (.passThroughPacket syms) s = act (·.takeSymbols .u syms) s := rfl
@[simp] theorem exec_serviceRequestReceived (syms : List Symbol) (s : State) : exec (.serviceRequestReceived syms) s = act (·.takeSymbols .a syms) s := rfl
@[simp] theorem exec_reversePacketRefused (port : OutPort) (syms : List Symbol) (s : State) : exec (.reversePacketRefused port syms) s = act (·.takeSymbols port.link syms) s := rfl
@[simp] theorem exec_credit (port : OutPort) (s : State) : exec (.credit port) s = act (·.flow port Port.credit) s := rfl
@[simp] theorem exec_hold (port : OutPort) (s : State) : exec (.hold port) s = act (·.flow port Port.hold) s := rfl
@[simp] theorem exec_resume (port : OutPort) (s : State) : exec (.resume port) s = act (·.flow port Port.resume) s := rfl
@[simp] theorem exec_laneLock (port : LinkPort) (s : State) : exec (.laneLock port) s = act (·.laneLock port) s := rfl
@[simp] theorem exec_alignmentDone (port : LinkPort) (s : State) : exec (.alignmentDone port) s = act (·.alignmentDone port) s := rfl
@[simp] theorem exec_laneLoss (port : LinkPort) (s : State) : exec (.laneLoss port) s = act (·.laneLoss port) s := rfl
@[simp] theorem exec_resetPinAsserted (s : State) : exec (.resetPinAsserted) s = act Device.holdReset s := rfl
@[simp] theorem exec_lineProduction (s : State) : exec (.lineProduction) s = act Device.produceLine s := rfl
@[simp] theorem exec_arbiterChoice (s : State) : exec (.arbiterChoice) s = act Device.arbiterChoice s := rfl
@[simp] theorem exec_portBSend (s : State) : exec (.portBSend) s = act Device.portBSend s := rfl
@[simp] theorem exec_upstreamSend (s : State) : exec (.upstreamSend) s = act Device.upstreamSend s := rfl
@[simp] theorem exec_portItemSent (port : OutPort) (s : State) : exec (.portItemSent port) s = act (·.itemSent port) s := rfl
@[simp] theorem exec_answerSent (s : State) : exec (.answerSent) s = act Device.answerSent s := rfl
@[simp] theorem exec_passThroughSent (s : State) : exec (.passThroughSent) s = act Device.passThroughSent s := rfl
@[simp] theorem exec_upstreamSent (s : State) : exec (.upstreamSent) s = act Device.upstreamSent s := rfl
@[simp] theorem exec_unknownCommand (s : State) : exec (.unknownCommand) s = act Device.executeUnknown s := rfl
@[simp] theorem exec_identify (s : State) : exec (.identify) s = act (·.executeFixed 1 0 runIdentify) s := rfl
@[simp] theorem exec_readStatus (s : State) : exec (.readStatus) s = act (·.executeFixed 2 0 runReadStatus) s := rfl
@[simp] theorem exec_readCounters (s : State) : exec (.readCounters) s = act (·.executeFixed 3 1 runReadCounters) s := rfl
@[simp] theorem exec_clearAlerts (s : State) : exec (.clearAlerts) s = act (·.executeFixed 4 1 runClearAlerts) s := rfl
@[simp] theorem exec_setAlerts (s : State) : exec (.setAlerts) s = act (·.executeFixed 5 1 runSetAlerts) s := rfl
@[simp] theorem exec_setMode (s : State) : exec (.setMode) s = act (·.executeFixed 6 1 runSetMode) s := rfl
@[simp] theorem exec_setGeometry (s : State) : exec (.setGeometry) s = act (·.executeFixed 7 19 runSetGeometry) s := rfl
@[simp] theorem exec_setInput (s : State) : exec (.setInput) s = act (·.executeFixed 8 2 runSetInput) s := rfl
@[simp] theorem exec_setRoute (s : State) : exec (.setRoute) s = act (·.executeFixed 9 2 runSetRoute) s := rfl
@[simp] theorem exec_setPort (s : State) : exec (.setPort) s = act (·.executeFixed 10 10 runSetPort) s := rfl
@[simp] theorem exec_profileOpen (s : State) : exec (.profileOpen) s = act (·.execute 11 (fun _ => true) openFits runProfileOpen) s := rfl
@[simp] theorem exec_profileWrite (s : State) : exec (.profileWrite) s = act (·.execute 12 (fun _ => true) writeFits runProfileWrite) s := rfl
@[simp] theorem exec_profileClose (s : State) : exec (.profileClose) s = act (·.executeFixed 13 1 runProfileClose) s := rfl
@[simp] theorem exec_profileRetire (s : State) : exec (.profileRetire) s = act (·.executeFixed 14 1 runProfileRetire) s := rfl
@[simp] theorem exec_profileQuery (s : State) : exec (.profileQuery) s = act (·.executeFixed 15 1 runProfileQuery) s := rfl
@[simp] theorem exec_resetBlockPipeline (s : State) : exec (.resetBlockPipeline) s = act (·.executeResetBlock 0 Device.resetPipeline) s := rfl
@[simp] theorem exec_resetBlockProfiles (s : State) : exec (.resetBlockProfiles) s = act (·.executeResetBlock 1 Device.resetProfiles) s := rfl
@[simp] theorem exec_resetBlockPortA (s : State) : exec (.resetBlockPortA) s = act (·.executeResetBlock 2 (·.resetPort .a)) s := rfl
@[simp] theorem exec_resetBlockPortB (s : State) : exec (.resetBlockPortB) s = act (·.executeResetBlock 3 (·.resetPort .b)) s := rfl
@[simp] theorem exec_resetBlockCounters (s : State) : exec (.resetBlockCounters) s = act (·.executeResetBlock 4 Device.resetCounters) s := rfl
@[simp] theorem exec_resetPart (s : State) : exec (.resetPart) s = act Device.executeResetPart s := rfl
@[simp] theorem exec_uncorrectableHeader (lane : LinkPort) (syms : List Symbol) (s : State) : exec (.uncorrectableHeader lane syms) s = act (·.takeSymbols lane syms) s := rfl

/-- A command's effect on the part, and no other. -/
theorem act_next (f : Device → Device) (q : List Instr) (d : Device) :
    act f ⟨q, d⟩ = .next ⟨q, if d.resetHeld then d else f d⟩ := by
  unfold act; cases h : d.resetHeld <;> rfl

/-- While RST is not held, a command has its effect. -/
theorem act_running (f : Device → Device) (q : List Instr) (d : Device) (h : d.resetHeld = false) :
    act f ⟨q, d⟩ = .next ⟨q, f d⟩ := by
  rw [act_next, h]; rfl

/-- While RST is held, a command has none. -/
theorem act_held (f : Device → Device) (q : List Instr) (d : Device) (h : d.resetHeld = true) :
    act f ⟨q, d⟩ = .next ⟨q, d⟩ := by
  rw [act_next, h]; rfl

/-! ## The shared operations of the packet commands -/

theorem takeStoreRequest_storeReq (d : Device) : d.takeStoreRequest.storeReq = none := by
  unfold Device.takeStoreRequest
  split
  · assumption
  · unfold Device.storeRow
    split
    · split <;> rfl
    · rfl

section
variable {P : Device → Prop} (K : KeptByPackets P)
include K

theorem KeptByPackets.headerBad {d : Device} (h : P d) : P d.headerBad :=
  K.raise _ _ (K.bump _ _ _ h)

theorem KeptByPackets.sortPacket {d : Device} (lane : LinkPort) (p : Packet) (h : P d) : P (d.sortPacket lane p) := by
  cases lane with
  | u =>
    have h0 := K.takeStoreRequest d h
    have hs := takeStoreRequest_storeReq d
    unfold Device.sortPacket Device.sortU
    dsimp only
    split
    · exact K.takeHead _ _ _ _ h0
    · exact K.takeRow _ _ _ _ h0 hs
    · exact K.takeNote _ _ h0
    · exact K.takeTail _ _ h0
    · exact K.joinPassThrough _ _ h0
  | a =>
    unfold Device.sortPacket Device.sortA
    dsimp only
    split
    · split
      · exact K.joinCommands _ _ h
      · exact K.joinUpstream _ _ h
    · exact K.bump _ _ _ h
  | b => exact K.bump _ _ _ h

theorem KeptByPackets.receivePacket {d : Device} (lane : LinkPort) (bytes : List Byte) (h : P d) :
    P (d.receivePacket lane bytes) := by
  have go : ∀ (d : Device) (hd : Header), P d → P (d.checkedPacket lane hd (bytes.drop 6)) := by
    intro d hd h
    unfold Device.checkedPacket
    split
    · exact K.headerBad h
    · exact K.sortPacket _ _ h
  unfold Device.receivePacket
  split
  · exact go _ _ h
  · exact go _ _ (K.bump _ _ _ h)
  · exact K.headerBad h

omit K in
theorem kept_flowSymbol {d : Device} (lane : LinkPort) (f : Port → Port) (hf : ∀ d p, P d → P (d.flow p f)) (h : P d) :
    P (d.flowSymbol lane f) := by
  cases lane
  · exact h
  · exact hf _ _ h
  · exact hf _ _ h

theorem KeptByPackets.takeSymbol {d : Device} (lane : LinkPort) (sym : Symbol) (up : d.link lane = .up) (h : P d) :
    P (d.takeSymbol lane sym) := by
  have h0 := K.setOpened d lane sym h up
  unfold Device.takeSymbol
  generalize readSymbol (d.opened lane) sym = r at *
  obtain ⟨o, e⟩ := r
  dsimp only
  generalize d.setOpened lane o = d0 at *
  unfold Device.symbolEffect
  split
  · exact K.receivePacket _ _ h0
  · exact K.headerBad h0
  · exact kept_flowSymbol _ _ K.credit h0
  · exact kept_flowSymbol _ _ K.hold h0
  · exact kept_flowSymbol _ _ K.resume h0
  · exact h0

end

/-! ## Links stay as they are through the packet commands -/

/-- Two parts have the same link states. -/
def SameLinks (d d' : Device) : Prop :=
  d'.linkU = d.linkU ∧ d'.portA.link = d.portA.link ∧ d'.portB.link = d.portB.link

theorem Port.afterAnswer_link (p : Port) (a : Delivery) : (p.afterAnswer a).link = p.link := by
  cases a <;> rfl

theorem sameLinks_setPort (d0 d : Device) (p : OutPort) (x : Port) (h : SameLinks d0 d) (hx : x.link = (d.port p).link) :
    SameLinks d0 (d.setPort p x) := by
  cases p
  · exact ⟨h.1, hx.trans h.2.1, h.2.2⟩
  · exact ⟨h.1, h.2.1, hx.trans h.2.2⟩

theorem sameLinks_afterCredit (d0 d : Device) (p : OutPort) (a : Delivery) (h : SameLinks d0 d) :
    SameLinks d0 (d.afterCredit p a) := by
  have := sameLinks_setPort d0 d p _ h (Port.afterAnswer_link (d.port p) a)
  unfold Device.afterCredit
  dsimp only
  split
  · exact this
  · exact this

theorem sameLinks_flow (d0 d : Device) (p : OutPort) (f : Port → Port) (hf : ∀ x, (f x).link = x.link)
    (h : SameLinks d0 d) : SameLinks d0 (d.flow p f) := by
  unfold Device.flow
  split
  · exact sameLinks_setPort d0 d p _ h (hf _)
  · exact h

theorem sameLinks_endInput (d0 d : Device) (always : Bool) (h : SameLinks d0 d) : SameLinks d0 (d.endInput always) := by
  unfold Device.endInput
  split
  · exact h
  · dsimp only; split <;> exact h

theorem sameLinks_storeRow (d0 d : Device) (r : StoredRow) (h : SameLinks d0 d) : SameLinks d0 (d.storeRow r) := by
  unfold Device.storeRow
  split
  · split <;> exact h
  · exact h

theorem sameLinks_acceptRow (d0 d : Device) (c : FrameContext) (r : Nat) (samples : List Sample) (bad : Bool)
    (h : SameLinks d0 d) : SameLinks d0 (d.acceptRow c r samples bad) := by
  unfold Device.acceptRow
  extract_lets d1 d2 d3 d4
  have h3 : SameLinks d0 d3 := by
    simp only [d3]
    split <;> exact h
  split
  · exact h3
  · have h4 : SameLinks d0 d4 := by
      simp only [d4]
      split <;> exact h3
    exact h4

theorem sameLinks_keptByPackets (d0 : Device) : KeptByPackets (SameLinks d0) where
  bump _ _ _ h := h
  raise _ _ h := h
  setOpened d lane sym h _ := by cases lane <;> exact h
  takeStoreRequest d h := by
    unfold Device.takeStoreRequest
    split
    · exact h
    · exact sameLinks_storeRow _ _ _ h
  takeHead d tag group payload h := by
    have h1 : SameLinks d0 d.endBySync := by
      unfold Device.endBySync
      split
      · exact h
      · exact sameLinks_endInput d0 _ _ h
    unfold Device.takeHead
    dsimp only
    split
    · exact h1
    · unfold Device.createContext
      dsimp only
      apply sameLinks_afterCredit
      apply sameLinks_afterCredit
      split <;> split <;> exact h1
  takeRow d r samples bad h _ := by
    unfold Device.takeRow
    split
    · exact h
    · exact h
    · split
      · exact h
      · split
        · exact h
        · split
          · exact h
          · exact sameLinks_acceptRow _ _ _ _ _ _ h
  takeNote d r h := by
    unfold Device.takeNote
    split
    · split
      · exact h
      · split
        · exact h
        · unfold Device.acceptNote
          dsimp only
          split
          · split <;> exact h
          · exact h
    · exact h
  takeTail d tag h := by
    unfold Device.takeTail
    split
    · exact h
    · exact h
    · split
      · exact h
      · split
        · exact sameLinks_endInput d0 _ _ h
        · exact h
  joinPassThrough d p h := by unfold Device.joinPassThrough; split <;> exact h
  joinUpstream d p h := by unfold Device.joinUpstream; split <;> exact h
  joinCommands d p h := by unfold Device.joinCommands; split <;> exact h
  credit d p h := sameLinks_flow d0 d p _ (fun _ => rfl) h
  hold d p h := sameLinks_flow d0 d p _ (fun _ => rfl) h
  resume d p h := sameLinks_flow d0 d p _ (fun _ => rfl) h

theorem SameLinks.link {d0 d : Device} (h : SameLinks d0 d) (lane : LinkPort) : d.link lane = d0.link lane := by
  cases lane
  · exact h.1
  · exact h.2.1
  · exact h.2.2

/-- One symbol leaves the link states as they are. -/
theorem takeSymbol_link (d : Device) (lane : LinkPort) (sym : Symbol) (p : LinkPort) (up : d.link lane = .up) :
    (d.takeSymbol lane sym).link p = d.link p :=
  ((sameLinks_keptByPackets d).takeSymbol lane sym up ⟨rfl, rfl, rfl⟩).link p

theorem KeptByPackets.takeSymbols {P : Device → Prop} (K : KeptByPackets P) {d : Device} (lane : LinkPort)
    (syms : List Symbol) (h : P d) : P (d.takeSymbols lane syms) := by
  unfold Device.takeSymbols
  split
  · rename_i up
    induction syms generalizing d with
    | nil => exact h
    | cons s rest ih => exact ih (K.takeSymbol lane s up h) ((takeSymbol_link d lane s lane up).trans up)
  · exact h

/-! ## The execution of requests -/

/-- No command of the service unit touches the answer queue itself. -/
def LeavesAnswers (run : List Byte → Device → Device × Reply) : Prop :=
  ∀ args d, (run args d).1.answers = d.answers

theorem Kept.execute {P : Device → Prop} (K : Kept P) {d : Device} (code : Nat) (mine fits : List Byte → Bool)
    (run : List Byte → Device → Device × Reply) (hrun : ∀ d args, P d → P (run args d).1) (ha : LeavesAnswers run)
    (h : P d) : P (d.execute code mine fits run) := by
  unfold Device.execute
  split
  · exact h
  · rename_i r rest hc
    split
    · rename_i tag c args _
      split
      · rename_i hm
        have h1 : P { d with commands := rest } := K.popCommand d r rest h hc
        have room : d.answers.length < 8 := by
          simp only [Bool.and_eq_true, Device.answerRoom, decide_eq_true_eq] at hm
          exact hm.2
        dsimp only
        split
        · exact K.answer _ _ _ _ (hrun _ _ h1) (by rw [ha]; exact room)
        · exact K.answer _ _ _ _ h1 room
      · exact h
    · exact h

theorem Kept.executeUnknown {P : Device → Prop} (K : Kept P) {d : Device} (h : P d) : P d.executeUnknown := by
  unfold Device.executeUnknown
  split
  · exact h
  · rename_i r rest hc
    have h1 : P { d with commands := rest } := K.popCommand d r rest h hc
    split
    · rename_i room
      have room : d.answers.length < 8 := by simpa [Device.answerRoom] using room
      split
      · exact K.answer _ _ _ _ h1 room
      · exact K.answer _ _ _ _ h1 room
      · split
        · exact h
        · exact K.answer _ _ _ _ h1 room
    · exact h

theorem Kept.executeResetPart {P : Device → Prop} (K : Kept P) {d : Device} (h : P d) : P d.executeResetPart := by
  unfold Device.executeResetPart
  split
  · exact h
  · rename_i r rest hc
    split
    · split
      · split
        · exact K.partReset _ _ _ h
        · split
          · rename_i room
            exact K.answer _ _ _ _ (K.popCommand d r rest h hc) (by simpa [Device.answerRoom] using room)
          · exact h
      · exact h
    · exact h

theorem Kept.executeResetBlock {P : Device → Prop} (K : Kept P) {d : Device} (code : Nat) (reset : Device → Device)
    (hr : ∀ d, P d → P (reset d)) (ha : ∀ d, (reset d).answers = d.answers) (h : P d) :
    P (d.executeResetBlock code reset) := by
  refine K.execute _ _ _ _ ?_ ?_ h
  · intro d args h
    unfold runResetBlock
    split
    · exact h
    · exact hr d h
  · intro args d
    unfold runResetBlock
    split
    · rfl
    · exact ha d

/-! ### The commands leave the answer queue -/

theorem runReadCounters_answers : LeavesAnswers runReadCounters := by
  intro args d
  unfold runReadCounters
  dsimp only
  split
  · rfl
  · split <;> rfl

theorem runClearAlerts_answers : LeavesAnswers runClearAlerts := by
  intro args d; unfold runClearAlerts; dsimp only; split <;> rfl

theorem runSetAlerts_answers : LeavesAnswers runSetAlerts := by
  intro args d; unfold runSetAlerts; dsimp only; split <;> rfl

theorem runSetMode_answers : LeavesAnswers runSetMode := by
  intro args d; unfold runSetMode; split
  · rfl
  · split <;> rfl

theorem runSetGeometry_answers : LeavesAnswers runSetGeometry := by
  intro args d; unfold runSetGeometry; dsimp only; split
  · split <;> rfl
  · rfl

theorem runSetInput_answers : LeavesAnswers runSetInput := by
  intro args d; unfold runSetInput; dsimp only; split
  · rfl
  · split <;> rfl

theorem runSetRoute_answers : LeavesAnswers runSetRoute := by
  intro args d; unfold runSetRoute; dsimp only; split
  · rfl
  · split <;> rfl

theorem Device.setPort_answers (d : Device) (p : OutPort) (x : Port) : (d.setPort p x).answers = d.answers := by
  cases p <;> rfl

theorem runSetPort_answers : LeavesAnswers runSetPort := by
  intro args d; unfold runSetPort; dsimp only; split
  · rfl
  · split
    · rfl
    · split
      · rfl
      · exact Device.setPort_answers _ _ _

theorem runProfileOpen_answers : LeavesAnswers runProfileOpen := by
  intro args d; unfold runProfileOpen; dsimp only; split
  · split <;> rfl
  · rfl

theorem runProfileWrite_answers : LeavesAnswers runProfileWrite := by
  intro args d; unfold runProfileWrite; dsimp only; split
  · split
    · split <;> rfl
    · rfl
  · rfl

theorem runProfileClose_answers : LeavesAnswers runProfileClose := by
  intro args d; unfold runProfileClose; split
  · dsimp only
    split
    · split
      · rfl
      · split <;> rfl
    · rfl
  · rfl

theorem runProfileRetire_answers : LeavesAnswers runProfileRetire := by
  intro args d; unfold runProfileRetire; split <;> rfl

theorem runProfileQuery_answers : LeavesAnswers runProfileQuery := by
  intro args d; unfold runProfileQuery; split <;> rfl

theorem Device.unbindContext_answers (d : Device) (c : FrameContext) : (d.unbindContext c).answers = d.answers := by
  unfold Device.unbindContext; split <;> rfl

theorem foldl_unbindContext_answers (cs : List FrameContext) (d : Device) :
    (cs.foldl Device.unbindContext d).answers = d.answers := by
  induction cs generalizing d with
  | nil => rfl
  | cons c cs ih => rw [List.foldl_cons, ih, Device.unbindContext_answers]

theorem resetPipeline_answers (d : Device) : d.resetPipeline.answers = d.answers :=
  foldl_unbindContext_answers d.frames d

theorem resetPort_answers (d : Device) (p : OutPort) : (d.resetPort p).answers = d.answers := by
  cases p <;> rfl

/-! ## Every command -/

/-- A command answers a next state, and the queue is as it was. -/
theorem exec_next (c : Instr) (q : List Instr) (d : Device) : ∃ d', exec c ⟨q, d⟩ = .next ⟨q, d'⟩ := by
  cases c <;> first
    | (simp only [exec, execResetRelease]; exact ⟨_, rfl⟩)
    | simp [act_next]

/-- What every shared operation keeps, every command keeps. -/
theorem Kept.exec {P : Device → Prop} (K : Kept P) (c : Instr) (q : List Instr) (d d' : Device)
    (h : P d) (hx : exec c ⟨q, d⟩ = .next ⟨q, d'⟩) : P d' := by
  have go : ∀ f : Device → Device, (∀ d, P d → P (f d)) → act f ⟨q, d⟩ = .next ⟨q, d'⟩ → P d' := by
    intro f hf hx
    rw [act_next] at hx
    simp only [Host.Outcome.next.injEq, State.mk.injEq, true_and] at hx
    subst hx
    cases d.resetHeld
    · exact hf _ h
    · exact h
  cases c <;> (try simp only [
            exec_packetAbandoned, exec_frameHeadTaken, exec_rowTaken, exec_storeRequest, exec_lensNoteTaken,
      exec_frameTailTaken, exec_passThroughPacket, exec_serviceRequestReceived, exec_reversePacketRefused,
      exec_credit, exec_hold, exec_resume, exec_laneLock, exec_alignmentDone, exec_laneLoss, exec_resetPinAsserted,
      exec_lineProduction, exec_arbiterChoice, exec_portBSend, exec_upstreamSend, exec_portItemSent, exec_answerSent,
      exec_passThroughSent, exec_upstreamSent, exec_unknownCommand, exec_identify, exec_readStatus, exec_readCounters,
      exec_clearAlerts, exec_setAlerts, exec_setMode, exec_setGeometry, exec_setInput, exec_setRoute, exec_setPort,
      exec_profileOpen, exec_profileWrite, exec_profileClose, exec_profileRetire, exec_profileQuery,
      exec_resetBlockPipeline, exec_resetBlockProfiles, exec_resetBlockPortA, exec_resetBlockPortB,
      exec_resetBlockCounters, exec_resetPart, exec_uncorrectableHeader] at hx) <;> first
    | exact go _ (fun d h => K.toKeptByPackets.takeSymbols _ _ h) hx
    | exact go _ (fun d h => K.credit d _ h) hx
    | exact go _ (fun d h => K.hold d _ h) hx
    | exact go _ (fun d h => K.resume d _ h) hx
    | exact go _ (fun d h => K.laneLock d _ h) hx
    | exact go _ (fun d h => K.alignmentDone d _ h) hx
    | exact go _ (fun d h => K.laneLoss d _ h) hx
    | exact go _ K.holdReset hx
    | exact go _ K.takeStoreRequest hx
    | exact go _ K.produceLine hx
    | exact go _ K.arbiterChoice hx
    | exact go _ K.portBSend hx
    | exact go _ K.upstreamSend hx
    | exact go _ (fun d h => K.itemSent d _ h) hx
    | exact go _ K.answerSent hx
    | exact go _ K.passThroughSent hx
    | exact go _ K.upstreamSent hx
    | exact go _ (fun d h => K.executeUnknown h) hx
    | exact go _ (fun d h => K.executeResetPart h) hx
    | skip
  case resetRelease n a =>
    simp only [Machine.exec, execResetRelease, Host.Outcome.next.injEq, State.mk.injEq, true_and] at hx
    subst hx
    exact K.partReset _ _ _ h
  case identify => exact go _ (fun d h => K.execute _ _ _ _ (fun _ _ h => h) (fun _ _ => rfl) h) hx
  case readStatus => exact go _ (fun d h => K.execute _ _ _ _ (fun _ _ h => h) (fun _ _ => rfl) h) hx
  case readCounters =>
    refine go _ (fun d h => K.execute _ _ _ _ ?_ runReadCounters_answers h) hx
    intro d args h
    unfold runReadCounters
    dsimp only
    split
    · exact h
    · split
      · exact K.zeroCounters _ h
      · exact h
  case clearAlerts =>
    refine go _ (fun d h => K.execute _ _ _ _ ?_ runClearAlerts_answers h) hx
    intro d args h
    unfold runClearAlerts
    dsimp only
    split
    · exact K.alerts _ _ h
    · exact h
  case setAlerts =>
    refine go _ (fun d h => K.execute _ _ _ _ ?_ runSetAlerts_answers h) hx
    intro d args h
    unfold runSetAlerts
    dsimp only
    split
    · exact K.alertEnable _ _ h
    · exact h
  case setMode => exact go _ (fun d h => K.execute _ _ _ _ K.setMode runSetMode_answers h) hx
  case setGeometry => exact go _ (fun d h => K.execute _ _ _ _ K.setGeometry runSetGeometry_answers h) hx
  case setInput =>
    refine go _ (fun d h => K.execute _ _ _ _ ?_ runSetInput_answers h) hx
    intro d args h
    unfold runSetInput
    dsimp only
    split
    · exact h
    · split
      · exact h
      · exact K.setInput _ _ h
  case setRoute =>
    refine go _ (fun d h => K.execute _ _ _ _ ?_ runSetRoute_answers h) hx
    intro d args h
    unfold runSetRoute
    dsimp only
    split
    · exact h
    · split
      · exact h
      · exact K.setRoute _ _ _ h
  case setPort =>
    refine go _ (fun d h => K.execute _ _ _ _ ?_ runSetPort_answers h) hx
    intro d args h
    unfold runSetPort
    dsimp only
    split
    · exact h
    · split
      · exact h
      · split
        · exact h
        · exact K.setPort _ _ _ _ h
  case profileOpen => exact go _ (fun d h => K.execute _ _ _ _ K.profileOpen runProfileOpen_answers h) hx
  case profileWrite => exact go _ (fun d h => K.execute _ _ _ _ K.profileWrite runProfileWrite_answers h) hx
  case profileClose => exact go _ (fun d h => K.execute _ _ _ _ K.profileClose runProfileClose_answers h) hx
  case profileRetire =>
    refine go _ (fun d h => K.execute _ _ _ _ ?_ runProfileRetire_answers h) hx
    intro d args h
    unfold runProfileRetire
    split
    · exact K.profileRetire _ _ h
    · exact h
  case profileQuery =>
    refine go _ (fun d h => K.execute _ _ _ _ ?_ runProfileQuery_answers h) hx
    intro d args h
    unfold runProfileQuery
    split <;> exact h
  case resetBlockPipeline =>
    exact go _ (fun d h => K.executeResetBlock _ _ K.resetPipeline resetPipeline_answers h) hx
  case resetBlockProfiles =>
    exact go _ (fun d h => K.executeResetBlock _ _ K.resetProfiles (fun _ => rfl) h) hx
  case resetBlockPortA =>
    exact go _ (fun d h => K.executeResetBlock _ _ (K.resetPort · .a) (resetPort_answers · .a) h) hx
  case resetBlockPortB =>
    exact go _ (fun d h => K.executeResetBlock _ _ (K.resetPort · .b) (resetPort_answers · .b) h) hx
  case resetBlockCounters =>
    exact go _ (fun d h => K.executeResetBlock _ _ (fun d h => K.alerts _ _ (K.zeroCounters d h)) (fun _ => rfl) h) hx

/-- What every command keeps, every step keeps. -/
theorem Kept.step {P : Device → Prop} (K : Kept P) (s t : State) (h : P s.device) (hx : step s = .next t) : P t.device := by
  obtain ⟨q, d⟩ := s
  cases q with
  | nil =>
    simp only [Machine.step, Host.Outcome.next.injEq] at hx
    subst hx
    exact h
  | cons c q =>
    obtain ⟨d', hd⟩ := exec_next c q d
    have : Machine.step ⟨c :: q, d⟩ = .next ⟨q, d'⟩ := hd
    rw [this, Host.Outcome.next.injEq] at hx
    subst hx
    exact K.exec c q d d' h hd

end Sys2Proof.Machine
end

