-- ==== Sys2Proof/Laws/Footprints.lean ====
section
/-! SUPPORT. The footprint of each shared operation: the fields of Device it can change, as one record update.  A proof
about any other field rewrites with it and is done. -/

namespace Sys2Proof.Machine

theorem bump_footprint (d : Device) (c : Counter) (n : Nat) : ∃ cs, d.bump c n = { d with counters := cs } :=
  ⟨_, rfl⟩

theorem raise_footprint (d : Device) (a : Alert) : ∃ as, d.raise a = { d with alerts := as } :=
  ⟨_, rfl⟩

theorem endInput_footprint (d : Device) (always : Bool) :
    ∃ fs r cs, d.endInput always = { d with frames := fs, receiver := r, counters := cs } := by
  unfold Device.endInput
  split
  · exact ⟨_, _, _, rfl⟩
  · dsimp only; split <;> exact ⟨_, _, _, rfl⟩

theorem endBySync_footprint (d : Device) :
    ∃ fs r cs as, d.endBySync = { d with frames := fs, receiver := r, counters := cs, alerts := as } := by
  unfold Device.endBySync
  split
  · exact ⟨_, _, _, _, rfl⟩
  · obtain ⟨fs, r, cs, e⟩ := endInput_footprint (d.onFilling FrameContext.setSync) true
    rw [e]
    exact ⟨_, _, _, _, rfl⟩

theorem storeRow_footprint (d : Device) (r : StoredRow) :
    ∃ ss fs cs as, d.storeRow r = { d with slots := ss, frames := fs, counters := cs, alerts := as } := by
  unfold Device.storeRow
  split
  · split <;> exact ⟨_, _, _, _, rfl⟩
  · exact ⟨_, _, _, _, rfl⟩

theorem takeStoreRequest_footprint (d : Device) :
    ∃ ss fs cs as, d.takeStoreRequest = { d with slots := ss, frames := fs, counters := cs, alerts := as, storeReq := none } := by
  unfold Device.takeStoreRequest
  split
  · rename_i h
    exact ⟨d.slots, d.frames, d.counters, d.alerts, by rw [← h]⟩
  · obtain ⟨ss, fs, cs, as, e⟩ := storeRow_footprint { d with storeReq := none } ‹_›
    rw [e]
    exact ⟨_, _, _, _, rfl⟩

theorem acceptRow_footprint (d : Device) (c : FrameContext) (r : Nat) (samples : List Sample) (bad : Bool) :
    ∃ fs cs sr, d.acceptRow c r samples bad = { d with frames := fs, counters := cs, storeReq := sr } := by
  unfold Device.acceptRow
  extract_lets d1 d2 d3 d4
  have h3 : ∃ fs cs, d3 = { d with frames := fs, counters := cs } := by
    simp only [d3]
    split <;> exact ⟨_, _, rfl⟩
  obtain ⟨fs, cs, h3⟩ := h3
  split
  · exact ⟨fs, cs, d.storeReq, h3⟩
  · have h4 : ∃ cs, d4 = { d with frames := fs, counters := cs } := by
      simp only [d4]
      split
      · exact ⟨_, h3⟩
      · rw [h3]; exact ⟨_, rfl⟩
    obtain ⟨cs, h4⟩ := h4
    rw [h4]
    exact ⟨_, _, _, rfl⟩

theorem takeRow_footprint (d : Device) (r : Nat) (samples : List Sample) (bad : Bool) :
    ∃ fs cs sr, d.takeRow r samples bad = { d with frames := fs, counters := cs, storeReq := sr } := by
  unfold Device.takeRow
  split
  · exact ⟨_, _, _, rfl⟩
  · exact ⟨_, _, _, rfl⟩
  · split
    · exact ⟨_, _, _, rfl⟩
    · split
      · exact ⟨_, _, _, rfl⟩
      · split
        · exact ⟨_, _, _, rfl⟩
        · exact acceptRow_footprint _ _ _ _ _

theorem takeNote_footprint (d : Device) (r : LensRecord) :
    ∃ fs cs hl, d.takeNote r = { d with frames := fs, counters := cs, heldLens := hl } ∧
      (hl = d.heldLens ∨ ∃ r, hl = some ⟨r, 0⟩) := by
  unfold Device.takeNote
  split
  · split
    · exact ⟨_, _, _, rfl, .inl rfl⟩
    · split
      · exact ⟨_, _, _, rfl, .inl rfl⟩
      · unfold Device.acceptNote
        dsimp only
        split
        · split <;> exact ⟨_, _, _, rfl, .inr ⟨_, rfl⟩⟩
        · exact ⟨_, _, _, rfl, .inl rfl⟩
  · exact ⟨_, _, _, rfl, .inr ⟨_, rfl⟩⟩

theorem takeTail_footprint (d : Device) (tag : BitVec 16) :
    ∃ fs r cs as, d.takeTail tag = { d with frames := fs, receiver := r, counters := cs, alerts := as } := by
  unfold Device.takeTail
  split
  · exact ⟨_, _, _, _, rfl⟩
  · exact ⟨_, _, _, _, rfl⟩
  · split
    · exact ⟨_, _, _, _, rfl⟩
    · split
      · obtain ⟨fs, r, cs, e⟩ := endInput_footprint d false
        rw [e]
        exact ⟨_, _, _, _, rfl⟩
      · exact ⟨_, _, _, _, rfl⟩

theorem unbindContext_footprint (d : Device) (c : FrameContext) :
    ∃ ps, d.unbindContext c = { d with profiles := ps } := by
  unfold Device.unbindContext
  split <;> exact ⟨_, rfl⟩

theorem foldl_unbindContext_footprint (cs : List FrameContext) (d : Device) :
    ∃ ps, cs.foldl Device.unbindContext d = { d with profiles := ps } := by
  induction cs generalizing d with
  | nil => exact ⟨_, rfl⟩
  | cons c cs ih =>
    obtain ⟨ps, e⟩ := unbindContext_footprint d c
    rw [List.foldl_cons, e]
    obtain ⟨ps, e⟩ := ih { d with profiles := ps }
    rw [e]
    exact ⟨_, rfl⟩

/-! ## Ports: what an operation does to a port's queue and credits -/

/-- A port's answer to a credit request spends at most a credit. -/
theorem afterAnswer_cases (p : Port) (a : Delivery) : ∃ n, p.afterAnswer a = { p with credits := n } ∧ n ≤ p.credits := by
  cases a
  · exact ⟨_, rfl, Nat.le_refl _⟩
  · exact ⟨_, rfl, Nat.le_refl _⟩
  · exact ⟨_, rfl, Nat.sub_le _ _⟩
  · exact ⟨_, rfl, Nat.le_refl _⟩

theorem afterCreditA_footprint (d : Device) (a : Delivery) :
    ∃ n cs, d.afterCredit .a a = { d with portA := { d.portA with credits := n }, counters := cs } ∧ n ≤ d.portA.credits := by
  obtain ⟨n, e, hn⟩ := afterAnswer_cases d.portA a
  unfold Device.afterCredit
  simp only [Device.port, e, Device.setPort]
  split <;> exact ⟨_, _, rfl, hn⟩

theorem afterCreditB_footprint (d : Device) (a : Delivery) :
    ∃ n cs, d.afterCredit .b a = { d with portB := { d.portB with credits := n }, counters := cs } ∧ n ≤ d.portB.credits := by
  obtain ⟨n, e, hn⟩ := afterAnswer_cases d.portB a
  unfold Device.afterCredit
  simp only [Device.port, e, Device.setPort]
  split <;> exact ⟨_, _, rfl, hn⟩

/-- The context a frame head creates (R39, R40, R46 to R49). -/
def Device.newContext (d : Device) (tag : BitVec 16) (group : Fin 8) (embedded : Option LensRecord) : FrameContext :=
  let mode := d.pendingMode.getD d.mode
  let first := firstNote embedded (d.heldLens.map HeldLens.aged) d.policy.staleLimit d.geometry.height
  let entry := bindingFor d.profiles mode first.identity
  { id := d.nextFrame
    tag := tag
    group := group
    mode := mode
    geometry := d.geometry
    policy := d.policy
    identity := first.identity
    entry := entry
    reachUp := (reachFor d.profiles entry).1
    reachDown := (reachFor d.profiles entry).2
    deliveryA := d.creditAnswer .a d.routes[group].a d.geometry
    deliveryB := d.creditAnswer .b d.routes[group].b d.geometry
    notes := first.notes
    input := .filling
    front := none
    nextLine := 0
    band := none
    firstBand := none
    lastBand := none
    rowsStored := 0
    rowsMissing := 0
    crcErrors := 0
    linesReachClamp := 0
    linesScaleClamp := 0
    linesSubstituted := 0
    lateNotes := 0
    flags := { FrameFlags.clear with unprofiled := mode != .pass && entry.isNone, inherited := first.inherited } }

/-- The profile table after a binding (R48, R98). -/
def boundProfiles (profiles : Vector Entry 8) : Option (Fin 8) → Vector Entry 8
  | some e => profiles.set e profiles[e].bind
  | none => profiles

theorem createContext_footprint (d : Device) (tag : BitVec 16) (group : Fin 8) (embedded : Option LensRecord) :
    ∃ m n cs, d.createContext tag group embedded =
      { d with
        mode := d.pendingMode.getD d.mode
        pendingMode := none
        heldLens := (firstNote embedded (d.heldLens.map HeldLens.aged) d.policy.staleLimit d.geometry.height).held
        receiver := .filling
        frames := d.frames ++ [d.newContext tag group embedded]
        nextFrame := d.nextFrame + 1
        profiles := boundProfiles d.profiles (d.newContext tag group embedded).entry
        portA := { d.portA with credits := m }
        portB := { d.portB with credits := n }
        counters := cs } ∧ m ≤ d.portA.credits ∧ n ≤ d.portB.credits := by
  unfold Device.createContext
  extract_lets mode first entry reach unprofiled members answerA answerB noFlags context d1 d2 d3
  have h2 : d2 = { d1 with profiles := boundProfiles d.profiles entry } := by
    simp only [d2]
    cases entry <;> rfl
  have h3 : ∃ cs, d3 = { d2 with counters := cs } := by
    simp only [d3]
    split <;> exact ⟨_, rfl⟩
  obtain ⟨cs, h3⟩ := h3
  obtain ⟨m, cs1, eA, hm⟩ := afterCreditA_footprint d3 answerA
  rw [eA]
  obtain ⟨n, cs2, eB, hn⟩ := afterCreditB_footprint
    { d3 with portA := { d3.portA with credits := m }, counters := cs1 } answerB
  rw [eB, h3, h2]
  rw [h3, h2] at hm hn
  exact ⟨m, n, cs2, rfl, hm, hn⟩

theorem firstNote_held (embedded : Option LensRecord) (held : Option HeldLens) (stale height : Nat) :
    (firstNote embedded held stale height).held = held ∨
      ∃ r, (firstNote embedded held stale height).held = some ⟨r, 0⟩ := by
  unfold firstNote
  split
  · exact .inr ⟨_, rfl⟩
  · split
    · split <;> exact .inl rfl
    · exact .inl rfl

/-! ## The loss of a link (R20, R60, R167) -/

theorem laneLossU_footprint (d : Device) (h : d.link .u ≠ .down) :
    ∃ fs cs as, d.laneLoss .u =
      { d with
        openU := none, laneU := none, linkU := .down, receiver := .idle, frames := fs, counters := cs, alerts := as } := by
  obtain ⟨fs, r, cs, e⟩ := endInput_footprint { d with openU := none, laneU := none } true
  have h1 : d.loseLink .u =
      { d with openU := none, laneU := none, frames := fs, counters := cs, receiver := .idle } := by
    unfold Device.loseLink
    simp only [e]
  unfold Device.laneLoss
  rw [if_neg h, h1]
  exact ⟨_, _, _, rfl⟩

theorem laneLossA_footprint (d : Device) (h : d.link .a ≠ .down) :
    ∃ cs as, d.laneLoss .a =
      { d with
        openA := none
        laneA := none
        portA := { d.portA with queue := [], credits := 0, held := false, link := .down }
        frames := d.frames.map fun c => c.setDelivery .a (c.delivery .a).cutLive
        counters := cs
        alerts := as } := by
  unfold Device.laneLoss
  rw [if_neg h]
  exact ⟨_, _, rfl⟩

theorem laneLossB_footprint (d : Device) (h : d.link .b ≠ .down) :
    ∃ cs as, d.laneLoss .b =
      { d with
        openB := none
        laneB := none
        portB := { d.portB with queue := [], credits := 0, held := false, link := .down }
        frames := d.frames.map fun c => c.setDelivery .b (c.delivery .b).cutLive
        counters := cs
        alerts := as } := by
  unfold Device.laneLoss
  rw [if_neg h]
  exact ⟨_, _, rfl⟩

/-! ## The production of a line -/

theorem rowsQueued_append (q r : List Item) : rowsQueued (q ++ r) = rowsQueued q + rowsQueued r := by
  unfold rowsQueued; exact List.countP_append

theorem handA_eq (d : Device) (c : FrameContext) (y : Nat) (values : List Sample) :
    (d.handHead c .a y).handRowA c y values =
      { d with portA := { d.portA with queue := d.portA.queue ++ itemsA c y values } } := by
  unfold Device.handHead Device.handRowA itemsA FrameContext.delivery
  cases h : c.deliveryA <;> simp only [List.append_nil]
  split <;> split <;> simp [Device.setPort, Device.port, Port.append]

theorem handB_eq (d : Device) (c : FrameContext) (y : Nat) (values : List Sample) :
    (d.handHead c .b y).handRowB c y values =
      { d with
        portB := { d.portB with queue := d.portB.queue ++ itemsB c y values (rowsQueued d.portB.queue) }
        counters := if d.cutsB c y then (d.bump .cutB).counters else d.counters } := by
  unfold Device.handHead Device.handRowB Device.cutsB itemsB FrameContext.delivery
  cases h : c.deliveryB <;> simp only [Delivery.crop?, Option.any_none, Option.any_some, Bool.false_and, List.append_nil,
    Bool.false_eq_true, if_false]
  rename_i crop
  have hh : ∀ x y, rowsQueued (x ++ [headItem c y]) = rowsQueued x := by
    intro x y
    rw [rowsQueued_append]
    rfl
  by_cases hy : y = 0
  · subst hy
    by_cases hrow : crop.hasRow 0 = true <;> by_cases hr : 16 ≤ rowsQueued d.portB.queue <;>
      simp [hrow, hr, hh, Device.setPort, Device.port, Port.append, Device.bump, Device.count]
  · by_cases hrow : crop.hasRow y = true <;> by_cases hr : 16 ≤ rowsQueued d.portB.queue <;>
      simp [hrow, hy, hr, Device.setPort, Port.append, Device.bump, Device.count]

/-- Everything the production of a line does before the close (R121 steps 1 to 7). -/
theorem lineOnHead_eq (d : Device) (c0 : FrameContext) (rest : List FrameContext) :
    let c := c0.atLine d.profiles
    let line := d.lineOf c
    ∃ cs, d.lineOnHead c0 rest =
      { d with
        frames := c.afterLine line (d.cutsB c c.nextLine) :: rest
        portA := { d.portA with queue := d.portA.queue ++ itemsA c c.nextLine line.values }
        portB := { d.portB with queue := d.portB.queue ++ itemsB c c.nextLine line.values (rowsQueued d.portB.queue) }
        slots := d.slots.map (freeWhere c.id fun row => decide ((row : Int) ≤ (c.nextLine : Int) - c.reachUp - 2))
        counters := cs } := by
  intro c line
  unfold Device.lineOnHead Device.handOff
  simp only [handA_eq, handB_eq]
  exact ⟨_, rfl⟩

theorem closeEnded_eq (d : Device) (c : FrameContext) (rest : List FrameContext) :
    d.closeEnded c rest =
      { d with
        frames := rest
        portA := { d.portA with queue := d.portA.queue ++ reportItem c .a }
        portB := { d.portB with queue := d.portB.queue ++ reportItem c .b }
        profiles := match c.entry with
          | some e => d.profiles.set e d.profiles[e].unbind
          | none => d.profiles
        slots := d.slots.map (freeWhere c.id fun _ => true) } := by
  unfold Device.closeEnded Device.placeReport reportItem Device.unbindContext
  cases c.delivery .a <;> cases c.delivery .b <;> cases c.entry <;>
    simp [Device.setPort, Device.port, Port.append, Device.onEntry, Device.freeAll]

theorem endBeforeClose_footprint (d : Device) :
    ∃ fs r cs, d.endBeforeClose = { d with frames := fs, receiver := r, counters := cs } := by
  unfold Device.endBeforeClose
  split
  · split
    · exact endInput_footprint d false
    · exact ⟨_, _, _, rfl⟩
  · exact ⟨_, _, _, rfl⟩

theorem close_footprint (d : Device) :
    ∃ fs r cs ps ss qa qb, d.close =
      { d with
        frames := fs
        receiver := r
        counters := cs
        profiles := ps
        slots := ss
        portA := { d.portA with queue := d.portA.queue ++ qa }
        portB := { d.portB with queue := d.portB.queue ++ qb } } ∧
      rowsQueued qa = 0 ∧ rowsQueued qb = 0 := by
  have hq : ∀ c p, rowsQueued (reportItem c p) = 0 := by
    intro c p
    unfold reportItem
    cases c.delivery p <;> rfl
  obtain ⟨fs, r, cs, e⟩ := endBeforeClose_footprint d
  unfold Device.close
  rw [e]
  split
  · rw [closeEnded_eq]
    exact ⟨_, _, _, _, _, _, _, rfl, hq _ _, hq _ _⟩
  · refine ⟨fs, r, cs, d.profiles, d.slots, [], [], ?_, rfl, rfl⟩
    simp

end Sys2Proof.Machine
end

