-- ==== Sys2Proof/Laws/Frames.lean ====
section
/-! SUPPORT. The law of the frame queue, FrameLaw, is kept by every shared operation. -/

namespace Sys2Proof.Machine

theorem isFilling_iff (c : FrameContext) : c.isFilling = true ↔ c.input = .filling := by
  simp [FrameContext.isFilling]

theorem FrameLaw.of {d d' : Device} (h : FrameLaw d) (f : d'.frames = d.frames) (r : d'.receiver = d.receiver)
    (g : d'.geometry = d.geometry) : FrameLaw d' := by
  obtain ⟨h1, h2, h3, h4, h5, h6⟩ := h
  constructor <;> simp_all

/-- A change of contexts, one by one, that leaves input state, next line, band and order as they are. -/
theorem FrameLaw.map {d d' : Device} (h : FrameLaw d) (g : FrameContext → FrameContext)
    (f : d'.frames = d.frames.map g) (r : d'.receiver = d.receiver) (hg : d'.geometry = d.geometry)
    (input : ∀ c ∈ d.frames, (g c).input = c.input) (ok : ∀ c ∈ d.frames, c.Ok → (g c).Ok)
    (next : ∀ c, (g c).nextLine = c.nextLine) (band : ∀ c, (g c).band = c.band) : FrameLaw d' where
  geometry := hg ▸ h.geometry
  atMostTwo := by rw [f, List.length_map]; exact h.atMostTwo
  onlyNewestFills := by
    rw [f, ← List.map_dropLast]
    intro c hc
    obtain ⟨c, hm, hrfl⟩ := List.mem_map.mp hc; clear hc; subst hrfl; have hc := hm
    rw [input c ((List.dropLast_sublist _).subset hc)]
    exact h.onlyNewestFills c hc
  receiver := by
    rw [r, h.receiver, f]
    constructor
    · rintro ⟨c, hc, e⟩
      exact ⟨g c, List.mem_map_of_mem hc, (input c hc).trans e⟩
    · rintro ⟨c, hc, e⟩
      obtain ⟨c, hm, hrfl⟩ := List.mem_map.mp hc; clear hc; subst hrfl; have hc := hm
      exact ⟨c, hc, (input c hc).symm.trans e⟩
  contexts := by
    rw [f]
    intro c hc
    obtain ⟨c, hm, hrfl⟩ := List.mem_map.mp hc; clear hc; subst hrfl; have hc := hm
    exact ok c hc (h.contexts c hc)
  waiting := by
    rw [f, ← List.map_tail]
    intro c hc
    obtain ⟨c, hm, hrfl⟩ := List.mem_map.mp hc; clear hc; subst hrfl; have hc := hm
    rw [next, band]
    exact h.waiting c hc

theorem FrameContext.Ok.of {c c' : FrameContext} (h : c.Ok) (g : c'.geometry = c.geometry) (f : c'.front = c.front)
    (n : c'.nextLine = c.nextLine) (l : c'.notes = c.notes) : c'.Ok := by
  obtain ⟨h1, h2, h3, h4, h5, h6⟩ := h
  constructor <;> simp_all

/-- The filling context is the only one. -/
theorem FrameLaw.filling_unique {d : Device} (h : FrameLaw d) {c x : FrameContext} (hc : d.filling? = some c)
    (hx : x ∈ d.frames) (fx : x.isFilling = true) : x = c := by
  have hm := List.mem_of_find?_eq_some hc
  have hf := List.find?_some hc
  have last : ∀ y ∈ d.frames, y.isFilling = true → d.frames.getLast? = some y := by
    intro y hy fy
    rcases List.eq_nil_or_concat d.frames with e | ⟨pre, l, e⟩
    · rw [e] at hy; cases hy
    · rw [List.concat_eq_append] at e
      have hl : d.frames.getLast? = some l := by rw [e]; simp
      rw [e, List.mem_append, List.mem_singleton] at hy
      rcases hy with hy | rfl
      · exact absurd ((isFilling_iff y).mp fy) (h.onlyNewestFills y (by rw [e, List.dropLast_concat]; exact hy))
      · exact hl
  have := (last x hx fx).symm.trans (last c hm hf)
  exact Option.some.inj this

theorem FrameLaw.filling_mem {d : Device} {c : FrameContext} (hc : d.filling? = some c) :
    c ∈ d.frames ∧ c.isFilling = true :=
  ⟨List.mem_of_find?_eq_some hc, List.find?_some hc⟩

/-- A change of the filling context alone. -/
theorem FrameLaw.onFilling {d d' : Device} (h : FrameLaw d) {c : FrameContext} (hc : d.filling? = some c)
    (f : FrameContext → FrameContext) (e : d'.frames = (d.onFilling f).frames) (r : d'.receiver = d.receiver)
    (hg : d'.geometry = d.geometry) (input : (f c).input = .filling) (ok : c.Ok → (f c).Ok)
    (next : ∀ c, (f c).nextLine = c.nextLine) (band : ∀ c, (f c).band = c.band) : FrameLaw d' := by
  refine h.map (fun x => if x.isFilling then f x else x) e r hg ?_ ?_ ?_ ?_
  · intro x hx
    split
    · rename_i fx
      rw [(h.filling_unique hc hx fx)]
      exact input.trans ((isFilling_iff c).mp (FrameLaw.filling_mem hc).2).symm
    · rfl
  · intro x hx hok
    split
    · rename_i fx
      rw [(h.filling_unique hc hx fx)] at hok ⊢
      exact ok hok
    · exact hok
  · intro x; split
    · exact next x
    · rfl
  · intro x; split
    · exact band x
    · rfl

theorem ended_input (c : FrameContext) (always : Bool) : (c.ended always).input ≠ .filling := by
  unfold FrameContext.ended; split <;> simp

theorem ended_frame (c : FrameContext) (always : Bool) :
    (c.ended always).geometry = c.geometry ∧ (c.ended always).front = c.front ∧ (c.ended always).nextLine = c.nextLine ∧
      (c.ended always).notes = c.notes ∧ (c.ended always).band = c.band := by
  unfold FrameContext.ended; split <;> exact ⟨rfl, rfl, rfl, rfl, rfl⟩

/-- Contexts after the end of input: none fills. -/
theorem onFilling_ended_input (frames : List FrameContext) (always : Bool) :
    ∀ x ∈ frames.map fun c => if c.isFilling then c.ended always else c, x.input ≠ .filling := by
  intro x hx
  obtain ⟨c, _, rfl⟩ := List.mem_map.mp hx
  split
  · exact ended_input c always
  · rename_i hn
    rwa [isFilling_iff] at hn

/-- The end of input, whatever the receiver was. -/
theorem FrameLaw.endedAll {d d' : Device} (h : FrameLaw d) (always : Bool)
    (e : d'.frames = d.frames.map fun c => if c.isFilling then c.ended always else c) (r : d'.receiver ≠ .filling)
    (hg : d'.geometry = d.geometry) : FrameLaw d' where
  geometry := hg ▸ h.geometry
  atMostTwo := by rw [e, List.length_map]; exact h.atMostTwo
  onlyNewestFills c hc := by
    rw [e] at hc
    exact onFilling_ended_input _ _ c ((List.dropLast_sublist _).subset hc)
  receiver := by
    refine ⟨fun x => absurd x r, ?_⟩
    rintro ⟨c, hc, f⟩
    rw [e] at hc
    exact absurd f (onFilling_ended_input _ _ c hc)
  contexts := by
    rw [e]
    intro x hx
    obtain ⟨c, hc, rfl⟩ := List.mem_map.mp hx
    have hok := h.contexts c hc
    split
    · obtain ⟨a, b, c', d', _⟩ := ended_frame c always
      exact hok.of a b c' d'
    · exact hok
  waiting := by
    rw [e, ← List.map_tail]
    intro x hx
    obtain ⟨c, hc, rfl⟩ := List.mem_map.mp hx
    have := h.waiting c hc
    split
    · obtain ⟨_, _, n, _, b⟩ := ended_frame c always
      rw [n, b]; exact this
    · exact this

theorem FrameLaw.noneFills {d : Device} (h : FrameLaw d) (hn : d.filling? = none) : d.receiver ≠ .filling := by
  intro r
  obtain ⟨c, hc, f⟩ := h.receiver.mp r
  have := List.find?_eq_none.mp hn c hc
  rw [isFilling_iff] at this
  exact this f

/-- The end of input leaves the contexts with none filling. -/
theorem endInput_frames (d : Device) (always : Bool) :
    (d.endInput always).frames = d.frames.map fun c => if c.isFilling then c.ended always else c := by
  unfold Device.endInput
  split
  · rename_i hn
    refine Eq.symm ((List.map_congr_left fun c hc => ?_).trans (List.map_id _))
    rw [if_neg (List.find?_eq_none.mp hn c hc)]
    rfl
  · dsimp only; split <;> rfl

theorem FrameLaw.endInput {d : Device} (h : FrameLaw d) (always : Bool) :
    FrameLaw (d.endInput always) ∧ (d.endInput always).receiver ≠ .filling := by
  have hr : (d.endInput always).receiver ≠ .filling := by
    unfold Device.endInput
    split
    · rename_i hn; exact h.noneFills hn
    · dsimp only; split <;> simp
  obtain ⟨fs, r, cs, e⟩ := endInput_footprint d always
  exact ⟨h.endedAll always (endInput_frames d always) hr (by rw [e]), hr⟩

theorem clampRow_lt (r : LensRecord) (height : Nat) (h : 0 < height) : (r.clampRow height).row < height := by
  unfold LensRecord.clampRow
  have := Nat.min_le_right r.row (height - 1)
  dsimp only
  omega

/-- The notes of a new context: none, or one within the frame. -/
theorem firstNote_notes (embedded : Option LensRecord) (held : Option HeldLens) (stale height : Nat) (h : 0 < height) :
    (firstNote embedded held stale height).notes = [] ∨
      ∃ n, (firstNote embedded held stale height).notes = [n] ∧ n.record.row < height := by
  unfold firstNote
  split
  · exact .inr ⟨_, rfl, clampRow_lt _ _ h⟩
  · split
    · split
      · exact .inr ⟨_, rfl, h⟩
      · exact .inl rfl
    · exact .inl rfl

theorem newContext_ok (d : Device) (tag : BitVec 16) (group : Fin 8) (embedded : Option LensRecord) (h : d.geometry.Ok) :
    (d.newContext tag group embedded).Ok := by
  have hh : 0 < d.geometry.height := by have := h.height.1; omega
  refine ⟨h, by simp [Device.newContext], hh, ?_, ?_, ?_⟩ <;>
    (unfold Device.newContext
     dsimp only
     rcases firstNote_notes embedded (d.heldLens.map HeldLens.aged) d.policy.staleLimit d.geometry.height hh with e | ⟨n, e, hn⟩ <;>
       rw [e] <;> simp_all)

theorem FrameLaw.createContext {d : Device} (h : FrameLaw d) (hn : d.filling? = none) (room : d.frames.length < 2)
    (tag : BitVec 16) (group : Fin 8) (embedded : Option LensRecord) : FrameLaw (d.createContext tag group embedded) := by
  obtain ⟨m, n, cs, e, _, _⟩ := createContext_footprint d tag group embedded
  rw [e]
  have hf : ∀ x ∈ d.frames, x.input ≠ .filling := by
    intro x hx
    have := List.find?_eq_none.mp hn x hx
    rwa [isFilling_iff] at this
  refine ⟨h.geometry, ?_, ?_, ?_, ?_, ?_⟩
  · simp only [List.length_append, List.length_singleton]; omega
  · simp only [List.dropLast_concat]; exact hf
  · simp only [true_iff]
    exact ⟨_, List.mem_append_right _ (List.mem_singleton_self _), rfl⟩
  · intro x hx
    simp only [List.mem_append, List.mem_singleton] at hx
    rcases hx with hx | rfl
    · exact h.contexts x hx
    · exact newContext_ok d tag group embedded h.geometry
  · intro x hx
    have hx : x ∈ (d.frames ++ [d.newContext tag group embedded]).tail := hx
    rw [List.tail_append] at hx
    split at hx
    · cases hx
    · rw [List.mem_append, List.mem_singleton] at hx
      rcases hx with hx | rfl
      · exact h.waiting x hx
      · exact ⟨rfl, rfl⟩

theorem endBySync_filling (d : Device) : d.endBySync.filling? = none ∧ (d.filling? = none → d.endBySync = d) := by
  unfold Device.endBySync
  split
  · rename_i hn; exact ⟨hn, fun _ => rfl⟩
  · rename_i hs
    refine ⟨?_, fun h => by rw [hs] at h; cases h⟩
    unfold Device.filling?
    simp only [Device.raise_frames, Device.bump_frames, endInput_frames]
    apply List.find?_eq_none.mpr
    intro x hx
    rw [isFilling_iff]
    exact onFilling_ended_input _ _ x hx

theorem FrameLaw.endBySync {d : Device} (h : FrameLaw d) : FrameLaw d.endBySync := by
  unfold Device.endBySync
  split
  · exact h
  · rename_i c hc
    have h1 : FrameLaw (d.onFilling FrameContext.setSync) :=
      h.onFilling hc _ rfl rfl rfl ((isFilling_iff c).mp (FrameLaw.filling_mem hc).2)
        (fun ok => ok.of rfl rfl rfl rfl) (fun _ => rfl) (fun _ => rfl)
    exact (h1.endInput true).1.of rfl rfl rfl

/-! ## The note list -/

theorem placeNote_mem (note : Note) (l : List Note) (x : Note) (hx : x ∈ placeNote note l) : x = note ∨ x ∈ l := by
  induction l with
  | nil => exact .inl (List.mem_singleton.mp hx)
  | cons n rest ih =>
    unfold placeNote at hx
    split at hx
    · rcases List.mem_cons.mp hx with h | h
      · exact .inl h
      · exact .inr (List.mem_cons_of_mem _ h)
    · split at hx
      · rcases List.mem_cons.mp hx with h | h
        · exact .inl h
        · exact .inr h
      · rcases List.mem_cons.mp hx with h | h
        · exact .inr (h ▸ List.mem_cons_self)
        · rcases ih h with h | h
          · exact .inl h
          · exact .inr (List.mem_cons_of_mem _ h)

theorem placeNote_order (note : Note) (l : List Note) (h : l.Pairwise fun a b => a.record.row < b.record.row) :
    (placeNote note l).Pairwise fun a b => a.record.row < b.record.row := by
  induction l with
  | nil => simp [placeNote]
  | cons n rest ih =>
    obtain ⟨h1, h2⟩ := List.pairwise_cons.mp h
    unfold placeNote
    split
    · rename_i e
      exact List.pairwise_cons.mpr ⟨fun b hb => by rw [e]; exact h1 b hb, h2⟩
    · split
      · rename_i lt
        refine List.pairwise_cons.mpr ⟨fun b hb => ?_, h⟩
        rcases List.mem_cons.mp hb with rfl | hb
        · exact lt
        · exact Nat.lt_trans lt (h1 b hb)
      · rename_i ne nlt
        refine List.pairwise_cons.mpr ⟨fun b hb => ?_, ih h2⟩
        rcases placeNote_mem note rest b hb with rfl | hb
        · omega
        · exact h1 b hb

theorem placeNote_length (note : Note) (l : List Note) :
    (placeNote note l).length ≤ l.length + 1 ∧
      ((l.any fun n => n.record.row == note.record.row) = true →
        (l.Pairwise fun a b => a.record.row < b.record.row) → (placeNote note l).length = l.length) := by
  induction l with
  | nil => simp [placeNote]
  | cons n rest ih =>
    unfold placeNote
    split
    · simp
    · rename_i ne
      split
      · rename_i lt
        refine ⟨by simp, fun ha hp => ?_⟩
        simp only [List.any_cons, Bool.or_eq_true, beq_iff_eq, List.any_eq_true] at ha
        rcases ha with ha | ⟨x, hx, ha⟩
        · exact absurd ha.symm ne
        · have := (List.pairwise_cons.mp hp).1 x hx
          omega
      · refine ⟨by simpa using ih.1, fun ha hp => ?_⟩
        simp only [List.any_cons, Bool.or_eq_true, beq_iff_eq] at ha
        rcases ha with ha | ha
        · exact absurd ha.symm ne
        · simpa using ih.2 ha (List.pairwise_cons.mp hp).2

theorem FrameContext.Ok.placeNote {c : FrameContext} (h : c.Ok) (r : LensRecord) (hr : r.row < c.geometry.height)
    (room : notePlaced c.notes r.row = true) : FrameContext.Ok { c with notes := placeNote ⟨r, false⟩ c.notes } where
  geometry := h.geometry
  front := h.front
  nextLine := h.nextLine
  noteCount := by
    obtain ⟨h1, h2⟩ := placeNote_length ⟨r, false⟩ c.notes
    simp only [notePlaced, Bool.or_eq_true, decide_eq_true_eq] at room
    rcases room with room | room
    · exact Nat.le_trans (Nat.le_of_eq (h2 room h.noteOrder)) h.noteCount
    · have room : c.notes.length < 8 := room
      dsimp only
      omega
  noteOrder := placeNote_order _ _ h.noteOrder
  noteRows := by
    intro n hn
    rcases placeNote_mem _ _ _ hn with rfl | hn
    · exact hr
    · exact h.noteRows n hn

theorem FrameLaw.acceptNote {d : Device} (h : FrameLaw d) {c : FrameContext} (hc : d.filling? = some c) (r : LensRecord)
    (hr : r.row < c.geometry.height) : FrameLaw (d.acceptNote c r) := by
  have fc := (isFilling_iff c).mp (FrameLaw.filling_mem hc).2
  unfold Device.acceptNote
  split
  · rename_i placed
    dsimp only
    have h1 : FrameLaw { d.onFilling (fun c => { c with notes := placeNote ⟨r, false⟩ c.notes }) with heldLens := some ⟨r, 0⟩ } :=
      h.onFilling hc _ rfl rfl rfl fc (fun ok => ok.placeNote r hr placed) (fun _ => rfl) (fun _ => rfl)
    generalize { d.onFilling (fun c => { c with notes := placeNote ⟨r, false⟩ c.notes }) with heldLens := some ⟨r, 0⟩ } = d1 at h1
    split
    · have h2 : FrameLaw (d1.onFilling FrameContext.setLate) := by
        refine h1.map (fun x => if x.isFilling then x.setLate else x) rfl rfl rfl ?_ ?_ ?_ ?_
        · intro x _; split <;> rfl
        · intro x _ ok; split
          · exact ok.of rfl rfl rfl rfl
          · exact ok
        · intro x; split <;> rfl
        · intro x; split <;> rfl
      exact h2.of rfl rfl rfl
    · exact h1
  · exact h.of rfl rfl rfl

/-! ## The production of a line -/

theorem atLine_frame (c : FrameContext) (ps : Vector Entry 8) :
    (c.atLine ps).geometry = c.geometry ∧ (c.atLine ps).front = c.front ∧ (c.atLine ps).nextLine = c.nextLine ∧
      (c.atLine ps).notes = c.notes ∧ (c.atLine ps).input = c.input := by
  unfold FrameContext.atLine; split <;> exact ⟨rfl, rfl, rfl, rfl, rfl⟩

/-- The line's production before the close leaves the law, but for a next line that may have become H. -/
theorem FrameLaw.head {d d' : Device} (h : FrameLaw d) {c c' : FrameContext} {rest : List FrameContext}
    (hf : d.frames = c :: rest) (e : d'.frames = c' :: rest) (r : d'.receiver = d.receiver) (hg : d'.geometry = d.geometry)
    (input : c'.input = c.input) (ok : c'.Ok) : FrameLaw d' where
  geometry := hg ▸ h.geometry
  atMostTwo := by have := h.atMostTwo; rw [hf] at this; rw [e]; simpa using this
  onlyNewestFills := by
    have := h.onlyNewestFills
    rw [hf] at this
    rw [e]
    cases rest with
    | nil => intro x hx; cases hx
    | cons y ys =>
      rw [List.dropLast_cons_cons] at this ⊢
      intro x hx
      rcases List.mem_cons.mp hx with rfl | hx
      · rw [input]; exact this c List.mem_cons_self
      · exact this x (List.mem_cons_of_mem _ hx)
  receiver := by
    rw [r, h.receiver, hf, e]
    simp [input]
  contexts := by
    rw [e]
    intro x hx
    rcases List.mem_cons.mp hx with rfl | hx
    · exact ok
    · exact h.contexts x (by rw [hf]; exact List.mem_cons_of_mem _ hx)
  waiting := by
    have := h.waiting
    rw [hf] at this
    rw [e]
    exact this

/-- The queue without its head frame, once that frame's input has ended. -/
theorem FrameLaw.tail {d d' : Device} (h : FrameLaw d) {c : FrameContext} {rest : List FrameContext}
    (hf : d.frames = c :: rest) (ended : c.input ≠ .filling) (e : d'.frames = rest) (r : d'.receiver = d.receiver)
    (hg : d'.geometry = d.geometry) : FrameLaw d' where
  geometry := hg ▸ h.geometry
  atMostTwo := by have := h.atMostTwo; rw [hf, List.length_cons] at this; rw [e]; omega
  onlyNewestFills := by
    have := h.onlyNewestFills
    rw [hf] at this
    rw [e]
    intro x hx
    apply this x
    cases rest with
    | nil => cases hx
    | cons y ys => rw [List.dropLast_cons_cons]; exact List.mem_cons_of_mem _ hx
  receiver := by
    rw [r, h.receiver, hf, e]
    simp [ended]
  contexts x hx := h.contexts x (by rw [hf]; rw [e] at hx; exact List.mem_cons_of_mem _ hx)
  waiting x hx := by
    have := h.waiting
    rw [hf] at this
    rw [e] at hx
    exact this x (List.mem_of_mem_tail hx)

/-- The head frame's input has ended before the close goes on. -/
theorem endBeforeClose_head {d : Device} {c : FrameContext} {rest : List FrameContext}
    (hf : d.endBeforeClose.frames = c :: rest) : c.input ≠ .filling := by
  unfold Device.endBeforeClose at hf
  split at hf
  · rename_i c0 r0 e
    split at hf
    · rw [endInput_frames, e] at hf
      rename_i fc
      rw [List.map_cons, if_pos fc] at hf
      rw [List.cons.injEq] at hf
      rw [← hf.1]
      exact ended_input _ _
    · rename_i fc
      rw [e, List.cons.injEq] at hf
      rw [← hf.1]
      rwa [isFilling_iff] at fc
  · rename_i e
    rw [e] at hf
    cases hf

theorem FrameLaw.endBeforeClose {d : Device} (h : FrameLaw d) : FrameLaw d.endBeforeClose := by
  unfold Device.endBeforeClose
  split
  · split
    · exact (h.endInput false).1
    · exact h
  · exact h

theorem endInput_receiver {d : Device} {c : FrameContext} (hc : d.filling? = some c) (always : Bool) :
    (d.endInput always).receiver = .idle := by
  unfold Device.endInput
  rw [hc]
  dsimp only
  split <;> rfl

/-- What the close leaves in the frame queue and the receiver. -/
theorem close_frames {d : Device} {c : FrameContext} {rest : List FrameContext} (hf : d.frames = c :: rest) :
    d.close.frames = (if c.isFilling then rest.map fun c => if c.isFilling then c.ended false else c else rest) ∧
      d.close.receiver = (if c.isFilling then .idle else d.receiver) ∧ d.close.geometry = d.geometry := by
  have heq : d.endBeforeClose = if c.isFilling then d.endInput false else d := by
    unfold Device.endBeforeClose
    rw [hf]
  have hg : d.endBeforeClose.geometry = d.geometry := by
    obtain ⟨_, _, _, e⟩ := endBeforeClose_footprint d
    rw [e]
  by_cases fc : c.isFilling = true
  · rw [if_pos fc] at heq
    have hfr : d.endBeforeClose.frames =
        c.ended false :: rest.map fun c => if c.isFilling then c.ended false else c := by
      rw [heq, endInput_frames, hf, List.map_cons, if_pos fc]
    have hr : d.endBeforeClose.receiver = .idle := by
      rw [heq]
      exact endInput_receiver (c := c) (by unfold Device.filling?; rw [hf, List.find?_cons_of_pos fc]) false
    unfold Device.close
    rw [hfr]
    simp only [closeEnded_eq, hg, hr, if_pos fc, and_self]
  · rw [if_neg fc] at heq
    unfold Device.close
    rw [heq, hf]
    simp only [closeEnded_eq, if_neg fc, and_self]

theorem FrameLaw.close {d : Device} (h : FrameLaw d) : FrameLaw d.close := by
  unfold Device.close
  split
  · rename_i c rest hf
    have h1 := h.endBeforeClose
    rw [closeEnded_eq]
    exact h1.tail hf (endBeforeClose_head hf) rfl rfl rfl
  · exact h.endBeforeClose

theorem GeometryFields.ok {g : GeometryFields} (h : g.firstBad = none) : g.geometry.Ok := by
  unfold GeometryFields.firstBad at h
  repeat' split at h
  all_goals first | cases h | skip
  simp only [Bool.or_eq_true, decide_eq_true_eq, bne_iff_ne, ne_eq, not_or, Nat.not_lt, Decidable.not_not, Bool.and_eq_true,
    not_and] at *
  constructor <;> simp only [GeometryFields.geometry] <;> omega

theorem frameLaw_kept : Kept FrameLaw where
  bump _ _ _ h := h.of rfl rfl rfl
  raise _ _ h := h.of rfl rfl rfl
  setOpened _ lane _ h _ := by cases lane <;> exact h.of rfl rfl rfl
  takeStoreRequest d h := by
    unfold Device.takeStoreRequest
    split
    · exact h
    · rename_i r _
      have h0 : FrameLaw { d with storeReq := none } := h.of rfl rfl rfl
      generalize { d with storeReq := none } = d at h0
      unfold Device.storeRow
      split
      · split
        · rename_i i _
          refine h0.map (fun c => if c.id == r.frame then { c with rowsStored := satAdd c.rowsStored 1 } else c)
            rfl rfl rfl ?_ ?_ ?_ ?_
          · intro x _; split <;> rfl
          · intro x _ ok; split
            · exact ok.of rfl rfl rfl rfl
            · exact ok
          · intro x; split <;> rfl
          · intro x; split <;> rfl
        · have h2 : FrameLaw (d.onFrame r.frame FrameContext.setOverrun) := by
            refine h0.map (fun c => if c.id == r.frame then c.setOverrun else c) rfl rfl rfl ?_ ?_ ?_ ?_
            · intro x _; split <;> rfl
            · intro x _ ok; split
              · exact ok.of rfl rfl rfl rfl
              · exact ok
            · intro x; split <;> rfl
            · intro x; split <;> rfl
          exact h2.of rfl rfl rfl
      · exact h0
  takeHead d tag group payload h := by
    have h1 := h.endBySync
    have hn := (endBySync_filling d).1
    unfold Device.takeHead
    dsimp only
    generalize d.endBySync = d at h1 hn
    split
    · unfold Device.refuseHead
      have hr : d.receiver ≠ .filling := h1.noneFills hn
      obtain ⟨a, b, c, e, f, g⟩ := h1
      have hne : ¬ ∃ c ∈ d.frames, c.input = .filling := fun hx => hr (e.mpr hx)
      exact ⟨a, b, c, ⟨fun hx => by simp at hx, fun hx => absurd hx hne⟩, f, g⟩
    · rename_i room
      exact h1.createContext hn (Nat.lt_of_not_le room) _ _ _
  takeRow d r samples bad h _ := by
    unfold Device.takeRow
    split
    · exact h.of rfl rfl rfl
    · exact h.of rfl rfl rfl
    · split
      · exact h
      · rename_i c hc
        split
        · exact h.of rfl rfl rfl
        · rename_i hr
          split
          · exact h.of rfl rfl rfl
          · have fc := (isFilling_iff c).mp (FrameLaw.filling_mem hc).2
            have h1 : FrameLaw (d.onFilling (·.afterRow r bad)) := by
              refine h.onFilling hc _ rfl rfl rfl fc (fun ok => ?_) (fun _ => rfl) (fun _ => rfl)
              refine ⟨ok.geometry, ?_, ok.nextLine, ok.noteCount, ok.noteOrder, ok.noteRows⟩
              intro f hf
              simp only [FrameContext.afterRow, Option.some.injEq] at hf
              rw [← hf]
              exact Nat.lt_of_not_le hr
            unfold Device.acceptRow
            extract_lets d1 d2 d3 d4
            have h3 : FrameLaw d3 := by
              simp only [d3]
              split <;> exact h1.of rfl rfl rfl
            split
            · exact h3
            · have h4 : FrameLaw d4 := by
                simp only [d4]
                split
                · exact h3
                · exact h3.of rfl rfl rfl
              exact h4.of rfl rfl rfl
  takeNote d r h := by
    unfold Device.takeNote
    split
    · split
      · exact h
      · rename_i c hc
        have fc := (isFilling_iff c).mp (FrameLaw.filling_mem hc).2
        split
        · have h1 : FrameLaw (d.onFilling FrameContext.setMismatch) :=
            h.onFilling hc _ rfl rfl rfl fc (fun ok => ok.of rfl rfl rfl rfl) (fun _ => rfl) (fun _ => rfl)
          exact h1.of rfl rfl rfl
        · refine h.acceptNote hc _ (clampRow_lt _ _ ?_)
          have := (h.contexts c (FrameLaw.filling_mem hc).1).geometry.height.1
          omega
    · exact h.of rfl rfl rfl
  takeTail d tag h := by
    unfold Device.takeTail
    split
    · exact h
    · rename_i hr
      obtain ⟨a, b, c, e, f, g⟩ := h
      have hne : ¬ ∃ c ∈ d.frames, c.input = .filling := fun hx => by rw [e.mpr hx] at hr; cases hr
      exact ⟨a, b, c, ⟨fun hx => by simp at hx, fun hx => absurd hx hne⟩, f, g⟩
    · split
      · exact h
      · rename_i c hc
        have fc := (isFilling_iff c).mp (FrameLaw.filling_mem hc).2
        split
        · exact (h.endInput false).1
        · have h1 : FrameLaw (d.onFilling FrameContext.setSync) :=
            h.onFilling hc _ rfl rfl rfl fc (fun ok => ok.of rfl rfl rfl rfl) (fun _ => rfl) (fun _ => rfl)
          exact h1.of rfl rfl rfl
  joinPassThrough d p h := by unfold Device.joinPassThrough; split <;> exact h.of rfl rfl rfl
  joinUpstream d p h := by unfold Device.joinUpstream; split <;> exact h.of rfl rfl rfl
  joinCommands d p h := by unfold Device.joinCommands; split <;> exact h.of rfl rfl rfl
  credit d p h := by unfold Device.flow; split <;> cases p <;> exact h.of rfl rfl rfl
  hold d p h := by unfold Device.flow; split <;> cases p <;> exact h.of rfl rfl rfl
  resume d p h := by unfold Device.flow; split <;> cases p <;> exact h.of rfl rfl rfl
  laneLock d p h := by
    unfold Device.laneLock
    split
    · exact h
    · split
      · cases p <;> exact h.of rfl rfl rfl
      · exact h
  alignmentDone d p h := by
    unfold Device.alignmentDone
    split
    · cases p <;> exact h.of rfl rfl rfl
    · exact h
  laneLoss d p h := by
    by_cases down : d.link p = .down
    · unfold Device.laneLoss
      rw [if_pos down]
      exact h
    · cases p
      · have h0 : FrameLaw { d with openU := none, laneU := none } := h.of rfl rfl rfl
        obtain ⟨fs, r, cs, e⟩ := endInput_footprint { d with openU := none, laneU := none } true
        have he := endInput_frames { d with openU := none, laneU := none } true
        unfold Device.laneLoss Device.loseLink
        rw [if_neg down]
        refine h0.endedAll true ?_ (by simp) ?_
        · exact he
        · simp only [Device.raise_geometry, Device.bump_geometry, Device.setLink_u_geometry, e]
      · obtain ⟨_, _, e⟩ := laneLossA_footprint d down
        rw [e]
        exact h.map _ rfl rfl rfl (fun _ _ => rfl) (fun _ _ ok => ok.of rfl rfl rfl rfl) (fun _ => rfl) (fun _ => rfl)
      · obtain ⟨_, _, e⟩ := laneLossB_footprint d down
        rw [e]
        exact h.map _ rfl rfl rfl (fun _ _ => rfl) (fun _ _ ok => ok.of rfl rfl rfl rfl) (fun _ => rfl) (fun _ => rfl)
  holdReset d h := h.of rfl rfl rfl
  partReset d node fitted _ := by
    refine ⟨?_, ?_, ?_, ?_, ?_, ?_⟩
    · constructor <;> simp [Device.partReset, Device.afterReset, Geometry.reset]
    all_goals simp [Device.partReset, Device.afterReset]
  produceLine d h := by
    unfold Device.produceLine
    split
    · split
      · exact h
      · rename_i c rest hf
        obtain ⟨cs, e⟩ := lineOnHead_eq d c rest
        obtain ⟨hg, hfr, hn, hno, hi⟩ := atLine_frame c d.profiles
        have hok := h.contexts c (by rw [hf]; exact List.mem_cons_self)
        dsimp only
        split
        · rename_i last
          have h1 : FrameLaw { d.lineOnHead c rest with
              frames := { (c.atLine d.profiles).afterLine (d.lineOf (c.atLine d.profiles))
                (d.cutsB (c.atLine d.profiles) (c.atLine d.profiles).nextLine) with nextLine := c.nextLine } :: rest } := by
            refine h.head hf rfl (by rw [e]) (by rw [e]) hi ?_
            refine ⟨by rw [FrameContext.afterLine]; exact hg ▸ hok.geometry, ?_, ?_, ?_, ?_, ?_⟩ <;>
              simp only [FrameContext.afterLine, hg, hfr, hno]
            · exact hok.front
            · exact hok.nextLine
            · exact hok.noteCount
            · exact hok.noteOrder
            · exact hok.noteRows
          obtain ⟨f1, r1, g1⟩ := close_frames (d := d.lineOnHead c rest) (by rw [e])
          obtain ⟨f2, r2, g2⟩ := close_frames (d := { d.lineOnHead c rest with
              frames := { (c.atLine d.profiles).afterLine (d.lineOf (c.atLine d.profiles))
                (d.cutsB (c.atLine d.profiles) (c.atLine d.profiles).nextLine) with nextLine := c.nextLine } :: rest }) rfl
          exact h1.close.of (f1.trans f2.symm) (r1.trans r2.symm) (g1.trans g2.symm)
        · rename_i notLast
          have h1 : FrameLaw (d.lineOnHead c rest) := by
            rw [e]
            refine h.head hf rfl rfl rfl hi ?_
            refine ⟨by rw [FrameContext.afterLine]; exact hg ▸ hok.geometry, ?_, ?_, ?_, ?_, ?_⟩ <;>
              simp only [FrameContext.afterLine, hg, hfr, hn, hno]
            · exact hok.front
            · have := hok.nextLine; omega
            · exact hok.noteCount
            · exact hok.noteOrder
            · exact hok.noteRows
          exact h1
    · exact h
  arbiterChoice d h := by
    unfold Device.arbiterChoice
    split
    · split
      · exact h.of rfl rfl rfl
      · exact h
    · exact h
  portBSend d h := by
    unfold Device.portBSend
    split
    · split
      · exact h.of rfl rfl rfl
      · exact h
    · exact h
  upstreamSend d h := by
    unfold Device.upstreamSend
    split
    · split
      · exact h.of rfl rfl rfl
      · exact h
    · exact h
  itemSent d p h := by
    unfold Device.itemSent
    split
    · cases p <;> exact h.of rfl rfl rfl
    · exact h
  answerSent d h := by unfold Device.answerSent; split <;> exact h.of rfl rfl rfl
  passThroughSent d h := by unfold Device.passThroughSent; split <;> exact h.of rfl rfl rfl
  upstreamSent d h := by unfold Device.upstreamSent; split <;> exact h.of rfl rfl rfl
  popCommand d r rest h _ := h.of rfl rfl rfl
  answer d tag code r h _ := h.of rfl rfl rfl
  zeroCounters d h := h.of rfl rfl rfl
  alerts d v h := h.of rfl rfl rfl
  alertEnable d v h := h.of rfl rfl rfl
  setMode d args h := by
    unfold runSetMode
    split
    · exact h
    · split <;> exact h.of rfl rfl rfl
  setGeometry d args h := by
    unfold runSetGeometry
    dsimp only
    split
    · split
      · exact h
      · rename_i ok
        obtain ⟨a, b, c, e, f, g⟩ := h
        exact ⟨GeometryFields.ok ok, b, c, e, f, g⟩
    · exact h
  setInput d v h := h.of rfl rfl rfl
  setRoute d g v h := h.of rfl rfl rfl
  setPort d p enable crop h := by cases p <;> exact h.of rfl rfl rfl
  profileOpen d args h := by
    unfold runProfileOpen
    dsimp only
    split
    · split
      · exact h
      · exact h.of rfl rfl rfl
    · exact h
  profileWrite d args h := by
    unfold runProfileWrite
    dsimp only
    split
    · split
      · split
        · exact h
        · exact h.of rfl rfl rfl
      · exact h
    · exact h
  profileClose d args h := by
    unfold runProfileClose
    split
    · dsimp only
      split
      · split
        · exact h
        · split
          · exact h
          · exact h.of rfl rfl rfl
      · exact h
    · exact h
  profileRetire d e h := h.of rfl rfl rfl
  resetPipeline d h := by
    obtain ⟨ps, e⟩ := foldl_unbindContext_footprint d.frames d
    unfold Device.resetPipeline
    rw [e]
    refine ⟨h.geometry, ?_, ?_, ?_, ?_, ?_⟩ <;> simp [Device.freeEverySlot]
  resetProfiles d h := h.of rfl rfl rfl
  resetPort d p h := by
    have h1 : FrameLaw (d.cutDeliveries p) := by
      refine h.map _ rfl rfl rfl ?_ ?_ ?_ ?_
      · intro x _; cases p <;> rfl
      · intro x _ ok; cases p <;> exact ok.of rfl rfl rfl rfl
      · intro x; cases p <;> rfl
      · intro x; cases p <;> rfl
    unfold Device.resetPort
    cases p <;> exact h1.of rfl rfl rfl

end Sys2Proof.Machine
end

