-- ==== Sys2Proof/Laws/Packets.lean ====
section
/-! SUPPORT. What the bytes of a packet say, said once: byte order, the header the part makes, and a whole packet arriving
on a lane. -/

namespace Sys2Proof.Machine

/-! ## Byte order -/

theorem beBytes_length (w n : Nat) : (beBytes w n).length = w := by
  induction w with
  | zero => rfl
  | succ w ih => simp [beBytes, ih]

theorem foldl_be (bytes : List Byte) (k : Nat) :
    bytes.foldl (fun n b => n * 256 + b.toNat) k = k * 256 ^ bytes.length + beNat bytes := by
  unfold beNat
  induction bytes generalizing k with
  | nil => simp
  | cons b rest ih =>
    rw [List.foldl_cons, ih, List.foldl_cons, ih (0 * 256 + b.toNat), List.length_cons, Nat.pow_succ, Nat.add_mul, Nat.zero_mul,
      Nat.zero_add, Nat.mul_assoc, Nat.mul_comm 256 (256 ^ rest.length)]
    omega

theorem beNat_cons (b : Byte) (rest : List Byte) : beNat (b :: rest) = b.toNat * 256 ^ rest.length + beNat rest := by
  have := foldl_be rest (0 * 256 + b.toNat)
  rw [beNat, List.foldl_cons, this]
  simp

theorem beNat_append (a b : List Byte) : beNat (a ++ b) = beNat a * 256 ^ b.length + beNat b := by
  rw [beNat, List.foldl_append, foldl_be]
  rfl

theorem beNat_beBytes (w n : Nat) : beNat (beBytes w n) = n % 256 ^ w := by
  induction w with
  | zero => simp [beBytes, beNat, Nat.mod_one]
  | succ w ih =>
    have e : n % 256 ^ (w + 1) = n % 256 ^ w + 256 ^ w * (n / 256 ^ w % 256) := by rw [Nat.pow_succ, Nat.mod_mul]
    rw [beBytes, beNat_cons, ih, beBytes_length, BitVec.toNat_ofNat, e, Nat.mul_comm, Nat.add_comm]

/-- A byte of a number is its eight bits. -/
theorem ofNat_div {w : Nat} (x : BitVec w) (k : Nat) : BitVec.ofNat 8 (x.toNat / 256 ^ k) = x.extractLsb' (8 * k) 8 := by
  apply BitVec.eq_of_toNat_eq
  rw [BitVec.toNat_ofNat, BitVec.extractLsb'_toNat, Nat.shiftRight_eq_div_pow, Nat.pow_mul]

/-- A number sent high byte first: byte `i` of `width` (R2). -/
theorem beBytes_getElem? (width n i : Nat) (h : i < width) :
    (beBytes width n)[i]? = some (BitVec.ofNat 8 (n / 256 ^ (width - 1 - i))) := by
  induction width generalizing i with
  | zero => omega
  | succ w ih =>
    cases i with
    | zero => simp [beBytes]
    | succ i =>
      rw [beBytes, List.getElem?_cons_succ, ih i (by omega)]
      rw [show w + 1 - 1 - (i + 1) = w - 1 - i by omega]

/-! ## Headers -/

theorem Header.ofBits_bits (h : Header) : Header.ofBits h.bits = h := by
  obtain ⟨k, n, s, l, f⟩ := h
  simp only [Header.ofBits, Header.bits, Header.mk.injEq]
  refine ⟨?_, ?_, ?_, ?_, ?_⟩ <;>
    (apply BitVec.eq_of_getLsbD_eq
     intro i hi
     simp only [BitVec.getLsbD_extractLsb', BitVec.getLsbD_append, hi, decide_true, Bool.true_and])
  · simp [show ¬ 36 + i < 16 by omega, show ¬ 36 + i - 16 < 16 by omega, show ¬ 36 + i - 16 - 16 < 1 by omega,
      show ¬ 36 + i - 16 - 16 - 1 < 3 by omega, show 36 + i - 16 - 16 - 1 - 3 = i by omega]
  · simp [show ¬ 33 + i < 16 by omega, show ¬ 33 + i - 16 < 16 by omega, show ¬ 33 + i - 16 - 16 < 1 by omega,
      show 33 + i - 16 - 16 - 1 = i by omega]
    omega
  · simp [show ¬ 32 + i < 16 by omega, show ¬ 32 + i - 16 < 16 by omega, show 32 + i - 16 - 16 = i by omega]
    omega
  · simp [show ¬ 16 + i < 16 by omega, show 16 + i - 16 = i by omega]
    omega
  · simp [show i < 16 by omega]

theorem checkByte_value (d : BitVec 40) : (checkByte d).extractLsb' 1 6 = checkValue d := by
  unfold checkByte
  apply BitVec.eq_of_getLsbD_eq
  intro i hi
  simp only [BitVec.getLsbD_extractLsb', BitVec.getLsbD_append, hi, decide_true, Bool.true_and]
  simp [show ¬ 1 + i < 1 by omega, show 1 + i - 1 = i by omega]
  omega

theorem checkByte_parity (d : BitVec 40) : (checkByte d).getLsbD 7 = parityBit d (checkValue d) := by
  unfold checkByte
  rw [BitVec.getLsbD_append, BitVec.getLsbD_append]
  simp

/-- A header as the part makes it passes the check clean (R3, R4). -/
theorem checkHeader_bytes (h : Header) (payload : List Byte) : checkHeader (h.bytes ++ payload) = .clean h := by
  have h5 : (beBytes 5 h.bits.toNat).length = 5 := beBytes_length _ _
  have e : h.bytes ++ payload = beBytes 5 h.bits.toNat ++ (checkByte h.bits :: payload) := by
    simp [Header.bytes]
  unfold checkHeader
  rw [e, List.drop_append, List.take_append, h5]
  simp only [Nat.sub_self, List.take_zero, List.append_nil, List.drop_zero]
  rw [List.take_of_length_le (Nat.le_of_eq h5), List.drop_eq_nil_of_le (Nat.le_of_eq h5), beNat_beBytes,
    Nat.mod_eq_of_lt (by have := h.bits.isLt; omega), BitVec.ofNat_toNat, BitVec.setWidth_eq]
  rw [List.nil_append, List.headD_cons, checkByte_value, checkByte_parity]
  simp [checkCode, Header.ofBits_bits]

theorem Header.bytes_length (h : Header) : h.bytes.length = 6 := by
  simp [Header.bytes, beBytes_length]

theorem Packet.bytes_length (p : Packet) : p.bytes.length = 6 + p.payload.length := by
  simp [Packet.bytes, Header.bytes_length]

theorem Packet.bytes_payload (p : Packet) : p.bytes.drop 6 = p.payload := by
  have := Header.bytes_length p.header
  rw [Packet.bytes, List.drop_append, this, List.drop_eq_nil_of_le (Nat.le_of_eq this)]
  rfl

theorem Packet.header_packet (p : Packet) : p.header.packet p.payload = p := rfl

/-! ## A packet on a lane -/

theorem setOpened_opened (d : Device) (lane : LinkPort) (o : Option (List Byte)) : (d.setOpened lane o).opened lane = o := by
  cases lane <;> rfl

theorem setOpened_setOpened (d : Device) (lane : LinkPort) (o o' : Option (List Byte)) :
    (d.setOpened lane o).setOpened lane o' = d.setOpened lane o' := by
  cases lane <;> rfl

theorem setOpened_same (d : Device) (lane : LinkPort) : d.setOpened lane (d.opened lane) = d := by
  cases lane <;> rfl

theorem takeData (d : Device) (lane : LinkPort) (bytes : List Byte) (pre : List Byte) (ho : d.opened lane = some pre)
    (hl : pre.length + bytes.length ≤ 6 + 16384) :
    (bytes.map Symbol.data).foldl (fun d sym => d.takeSymbol lane sym) d = d.setOpened lane (some (pre ++ bytes)) := by
  induction bytes generalizing d pre with
  | nil => simp [← ho, setOpened_same]
  | cons b rest ih =>
    rw [List.length_cons] at hl
    have step : d.takeSymbol lane (.data b) = d.setOpened lane (some (pre ++ [b])) := by
      unfold Device.takeSymbol
      rw [ho]
      simp only [readSymbol]
      rw [if_pos (by show pre.length < 6 + 16384; omega)]
      rfl
    rw [List.map_cons, List.foldl_cons, step, ih _ _ (setOpened_opened _ _ _) (by simp; omega), setOpened_setOpened]
    simp

/-- A whole packet on a lane whose link is UP, with no packet open, is received (R1). -/
theorem takeSymbols_packet (d : Device) (lane : LinkPort) (bytes : List Byte) (up : d.link lane = .up)
    (closed : d.opened lane = none) (short : 6 ≤ bytes.length) (long : bytes.length ≤ 6 + 16384) :
    d.takeSymbols lane (Symbol.packet bytes) = d.receivePacket lane bytes := by
  unfold Device.takeSymbols Symbol.packet
  rw [if_pos up, List.foldl_cons, List.foldl_append]
  have start : d.takeSymbol lane .start = d.setOpened lane (some []) := by
    unfold Device.takeSymbol
    rw [closed]
    rfl
  rw [start, takeData _ _ _ [] (setOpened_opened _ _ _) (by simpa using long), setOpened_setOpened]
  simp only [List.foldl_cons, List.foldl_nil, List.nil_append]
  unfold Device.takeSymbol
  rw [setOpened_opened]
  simp only [readSymbol]
  rw [if_neg (by omega), setOpened_setOpened]
  have : d.setOpened lane none = d := by rw [← closed, setOpened_same]
  rw [this]
  rfl

/-- A packet as it is sent (R2) is received as checked: malformed, or sorted (R6, R15, R17). -/
theorem takeSymbols_checked (d : Device) (lane : LinkPort) (p : Packet) (up : d.link lane = .up)
    (closed : d.opened lane = none) (long : p.payload.length ≤ 16384) :
    d.takeSymbols lane (Symbol.packet p.bytes) = d.checkedPacket lane p.header p.payload := by
  have hl := Packet.bytes_length p
  rw [takeSymbols_packet d lane p.bytes up closed (by omega) (by omega)]
  unfold Device.receivePacket
  rw [show p.bytes = p.header.bytes ++ p.payload from rfl, checkHeader_bytes]
  show Device.checkedPacket d lane p.header (p.bytes.drop 6) = _
  rw [Packet.bytes_payload]

/-- A packet as it is sent meets the two length cases: whether it is malformed is the rule of its kind alone (R6). -/
theorem malformed_eq (lane : LinkPort) {p : Packet} (long : p.payload.length ≤ 16384) :
    malformed lane p.header p.payload = breaksKindRule lane p.kind.toNat p.payload := by
  have e : p.header.length.toNat = p.payload.length := by
    simp only [Packet.header, BitVec.toNat_ofNat]
    omega
  unfold malformed
  rw [e]
  have h1 : decide (p.payload.length > Config.maxPayload) = false := by
    simp only [decide_eq_false_iff_not, gt_iff_lt, Nat.not_lt]
    exact long
  rw [h1, bne_self_eq_false, Bool.or_self, Bool.false_or]
  rfl

end Sys2Proof.Machine
end

