-- ==== Sys2Proof/Laws/Profiles.lean ====
section
/-! SUPPORT. The law of the profile table, ProfileLaw, is kept by every shared operation. -/

namespace Sys2Proof.Machine

/-! ## Contexts and their bindings -/

theorem boundContexts_map (frames : List FrameContext) (g : FrameContext → FrameContext)
    (hg : ∀ c ∈ frames, (g c).entry = c.entry) (e : Fin 8) : boundContexts (frames.map g) e = boundContexts frames e := by
  unfold boundContexts
  rw [List.countP_map]
  apply List.countP_congr
  intro c hc
  simp [hg c hc]

theorem BindingOk.of {ps : Vector Entry 8} {c c' : FrameContext} (h : BindingOk ps c) (e : c'.entry = c.entry)
    (u : c'.reachUp = c.reachUp) (d : c'.reachDown = c.reachDown) (m : c'.mode = c.mode) : BindingOk ps c' := by
  obtain ⟨h1, h2, h3⟩ := h
  constructor
  · rw [e, u, d]; exact h1
  · rw [e, u, d]; exact h2
  · rw [e, m]; exact h3

theorem ProfileLaw.of {d d' : Device} (h : ProfileLaw d) (p : d'.profiles = d.profiles) (f : d'.frames = d.frames) :
    ProfileLaw d' := by
  obtain ⟨h1, h2, h3, h4⟩ := h
  constructor
  · rw [p, f]; exact h1
  · rw [p]; exact h2
  · rw [p]; exact h3
  · rw [p, f]; exact h4

/-- A change of contexts, one by one, that leaves their bindings as they are. -/
theorem ProfileLaw.map {d d' : Device} (h : ProfileLaw d) (g : FrameContext → FrameContext) (p : d'.profiles = d.profiles)
    (f : d'.frames = d.frames.map g)
    (hg : ∀ c, (g c).entry = c.entry ∧ (g c).reachUp = c.reachUp ∧ (g c).reachDown = c.reachDown ∧ (g c).mode = c.mode) :
    ProfileLaw d' where
  holds e := by rw [p, f, boundContexts_map _ _ (fun c _ => (hg c).1)]; exact h.holds e
  oneReady := by rw [p]; exact h.oneReady
  entries := by rw [p]; exact h.entries
  bindings := by
    rw [p, f]
    intro x hx
    obtain ⟨c, hc, rfl⟩ := List.mem_map.mp hx
    obtain ⟨a, b, c', e⟩ := hg c
    exact (h.bindings c hc).of a b c' e

/-- An entry with no context bound holds no context's profile. -/
theorem ProfileLaw.unbound {d : Device} (h : ProfileLaw d) {e : Fin 8} (hz : d.profiles[e].holdCount = 0) :
    ∀ c ∈ d.frames, c.entry ≠ some e := by
  have := h.holds e
  rw [hz] at this
  unfold boundContexts at this
  intro c hc hce
  have := List.countP_eq_zero.mp this.symm c hc
  simp [hce] at this

/-- An entry nobody is bound to replaced by another such entry. -/
theorem ProfileLaw.replaceFree {d d' : Device} (h : ProfileLaw d) (e : Fin 8) (x : Entry)
    (p : d'.profiles = d.profiles.set e x) (f : d'.frames = d.frames) (hz : d.profiles[e].holdCount = 0)
    (xz : x.holdCount = 0) (ok : x.Ok)
    (ready : ∀ q n, x = .ready q n → ∀ (g : Fin 8) r m, d.profiles[g] = .ready r m → q.identity = r.identity → g = e) :
    ProfileLaw d' where
  holds g := by
    rw [p, f]
    by_cases hg : g = e
    · subst hg
      have := h.holds g
      simp only [Fin.getElem_fin, Vector.getElem_set_self] at this ⊢
      simp only [Fin.getElem_fin] at hz
      rw [xz, ← this, hz]
    · have : e.val ≠ g.val := fun he => hg (Fin.ext he.symm)
      have hh := h.holds g
      simp only [Fin.getElem_fin, Vector.getElem_set_ne _ _ this] at hh ⊢
      exact hh
  oneReady g1 g2 q1 q2 m n h1 h2 hi := by
    rw [p] at h1 h2
    simp only [Fin.getElem_fin, Vector.getElem_set] at h1 h2
    split at h1 <;> split at h2
    · rename_i a b; exact Fin.ext (a.symm.trans b)
    · rename_i a _
      exact ((ready q1 m h1 g2 q2 n h2 hi).trans (Fin.ext a)).symm
    · rename_i _ a
      exact (ready q2 n h2 g1 q1 m h1 hi.symm).trans (Fin.ext a)
    · exact h.oneReady g1 g2 q1 q2 m n h1 h2 hi
  entries g := by
    rw [p]
    simp only [Fin.getElem_fin, Vector.getElem_set]
    split
    · exact ok
    · exact h.entries g
  bindings := by
    rw [p, f]
    intro c hc
    have hb := h.bindings c hc
    refine ⟨fun g hg => ?_, hb.unbound, hb.inPass⟩
    have : e.val ≠ g.val := fun he => h.unbound hz c hc (by rw [hg, Fin.ext he.symm])
    have := hb.bound g hg
    simpa only [Fin.getElem_fin, Vector.getElem_set_ne _ _ ‹e.val ≠ g.val›] using this

/-! ## Binding -/

theorem lookupEntry_some {ps : Vector Entry 8} {i : Identity} {e : Fin 8} (h : lookupEntry ps i = some e) :
    ∃ p n, ps[e] = .ready p n ∧ p.identity = i := by
  have := List.find?_some h
  unfold Entry.readyFor at this
  split at this
  · rename_i p n e'
    exact ⟨p, n, e', by simpa using this⟩
  · cases this

theorem lookupEntry_none {ps : Vector Entry 8} {i : Identity} (h : lookupEntry ps i = none) (e : Fin 8) (p : Profile)
    (n : Nat) (he : ps[e] = .ready p n) : p.identity ≠ i := by
  have := List.find?_eq_none.mp h e (List.mem_finRange e)
  rw [he] at this
  simpa [Entry.readyFor] using this

theorem bindingFor_some {ps : Vector Entry 8} {m : Mode} {i : Option Identity} {e : Fin 8}
    (h : bindingFor ps m i = some e) : m ≠ .pass ∧ ∃ p n, ps[e] = .ready p n ∧ some p.identity = i := by
  unfold bindingFor at h
  split at h
  · cases h
  · rename_i hm
    obtain ⟨j, rfl, hj⟩ := Option.bind_eq_some_iff.mp h
    obtain ⟨p, n, hp, hi⟩ := lookupEntry_some hj
    exact ⟨hm, p, n, hp, by rw [hi]⟩

theorem bindingFor_pass (ps : Vector Entry 8) (i : Option Identity) : bindingFor ps .pass i = none := rfl

theorem boundProfiles_get (ps : Vector Entry 8) (entry : Option (Fin 8)) (g : Fin 8) :
    (boundProfiles ps entry)[g] = if entry = some g then ps[g].bind else ps[g] := by
  unfold boundProfiles
  split
  · rename_i e
    simp only [Fin.getElem_fin, Option.some.injEq]
    by_cases he : e = g
    · subst he; simp
    · have : e.val ≠ g.val := fun h => he (Fin.ext h)
      rw [Vector.getElem_set_ne _ _ this, if_neg he]
  · simp

theorem Entry.bind_profile? (x : Entry) : x.bind.profile? = x.profile? := by cases x <;> rfl

theorem Entry.bind_ready {x : Entry} {p : Profile} {m : Nat} (h : x.bind = .ready p m) : ∃ n, x = .ready p n := by
  cases x <;> simp [Entry.bind] at h
  exact ⟨_, by rw [h.1]⟩

theorem Entry.Ok.bind {x : Entry} (h : x.Ok) : x.bind.Ok := by cases x <;> exact h

theorem ProfileLaw.createContext {d : Device} (h : ProfileLaw d) (tag : BitVec 16) (group : Fin 8)
    (embedded : Option LensRecord) : ProfileLaw (d.createContext tag group embedded) := by
  obtain ⟨m, n, cs, e, _, _⟩ := createContext_footprint d tag group embedded
  rw [e]
  generalize hc : d.newContext tag group embedded = c
  have hentry : c.entry = bindingFor d.profiles c.mode c.identity := by rw [← hc]; rfl
  have hreach : c.reachUp = (reachFor d.profiles c.entry).1 ∧ c.reachDown = (reachFor d.profiles c.entry).2 := by
    rw [← hc]; exact ⟨rfl, rfl⟩
  constructor
  · intro g
    show ((boundProfiles d.profiles c.entry)[g]).holdCount = boundContexts (d.frames ++ [c]) g
    have hg := h.holds g
    rw [boundProfiles_get]
    unfold boundContexts at hg ⊢
    rw [List.countP_append, ← hg]
    split
    · rename_i hs
      obtain ⟨_, p, k, hp, _⟩ := bindingFor_some (hentry.symm.trans hs)
      rw [hp]
      simp [hs, Entry.bind, Entry.holdCount]
    · rename_i hs
      simp [hs]
  · intro g1 g2 q1 q2 m1 m2 h1 h2 hi
    have h1 : (boundProfiles d.profiles c.entry)[g1] = .ready q1 m1 := h1
    have h2 : (boundProfiles d.profiles c.entry)[g2] = .ready q2 m2 := h2
    rw [boundProfiles_get] at h1 h2
    have k1 : ∃ k, d.profiles[g1] = .ready q1 k := by
      split at h1
      · exact Entry.bind_ready h1
      · exact ⟨_, h1⟩
    have k2 : ∃ k, d.profiles[g2] = .ready q2 k := by
      split at h2
      · exact Entry.bind_ready h2
      · exact ⟨_, h2⟩
    obtain ⟨_, k1⟩ := k1
    obtain ⟨_, k2⟩ := k2
    exact h.oneReady g1 g2 q1 q2 _ _ k1 k2 hi
  · intro g
    show ((boundProfiles d.profiles c.entry)[g]).Ok
    rw [boundProfiles_get]
    split
    · exact (h.entries g).bind
    · exact h.entries g
  · intro x hx
    have prof : ∀ g : Fin 8, ((boundProfiles d.profiles c.entry)[g]).profile? = d.profiles[g].profile? := by
      intro g
      rw [boundProfiles_get]
      split
      · exact Entry.bind_profile? _
      · rfl
    show BindingOk (boundProfiles d.profiles c.entry) x
    rcases List.mem_append.mp hx with hx | hx
    · obtain ⟨b1, b2, b3⟩ := h.bindings x hx
      exact ⟨fun g hg => by rw [prof]; exact b1 g hg, b2, b3⟩
    · rw [List.mem_singleton] at hx
      subst hx
      refine ⟨fun g hg => ?_, fun hn => ?_, fun hp => ?_⟩
      · rw [prof]
        obtain ⟨_, p, k, hp, _⟩ := bindingFor_some (hentry.symm.trans hg)
        refine ⟨p, by rw [hp]; rfl, ?_⟩
        rw [hreach.1, hreach.2, hg]
        unfold reachFor
        simp only [Option.bind_some]
        rw [hp]
        exact ⟨rfl, rfl⟩
      · rw [hreach.1, hreach.2, hn]
        exact ⟨rfl, rfl⟩
      · rw [hentry, hp, bindingFor_pass]

/-! ## Unbinding -/

theorem Entry.unbind_holdCount (x : Entry) : x.unbind.holdCount = x.holdCount - 1 := by
  cases x with
  | empty => rfl
  | loading p => rfl
  | ready p n => rfl
  | retiring p n =>
    by_cases h : n - 1 = 0 <;> simp [Entry.unbind, Entry.holdCount, h]

theorem Entry.unbind_ready {x : Entry} {p : Profile} {m : Nat} (h : x.unbind = .ready p m) : ∃ n, x = .ready p n := by
  cases x <;> simp only [Entry.unbind] at h
  · cases h
  · cases h
  · injection h with h1 h2; exact ⟨_, by rw [h1]⟩
  · split at h <;> cases h

theorem Entry.Ok.unbind {x : Entry} (h : x.Ok) : x.unbind.Ok := by
  cases x <;> simp only [Entry.unbind]
  · exact h
  · exact h
  · exact h
  · split
    · trivial
    · rename_i hn; exact ⟨h.1, h.2.1, by omega⟩

theorem Entry.unbind_profile? (x : Entry) (h : x.holdCount - 1 ≠ 0) : x.unbind.profile? = x.profile? := by
  cases x with
  | empty => rfl
  | loading p => rfl
  | ready p n => rfl
  | retiring p n =>
    have h : n - 1 ≠ 0 := h
    simp [Entry.unbind, h, Entry.profile?]

/-- The profile table once a context has been unbound. -/
def unboundProfiles (ps : Vector Entry 8) : Option (Fin 8) → Vector Entry 8
  | some e => ps.set e ps[e].unbind
  | none => ps

theorem unboundProfiles_get (ps : Vector Entry 8) (entry : Option (Fin 8)) (g : Fin 8) :
    (unboundProfiles ps entry)[g] = if entry = some g then ps[g].unbind else ps[g] := by
  unfold unboundProfiles
  split
  · rename_i e
    simp only [Fin.getElem_fin, Option.some.injEq]
    by_cases he : e = g
    · subst he; simp
    · have : e.val ≠ g.val := fun h => he (Fin.ext h)
      rw [Vector.getElem_set_ne _ _ this, if_neg he]
  · simp

/-- A context leaves the queue and is unbound. -/
theorem ProfileLaw.leave {d d' : Device} (h : ProfileLaw d) {c : FrameContext} {rest : List FrameContext}
    (hf : d.frames = c :: rest) (f : d'.frames = rest) (p : d'.profiles = unboundProfiles d.profiles c.entry) :
    ProfileLaw d' where
  holds g := by
    have hg := h.holds g
    rw [f, p, unboundProfiles_get]
    rw [hf] at hg
    unfold boundContexts at hg ⊢
    rw [List.countP_cons] at hg
    split
    · rename_i hs
      rw [Entry.unbind_holdCount, hg]
      simp [hs]
    · rename_i hs
      rw [hg]
      simp [hs]
  oneReady g1 g2 q1 q2 m1 m2 h1 h2 hi := by
    rw [p, unboundProfiles_get] at h1 h2
    have k1 : ∃ k, d.profiles[g1] = .ready q1 k := by
      split at h1
      · exact Entry.unbind_ready h1
      · exact ⟨_, h1⟩
    have k2 : ∃ k, d.profiles[g2] = .ready q2 k := by
      split at h2
      · exact Entry.unbind_ready h2
      · exact ⟨_, h2⟩
    obtain ⟨_, k1⟩ := k1
    obtain ⟨_, k2⟩ := k2
    exact h.oneReady g1 g2 q1 q2 _ _ k1 k2 hi
  entries g := by
    rw [p, unboundProfiles_get]
    split
    · exact (h.entries g).unbind
    · exact h.entries g
  bindings x hx := by
    rw [f] at hx
    obtain ⟨b1, b2, b3⟩ := h.bindings x (by rw [hf]; exact List.mem_cons_of_mem _ hx)
    refine ⟨fun g hg => ?_, b2, b3⟩
    rw [p, unboundProfiles_get]
    obtain ⟨q, hq, hr⟩ := b1 g hg
    refine ⟨q, ?_, hr⟩
    split
    · rename_i hs
      rw [Entry.unbind_profile?, hq]
      have hc := h.holds g
      rw [hf] at hc
      unfold boundContexts at hc
      rw [List.countP_cons] at hc
      have : 0 < rest.countP fun c => c.entry == some g := List.countP_pos_iff.mpr ⟨x, hx, by simp [hg]⟩
      have hs' : (c.entry == some g) = true := by simp [hs]
      rw [if_pos hs'] at hc
      omega
    · exact hq

/-! ## The profile commands -/

theorem halfWords_length (n : Nat) (bytes : List Byte) : (halfWords n bytes).length = n := by
  induction n generalizing bytes with
  | zero => rfl
  | succ n ih => simp [halfWords, ih]

theorem beNat_foldl (bytes : List Byte) (k : Nat) :
    bytes.foldl (fun n b => n * 256 + b.toNat) k < (k + 1) * 256 ^ bytes.length := by
  induction bytes generalizing k with
  | nil => simp
  | cons b rest ih =>
    rw [List.foldl_cons]
    refine Nat.lt_of_lt_of_le (ih _) ?_
    rw [List.length_cons, Nat.pow_succ, Nat.mul_comm (256 ^ rest.length) 256, ← Nat.mul_assoc]
    apply Nat.mul_le_mul_right
    have := b.isLt
    omega

theorem beNat_lt (bytes : List Byte) : beNat bytes < 256 ^ bytes.length := by
  have := beNat_foldl bytes 0
  simpa [beNat] using this

theorem beNat_two (bytes : List Byte) : beNat (bytes.take 2) ≤ 65535 := by
  have h := beNat_lt (bytes.take 2)
  have h2 : (bytes.take 2).length ≤ 2 := List.length_take_le _ _
  have : 256 ^ (bytes.take 2).length ≤ 256 ^ 2 := Nat.pow_le_pow_right (by decide) h2
  omega

theorem halfWords_le (n : Nat) (bytes : List Byte) : ∀ v ∈ halfWords n bytes, v ≤ 65535 := by
  induction n generalizing bytes with
  | zero => intro v hv; cases hv
  | succ n ih =>
    intro v hv
    rcases List.mem_cons.mp hv with rfl | hv
    · exact beNat_two bytes
    · exact ih _ v hv

theorem stationFault_none (pos : Nat) (l : List Nat) (h : stationFault pos l = none) : l.Pairwise (· < ·) := by
  induction l generalizing pos with
  | nil => exact List.Pairwise.nil
  | cons a l ih =>
    cases l with
    | nil => simp
    | cons b rest =>
      unfold stationFault at h
      split at h
      · cases h
      · rename_i lt
        have hp := ih _ h
        refine List.pairwise_cons.mpr ⟨fun x hx => ?_, hp⟩
        rcases List.mem_cons.mp hx with rfl | hx
        · omega
        · have := (List.pairwise_cons.mp hp).1 x hx
          omega

theorem openProfile_ok (args : List Byte) (e : Entry) (h : (OpenFields.ofBytes args).refusal e = none) :
    e = .empty ∧ (OpenFields.ofBytes args).profile.Ok := by
  have hfl : (OpenFields.ofBytes args).focal.length = (OpenFields.ofBytes args).focalCount := halfWords_length _ _
  have hdl : (OpenFields.ofBytes args).focus.length = (OpenFields.ofBytes args).focusCount := halfWords_length _ _
  have hf := halfWords_le (OpenFields.ofBytes args).focalCount (args.drop 8)
  have hd := halfWords_le (OpenFields.ofBytes args).focusCount (args.drop (8 + 2 * (OpenFields.ofBytes args).focalCount))
  have ef : (OpenFields.ofBytes args).focal = halfWords (OpenFields.ofBytes args).focalCount (args.drop 8) := rfl
  have ed : (OpenFields.ofBytes args).focus =
    halfWords (OpenFields.ofBytes args).focusCount (args.drop (8 + 2 * (OpenFields.ofBytes args).focalCount)) := rfl
  rw [← ef] at hf
  rw [← ed] at hd
  generalize OpenFields.ofBytes args = f at *
  unfold OpenFields.refusal at h
  split at h
  · cases h
  rename_i h1
  split at h
  · cases h
  split at h
  · cases h
  rename_i h3
  split at h
  · cases h
  rename_i h4
  split at h
  · cases h
  rename_i h5
  split at h
  · cases h
  split at h
  · cases h
  rename_i h6 _ h7
  simp only [Bool.or_eq_true, decide_eq_true_eq, not_or, bne_iff_ne, ne_eq, Decidable.not_not, List.any_eq_true, beq_iff_eq,
    not_exists, not_and] at *
  refine ⟨h1, ?_⟩
  have e3 : ¬ 12 < f.focalCount := h3.2
  have e4 : ¬ 6 < f.focusCount := h4.2
  constructor
  · simp only [OpenFields.profile, hfl]; omega
  · simp only [OpenFields.profile, hdl]; omega
  · exact stationFault_none _ _ h6
  · exact stationFault_none _ _ h7
  · intro v hv
    have := hf v hv
    have := h5 v hv
    omega
  · exact hd
  · simp only [OpenFields.profile, List.length_replicate, hfl, hdl]
  · intro i w hw
    have : w = ⟨0, false⟩ := by
      have hm := List.mem_of_getElem? hw
      exact (List.mem_replicate.mp hm).2
    rw [this]
    exact ⟨fun _ => by decide, fun _ => by decide⟩
  · exact ⟨Nat.min_le_right _ _, Nat.min_le_right _ _⟩

/-- Every index an accepted write covers takes a value in the range of its place. -/
theorem valueFault_none (items : List WriteItem) (number index : Nat) (h : valueFault number index items = none) (i : Nat)
    (v : Int) (hv : (expand items)[i]? = some v) : outOfRange (index + i) v = false := by
  induction items generalizing number index i with
  | nil => simp [expand] at hv
  | cons item rest ih =>
    unfold valueFault at h
    split at h
    · cases h
    · rename_i hn
      have he : expand (item :: rest) = List.replicate item.count item.value ++ expand rest := by
        simp [expand]
      rw [he, List.getElem?_append] at hv
      split at hv
      · rename_i hlt
        rw [List.length_replicate] at hlt
        have hx : v = item.value := (List.mem_replicate.mp (List.mem_of_getElem? hv)).2
        have := List.find?_eq_none.mp hn i (List.mem_range.mpr hlt)
        rw [hx]
        simpa using this
      · rename_i hge
        rw [List.length_replicate] at hge hv
        have := ih _ _ h _ hv
        rw [← this]
        congr 1
        omega

theorem outOfRange_false {i : Nat} {v : Int} (h : outOfRange i v = false) :
    (i % 7 < 3 → -131071 ≤ v ∧ v ≤ 131071) ∧ (3 ≤ i % 7 → -32767 ≤ v ∧ v ≤ 32767) := by
  unfold outOfRange at h
  split at h
  · simp only [Bool.or_eq_false_iff, decide_eq_false_iff_not, Int.not_lt] at h
    exact ⟨fun _ => h, fun _ => by omega⟩
  · simp only [Bool.or_eq_false_iff, decide_eq_false_iff_not, Int.not_lt] at h
    exact ⟨fun _ => by omega, fun _ => h⟩

theorem writeRefusal_none {words : List CoefWord} {start : Nat} {items : List WriteItem}
    (h : writeRefusal words start items = none) :
    start + (expand items).length ≤ words.length ∧ valueFault 1 start items = none := by
  unfold writeRefusal at h
  split at h
  · cases h
  · split at h
    · cases h
    · rename_i hr
      exact ⟨Nat.le_of_not_lt hr, Option.map_eq_none_iff.mp h⟩

theorem Profile.Ok.write {p : Profile} (h : p.Ok) {start : Nat} {items : List WriteItem}
    (hw : writeRefusal p.words start items = none) :
    Profile.Ok { p with words := writeWords p.words start (expand items) } := by
  obtain ⟨hl, hv⟩ := writeRefusal_none hw
  refine ⟨h.focalCount, h.focusCount, h.focalOrder, h.focusOrder, h.focalRange, h.focusRange, ?_, ?_, h.reach⟩
  · simp only [writeWords, List.length_append, List.length_take, List.length_map, List.length_drop]
    rw [← h.arrayLength]
    omega
  · intro i w hi
    simp only [writeWords] at hi
    rw [List.append_assoc, List.getElem?_append] at hi
    have hts : (p.words.take start).length = start := by rw [List.length_take]; omega
    split at hi
    · rename_i hlt
      rw [List.getElem?_take] at hi
      split at hi
      · exact h.wordRange i w hi
      · cases hi
    · rename_i hge
      rw [hts] at hi hge
      rw [List.getElem?_append] at hi
      split at hi
      · rw [List.getElem?_map] at hi
        obtain ⟨v, hv', rfl⟩ := Option.map_eq_some_iff.mp hi
        have := outOfRange_false (valueFault_none items 1 start hv _ v hv')
        rwa [show start + (i - start) = i by omega] at this
      · rw [List.length_map, List.getElem?_drop] at hi
        rename_i hge2
        rw [List.length_map] at hge2
        rw [show start + (expand items).length + (i - start - (expand items).length) = i by omega] at hi
        exact h.wordRange i w hi

theorem Entry.retire_notReady (x : Entry) (q : Profile) (n : Nat) : x.retire ≠ .ready q n := by
  cases x <;> simp only [Entry.retire] <;> first | split | skip
  all_goals simp

theorem Entry.retire_holdCount (x : Entry) : x.retire.holdCount = x.holdCount := by
  cases x with
  | ready p n => by_cases h : n = 0 <;> simp [Entry.retire, Entry.holdCount, h]
  | _ => rfl

theorem Entry.Ok.retire {x : Entry} (h : x.Ok) : x.retire.Ok := by
  cases x <;> simp only [Entry.retire]
  · trivial
  · trivial
  · split
    · trivial
    · exact ⟨h.1, h.2, by omega⟩
  · exact h

theorem Entry.retire_profile? (x : Entry) (h : x.holdCount ≠ 0) : x.retire.profile? = x.profile? := by
  cases x with
  | empty => rfl
  | loading p => exact absurd rfl h
  | ready p n =>
    have h : n ≠ 0 := h
    simp [Entry.retire, h, Entry.profile?]
  | retiring p n => rfl

/-- Some entries withdrawn from lookup. -/
theorem ProfileLaw.retireSome {d d' : Device} (h : ProfileLaw d) (f : d'.frames = d.frames)
    (p : ∀ g : Fin 8, d'.profiles[g] = d.profiles[g].retire ∨ d'.profiles[g] = d.profiles[g]) : ProfileLaw d' where
  holds g := by
    rw [f, ← h.holds g]
    rcases p g with e | e <;> rw [e]
    exact Entry.retire_holdCount _
  oneReady g1 g2 q1 q2 m1 m2 h1 h2 hi := by
    rcases p g1 with e | e
    · rw [e] at h1; exact absurd h1 (Entry.retire_notReady _ _ _)
    · rcases p g2 with e2 | e2
      · rw [e2] at h2; exact absurd h2 (Entry.retire_notReady _ _ _)
      · rw [e] at h1
        rw [e2] at h2
        exact h.oneReady g1 g2 q1 q2 m1 m2 h1 h2 hi
  entries g := by
    rcases p g with e | e <;> rw [e]
    · exact (h.entries g).retire
    · exact h.entries g
  bindings c hc := by
    rw [f] at hc
    obtain ⟨b1, b2, b3⟩ := h.bindings c hc
    refine ⟨fun g hg => ?_, b2, b3⟩
    have hz : d.profiles[g].holdCount ≠ 0 := fun hz => h.unbound hz c hc hg
    rcases p g with e | e <;> rw [e]
    · rw [Entry.retire_profile? _ hz]; exact b1 g hg
    · exact b1 g hg

theorem findIdx?_unwritten {p : Profile} (h : p.words.findIdx? (fun w => !w.written) = none) : p.Complete := by
  intro w hw
  have := List.findIdx?_eq_none_iff.mp h w hw
  simpa using this

/-! ## Kept -/

theorem ended_binding (c : FrameContext) (always : Bool) :
    (c.ended always).entry = c.entry ∧ (c.ended always).reachUp = c.reachUp ∧ (c.ended always).reachDown = c.reachDown ∧
      (c.ended always).mode = c.mode := by
  unfold FrameContext.ended; split <;> exact ⟨rfl, rfl, rfl, rfl⟩

theorem ProfileLaw.endInput {d : Device} (h : ProfileLaw d) (always : Bool) : ProfileLaw (d.endInput always) := by
  obtain ⟨fs, r, cs, e⟩ := endInput_footprint d always
  refine h.map (fun c => if c.isFilling then c.ended always else c) (by rw [e]) (endInput_frames d always) ?_
  intro c
  split
  · exact ended_binding c always
  · exact ⟨rfl, rfl, rfl, rfl⟩

theorem ProfileLaw.onFilling {d : Device} (h : ProfileLaw d) (f : FrameContext → FrameContext)
    (hf : ∀ c, (f c).entry = c.entry ∧ (f c).reachUp = c.reachUp ∧ (f c).reachDown = c.reachDown ∧ (f c).mode = c.mode) :
    ProfileLaw (d.onFilling f) := by
  refine h.map (fun c => if c.isFilling then f c else c) rfl rfl ?_
  intro c
  split
  · exact hf c
  · exact ⟨rfl, rfl, rfl, rfl⟩

theorem ProfileLaw.onFrame {d : Device} (h : ProfileLaw d) (i : Nat) (f : FrameContext → FrameContext)
    (hf : ∀ c, (f c).entry = c.entry ∧ (f c).reachUp = c.reachUp ∧ (f c).reachDown = c.reachDown ∧ (f c).mode = c.mode) :
    ProfileLaw (d.onFrame i f) := by
  refine h.map (fun c => if c.id == i then f c else c) rfl rfl ?_
  intro c
  split
  · exact hf c
  · exact ⟨rfl, rfl, rfl, rfl⟩

theorem unbindContext_eq (d : Device) (c : FrameContext) :
    d.unbindContext c = { d with profiles := unboundProfiles d.profiles c.entry } := by
  unfold Device.unbindContext
  cases c.entry <;> rfl

theorem foldl_unbind_law (cs : List FrameContext) (d : Device) (h : ProfileLaw d) (hf : d.frames = cs) :
    ProfileLaw { cs.foldl Device.unbindContext d with frames := [] } := by
  induction cs generalizing d with
  | nil => exact h.of rfl hf.symm
  | cons c cs ih =>
    have hu := unbindContext_eq d c
    have h1 : ProfileLaw { d with profiles := unboundProfiles d.profiles c.entry, frames := cs } :=
      h.leave hf rfl rfl
    have h2 := ih _ h1 rfl
    rw [List.foldl_cons, hu]
    obtain ⟨ps, e1⟩ := foldl_unbindContext_footprint cs { d with profiles := unboundProfiles d.profiles c.entry, frames := cs }
    obtain ⟨ps', e2⟩ := foldl_unbindContext_footprint cs { d with profiles := unboundProfiles d.profiles c.entry }
    have same : ∀ (l : List FrameContext) (x y : Device), x.profiles = y.profiles →
        (l.foldl Device.unbindContext x).profiles = (l.foldl Device.unbindContext y).profiles := by
      intro l
      induction l with
      | nil => intro x y hxy; exact hxy
      | cons c l ih =>
        intro x y hxy
        rw [List.foldl_cons, List.foldl_cons]
        apply ih
        unfold Device.unbindContext
        split
        · simp only [Device.onEntry_profiles, hxy]
        · exact hxy
    exact h2.of (same cs _ _ rfl) rfl

theorem ProfileLaw.close {d : Device} (h : ProfileLaw d) : ProfileLaw d.close := by
  have h1 : ProfileLaw d.endBeforeClose := by
    unfold Device.endBeforeClose
    split
    · split
      · exact h.endInput false
      · exact h
    · exact h
  unfold Device.close
  generalize d.endBeforeClose = d at h1
  split
  · rename_i c rest hf
    refine h1.leave hf (by rw [closeEnded_eq]) ?_
    rw [closeEnded_eq]
    unfold unboundProfiles
    rfl
  · exact h1

theorem profileLaw_kept : Kept ProfileLaw where
  bump _ _ _ h := h.of rfl rfl
  raise _ _ h := h.of rfl rfl
  setOpened _ lane _ h _ := by cases lane <;> exact h.of rfl rfl
  takeStoreRequest d h := by
    unfold Device.takeStoreRequest
    split
    · exact h
    · rename_i r _
      have h0 : ProfileLaw { d with storeReq := none } := h.of rfl rfl
      generalize { d with storeReq := none } = d at h0
      unfold Device.storeRow
      split
      · split
        · refine h0.map _ rfl rfl ?_
          intro c
          split <;> exact ⟨rfl, rfl, rfl, rfl⟩
        · exact (h0.onFrame r.frame FrameContext.setOverrun fun _ => ⟨rfl, rfl, rfl, rfl⟩).of rfl rfl
      · exact h0
  takeHead d tag group payload h := by
    have h1 : ProfileLaw d.endBySync := by
      unfold Device.endBySync
      split
      · exact h
      · exact ((h.onFilling FrameContext.setSync fun _ => ⟨rfl, rfl, rfl, rfl⟩).endInput true).of rfl rfl
    unfold Device.takeHead
    dsimp only
    split
    · exact h1.of rfl rfl
    · exact h1.createContext _ _ _
  takeRow d r samples bad h _ := by
    unfold Device.takeRow
    split
    · exact h.of rfl rfl
    · exact h.of rfl rfl
    · split
      · exact h
      · split
        · exact h.of rfl rfl
        · split
          · exact h.of rfl rfl
          · have h1 := h.onFilling (·.afterRow r bad) fun _ => ⟨rfl, rfl, rfl, rfl⟩
            unfold Device.acceptRow
            dsimp only
            split <;> split <;> first
              | exact h1.of rfl rfl
              | (split <;> exact h1.of rfl rfl)
  takeNote d r h := by
    unfold Device.takeNote
    split
    · split
      · exact h
      · split
        · exact (h.onFilling FrameContext.setMismatch fun _ => ⟨rfl, rfl, rfl, rfl⟩).of rfl rfl
        · rename_i c _ _
          unfold Device.acceptNote
          dsimp only
          split
          · have h1 : ProfileLaw { d.onFilling (fun x => { x with
                notes := placeNote ⟨r.clampRow c.geometry.height, false⟩ x.notes }) with
                heldLens := some ⟨r.clampRow c.geometry.height, 0⟩ } :=
              (h.onFilling (fun x => { x with
                notes := placeNote ⟨r.clampRow c.geometry.height, false⟩ x.notes }) fun _ => ⟨rfl, rfl, rfl, rfl⟩).of rfl rfl
            split
            · exact (h1.onFilling FrameContext.setLate fun _ => ⟨rfl, rfl, rfl, rfl⟩).of rfl rfl
            · exact h1
          · exact h.of rfl rfl
    · exact h.of rfl rfl
  takeTail d tag h := by
    unfold Device.takeTail
    split
    · exact h
    · exact h.of rfl rfl
    · split
      · exact h
      · split
        · exact h.endInput false
        · exact (h.onFilling FrameContext.setSync fun _ => ⟨rfl, rfl, rfl, rfl⟩).of rfl rfl
  joinPassThrough d p h := by unfold Device.joinPassThrough; split <;> exact h.of rfl rfl
  joinUpstream d p h := by unfold Device.joinUpstream; split <;> exact h.of rfl rfl
  joinCommands d p h := by unfold Device.joinCommands; split <;> exact h.of rfl rfl
  credit d p h := by unfold Device.flow; split <;> cases p <;> exact h.of rfl rfl
  hold d p h := by unfold Device.flow; split <;> cases p <;> exact h.of rfl rfl
  resume d p h := by unfold Device.flow; split <;> cases p <;> exact h.of rfl rfl
  laneLock d p h := by
    unfold Device.laneLock
    split
    · exact h
    · split
      · cases p <;> exact h.of rfl rfl
      · exact h
  alignmentDone d p h := by
    unfold Device.alignmentDone
    split
    · cases p <;> exact h.of rfl rfl
    · exact h
  laneLoss d p h := by
    by_cases down : d.link p = .down
    · unfold Device.laneLoss
      rw [if_pos down]
      exact h
    · cases p
      · have h0 : ProfileLaw { d with openU := none, laneU := none } := h.of rfl rfl
        unfold Device.laneLoss Device.loseLink
        rw [if_neg down]
        exact (h0.endInput true).of rfl rfl
      · obtain ⟨_, _, e⟩ := laneLossA_footprint d down
        rw [e]
        exact h.map _ rfl rfl fun _ => ⟨rfl, rfl, rfl, rfl⟩
      · obtain ⟨_, _, e⟩ := laneLossB_footprint d down
        rw [e]
        exact h.map _ rfl rfl fun _ => ⟨rfl, rfl, rfl, rfl⟩
  holdReset d h := h.of rfl rfl
  partReset d node fitted _ := by
    refine ⟨fun e => ?_, fun e f p q m n he => ?_, fun e => ?_, fun c hc => ?_⟩
    · simp [Device.partReset, Device.afterReset, Entry.holdCount, boundContexts]
    · simp [Device.partReset, Device.afterReset] at he
    · simp [Device.partReset, Device.afterReset, Entry.Ok]
    · simp [Device.partReset, Device.afterReset] at hc
  produceLine d h := by
    unfold Device.produceLine
    split
    · split
      · exact h
      · rename_i c rest hf
        obtain ⟨cs, e⟩ := lineOnHead_eq d c rest
        have ha : (c.atLine d.profiles).entry = c.entry ∧ (c.atLine d.profiles).reachUp = c.reachUp ∧
            (c.atLine d.profiles).reachDown = c.reachDown ∧ (c.atLine d.profiles).mode = c.mode := by
          unfold FrameContext.atLine
          split <;> exact ⟨rfl, rfl, rfl, rfl⟩
        have h1 : ProfileLaw (d.lineOnHead c rest) := by
          rw [e]
          refine ⟨fun g => ?_, h.oneReady, h.entries, ?_⟩
          · rw [h.holds g, hf]
            simp only [boundContexts, List.countP_cons, FrameContext.afterLine, ha.1]
          · intro x hx
            rcases List.mem_cons.mp hx with rfl | hx
            · exact (h.bindings c (by rw [hf]; exact List.mem_cons_self)).of ha.1 ha.2.1 ha.2.2.1 ha.2.2.2
            · exact h.bindings x (by rw [hf]; exact List.mem_cons_of_mem _ hx)
        dsimp only
        split
        · exact h1.close
        · exact h1
    · exact h
  arbiterChoice d h := by
    unfold Device.arbiterChoice
    split
    · split <;> exact h.of rfl rfl
    · exact h
  portBSend d h := by
    unfold Device.portBSend
    split
    · split <;> exact h.of rfl rfl
    · exact h
  upstreamSend d h := by
    unfold Device.upstreamSend
    split
    · split <;> exact h.of rfl rfl
    · exact h
  itemSent d p h := by unfold Device.itemSent; split <;> cases p <;> exact h.of rfl rfl
  answerSent d h := by unfold Device.answerSent; split <;> exact h.of rfl rfl
  passThroughSent d h := by unfold Device.passThroughSent; split <;> exact h.of rfl rfl
  upstreamSent d h := by unfold Device.upstreamSent; split <;> exact h.of rfl rfl
  popCommand _ _ _ h _ := h.of rfl rfl
  answer _ _ _ _ h _ := h.of rfl rfl
  zeroCounters _ h := h.of rfl rfl
  alerts _ _ h := h.of rfl rfl
  alertEnable _ _ h := h.of rfl rfl
  setMode d args h := by
    unfold runSetMode
    split
    · exact h
    · split <;> exact h.of rfl rfl
  setGeometry d args h := by
    unfold runSetGeometry
    dsimp only
    split
    · split <;> exact h.of rfl rfl
    · exact h
  setInput _ _ h := h.of rfl rfl
  setRoute _ _ _ h := h.of rfl rfl
  setPort d p _ _ h := by cases p <;> exact h.of rfl rfl
  profileOpen d args h := by
    unfold runProfileOpen
    dsimp only
    split
    · rename_i lt
      split
      · exact h
      · rename_i hr
        obtain ⟨he, ok⟩ := openProfile_ok args _ hr
        refine h.replaceFree ⟨_, lt⟩ _ rfl rfl (by rw [he]; rfl) rfl ok ?_
        intro q n hx
        cases hx
    · exact h
  profileWrite d args h := by
    unfold runProfileWrite
    dsimp only
    split
    · rename_i lt
      split
      · rename_i p hp
        split
        · exact h
        · rename_i hw
          have ok := h.entries ⟨_, lt⟩
          rw [hp] at ok
          refine h.replaceFree ⟨_, lt⟩ _ rfl rfl (by rw [hp]; rfl) rfl (Profile.Ok.write ok hw) ?_
          intro q n hx
          cases hx
      · exact h
    · exact h
  profileClose d args h := by
    unfold runProfileClose
    split
    · rename_i lt
      dsimp only
      split
      · rename_i p hp
        split
        · exact h
        · rename_i hc
          split
          · exact h
          · rename_i hl
            have ok := h.entries ⟨_, lt⟩
            rw [hp] at ok
            refine h.replaceFree ⟨_, lt⟩ _ rfl rfl (by rw [hp]; rfl) rfl ⟨ok, findIdx?_unwritten hc⟩ ?_
            intro q n hx g r m hg hi
            cases hx
            exact absurd hi.symm (lookupEntry_none hl g r m hg)
      · exact h
    · exact h
  profileRetire d e h := by
    refine h.retireSome rfl ?_
    intro g
    simp only [Device.onEntry, Fin.getElem_fin, Vector.getElem_set]
    split
    · rename_i eq
      left
      simp only [eq]
    · right; trivial
  resetPipeline d h := by
    exact (foldl_unbind_law d.frames d h rfl).of rfl rfl
  resetProfiles d h := by
    refine h.retireSome rfl ?_
    intro g
    left
    simp [Device.resetProfiles]
  resetPort d p h := by
    unfold Device.resetPort
    cases p <;> exact h.map _ rfl rfl fun _ => ⟨rfl, rfl, rfl, rfl⟩

end Sys2Proof.Machine
end

