-- ==== Sys2Proof/Laws/Store.lean ====
section
/-! SUPPORT. The law of the line store, StoreLaw, is kept by every shared operation together with the law of the frame
queue. -/

namespace Sys2Proof.Machine

/-- A context as the line store sees it: the same frame, as wide as before, its front no higher up. -/
structure SameFrame (c c' : FrameContext) : Prop where
  id : c'.id = c.id
  width : c'.geometry.width = c.geometry.width
  front : ∀ f, c.front = some f → ∃ f', c'.front = some f' ∧ f ≤ f'

theorem SameFrame.of {c c' : FrameContext} (i : c'.id = c.id) (g : c'.geometry = c.geometry) (f : c'.front = c.front) :
    SameFrame c c' :=
  ⟨i, by rw [g], fun x hx => ⟨x, by rw [f]; exact hx, Nat.le_refl x⟩⟩

theorem SameFrame.refl (c : FrameContext) : SameFrame c c := .of rfl rfl rfl

theorem RowFits.of {frames frames' : List FrameContext} {r : StoredRow} (h : RowFits frames r)
    (ctx : ∀ c' ∈ frames', ∃ c ∈ frames, SameFrame c c') : RowFits frames' r := by
  intro c' hc' hid
  obtain ⟨c, hc, same⟩ := ctx c' hc'
  obtain ⟨hl, f, hf, hr⟩ := h c hc (same.id.symm.trans hid)
  obtain ⟨f', hf', le⟩ := same.front f hf
  exact ⟨hl.trans same.width.symm, f', hf', Nat.le_trans hr le⟩

theorem eq_of_names {frames : List FrameContext} (h : (frames.map FrameContext.id).Nodup) {a b : FrameContext}
    (ha : a ∈ frames) (hb : b ∈ frames) (e : a.id = b.id) : a = b := by
  induction frames with
  | nil => cases ha
  | cons c rest ih =>
    rw [List.map_cons, List.nodup_cons] at h
    rcases List.mem_cons.mp ha with ea | ma <;> rcases List.mem_cons.mp hb with eb | mb
    · exact ea.trans eb.symm
    · exact absurd (by rw [← ea, e]; exact List.mem_map_of_mem mb) h.1
    · exact absurd (by rw [← eb, ← e]; exact List.mem_map_of_mem ma) h.1
    · exact ih h.2 ma mb

/-- The same frames in the queue; slots at most freed; the store request as it was, or gone. -/
theorem StoreLaw.of {d d' : Device} (h : StoreLaw d) (ids : d'.frames.map FrameContext.id = d.frames.map FrameContext.id)
    (ctx : ∀ c' ∈ d'.frames, ∃ c ∈ d.frames, SameFrame c c') (next : d'.nextFrame = d.nextFrame)
    (slots : ∀ (i : Fin 384) r, d'.slots[i] = some r → d.slots[i] = some r)
    (req : d'.storeReq = none ∨ d'.storeReq = d.storeReq) : StoreLaw d' where
  names := by rw [ids]; exact h.names
  oldNames c' hc' := by
    obtain ⟨c, hc, same⟩ := ctx c' hc'
    rw [same.id, next]
    exact h.oldNames c hc
  present i r hr := by
    obtain ⟨c, hc, hid⟩ := h.present i r (slots i r hr)
    have : r.frame ∈ d'.frames.map FrameContext.id := by
      rw [ids, ← hid]
      exact List.mem_map_of_mem hc
    obtain ⟨c', hc', e⟩ := List.mem_map.mp this
    exact ⟨c', hc', e⟩
  fits i r hr := (h.fits i r (slots i r hr)).of ctx
  oneSlot i j r r' hi hj := h.oneSlot i j r r' (slots i r hi) (slots j r' hj)
  request r hr := by
    rcases req with e | e
    · rw [e] at hr; cases hr
    · rw [e] at hr
      obtain ⟨h1, h2, h3⟩ := h.request r hr
      exact ⟨next ▸ h1, h2.of ctx, fun i r' hi hf => h3 i r' (slots i r' hi) hf⟩

/-- Contexts changed one by one. -/
theorem StoreLaw.map {d d' : Device} (h : StoreLaw d) (g : FrameContext → FrameContext) (hg : ∀ c, SameFrame c (g c))
    (f : d'.frames = d.frames.map g) (next : d'.nextFrame = d.nextFrame) (slots : d'.slots = d.slots)
    (req : d'.storeReq = d.storeReq) : StoreLaw d' := by
  refine h.of ?_ ?_ next (fun i r hr => by rw [← slots]; exact hr) (.inr req)
  · rw [f, List.map_map]
    exact List.map_congr_left fun c _ => (hg c).id
  · rw [f]
    intro c' hc'
    obtain ⟨c, hc, rfl⟩ := List.mem_map.mp hc'
    exact ⟨c, hc, hg c⟩

/-- Nothing the line store sees changes. -/
theorem StoreLaw.same {d d' : Device} (h : StoreLaw d) (f : d'.frames = d.frames) (next : d'.nextFrame = d.nextFrame)
    (slots : d'.slots = d.slots) (req : d'.storeReq = d.storeReq) : StoreLaw d' :=
  h.map id (fun c => .refl c) (by rw [f, List.map_id]) next slots req

/-- Deliveries of a port cut. -/
theorem StoreLaw.cut {d d' : Device} (h : StoreLaw d) (p : OutPort)
    (f : d'.frames = d.frames.map fun c => c.setDelivery p (c.delivery p).cutLive) (next : d'.nextFrame = d.nextFrame)
    (slots : d'.slots = d.slots) (req : d'.storeReq = d.storeReq) : StoreLaw d' :=
  h.map (fun c => c.setDelivery p (c.delivery p).cutLive) (fun _ => by cases p <;> exact .of rfl rfl rfl) f next slots req

theorem StoreLaw.onFilling {d : Device} (h : StoreLaw d) (f : FrameContext → FrameContext) (hf : ∀ c, SameFrame c (f c)) :
    StoreLaw (d.onFilling f) := by
  refine h.map (fun c => if c.isFilling then f c else c) ?_ rfl rfl rfl rfl
  intro c
  split
  · exact hf c
  · exact .refl c

theorem ended_sameFrame (c : FrameContext) (always : Bool) : SameFrame c (c.ended always) := by
  unfold FrameContext.ended
  split <;> exact .of rfl rfl rfl

theorem StoreLaw.endInput {d : Device} (h : StoreLaw d) (always : Bool) : StoreLaw (d.endInput always) := by
  obtain ⟨fs, r, cs, e⟩ := endInput_footprint d always
  have hs := endInput_frames d always
  refine h.map (fun c => if c.isFilling then c.ended always else c) ?_ hs (by rw [e]) (by rw [e]) (by rw [e])
  intro c
  split
  · exact ended_sameFrame c always
  · exact .refl c

theorem StoreLaw.endBySync {d : Device} (h : StoreLaw d) : StoreLaw d.endBySync := by
  unfold Device.endBySync
  split
  · exact h
  · exact ((h.onFilling FrameContext.setSync fun _ => .of rfl rfl rfl).endInput true).same rfl rfl rfl rfl

/-- A frame enters the queue under a name no frame has had. -/
theorem StoreLaw.createContext {d : Device} (h : StoreLaw d) (tag : BitVec 16) (group : Fin 8)
    (embedded : Option LensRecord) : StoreLaw (d.createContext tag group embedded) := by
  obtain ⟨m, n, cs, e, _, _⟩ := createContext_footprint d tag group embedded
  rw [e]
  have hid : (d.newContext tag group embedded).id = d.nextFrame := rfl
  generalize d.newContext tag group embedded = c at *
  have fit : ∀ r, r.frame < d.nextFrame → RowFits d.frames r → RowFits (d.frames ++ [c]) r := by
    intro r lt hr x hx hxid
    rcases List.mem_append.mp hx with hx | hx
    · exact hr x hx hxid
    · rw [List.mem_singleton] at hx
      subst hx
      omega
  constructor
  · show ((d.frames ++ [c]).map FrameContext.id).Nodup
    rw [List.map_append, List.nodup_append]
    refine ⟨h.names, by simp, ?_⟩
    intro a ha b hb
    obtain ⟨x, hx, rfl⟩ := List.mem_map.mp ha
    simp only [List.map_cons, List.map_nil, List.mem_singleton] at hb
    have := h.oldNames x hx
    omega
  · intro x hx
    show x.id < d.nextFrame + 1
    rcases List.mem_append.mp hx with hx | hx
    · exact Nat.lt_succ_of_lt (h.oldNames x hx)
    · rw [List.mem_singleton] at hx
      subst hx
      omega
  · intro i r hr
    obtain ⟨x, hx, hxid⟩ := h.present i r hr
    exact ⟨x, List.mem_append_left _ hx, hxid⟩
  · intro i r hr
    obtain ⟨x, hx, hxid⟩ := h.present i r hr
    exact fit r (hxid ▸ h.oldNames x hx) (h.fits i r hr)
  · exact h.oneSlot
  · intro r hr
    obtain ⟨h1, h2, h3⟩ := h.request r hr
    exact ⟨Nat.lt_succ_of_lt h1, fit r h1 h2, h3⟩

/-- The head frame leaves the queue, and its slots are freed. -/
theorem StoreLaw.leave {d d' : Device} (h : StoreLaw d) {c : FrameContext} {rest : List FrameContext}
    (hf : d.frames = c :: rest) (f : d'.frames = rest) (next : d'.nextFrame = d.nextFrame)
    (slots : d'.slots = d.slots.map (freeWhere c.id fun _ => true)) (req : d'.storeReq = d.storeReq) : StoreLaw d' := by
  have hs : ∀ (i : Fin 384) r, d'.slots[i] = some r → d.slots[i] = some r ∧ r.frame ≠ c.id := by
    intro i r hr
    rw [slots] at hr
    simp only [Fin.getElem_fin, Vector.getElem_map] at hr
    unfold freeWhere at hr
    split at hr
    · rename_i x hx
      split at hr
      · cases hr
      · rename_i hn
        cases hr
        simp only [Bool.and_true, beq_iff_eq] at hn
        exact ⟨hx, hn⟩
    · cases hr
  have sub : ∀ x, x ∈ d'.frames → x ∈ d.frames := by
    intro x hx
    rw [f] at hx
    rw [hf]
    exact List.mem_cons_of_mem _ hx
  constructor
  · have := h.names
    rw [hf, List.map_cons, List.nodup_cons] at this
    rw [f]
    exact this.2
  · intro x hx
    rw [next]
    exact h.oldNames x (sub x hx)
  · intro i r hr
    obtain ⟨hr, ne⟩ := hs i r hr
    obtain ⟨x, hx, hxid⟩ := h.present i r hr
    rw [hf] at hx
    rcases List.mem_cons.mp hx with rfl | hx
    · exact absurd hxid.symm ne
    · exact ⟨x, by rw [f]; exact hx, hxid⟩
  · intro i r hr x hx
    exact h.fits i r (hs i r hr).1 x (sub x hx)
  · intro i j r r' hi hj
    exact h.oneSlot i j r r' (hs i r hi).1 (hs j r' hj).1
  · intro r hr
    rw [req] at hr
    obtain ⟨h1, h2, h3⟩ := h.request r hr
    exact ⟨next ▸ h1, fun x hx => h2 x (sub x hx), fun i r' hi he => h3 i r' (hs i r' hi).1 he⟩

/-- No frame held and no slot held. -/
theorem StoreLaw.empty {d d' : Device} (h : StoreLaw d) (f : d'.frames = []) (slots : ∀ i : Fin 384, d'.slots[i] = none)
    (next : d'.nextFrame = d.nextFrame) (req : d'.storeReq = d.storeReq) : StoreLaw d' where
  names := by rw [f]; exact List.nodup_nil
  oldNames c hc := by rw [f] at hc; cases hc
  present i r hr := by rw [slots] at hr; cases hr
  fits i r hr := by rw [slots] at hr; cases hr
  oneSlot i j r r' hr := by rw [slots] at hr; cases hr
  request r hr := by
    rw [req] at hr
    refine ⟨next ▸ (h.request r hr).1, ?_, ?_⟩
    · intro c hc; rw [f] at hc; cases hc
    · intro i r' hi; rw [slots] at hi; cases hi

theorem StoreLaw.close {d : Device} (h : StoreLaw d) : StoreLaw d.close := by
  have h1 : StoreLaw d.endBeforeClose := by
    unfold Device.endBeforeClose
    split
    · split
      · exact h.endInput false
      · exact h
    · exact h
  unfold Device.close
  generalize d.endBeforeClose = d at h1
  split
  · rename_i c rest hf
    exact h1.leave hf (by rw [closeEnded_eq]) (by rw [closeEnded_eq]) (by rw [closeEnded_eq]) (by rw [closeEnded_eq])
  · exact h1

/-! ## The store request -/

theorem lowestFree_none {d : Device} {k : Nat} (h : d.lowestFree = some k) :
    ∃ lt : k < 384, d.slots[k] = none ∧ ∀ (j : Nat) (hj : j < k), d.slots[j]'(Nat.lt_trans hj lt) ≠ none := by
  unfold Device.lowestFree at h
  obtain ⟨lt, hk, hlow⟩ := List.findIdx?_eq_some_iff_getElem.mp h
  have lt' : k < 384 := by simpa using lt
  refine ⟨lt', by simpa using hk, fun j hj hn => hlow j hj ?_⟩
  simp [hn]

/-- A row of a frame in the queue, later than every row the frame holds, takes a slot. -/
theorem StoreLaw.addRow {d1 : Device} (h1 : StoreLaw d1) (k : Nat) (r : StoredRow) (fits1 : RowFits d1.frames r)
    (has1 : ∃ c ∈ d1.frames, c.id = r.frame)
    (later1 : ∀ (i : Fin 384) r', d1.slots[i] = some r' → r'.frame = r.frame → r'.row < r.row) (noReq : d1.storeReq = none) :
    StoreLaw { d1 with slots := d1.slots.setIfInBounds k (some r) } := by
  have hs : ∀ (i : Fin 384) x, (d1.slots.setIfInBounds k (some r))[i] = some x →
      (i.val = k ∧ x = r) ∨ d1.slots[i] = some x := by
    intro i x hx
    simp only [Fin.getElem_fin, Vector.getElem_setIfInBounds] at hx
    split at hx
    · rename_i he
      cases hx
      exact .inl ⟨he.symm, rfl⟩
    · exact .inr hx
  refine ⟨h1.names, h1.oldNames, ?_, ?_, ?_, ?_⟩
  · intro i x hx
    rcases hs i x hx with ⟨_, rfl⟩ | hx
    · exact has1
    · exact h1.present i x hx
  · intro i x hx
    rcases hs i x hx with ⟨_, rfl⟩ | hx
    · exact fits1
    · exact h1.fits i x hx
  · intro i j x x' hi hj hfr hrow
    rcases hs i x hi with ⟨ei, rfl⟩ | hi <;> rcases hs j x' hj with ⟨ej, e'⟩ | hj
    · exact Fin.ext (ei.trans ej.symm)
    · have := later1 j x' hj hfr.symm
      omega
    · subst e'
      have := later1 i x hi hfr
      omega
    · exact h1.oneSlot i j x x' hi hj hfr hrow
  · intro x hx
    rw [show ({ d1 with slots := d1.slots.setIfInBounds k (some r) } : Device).storeReq = none from noReq] at hx
    cases hx

theorem StoreLaw.takeStoreRequest {d : Device} (h : StoreLaw d) : StoreLaw d.takeStoreRequest := by
  unfold Device.takeStoreRequest
  split
  · exact h
  · rename_i r hr
    obtain ⟨_, fits, later⟩ := h.request r hr
    have h0 : StoreLaw { d with storeReq := none } :=
      h.of rfl (fun c hc => ⟨c, hc, .refl c⟩) rfl (fun _ _ hr => hr) (.inl rfl)
    have later : ∀ (i : Fin 384) r', ({ d with storeReq := none } : Device).slots[i] = some r' → r'.frame = r.frame →
      r'.row < r.row := later
    have fits : RowFits ({ d with storeReq := none } : Device).frames r := fits
    have noReq : ({ d with storeReq := none } : Device).storeReq = none := rfl
    generalize { d with storeReq := none } = d at h0 later fits noReq
    have same : ∀ g : FrameContext → FrameContext, (∀ c, SameFrame c (g c)) → ∀ c, SameFrame c (if c.id == r.frame then g c else c) := by
      intro g hg c
      split
      · exact hg c
      · exact .refl c
    unfold Device.storeRow
    split
    · rename_i has
      split
      · rename_i k hk
        obtain ⟨lt, free, _⟩ := lowestFree_none hk
        have h1 : StoreLaw (d.onFrame r.frame fun c => { c with rowsStored := satAdd c.rowsStored 1 }) :=
          h0.map _ (same (fun c => { c with rowsStored := satAdd c.rowsStored 1 }) fun _ => .of rfl rfl rfl) rfl rfl rfl rfl
        have fits1 : RowFits (d.onFrame r.frame fun c => { c with rowsStored := satAdd c.rowsStored 1 }).frames r := by
          refine fits.of ?_
          intro c' hc'
          obtain ⟨c, hc, rfl⟩ := List.mem_map.mp hc'
          exact ⟨c, hc, same (fun c => { c with rowsStored := satAdd c.rowsStored 1 }) (fun _ => .of rfl rfl rfl) c⟩
        have has1 : ∃ c ∈ (d.onFrame r.frame fun c => { c with rowsStored := satAdd c.rowsStored 1 }).frames, c.id = r.frame := by
          unfold Device.hasFrame at has
          obtain ⟨c, hc, hid⟩ := List.any_eq_true.mp has
          refine ⟨_, List.mem_map_of_mem hc, ?_⟩
          rw [if_pos hid]
          simpa using hid
        exact h1.addRow k r fits1 has1 later noReq
      · have h1 : StoreLaw (d.onFrame r.frame FrameContext.setOverrun) :=
          h0.map _ (same FrameContext.setOverrun fun _ => .of rfl rfl rfl) rfl rfl rfl rfl
        exact h1.same rfl rfl rfl rfl
    · exact h0

/-- A row that R51 lets pass: its store request is of the filling frame, as wide as the frame, and above none of its
rows. -/
theorem StoreLaw.acceptRow {d : Device} (hF : FrameLaw d) (h : StoreLaw d) {c : FrameContext} (hc : d.filling? = some c)
    (r : Nat) (samples : List Sample) (bad : Bool) (hr : c.notAbove r = false) :
    StoreLaw (d.acceptRow c r samples bad) := by
  obtain ⟨hm, fc⟩ := FrameLaw.filling_mem hc
  have above : ∀ f, c.front = some f → f < r := by
    intro f hf
    simp only [FrameContext.notAbove, hf, Option.any_some, decide_eq_false_iff_not] at hr
    omega
  have rows : ∀ (i : Fin 384) x, d.slots[i] = some x → x.frame = c.id → x.row < r := by
    intro i x hx hid
    obtain ⟨_, f, hf, le⟩ := h.fits i x hx c hm hid.symm
    have := above f hf
    omega
  have same : ∀ x ∈ d.frames, SameFrame x (if x.isFilling then x.afterRow r bad else x) := by
    intro x hx
    split
    · rename_i fx
      have := hF.filling_unique hc hx fx
      subst this
      exact ⟨rfl, rfl, fun f hf => ⟨r, rfl, Nat.le_of_lt (above f hf)⟩⟩
    · exact .refl x
  have h1 : StoreLaw (d.onFilling (·.afterRow r bad)) := by
    refine h.of ?_ ?_ rfl (fun _ _ hr => hr) (.inr rfl)
    · show (d.frames.map _).map FrameContext.id = _
      rw [List.map_map]
      exact List.map_congr_left fun x hx => (same x hx).id
    · intro x' hx'
      obtain ⟨x, hx, rfl⟩ := List.mem_map.mp hx'
      exact ⟨x, hx, same x hx⟩
  unfold Device.acceptRow
  extract_lets d1 d2 d3 d4
  have h3 : StoreLaw d3 ∧ d3.slots = d.slots ∧ d3.frames = d1.frames ∧ d3.nextFrame = d.nextFrame := by
    simp only [d3]
    split <;> exact ⟨h1.same rfl rfl rfl rfl, rfl, rfl, rfl⟩
  split
  · exact h3.1
  · have h4 : StoreLaw d4 ∧ d4.slots = d.slots ∧ d4.frames = d1.frames ∧ d4.nextFrame = d.nextFrame := by
      simp only [d4]
      split
      · exact h3
      · exact ⟨h3.1.same rfl rfl rfl rfl, h3.2.1, h3.2.2.1, h3.2.2.2⟩
    obtain ⟨h4, s4, f4, n4⟩ := h4
    refine ⟨h4.names, h4.oldNames, h4.present, h4.fits, h4.oneSlot, ?_⟩
    intro q hq
    cases hq
    refine ⟨?_, ?_, ?_⟩
    · show c.id < d4.nextFrame
      rw [n4]
      exact h.oldNames c hm
    · show RowFits d4.frames _
      rw [f4]
      intro x' hx' hid
      obtain ⟨x, hx, rfl⟩ := List.mem_map.mp hx'
      have hxid : x.id = c.id := (same x hx).id.symm.trans hid
      have : x = c := by
        exact eq_of_names h.names hx hm hxid
      subst this
      rw [if_pos fc]
      refine ⟨?_, r, rfl, Nat.le_refl r⟩
      simp only [FrameContext.fitRow, List.length_append, List.length_take, List.length_replicate, FrameContext.afterRow]
      omega
    · intro i x hx hid
      rw [show ({ d4 with storeReq := some ⟨c.id, r, c.fitRow samples, bad⟩ } : Device).slots = d.slots from s4] at hx
      exact rows i x hx hid

/-! ## Kept -/

theorem storeLaw_kept : Kept fun d => FrameLaw d ∧ StoreLaw d where
  bump d c n h := ⟨frameLaw_kept.bump d c n h.1, h.2.same rfl rfl rfl rfl⟩
  raise d a h := ⟨frameLaw_kept.raise d a h.1, h.2.same rfl rfl rfl rfl⟩
  setOpened d lane sym h up := ⟨frameLaw_kept.setOpened d lane sym h.1 up, by cases lane <;> exact h.2.same rfl rfl rfl rfl⟩
  takeStoreRequest d h := ⟨frameLaw_kept.takeStoreRequest d h.1, h.2.takeStoreRequest⟩
  takeHead d tag group payload h := by
    refine ⟨frameLaw_kept.takeHead d tag group payload h.1, ?_⟩
    unfold Device.takeHead
    dsimp only
    split
    · exact h.2.endBySync.same rfl rfl rfl rfl
    · exact h.2.endBySync.createContext _ _ _
  takeRow d r samples bad h noReq := by
    refine ⟨frameLaw_kept.takeRow d r samples bad h.1 noReq, ?_⟩
    unfold Device.takeRow
    split
    · exact h.2.same rfl rfl rfl rfl
    · exact h.2.same rfl rfl rfl rfl
    · split
      · exact h.2
      · rename_i c hc
        split
        · exact h.2.same rfl rfl rfl rfl
        · split
          · exact h.2.same rfl rfl rfl rfl
          · rename_i hn
            exact h.2.acceptRow h.1 hc r samples bad (by simpa using hn)
  takeNote d r h := by
    refine ⟨frameLaw_kept.takeNote d r h.1, ?_⟩
    unfold Device.takeNote
    split
    · split
      · exact h.2
      · split
        · exact (h.2.onFilling FrameContext.setMismatch fun _ => .of rfl rfl rfl).same rfl rfl rfl rfl
        · rename_i c _ _
          unfold Device.acceptNote
          dsimp only
          split
          · have h1 : StoreLaw { d.onFilling (fun x => { x with
                notes := placeNote ⟨r.clampRow c.geometry.height, false⟩ x.notes }) with
                heldLens := some ⟨r.clampRow c.geometry.height, 0⟩ } :=
              (h.2.onFilling (fun x => { x with
                notes := placeNote ⟨r.clampRow c.geometry.height, false⟩ x.notes }) fun _ => .of rfl rfl rfl).same
                rfl rfl rfl rfl
            split
            · exact (h1.onFilling FrameContext.setLate fun _ => .of rfl rfl rfl).same rfl rfl rfl rfl
            · exact h1
          · exact h.2.same rfl rfl rfl rfl
    · exact h.2.same rfl rfl rfl rfl
  takeTail d tag h := by
    refine ⟨frameLaw_kept.takeTail d tag h.1, ?_⟩
    unfold Device.takeTail
    split
    · exact h.2
    · exact h.2.same rfl rfl rfl rfl
    · split
      · exact h.2
      · split
        · exact h.2.endInput false
        · exact (h.2.onFilling FrameContext.setSync fun _ => .of rfl rfl rfl).same rfl rfl rfl rfl
  joinPassThrough d p h := by
    refine ⟨frameLaw_kept.joinPassThrough d p h.1, ?_⟩
    unfold Device.joinPassThrough; split <;> exact h.2.same rfl rfl rfl rfl
  joinUpstream d p h := by
    refine ⟨frameLaw_kept.joinUpstream d p h.1, ?_⟩
    unfold Device.joinUpstream; split <;> exact h.2.same rfl rfl rfl rfl
  joinCommands d p h := by
    refine ⟨frameLaw_kept.joinCommands d p h.1, ?_⟩
    unfold Device.joinCommands; split <;> exact h.2.same rfl rfl rfl rfl
  credit d p h := by
    refine ⟨frameLaw_kept.credit d p h.1, ?_⟩
    unfold Device.flow; split <;> cases p <;> exact h.2.same rfl rfl rfl rfl
  hold d p h := by
    refine ⟨frameLaw_kept.hold d p h.1, ?_⟩
    unfold Device.flow; split <;> cases p <;> exact h.2.same rfl rfl rfl rfl
  resume d p h := by
    refine ⟨frameLaw_kept.resume d p h.1, ?_⟩
    unfold Device.flow; split <;> cases p <;> exact h.2.same rfl rfl rfl rfl
  laneLock d p h := by
    refine ⟨frameLaw_kept.laneLock d p h.1, ?_⟩
    unfold Device.laneLock
    split
    · exact h.2
    · split
      · cases p <;> exact h.2.same rfl rfl rfl rfl
      · exact h.2
  alignmentDone d p h := by
    refine ⟨frameLaw_kept.alignmentDone d p h.1, ?_⟩
    unfold Device.alignmentDone
    split
    · cases p <;> exact h.2.same rfl rfl rfl rfl
    · exact h.2
  laneLoss d p h := by
    refine ⟨frameLaw_kept.laneLoss d p h.1, ?_⟩
    by_cases down : d.link p = .down
    · unfold Device.laneLoss
      rw [if_pos down]
      exact h.2
    · cases p
      · have h0 : StoreLaw { d with openU := none, laneU := none } := h.2.same rfl rfl rfl rfl
        unfold Device.laneLoss Device.loseLink
        rw [if_neg down]
        exact (h0.endInput true).same rfl rfl rfl rfl
      · obtain ⟨_, _, e⟩ := laneLossA_footprint d down
        rw [e]
        exact h.2.cut _ rfl rfl rfl rfl
      · obtain ⟨_, _, e⟩ := laneLossB_footprint d down
        rw [e]
        exact h.2.cut _ rfl rfl rfl rfl
  holdReset d h := ⟨frameLaw_kept.holdReset d h.1, h.2.same rfl rfl rfl rfl⟩
  partReset d node fitted h :=
    ⟨frameLaw_kept.partReset d node fitted h.1,
      h.2.empty rfl (fun i => by simp [Device.partReset, Device.afterReset]) rfl rfl⟩
  produceLine d h := by
    refine ⟨frameLaw_kept.produceLine d h.1, ?_⟩
    unfold Device.produceLine
    split
    · split
      · exact h.2
      · rename_i c rest hf
        obtain ⟨cs, e⟩ := lineOnHead_eq d c rest
        have ha : SameFrame c ((c.atLine d.profiles).afterLine (d.lineOf (c.atLine d.profiles))
            (d.cutsB (c.atLine d.profiles) (c.atLine d.profiles).nextLine)) := by
          unfold FrameContext.atLine
          split <;> exact .of rfl rfl rfl
        have h1 : StoreLaw (d.lineOnHead c rest) := by
          rw [e]
          refine h.2.of ?_ ?_ rfl ?_ (.inr rfl)
          · rw [hf]
            simp only [List.map_cons, ha.id]
          · intro x hx
            rcases List.mem_cons.mp hx with rfl | hx
            · exact ⟨c, by rw [hf]; exact List.mem_cons_self, ha⟩
            · exact ⟨x, by rw [hf]; exact List.mem_cons_of_mem _ hx, .refl x⟩
          · intro i r hr
            simp only [Fin.getElem_fin, Vector.getElem_map] at hr
            unfold freeWhere at hr
            split at hr
            · rename_i x hx
              split at hr
              · cases hr
              · cases hr
                exact hx
            · cases hr
        dsimp only
        split
        · exact h1.close
        · exact h1
    · exact h.2
  arbiterChoice d h := by
    refine ⟨frameLaw_kept.arbiterChoice d h.1, ?_⟩
    unfold Device.arbiterChoice
    split
    · split <;> exact h.2.same rfl rfl rfl rfl
    · exact h.2
  portBSend d h := by
    refine ⟨frameLaw_kept.portBSend d h.1, ?_⟩
    unfold Device.portBSend
    split
    · split <;> exact h.2.same rfl rfl rfl rfl
    · exact h.2
  upstreamSend d h := by
    refine ⟨frameLaw_kept.upstreamSend d h.1, ?_⟩
    unfold Device.upstreamSend
    split
    · split <;> exact h.2.same rfl rfl rfl rfl
    · exact h.2
  itemSent d p h := by
    refine ⟨frameLaw_kept.itemSent d p h.1, ?_⟩
    unfold Device.itemSent; split <;> cases p <;> exact h.2.same rfl rfl rfl rfl
  answerSent d h := by
    refine ⟨frameLaw_kept.answerSent d h.1, ?_⟩
    unfold Device.answerSent; split <;> exact h.2.same rfl rfl rfl rfl
  passThroughSent d h := by
    refine ⟨frameLaw_kept.passThroughSent d h.1, ?_⟩
    unfold Device.passThroughSent; split <;> exact h.2.same rfl rfl rfl rfl
  upstreamSent d h := by
    refine ⟨frameLaw_kept.upstreamSent d h.1, ?_⟩
    unfold Device.upstreamSent; split <;> exact h.2.same rfl rfl rfl rfl
  popCommand d r rest h hc := ⟨frameLaw_kept.popCommand d r rest h.1 hc, h.2.same rfl rfl rfl rfl⟩
  answer d tag code r h room := ⟨frameLaw_kept.answer d tag code r h.1 room, h.2.same rfl rfl rfl rfl⟩
  zeroCounters d h := ⟨frameLaw_kept.zeroCounters d h.1, h.2.same rfl rfl rfl rfl⟩
  alerts d v h := ⟨frameLaw_kept.alerts d v h.1, h.2.same rfl rfl rfl rfl⟩
  alertEnable d v h := ⟨frameLaw_kept.alertEnable d v h.1, h.2.same rfl rfl rfl rfl⟩
  setMode d args h := by
    refine ⟨frameLaw_kept.setMode d args h.1, ?_⟩
    unfold runSetMode
    split
    · exact h.2
    · split <;> exact h.2.same rfl rfl rfl rfl
  setGeometry d args h := by
    refine ⟨frameLaw_kept.setGeometry d args h.1, ?_⟩
    unfold runSetGeometry
    dsimp only
    split
    · split <;> exact h.2.same rfl rfl rfl rfl
    · exact h.2
  setInput d v h := ⟨frameLaw_kept.setInput d v h.1, h.2.same rfl rfl rfl rfl⟩
  setRoute d g v h := ⟨frameLaw_kept.setRoute d g v h.1, h.2.same rfl rfl rfl rfl⟩
  setPort d p enable crop h :=
    ⟨frameLaw_kept.setPort d p enable crop h.1, by cases p <;> exact h.2.same rfl rfl rfl rfl⟩
  profileOpen d args h := by
    refine ⟨frameLaw_kept.profileOpen d args h.1, ?_⟩
    unfold runProfileOpen
    dsimp only
    split
    · split <;> exact h.2.same rfl rfl rfl rfl
    · exact h.2
  profileWrite d args h := by
    refine ⟨frameLaw_kept.profileWrite d args h.1, ?_⟩
    unfold runProfileWrite
    dsimp only
    split
    · split
      · split <;> exact h.2.same rfl rfl rfl rfl
      · exact h.2
    · exact h.2
  profileClose d args h := by
    refine ⟨frameLaw_kept.profileClose d args h.1, ?_⟩
    unfold runProfileClose
    split
    · dsimp only
      split
      · split
        · exact h.2
        · split <;> exact h.2.same rfl rfl rfl rfl
      · exact h.2
    · exact h.2
  profileRetire d e h := ⟨frameLaw_kept.profileRetire d e h.1, h.2.same rfl rfl rfl rfl⟩
  resetPipeline d h := by
    refine ⟨frameLaw_kept.resetPipeline d h.1, ?_⟩
    obtain ⟨ps, e⟩ := foldl_unbindContext_footprint d.frames d
    unfold Device.resetPipeline
    rw [e]
    exact h.2.empty rfl (fun i => by simp [Device.freeEverySlot]) rfl rfl
  resetProfiles d h := ⟨frameLaw_kept.resetProfiles d h.1, h.2.same rfl rfl rfl rfl⟩
  resetPort d p h := by
    refine ⟨frameLaw_kept.resetPort d p h.1, ?_⟩
    unfold Device.resetPort
    exact h.2.cut p (by cases p <;> rfl) (by cases p <;> rfl) (by cases p <;> rfl) (by cases p <;> rfl)

end Sys2Proof.Machine
end

