-- ==== Sys2Proof/Laws/Receiving.lean ====
section
/-! SUPPORT. What a received packet becomes: the queue with one filling context, packets of each kind on each lane,
heads, notes, rows and tails. -/

namespace Sys2Proof.Machine

/-- Every row of the table that a packet on a lane can come under reads the lane's symbols (log entry 5). -/
theorem exec_arrivals {lane : LinkPort} {syms : List Symbol} {c : Instr} (h : c ∈ arrivals lane syms) (s : State) :
    exec c s = act (·.takeSymbols lane syms) s := by
  cases lane <;> simp [arrivals] at h <;> rcases h with rfl | rfl | rfl | rfl | rfl | rfl | rfl <;> rfl

theorem afterPartReset_partReset (d : Device) (n) (a) : AfterPartReset n a (d.partReset n a) := by
  constructor <;> simp [Device.partReset, Device.afterReset, Port.reset, Geometry.reset, InputPolicy.reset,
      Crop.reset, Device.count, Device.alert]

theorem cutIfLive_eq : cutIfLive = Delivery.cutLive := by funext x; cases x <;> rfl

theorem find?_noneFills {fs : List FrameContext} (h : NoneFills fs) : fs.find? FrameContext.isFilling = none := by
  rw [List.find?_eq_none]; intro x hx; rw [isFilling_iff]; exact h x hx

theorem find?_fillsLast {fs pre : List FrameContext} {c} (h : FillsLast fs pre c) : fs.find? FrameContext.isFilling =
    some c := by
  obtain ⟨rfl, f, o⟩ := h
  rw [List.find?_append, find?_noneFills o]
  simp [FrameContext.isFilling, f]

theorem map_fillsLast {fs pre : List FrameContext} {c} (h : FillsLast fs pre c) (g : FrameContext → FrameContext) :
    (fs.map fun x => if x.isFilling then g x else x) = pre ++ [g c] := by
  obtain ⟨rfl, f, o⟩ := h
  rw [List.map_append]
  congr 1
  · conv => rhs; rw [← List.map_id pre]
    apply List.map_congr_left
    intro x hx
    rw [if_neg]; rfl
    rw [isFilling_iff]; exact o x hx
  · simp [FrameContext.isFilling, f]

theorem ended_short (c : FrameContext) : c.ended true = endedShort c := by
  unfold FrameContext.ended endedShort FrameContext.endsShort FrameContext.rowsNeverTaken rowsAfterFront
  cases c.front <;> simp

theorem rowsNeverTaken_eq (c : FrameContext) : c.rowsNeverTaken = rowsAfterFront c := by
  unfold FrameContext.rowsNeverTaken rowsAfterFront
  cases c.front <;> simp

theorem endInput_short {d : Device} {pre c} (h : FillsLast d.frames pre c) : d.endInput true =
   ({ d with frames := pre ++ [endedShort c], receiver := .idle }).bump .rowsMissing (rowsAfterFront c) := by
  unfold Device.endInput Device.filling?
  simp only [find?_fillsLast h]
  have : c.endsShort true = true := by simp [FrameContext.endsShort]
  rw [if_pos this, rowsNeverTaken_eq]
  unfold Device.onFilling
  rw [map_fillsLast h, ended_short]

theorem takeSymbols_link (d : Device) (lane) (xs) (h : d.link lane = .up) : (d.takeSymbols lane xs).link lane =
    .up := by
  unfold Device.takeSymbols; rw [if_pos h]
  induction xs generalizing d with
  | nil => exact h
  | cons x xs ih => exact ih _ ((takeSymbol_link d lane x lane h).trans h)

theorem takeSymbols_single (lane sym) (d : Device) (up : d.link lane = .up) : d.takeSymbols lane [sym] =
    d.takeSymbol lane sym := by
  unfold Device.takeSymbols; rw [if_pos up]; rfl

theorem takeSymbols_flow (d : Device) (p : OutPort) (s : Symbol) (f) (hr : ∀ o, readSymbol o s = (o, .nothing))
   (he : ∀ (d : Device) lane, d.symbolEffect lane s .nothing = d.flowSymbol lane f) : d.takeSymbols p.link [s] =
       d.flow p f := by
  by_cases up : d.link p.link = .up
  · rw [takeSymbols_single _ _ _ up]
    unfold Device.takeSymbol
    rw [hr]; dsimp only; rw [setOpened_same, he]
    cases p <;> rfl
  · unfold Device.takeSymbols Device.flow; rw [if_neg up, if_neg]
    cases p <;> exact up

/-- A whole packet that fits the payload limit, on a lane that is up with nothing open, is received. -/
theorem exec_arrival {lane bytes} {d : Device} {q : List Instr} (h : d.Receiving lane) (a : 6 ≤ bytes.length)
    (b : bytes.length ≤ 6 + 16384) {c : Instr} (hc : c ∈ arrivals lane (Symbol.packet bytes)) :
   exec c ⟨q, d⟩ = .next ⟨q, d.receivePacket lane bytes⟩ := by
  rw [exec_arrivals hc, act_running _ _ _ h.running, takeSymbols_packet _ _ _ h.up h.closed a b]

theorem breaksKindRule_iff (lane : LinkPort) (k : BitVec 4) (p : List Byte) :
    breaksKindRule lane k.toNat p = true ↔ BreaksKindRule lane k p := by
  unfold breaksKindRule BreaksKindRule
  have hk : ∀ n : BitVec 4, k = n ↔ k.toNat = n.toNat := fun n => ⟨fun h => by rw [h], BitVec.eq_of_toNat_eq⟩
  rw [hk 1, hk 2, hk 3, hk 4]
  simp only [show (1 : BitVec 4).toNat = 1 from rfl, show (2 : BitVec 4).toNat = 2 from rfl,
      show (3 : BitVec 4).toNat = 3 from rfl, show (4 : BitVec 4).toNat = 4 from rfl]
  generalize k.toNat = n
  split
  · cases p with
    | nil => simp
    | cons f r =>
      have hn : ∀ f : Byte, f.getLsbD 7 = notePresent f := fun _ => rfl
      simp only [hn]
      have e1 : (∃ flags rest, f :: r = flags :: rest ∧ notePresent flags = false ∧ rest ≠ []) ↔ (notePresent f =
          false ∧ r ≠ []) := by
        constructor
        · rintro ⟨_, _, h, a, b⟩; cases h; exact ⟨a, b⟩
        · rintro ⟨a, b⟩; exact ⟨f, r, rfl, a, b⟩
      have e2 : (∃ flags rest, f :: r = flags :: rest ∧ notePresent flags = true ∧ (rest.length ≠ 11 ∨
          fieldAt (f :: r) 8 2 = 0)) ↔ (notePresent f = true ∧ (r.length ≠ 11 ∨ fieldAt (f :: r) 8 2 = 0)) := by
        constructor
        · rintro ⟨_, _, h, a, b⟩; cases h; exact ⟨a, b⟩
        · rintro ⟨a, b⟩; exact ⟨f, r, rfl, a, b⟩
      rw [e1, e2]
      by_cases hb : notePresent f = true
      · rw [if_pos hb, hb]; simp
      · rw [if_neg hb, eq_false_of_ne_true hb]; simp
  · simp
  · simp
  · simp
  · simp_all

/-- Only heads, rows, notes and tails have a payload rule (R6). -/
theorem BreaksKindRule.kind_mem {lane : LinkPort} {k : BitVec 4} {p : List Byte} (h : BreaksKindRule lane k p) :
    k ∈ [(1 : BitVec 4), 2, 3, 4] := by
  rcases h with ⟨rfl, _⟩ | ⟨rfl, _⟩ | ⟨rfl, _⟩ | ⟨_, rfl, _⟩ | ⟨rfl, _⟩ | ⟨rfl, _⟩ <;> decide

/-- A packet on a receiving lane that keeps the rule of its kind is sorted (R6, R15, R17). -/
theorem exec_packet {lane} {p : Packet} {q : List Instr} {d : Device} (h : d.Receiving lane)
    (l : p.payload.length ≤ 16384) (w : ¬ BreaksKindRule lane p.kind p.payload) {c : Instr}
    (hc : c ∈ arrivals lane p.symbols) : exec c ⟨q, d⟩ = .next ⟨q, d.sortPacket lane p⟩ := by
  rw [exec_arrivals hc, act_running _ _ _ h.running]
  unfold Packet.symbols
  rw [takeSymbols_checked d lane p h.up h.closed l, Device.checkedPacket, malformed_eq lane l,
    eq_false_of_ne_true fun e => w ((breaksKindRule_iff _ _ _).mp e)]
  rfl

/-- A packet on a receiving lane that breaks the rule of its kind is malformed (R6). -/
theorem exec_malformedPacket {lane} {p : Packet} {q : List Instr} {d : Device} (h : d.Receiving lane)
    (l : p.payload.length ≤ 16384) (w : BreaksKindRule lane p.kind p.payload) {c : Instr}
    (hc : c ∈ arrivals lane p.symbols) : exec c ⟨q, d⟩ = .next ⟨q, (d.bump .headerBad).raise .header⟩ := by
  rw [exec_arrivals hc, act_running _ _ _ h.running]
  unfold Packet.symbols
  rw [takeSymbols_checked d lane p h.up h.closed l, Device.checkedPacket, malformed_eq lane l,
    (breaksKindRule_iff _ _ _).mpr w]
  rfl

/-- A packet from port U that passes the header and length checks is sorted (R5). -/
theorem exec_packetU {p : Packet} {q : List Instr} {d : Device} (h : d.Receiving .u) (l : p.payload.length ≤ 16384)
   (w : ¬ BreaksKindRule .u p.kind p.payload) {c : Instr} (hc : c ∈ arrivals .u p.symbols) : exec c ⟨q, d⟩ = .next ⟨q,
       d.sortU p⟩ :=
  exec_packet h l w hc

theorem takeStoreRequest_none {d : Device} (h : d.storeReq = none) : d.takeStoreRequest = d := by
  unfold Device.takeStoreRequest; rw [h]

theorem receiving_takeStoreRequest {d : Device} {lane} (h : d.Receiving lane) : d.takeStoreRequest.Receiving lane :=
    by
  obtain ⟨_, _, _, _, e⟩ := takeStoreRequest_footprint d
  rw [e]
  obtain ⟨a, b, c⟩ := h
  exact ⟨a, by cases lane <;> exact b, by cases lane <;> exact c⟩

theorem headFlags_bits (g : BitVec 3) (i : BitVec 4) (b : Bool) :
   notePresent (BitVec.ofBool b ++ i ++ g : BitVec 8) = b ∧ (BitVec.ofBool b ++ i ++ g : BitVec 8).extractLsb' 0 3 =
       g := by
  revert g i b; decide +kernel

theorem noteBody_length (i high f1 f2) : (noteBody i high f1 f2).length = 9 := by simp [noteBody, beBytes_length]

theorem converter_bits (high : BitVec 6) (c : BitVec 2) : BitVec.ofNat 2 (high ++ c : BitVec 8).toNat = c := by
  revert high c; decide +kernel

theorem beNat_single (b : Byte) : beNat [b] = b.toNat := by simp [beNat]

theorem lensRecord_body (row : BitVec 16) (i high f1 f2) : lensRecord row.toNat (noteBody i high f1 f2) =
    noteRecord row i f1 f2 := by
  unfold lensRecord noteBody noteRecord fieldAt
  have l4 := beBytes_length 4 i.lensId.toNat
  have l2 := beBytes_length 2 f1.toNat
  have l2' := beBytes_length 2 f2.toNat
  simp only [List.drop_append, List.take_append, l4, l2, l2', List.length_append, List.length_singleton,
      List.drop_zero, Nat.reduceAdd, Nat.reduceSub, List.length_drop, List.drop_of_length_le (Nat.le_of_eq l4),
      List.drop_of_length_le (show (beBytes 4 i.lensId.toNat).length ≤ 5 by omega),
      List.drop_of_length_le (show (beBytes 4 i.lensId.toNat).length ≤ 7 by omega),
      List.drop_of_length_le (Nat.le_of_eq l2), List.take_of_length_le (Nat.le_of_eq l4),
      List.take_of_length_le (Nat.le_of_eq l2), List.take_of_length_le (Nat.le_of_eq l2'), List.take_zero,
      List.append_nil, List.nil_append, beNat_beBytes, List.drop_succ_cons, List.take_succ_cons, List.drop_nil,
      List.take_nil, beNat_single, converter_bits, Nat.zero_sub]
  have a := i.lensId.isLt
  have b := f1.isLt
  have c := f2.isLt
  rw [Nat.mod_eq_of_lt (by omega), Nat.mod_eq_of_lt (by omega), Nat.mod_eq_of_lt (by omega)]
  simp

theorem noteBody_focal (i high f1 f2) : fieldAt (noteBody i high f1 f2) 5 2 = f1.toNat := by
  have := congrArg LensRecord.focal (lensRecord_body 0 i high f1 f2)
  exact this

theorem framePayload_facts (group : BitVec 3) (ign : BitVec 4) (note : Option SentNote) (v : SentNote.Valid note) :
  (frontHeadPayload group ign note).length ≤ 16384 ∧ ¬ BreaksKindRule .u 1 (frontHeadPayload group ign note) ∧
  routeGroup (frontHeadPayload group ign note) = group.toFin ∧ embeddedNote (frontHeadPayload group ign note) =
      note.map SentNote.record := by
  have f0 := headFlags_bits group ign false
  have f1 := headFlags_bits group ign true
  cases note with
  | none =>
    refine ⟨by simp [frontHeadPayload], ?_, ?_, ?_⟩
    · rw [← breaksKindRule_iff]
      show ¬ (if notePresent _ then _ else _) = true
      simp only [frontHeadPayload]
      rw [show (0#1 : BitVec 1) = BitVec.ofBool false from rfl, f0.1]; simp
    · unfold routeGroup frontHeadPayload
      rw [List.headD_cons, show (0#1 : BitVec 1) = BitVec.ofBool false from rfl, f0.2]
    · unfold embeddedNote frontHeadPayload
      rw [List.headD_cons, show (0#1 : BitVec 1) = BitVec.ofBool false from rfl, f0.1]; rfl
  | some n =>
    have hn := v n rfl
    have l2 := beBytes_length 2 n.row.toNat
    refine ⟨by simp [frontHeadPayload, beBytes_length, noteBody_length], ?_, ?_, ?_⟩
    · rw [← breaksKindRule_iff]
      show ¬ (if notePresent _ then _ else _) = true
      rw [show (1#1 : BitVec 1) = BitVec.ofBool true from rfl, f1.1]
      have e : fieldAt (frontHeadPayload group ign (some n)) 8 2 = n.focal.toNat := by
        rw [← noteBody_focal n.identity n.high n.focal n.focus]
        unfold fieldAt frontHeadPayload
        rw [List.drop_succ_cons, List.drop_append, l2, List.drop_of_length_le (by omega)]
        rfl
      have : n.focal.toNat ≠ 0 := fun h => hn (BitVec.eq_of_toNat_eq h)
      simp [List.length_append, l2, noteBody_length, e, this]
    · unfold routeGroup frontHeadPayload
      rw [List.headD_cons, show (1#1 : BitVec 1) = BitVec.ofBool true from rfl, f1.2]
    · unfold embeddedNote frontHeadPayload
      rw [List.headD_cons, show (1#1 : BitVec 1) = BitVec.ofBool true from rfl, f1.1]
      simp only [if_true, Option.map_some, SentNote.record, Option.some.injEq]
      rw [← lensRecord_body n.row n.identity n.high n.focal n.focus]
      unfold fieldAt
      rw [List.drop_succ_cons, List.drop_succ_cons, List.drop_zero, List.take_append, l2,
          List.take_of_length_le (Nat.le_of_eq l2), List.drop_append, l2, List.drop_of_length_le (Nat.le_of_eq l2)]
      simp only [Nat.sub_self, List.take_zero, List.append_nil, List.drop_zero, List.nil_append, beNat_beBytes]
      rw [Nat.mod_eq_of_lt (show n.row.toNat < 256 ^ 2 from n.row.isLt)]

/-- A frame head is taken with the group and the note its payload carries (R10). -/
theorem exec_frameHead {node spare tag group ign note} {q : List Instr} {d : Device} (v : SentNote.Valid note)
    (h : d.Receiving .u) (s : d.storeReq = none) :
    exec (.frameHeadTaken (Packet.symbols ⟨1, node, spare, tag, frontHeadPayload group ign note⟩)) ⟨q, d⟩ =
    .next ⟨q, d.takeHead tag group.toFin (note.map SentNote.record)⟩ := by
  obtain ⟨a, b, c, e⟩ := framePayload_facts group ign note v
  rw [exec_packetU h (p := ⟨1, node, spare, tag, frontHeadPayload group ign note⟩) a b (by simp [arrivals])]
  unfold Device.sortU
  rw [takeStoreRequest_none s]
  simp only [show (1 : BitVec 4).toNat = 1 from rfl, c, e]

theorem endedShort_notFilling (c : FrameContext) : (endedShort c).input ≠ .filling := by simp [endedShort]

/-- A frame head taken while no frame fills and a context is free creates a context (R45 to R49). -/
theorem exec_frameHead_create {node spare tag group ign note} {q : List Instr} {d : Device} (v : SentNote.Valid note)
    (h : d.Receiving .u) (s : d.storeReq = none) (n : NoneFills d.frames) (l : d.frames.length < 2) :
    exec (.frameHeadTaken (Packet.symbols ⟨1, node, spare, tag, frontHeadPayload group ign note⟩)) ⟨q, d⟩ =
    .next ⟨q, d.createContext tag group.toFin (note.map SentNote.record)⟩ := by
  rw [exec_frameHead v h s]
  unfold Device.takeHead
  have e2 : d.endBySync = d := by unfold Device.endBySync Device.filling?; rw [find?_noneFills n]
  rw [e2]
  simp only [show ¬ Config.maxFrames ≤ d.frames.length by show ¬ 2 ≤ _; omega, if_false]

theorem count_bump (d : Device) (c k : Counter) (n) : (d.bump c n).count k = if k =
    c then satAdd (d.count c) n else d.count k := by
  split
  · rename_i h; subst h; simp [Device.bump, Device.count]
  · rename_i h; have : c.place.val ≠ k.place.val := by
      cases c <;> cases k <;> first | exact absurd rfl h | decide
    simp only [Device.bump, Device.count, Fin.getElem_fin, Vector.getElem_set_ne _ _ this]

theorem satAdd_zero (c : BitVec 16) : satAdd c 0 = c := by
  apply BitVec.eq_of_toNat_eq; simp [satAdd]; have := c.isLt; omega

theorem bump_zero (d : Device) (c : Counter) : d.bump c 0 = d := by
  unfold Device.bump Device.count; rw [satAdd_zero]; simp

theorem afterCredit_parts (d : Device) (p : OutPort) (a : Delivery) :
   d.afterCredit p a = { (d.setPort p ((d.port p).afterAnswer a)) with counters := (d.bump (skipCounter p) (if a = .skipped then 1 else 0)).counters } := by
  unfold Device.afterCredit
  cases a <;> cases p <;> simp [bump_zero, Device.setPort, Device.bump, Device.count, skipCounter, satAdd_zero]

/-- What creating a context writes, piece by piece (R45 to R49). -/
theorem createContext_parts (d : Device) (tag group emb) :
   let c := d.newContext tag group emb
   (d.createContext tag group emb) =
      { d with
        mode := d.pendingMode.getD d.mode
        pendingMode := none
        heldLens := (firstNote emb (d.heldLens.map HeldLens.aged) d.policy.staleLimit d.geometry.height).held
        receiver := .filling
        frames := d.frames ++ [c]
        nextFrame := d.nextFrame + 1
        profiles := boundProfiles d.profiles c.entry
        portA := d.portA.afterAnswer c.deliveryA
        portB := d.portB.afterAnswer c.deliveryB
        counters := (((d.bump .framesUnprofiled (if c.flags.unprofiled then 1 else 0)).bump .skipA (if c.deliveryA =
            .skipped then 1 else 0)).bump .skipB (if c.deliveryB = .skipped then 1 else 0)).counters } := by
  intro c
  unfold Device.createContext
  extract_lets mode first entry reach unprofiled members answerA answerB noFlags context d1 d2 d3
  have h2 : d2 = { d1 with profiles := boundProfiles d.profiles entry } := by
    simp only [d2]
    cases entry <;> rfl
  have h3 : d3 = { d2 with counters := (d.bump .framesUnprofiled (if unprofiled then 1 else 0)).counters } := by
    simp only [d3, h2]
    split
    · rfl
    · simp only [bump_zero]; rfl
  rw [afterCredit_parts, afterCredit_parts, h3, h2]
  rfl

theorem lookupEntry_unique {ps : Vector Entry 8} {i e p n} (h : ps[e] = Entry.ready p n) (hi : p.identity = i)
   (hu : ∀ (f : Fin 8) p' n', ps[f] = .ready p' n' → p'.identity = i → f = e) : lookupEntry ps i = some e := by
  cases hl : lookupEntry ps i with
  | none => exact absurd hi (lookupEntry_none hl e p n h)
  | some f =>
    obtain ⟨p', n', h', hi'⟩ := lookupEntry_some hl
    rw [hu f p' n' h' hi']

theorem answerCredit_given (m : Bool) (g : Geometry) (p : Port) (x y : BitVec 16) (a : Delivery) (ha : a =
    if m then p.answerCredit g else .excluded)
   (hy : y = if a = .skipped then satAdd x 1 else x) : CreditGiven m g p (p.afterAnswer a) a x y := by
  subst ha
  constructor
  · intro h
    have : (if m then p.answerCredit g else .excluded) = .excluded := by
      rcases h with h|h|h|h|h
      · simp [h]
      · simp [Port.answerCredit, h]
      · simp [Port.answerCredit, h]
      · simp [Port.answerCredit, clipCrop, h]
      · simp [Port.answerCredit, clipCrop, h]
    rw [this] at hy ⊢
    exact ⟨rfl, rfl, hy⟩
  · intro a b c e f z
    have : (if m then p.answerCredit g else .excluded) = .live ⟨p.crop.colBase, min p.crop.colLimit (g.width - 1),
        p.crop.rowBase, min p.crop.rowLimit (g.height - 1)⟩ := by
      simp [a, Port.answerCredit, b, c, clipCrop, Nat.not_le.mpr e, Nat.not_le.mpr f, z]
    rw [this] at hy ⊢
    exact ⟨rfl, rfl, hy⟩
  · intro a b c e f z
    have : (if m then p.answerCredit g else .excluded) = .skipped := by
      simp [a, Port.answerCredit, b, c, clipCrop, Nat.not_le.mpr e, Nat.not_le.mpr f, z]
    rw [this] at hy ⊢
    exact ⟨rfl, rfl, hy⟩

theorem noteBody_valid (i high) (f1 f2 : BitVec 16) (hf : f1 ≠ 0) : (noteBody i high f1 f2).length ≤ 16384 ∧
    ¬ BreaksKindRule .u 3 (noteBody i high f1 f2) := by
  refine ⟨by rw [noteBody_length]; decide, ?_⟩
  rw [← breaksKindRule_iff]
  show ¬ ((noteBody i high f1 f2).length != 9 || fieldAt (noteBody i high f1 f2) 5 2 == 0) = true
  rw [noteBody_length, noteBody_focal]
  have : f1.toNat ≠ 0 := fun h => hf (BitVec.eq_of_toNat_eq h)
  simp [this]

/-- A lens note is taken with the record its body carries (R9). -/
theorem exec_lensNote {node spare row i high} {f1 f2 : BitVec 16} {q : List Instr} {d : Device} (hf : f1 ≠ 0)
    (h : d.Receiving .u) (s : d.storeReq = none) :
  exec (.lensNoteTaken (Packet.symbols ⟨3, node, spare, row, noteBody i high f1 f2⟩)) ⟨q, d⟩ = .next ⟨q,
      d.takeNote (noteRecord row i f1 f2)⟩ := by
  obtain ⟨a, b⟩ := noteBody_valid i high f1 f2 hf
  rw [exec_packetU h (p := ⟨3, node, spare, row, noteBody i high f1 f2⟩) a b (by simp [arrivals])]
  unfold Device.sortU; rw [takeStoreRequest_none s]
  simp only [show (3 : BitVec 4).toNat = 3 from rfl, lensRecord_body]

theorem placeNote_split (n : Note) (xs zs ys : List Note) (hx : ∀ x ∈ xs, x.record.row < n.record.row)
    (hy : ∀ y ∈ ys, n.record.row < y.record.row)
   (hz : ∀ z ∈ zs, z.record.row = n.record.row) (hl : zs.length ≤ 1) : placeNote n (xs ++ zs ++ ys) = xs ++
       n :: ys := by
  induction xs with
  | nil =>
    match zs, hl with
    | [], _ =>
      cases ys with
      | nil => rfl
      | cons y ys =>
        have := hy y (by simp)
        show placeNote n (y :: ys) = _
        unfold placeNote
        rw [if_neg (by omega), if_pos this]; rfl
    | [z], _ =>
      show placeNote n (z :: ys) = _
      unfold placeNote
      rw [if_pos (hz z (by simp)).symm]; rfl
  | cons x xs ih =>
    show placeNote n (x :: (xs ++ zs ++ ys)) = _
    have := hx x (by simp)
    unfold placeNote
    rw [if_neg (by omega), if_neg (by omega), ih fun x h => hx x (List.mem_cons_of_mem _ h)]; rfl

/-- A tail while a frame fills (R56 to R59). -/
theorem takeTail_filling {d : Device} {pre c tag} (f : FillsLast d.frames pre c) (r : d.receiver = .filling) :
    d.takeTail tag =
   if c.tag = tag then d.endInput false else ((d.onFilling FrameContext.setSync).bump .frameSync).raise .sync := by
  unfold Device.takeTail Device.filling?; rw [r, find?_fillsLast f]

theorem onFrame_split (d : Device) (pre : List FrameContext) (c : FrameContext) (post : List FrameContext)
    (h : d.frames = pre ++ c :: post) (f)
   (hu : ∀ x ∈ pre ++ post, x.id ≠ c.id) : d.onFrame c.id f = { d with frames := pre ++ f c :: post } := by
  unfold Device.onFrame
  rw [h, List.map_append, List.map_cons, if_pos (by simp)]
  congr 2
  · conv => rhs; rw [← List.map_id pre]
    apply List.map_congr_left; intro x hx; rw [if_neg]; rfl
    simpa using hu x (List.mem_append_left _ hx)
  · congr 1
    conv => rhs; rw [← List.map_id post]
    apply List.map_congr_left; intro x hx; rw [if_neg]; rfl
    simpa using hu x (List.mem_append_right _ hx)

theorem hasFrame_split (d : Device) (pre : List FrameContext) (c : FrameContext) (post : List FrameContext)
    (h : d.frames = pre ++ c :: post) : d.hasFrame c.id = true := by
  unfold Device.hasFrame; rw [h]; simp

theorem lowestFree_some {d : Device} (i : Fin 384) (hn : d.slots[i] = none) (hl : ∀ j : Fin 384, j < i →
    d.slots[j] ≠ none) : d.lowestFree = some i.val := by
  unfold Device.lowestFree
  rw [List.findIdx?_eq_some_iff_getElem]
  refine ⟨by simp, by simpa using hn, fun j hj => ?_⟩
  have := hl ⟨j, by omega⟩ hj
  simpa using this

theorem lowestFree_full {d : Device} (hn : ∀ i : Fin 384, d.slots[i] ≠ none) : d.lowestFree = none := by
  unfold Device.lowestFree
  rw [List.findIdx?_eq_none_iff]
  intro x hx
  obtain ⟨k, hk, e⟩ := List.mem_iff_getElem.mp hx
  have := hn ⟨k, by simpa using hk⟩
  rw [← e]; cases h : d.slots[k]'(by simpa using hk) with
  | none => exact absurd h (by simpa using this)
  | some _ => simp [h]

/-- A row stored with a slot free goes into the lowest (R69). -/
theorem storeRow_free (d : Device) (r : StoredRow) (pre c post) (hf : d.frames = pre ++ c :: post) (hi : c.id =
    r.frame) (hu : ∀ x ∈ pre ++ post, x.id ≠ r.frame)
  (i : Fin 384) (hn : d.slots[i] = none) (hl : ∀ j : Fin 384, j < i → d.slots[j] ≠ none) : d.storeRow r = { d with
        slots := d.slots.set i (some r),
        frames := pre ++ { c with rowsStored := satAdd c.rowsStored 1 } :: post } := by
  unfold Device.storeRow
  rw [← hi, if_pos (hasFrame_split _ pre c post hf), lowestFree_some i hn hl]
  simp only
  rw [onFrame_split { d with slots := d.slots.setIfInBounds i.val (some r) } pre c post hf _ (by rw [hi]; exact hu)]
  rw [show d.slots.setIfInBounds i.val (some r) = d.slots.set i.val (some r) from by
    apply Vector.ext; intro j hj; rw [Vector.getElem_setIfInBounds, Vector.getElem_set]]

/-- A row stored with no slot free is dropped and its row discarded (R70). -/
theorem storeRow_full (d : Device) (r : StoredRow) (pre c post) (hf : d.frames = pre ++ c :: post) (hi : c.id =
    r.frame) (hu : ∀ x ∈ pre ++ post, x.id ≠ r.frame)
  (hn : ∀ i : Fin 384, d.slots[i] ≠ none) : d.storeRow r = ({ d with
        frames := pre ++ { c with flags := { c.flags with overrun := true } } :: post }.bump .rowsOverrun).raise .overrun := by
  unfold Device.storeRow
  rw [← hi, if_pos (hasFrame_split _ pre c post hf), lowestFree_full hn]
  simp only
  rw [onFrame_split _ pre c post hf _ (by rw [hi]; exact hu)]
  rfl

end Sys2Proof.Machine
end

