-- ==== Sys2Proof/Laws/Lines.lean ====
section
/-! SUPPORT. Line production: when it acts, and what a line or the last line leaves. -/

namespace Sys2Proof.Machine

theorem exec_lineProduction_running (q : List Instr) (d : Device) (h : d.resetHeld = false) :
    exec .lineProduction ⟨q, d⟩ = .next ⟨q, d.produceLine⟩ := by
  show act _ _ = _; rw [act_running _ _ _ h]

theorem exec_lineProduction_idle (q : List Instr) (d : Device) (h : d.engine ≠ .ready) : exec .lineProduction ⟨q,
    d⟩ = .next ⟨q, d⟩ := by
  show act _ _ = _; rw [act_next]
  have : d.produceLine = d := by unfold Device.produceLine; rw [if_neg h]
  rw [this]; simp

theorem engine_ready {d : Device} {c rest} (h : d.frames = c :: rest) (r : EngineReady d c) : d.engine = .ready := by
  unfold Device.engine; rw [h]
  have a : c.inputTest = true := by
    unfold FrameContext.inputTest FrameContext.isFilling
    by_cases hi : c.input = .filling
    · obtain ⟨f, e, l⟩ := r.input hi
      rw [e, Bool.or_eq_true]
      exact .inr (decide_eq_true l)
    · simp [hi]
  have b : d.portTest c = true := by
    unfold Device.portTest
    cases hd : c.deliveryA with
    | live crop => have := r.port crop hd; simp [Delivery.crop?]; exact this
    | _ => simp [Delivery.crop?]
  simp [a, b]

theorem cutsB_iff (d : Device) (c c' : FrameContext) (h : c'.deliveryB = c.deliveryB) : d.cutsB c' c.nextLine =
    true ↔ CutsOnB d c := by
  unfold Device.cutsB CutsOnB
  rw [h]
  cases c.deliveryB with
  | live crop => simp [Delivery.crop?, Crop.hasRow, and_assoc]
  | _ => simp [Delivery.crop?]

theorem atLine_same (c : FrameContext) (ps) : (c.atLine ps).id = c.id ∧ (c.atLine ps).nextLine = c.nextLine ∧
    (c.atLine ps).reachUp = c.reachUp ∧ (c.atLine ps).deliveryB = c.deliveryB ∧ (c.atLine ps).deliveryA =
    c.deliveryA ∧ (c.atLine ps).tag = c.tag ∧ (c.atLine ps).entry = c.entry ∧ (c.atLine ps).mode = c.mode ∧
    (c.atLine ps).identity = c.identity ∧ (c.atLine ps).geometry = c.geometry ∧ (c.atLine ps).input = c.input ∧
    (c.atLine ps).front = c.front ∧ (c.atLine ps).linesReachClamp = c.linesReachClamp ∧
    (c.atLine ps).linesScaleClamp = c.linesScaleClamp ∧ (c.atLine ps).linesSubstituted = c.linesSubstituted := by
  unfold FrameContext.atLine; split <;> refine ⟨rfl, rfl, rfl, rfl, rfl, rfl, rfl, rfl, rfl, rfl, rfl, rfl, rfl, rfl,
      rfl⟩

theorem itemsA_same (c : FrameContext) (ps y v) : itemsA (c.atLine ps) y v = itemsA c y v := by
  obtain ⟨a, b, cc, d, e, f, g, h, i, _⟩ := atLine_same c ps
  unfold itemsA headItem rowItem; rw [a, e, f, g, h, i]

theorem itemsB_same (c : FrameContext) (ps y v n) : itemsB (c.atLine ps) y v n = itemsB c y v n := by
  obtain ⟨a, b, cc, d, e, f, g, h, i, _⟩ := atLine_same c ps
  unfold itemsB headItem rowItem; rw [a, d, f, g, h, i]

theorem lineOnHead_full (d : Device) (c0 : FrameContext) (rest : List FrameContext) :
    let c := c0.atLine d.profiles
    let line := d.lineOf c
    d.lineOnHead c0 rest =
      { d with
        frames := c.afterLine line (d.cutsB c c.nextLine) :: rest
        portA := { d.portA with queue := d.portA.queue ++ itemsA c c.nextLine line.values }
        portB := { d.portB with queue := d.portB.queue ++ itemsB c c.nextLine line.values (rowsQueued d.portB.queue) }
        slots := d.slots.map (freeWhere c.id fun row => decide ((row : Int) ≤ (c.nextLine : Int) - c.reachUp - 2))
        counters := (((d.bump .cutB (if d.cutsB c c.nextLine then 1 else 0)).bump .linesReachClamp line.reachClamped.toNat).bump .linesScaleClamp line.scaleClamped.toNat).counters } := by
  intro c line
  unfold Device.lineOnHead Device.handOff
  simp only [handA_eq, handB_eq]
  have e : ∀ x : Device, x.counters = d.counters → ∀ b : Bool, (if b =
      true then (x.bump .cutB).counters else x.counters) = (d.bump .cutB (if b = true then 1 else 0)).counters := by
    intro x hx b
    cases b
    · simp [bump_zero, hx]
    · simp [Device.bump, Device.count, hx]
  have cb : Device.cutsB { d with portA := { d.portA with queue := d.portA.queue ++ itemsA (c0.atLine d.profiles) (c0.atLine d.profiles).nextLine (d.lineOf (c0.atLine d.profiles)).values } } (c0.atLine d.profiles) (c0.atLine d.profiles).nextLine = d.cutsB c c.nextLine := rfl
  rw [cb]
  have e2 := e { d with portA := { d.portA with queue := d.portA.queue ++ itemsA (c0.atLine d.profiles) (c0.atLine d.profiles).nextLine (d.lineOf (c0.atLine d.profiles)).values } } rfl (d.cutsB c c.nextLine)
  simp only at e2
  rw [e2]
  rfl

theorem lineDone (d : Device) (c : FrameContext) (rest) :
    LineDone d c rest (d.lineOnHead c rest) ((c.atLine d.profiles).afterLine (d.lineOf (c.atLine d.profiles)) (d.cutsB (c.atLine d.profiles) c.nextLine)) := by
  have S := atLine_same c d.profiles
  obtain ⟨sid, snl, sup, sdb, sda, stag, sent, sm, sident, sg, sin, sfr, src, ssc, ssub⟩ := S
  have HL : d.lineOf (c.atLine d.profiles) = d.headLine c := by
    unfold Device.lineOf Device.headLine; rw [sid, snl]
  have CB := cutsB_iff d c (c.atLine d.profiles) sdb
  have F := lineOnHead_full d c rest
  simp only [snl, sid, sup, HL, itemsA_same, itemsB_same] at F
  rw [HL]
  have cnt : ∀ k, (d.lineOnHead c rest).count k =
      ((((d.bump .cutB (if d.cutsB (c.atLine d.profiles) c.nextLine then 1 else 0)).bump .linesReachClamp (d.headLine c).reachClamped.toNat).bump .linesScaleClamp (d.headLine c).scaleClamped.toNat)).count k := by
    intro k; rw [F]; rfl
  have sl : ∀ i : Fin 384, (d.lineOnHead c rest).slots[i] =
      freeWhere c.id (fun row => decide ((row : Int) ≤ (c.nextLine : Int) - c.reachUp - 2)) d.slots[i] := by
    intro i; rw [F]; simp
  constructor
  · unfold FrameContext.afterLine
    rw [src, ssc, ssub, snl]
  · rw [F]
  · intro hc
    have := CB.mpr hc
    refine ⟨by unfold FrameContext.afterLine; rw [this]; rfl, ?_⟩
    rw [cnt]; simp [count_bump, this]
  · intro hc
    have : d.cutsB (c.atLine d.profiles) c.nextLine = false := eq_false_of_ne_true fun e => hc (CB.mp e)
    refine ⟨by unfold FrameContext.afterLine; rw [this]; exact sdb, ?_⟩
    rw [cnt]; simp [count_bump, this, satAdd_zero]
  · rw [cnt]; simp [count_bump]
  · rw [cnt]; simp [count_bump]
  · intro k h1 h2 h3; rw [cnt]; simp [count_bump, h1, h2, h3]
  · intro i r hr hf hb
    rw [sl, hr]
    have : (r.row : Int) ≤ (c.nextLine : Int) - c.reachUp - 2 := by omega
    simp [freeWhere, hf, this]
  · intro i h
    rw [sl]
    unfold freeWhere
    split
    · rename_i r hr
      rw [if_neg, hr]
      simp only [Bool.and_eq_true, beq_iff_eq, decide_eq_true_eq, not_and]
      intro hf
      have := h r hr hf
      omega
    · rename_i hr; exact hr.symm

theorem endInput_head {d : Device} {c : FrameContext} {rest} (h : d.frames = c :: rest) (n : c.input = .filling →
    NoneFills rest)
   (hf : c.input = .filling → ∃ f, c.front = some f ∧ c.geometry.height ≤ f + 1) : d.endBeforeClose =
   { d with frames := (if c.input = .filling then { c with input := .ended false } else c) :: rest, receiver := if c.input = .filling then .idle else d.receiver } := by
  unfold Device.endBeforeClose
  rw [h]
  by_cases hi : c.input = .filling
  · have h1 : c.isFilling = true := (isFilling_iff c).mpr hi
    simp only [h1, if_true, hi]
    unfold Device.endInput Device.filling?
    have : d.frames.find? FrameContext.isFilling = some c := by rw [h]; simp [h1]
    rw [this]
    obtain ⟨f, e, l⟩ := hf hi
    have es : c.endsShort false = false := by simp [FrameContext.endsShort, e]; omega
    simp only [es, Bool.false_eq_true, if_false]
    unfold Device.onFilling
    rw [h, List.map_cons, if_pos h1]
    have m : rest.map (fun x => if x.isFilling then x.ended false else x) = rest := by
      conv => rhs; rw [← List.map_id rest]
      apply List.map_congr_left
      intro x hx; rw [if_neg]; rfl
      rw [isFilling_iff]; exact n hi x hx
    rw [m]
    have ee : c.ended false = { c with input := .ended false } := by unfold FrameContext.ended; rw [es]; rfl
    simp only [ee]
  · have h1 : ¬ c.isFilling = true := fun e => hi ((isFilling_iff c).mp e)
    simp only [if_neg h1, if_neg hi]
    rw [← h]

theorem freeWhere_get (d : Device) (f) (i : Fin 384) : (d.slots.map (freeWhere f fun _ => true))[i] =
    freeWhere f (fun _ => true) d.slots[i] := by
  simp

end Sys2Proof.Machine
end

