-- ==== Sys2Proof/Laws/Arithmetic.lean ====
section
/-! SUPPORT. Rounding, lens values between notes, substitutes, the identity mapping, stations and interpolation of
coefficients. -/

namespace Sys2Proof.Machine

theorem mul_self_nonneg_int (x : Int) : 0 ≤ x * x := by
  rcases Int.le_total 0 x with h | h
  · exact Int.mul_nonneg h h
  · exact Int.mul_nonneg_of_nonpos_of_nonpos h h

/-- The rounding of halves upward (R108, R114). -/
theorem roundHalfUp_spec (n d : Int) (h : 0 < d) : RoundedUp n d (roundHalfUp n d) := by
  unfold RoundedUp roundHalfUp
  have h1 := Int.mul_ediv_self_le (x := 2 * n + d) (k := 2 * d) (by omega)
  have h2 := Int.lt_mul_ediv_self_add (x := 2 * n + d) (k := 2 * d) (by omega)
  have e : 2 * d * ((2 * n + d) / (2 * d)) = 2 * (d * ((2 * n + d) / (2 * d))) := by rw [Int.mul_assoc]
  rw [e] at h1 h2
  omega

/-- The rounding of halves away from zero (R142). -/
theorem roundHalfAway_spec (n d : Int) (h : 0 < d) : RoundedAway n d (roundHalfAway n d) := by
  unfold RoundedAway roundHalfAway
  refine ⟨fun hn => ?_, fun hn => ?_⟩
  · rw [if_pos hn]; exact roundHalfUp_spec n d h
  · rw [if_neg (by omega)]
    have := roundHalfUp_spec (-n) d h
    unfold RoundedUp roundHalfUp at this
    have e : d * -((2 * -n + d) / (2 * d)) = - (d * ((2 * -n + d) / (2 * d))) := by rw [Int.mul_neg]
    rw [e]; omega

theorem lowerNote_append (xs ys : List Note) (c : Nat) (hx : ∀ x ∈ xs, x.record.row ≤ c) (hy : ∀ y ∈ ys,
    c < y.record.row) : lowerNote (xs ++ ys) c = xs.getLast? := by
  unfold lowerNote
  rw [List.filter_append, List.filter_eq_self.mpr (by simpa using hx),
      List.filter_eq_nil_iff.mpr (by intro y h; have := hy y h; simp <;> omega), List.append_nil]

theorem upperNote_append (xs ys : List Note) (c : Nat) (hx : ∀ x ∈ xs, x.record.row < c) (hy : ∀ y ∈ ys,
    c ≤ y.record.row) : upperNote (xs ++ ys) c = ys.head? := by
  unfold upperNote
  rw [List.find?_append]
  have : xs.find? (fun n => decide (c ≤ n.record.row)) = none := by
    rw [List.find?_eq_none]; intro x h; have := hx x h; simp; omega
  rw [this]
  cases ys with
  | nil => rfl
  | cons y ys => have := hy y (by simp); simp [this]

theorem interpolate_between (lo hi rlo rhi r : Nat) (h1 : rlo < r) (h2 : r < rhi) :
   ((interpolate lo hi rlo rhi r : Nat) : Int) - lo =
       roundHalfUp (((hi : Int) - lo) * ((r : Int) - rlo)) ((rhi : Int) - rlo) := by
  unfold interpolate
  have S := roundHalfUp_spec (((hi : Int) - lo) * ((r : Int) - rlo)) ((rhi : Int) - rlo) (by omega)
  generalize roundHalfUp (((hi : Int) - lo) * ((r : Int) - rlo)) ((rhi : Int) - rlo) = q at S
  obtain ⟨s1, s2⟩ := S
  have hD : (0 : Int) < rhi - rlo := by omega
  -- q ≥ -lo
  have : -(lo : Int) ≤ q := by
    have hk : -(lo : Int) * (rhi - rlo) ≤ ((hi : Int) - lo) * (r - rlo) := by
      have a1 : (0 : Int) ≤ hi * (r - rlo) := Int.mul_nonneg (by omega) (by omega)
      have a2 : (0 : Int) ≤ lo * (rhi - r) := Int.mul_nonneg (by omega) (by omega)
      have : ((hi : Int) - lo) * (r - rlo) = hi * (r - rlo) + lo * (rhi - r) - lo * (rhi - rlo) := by
        rw [Int.sub_mul]; simp only [Int.mul_sub]; omega
      rw [this, Int.neg_mul]; omega
    by_cases hq : -(lo : Int) ≤ q
    · exact hq
    · exfalso
      have hq' : q + 1 ≤ -(lo : Int) := by omega
      have := Int.mul_le_mul_of_nonneg_left hq' (Int.le_of_lt hD)
      rw [Int.mul_add, Int.mul_one, Int.mul_comm _ (-(lo : Int))] at this
      omega
  omega

/-- Row `x` is a worse substitute for row `k` than row `r`. -/
def Worse (k : Nat) (r x : StoredRow) : Prop := ((r.row : Int) - k).natAbs < ((x.row : Int) - k).natAbs ∨
        (((r.row : Int) - k).natAbs = ((x.row : Int) - k).natAbs ∧ r.row < x.row)

theorem betterSubstitute_iff (k : Nat) (r x : StoredRow) : betterSubstitute k r.row x.row = true ↔ Worse k r x := by
  have d : ∀ i : Nat, rowDistance i k = ((i : Int) - k).natAbs := by intro i; unfold rowDistance; omega
  unfold betterSubstitute Worse
  rw [d, d]; simp

theorem Worse.not_reverse {k r x} (h : Worse k r x) : ¬ Worse k x r := by unfold Worse at *; omega

theorem foldl_pickSubstitute_kept (k : Nat) (r : StoredRow) (l : List StoredRow) (h : ∀ x ∈ l, x = r ∨ Worse k r x) :
    l.foldl (pickSubstitute k) (some r) = some r := by
  induction l with
  | nil => rfl
  | cons x l ih =>
    have : pickSubstitute k (some r) x = some r := by
      unfold pickSubstitute
      rcases h x (by simp) with e | w
      · subst e; simp
      · have : ¬ betterSubstitute k x.row r.row = true :=
            fun e => Worse.not_reverse w ((betterSubstitute_iff _ _ _).mp e)
        simp only [if_neg this]
    rw [List.foldl_cons, this]
    exact ih fun x hx => h x (List.mem_cons_of_mem _ hx)

theorem foldl_pickSubstitute (k : Nat) (r : StoredRow) (l : List StoredRow) (acc : Option StoredRow) (h : ∀ x ∈ l,
    x = r ∨ Worse k r x) (hr : r ∈ l)
   (ha : ∀ b, acc = some b → b = r ∨ Worse k r b) : l.foldl (pickSubstitute k) acc = some r := by
  induction l generalizing acc with
  | nil => cases hr
  | cons x l ih =>
    rw [List.foldl_cons]
    have hl : ∀ x ∈ l, x = r ∨ Worse k r x := fun x hx => h x (List.mem_cons_of_mem _ hx)
    by_cases e : x = r
    · have : pickSubstitute k acc x = some r := by
        unfold pickSubstitute
        cases acc with
        | none => rw [e]
        | some b =>
          rcases ha b rfl with eb | w
          · subst eb; subst e; simp
          · have : betterSubstitute k x.row b.row = true := by rw [e]; exact (betterSubstitute_iff _ _ _).mpr w
            simp only [if_pos this]; rw [e]
      rw [this]; exact foldl_pickSubstitute_kept k r l hl
    · have hr' : r ∈ l := by
        rcases List.mem_cons.mp hr with h' | h'
        · exact absurd h'.symm e
        · exact h'
      apply ih _ hl hr'
      intro b hb
      unfold pickSubstitute at hb
      cases acc with
      | none => cases hb; exact h x (by simp)
      | some a =>
        simp only at hb
        split at hb
        · cases hb; exact h x (by simp)
        · exact ha b hb

theorem substituteRange_iff (c : FrameContext) (y k : Nat) (hh : 0 < c.geometry.height) (r : StoredRow) :
    (r.row % 2 == k % 2 && decide (windowLow c y ≤ r.row) && decide (r.row ≤ windowHigh c y)) = true ↔
    Substitutes c y k r := by
  unfold Substitutes windowLow windowHigh
  simp only [Bool.and_eq_true, beq_iff_eq, decide_eq_true_eq]
  omega

theorem roundAway_mul (x d : Int) (h : 0 < d) : roundHalfAway (x * d) d = x := by
  unfold roundHalfAway
  by_cases hx : 0 ≤ x * d
  · rw [if_pos hx]
    have : 2 * (x * d) + d = d + x * (2 * d) := by rw [Int.mul_left_comm 2 x d]; omega
    rw [this, Int.add_mul_ediv_right _ _ (by omega), Int.ediv_eq_zero_of_lt (by omega) (by omega)]; omega
  · rw [if_neg hx]
    have : 2 * -(x * d) + d = d + (-x) * (2 * d) := by rw [Int.mul_left_comm (-x) 2 d]; rw [Int.neg_mul]; omega
    rw [this, Int.add_mul_ediv_right _ _ (by omega), Int.ediv_eq_zero_of_lt (by omega) (by omega)]; omega

theorem sourcePosition_identity (c : FrameContext) (x y : Nat) (u : c.reachUp = 0) (dn : c.reachDown = 0) :
   sourcePosition c ⟨0, 0, 0, 0, 0, 0, 0⟩ x y = ⟨64 * x, 64 * y, false, false⟩ := by
  have t : ∀ col, BandSet.colourTerms ⟨0, 0, 0, 0, 0, 0, 0⟩ col = (0, 0) := by intro col; cases col <;> rfl
  have f : ∀ rho, flooredScale ⟨0, 0, 0, 0, 0, 0, 0⟩ (0, 0) rho = 65536 := by intro rho; simp [flooredScale]
  unfold sourcePosition
  simp only [t, f]
  have l : limit 32768 131071 65536 = 65536 := by decide
  rw [l, roundAway_mul _ _ (by decide), roundAway_mul _ _ (by decide), u, dn]
  have e : (c.geometry.cy64 : Int) + (64 * (y : Int) - c.geometry.cy64) = 64 * y := by omega
  have e' : (c.geometry.cx64 : Int) + (64 * (x : Int) - c.geometry.cx64) = 64 * x := by omega
  rw [e, e']
  have l2 : limit (64 * ((y : Int) - (0 : Nat))) (64 * ((y : Int) + (0 : Nat))) (64 * y) = 64 * y := by
    unfold limit; omega
  rw [l2]
  simp

theorem latticeCell_identity (x : Nat) : latticeCell (64 * (x : Int)) (x % 2) = (((x / 2 : Nat) : Int), 0) := by
  unfold latticeCell
  have : (64 * (x : Int) - 64 * ((x % 2 : Nat) : Int)) = 128 * ((x / 2 : Nat) : Int) := by omega
  simp only [this]
  rw [Int.mul_ediv_cancel_left _ (by decide), Int.mul_emod_right]; rfl

theorem le_iff_countP (l : List Nat) (v : Nat) (h : l.Pairwise (· < ·)) : ∀ k (hk : k < l.length), l[k] ≤ v ↔
    k < l.countP (· ≤ v) := by
  induction l with
  | nil => intro k hk; simp at hk
  | cons a l ih =>
    obtain ⟨ha, hl⟩ := List.pairwise_cons.mp h
    intro k hk
    rw [List.countP_cons]
    cases k with
    | zero =>
      simp only [List.getElem_cons_zero]
      by_cases hav : a ≤ v
      · simp [hav]
      · have : l.countP (· ≤ v) = 0 := by
          rw [List.countP_eq_zero]; intro x hx; have := ha x hx; simp; omega
        simp [hav, this]
    | succ k =>
      simp only [List.getElem_cons_succ]
      have hk' : k < l.length := by simpa using hk
      rw [ih hl k hk']
      by_cases hav : a ≤ v
      · simp [hav]
      · have : l.countP (· ≤ v) = 0 := by
          rw [List.countP_eq_zero]; intro x hx; have := ha x hx; simp; omega
        simp [hav, this]

theorem clampToStations_ne (l : List Nat) (v : Nat) (h : l.Pairwise (· < ·)) : (clampToStations l v != v) = true ↔
    2 ≤ l.length ∧ (v < l.headD 0 ∨ l.getLastD 0 < v) := by
  unfold clampToStations
  by_cases h1 : l.length ≤ 1
  · rw [if_pos h1]; simp; omega
  · rw [if_neg h1]
    have : l.headD 0 ≤ l.getLastD 0 := by
      match l, h1 with
      | [], h1 => simp at h1
      | [_], h1 => simp at h1
      | a :: b :: l, _ =>
        have := (List.pairwise_cons.mp h).1 ((a :: b :: l).getLastD 0) (by
          rw [List.getLastD_eq_getLast?, List.getLast?_cons_cons]
          rw [List.getLast?_eq_some_getLast (List.cons_ne_nil b l)]
          exact List.getLast_mem _)
        exact Nat.le_of_lt this
    simp only [bne_iff_ne, ne_eq]; omega

/-- A value on a station is its own clamp, and its weight is all on that station. -/
theorem clampToStations_station (l : List Nat) (h : l.Pairwise (· < ·)) (i v : Nat) (hi : l[i]? = some v) :
    clampToStations l v = v ∧ stationWeight l v = (i, 0) := by
  obtain ⟨hk, he⟩ := List.getElem?_eq_some_iff.mp hi
  have mono : ∀ a b (ha : a < l.length) (hb : b < l.length), a < b → l[a] < l[b] :=
      fun a b ha hb hab => List.pairwise_iff_getElem.mp h a b ha hb hab
  by_cases h1 : l.length ≤ 1
  · have : i = 0 := by omega
    subst this
    unfold clampToStations stationWeight; rw [if_pos h1, if_pos h1]; exact ⟨rfl, rfl⟩
  · have hh : l.headD 0 = l[0] := by
      rw [List.headD_eq_head?_getD, List.head?_eq_getElem?]; simp [show 0 < l.length by omega]
    have hl : l.getLastD 0 = l[l.length - 1] := by
      rw [List.getLastD_eq_getLast?, List.getLast?_eq_getElem?]; simp [show l.length - 1 < l.length by omega]
    have c : clampToStations l v = v := by
      have := mt (clampToStations_ne l v h).mp (by
        rw [hh, hl, ← he]
        rintro ⟨_, h | h⟩
        · rcases Nat.eq_zero_or_pos i with rfl | hp
          · omega
          · have := mono 0 i (by omega) hk hp; omega
        · rcases Nat.lt_or_ge i (l.length - 1) with hp | hp
          · have := mono i (l.length - 1) hk (by omega) hp; omega
          · have : i = l.length - 1 := by omega
            subst this <;> omega)
      simpa using this
    refine ⟨c, ?_⟩
    unfold stationWeight
    rw [if_neg h1, hh, hl, ← he]
    split
    · rename_i e
      rcases Nat.eq_zero_or_pos i with rfl | hp
      · rfl
      · have := mono 0 i (by omega) hk hp; omega
    · split
      · rename_i e
        rcases Nat.lt_or_ge i (l.length - 1) with hp | hp
        · have := mono i (l.length - 1) hk (by omega) hp; omega
        · rw [show i = l.length - 1 by omega]
      · have C := le_iff_countP l l[i] h
        have h1' : i < l.countP (· ≤ l[i]) := (C i hk).mp (Nat.le_refl _)
        have h2' : ¬ i + 1 < l.countP (· ≤ l[i]) := by
          intro hc
          have hlt : i + 1 < l.length := Nat.lt_of_lt_of_le hc List.countP_le_length
          have := (C (i + 1) hlt).mpr hc
          have := mono i (i + 1) hk hlt (by omega)
          omega
        have e : l.countP (· ≤ l[i]) - 1 = i := by omega
        simp only [e]
        have : l.getD i 0 = l[i] := by rw [List.getD_eq_getElem?_getD]; simp [hk]
        rw [this, Nat.sub_self, Nat.mul_zero, Nat.zero_div]

theorem stationWeight_le (l : List Nat) (h : l.Pairwise (· < ·)) (v : Nat) : (stationWeight l v).2 ≤ 256 := by
  unfold stationWeight
  split
  · simp
  · split
    · simp
    · split
      · simp
      · simp only
        generalize hi : l.countP (· ≤ v) - 1 = i
        by_cases hlt : i + 1 < l.length
        · have hv : v < l[i + 1] := by
            have := mt (le_iff_countP l v h (i + 1) hlt).mp (by omega)
            omega
          have e : l.getD (i + 1) 0 = l[i + 1] := by rw [List.getD_eq_getElem?_getD]; simp [hlt]
          rw [e]
          apply Nat.div_le_of_le_mul
          rw [Nat.mul_comm]
          apply Nat.mul_le_mul_right; omega
        · have e : l.getD (i + 1) 0 = 0 := by
            rw [List.getD_eq_getElem?_getD]; rw [List.getElem?_eq_none (by omega)]; rfl
          rw [e]; simp

theorem roundHalfUp_exact (w : Int) : roundHalfUp (65536 * w) 65536 = w := by
  unfold roundHalfUp; omega

theorem filter_first_of_four (x1 x2 x3 xor_swap : Nat × Nat × Nat) (h1 : x1.2.2 ≠ 0) (h2 : x2.2.2 = 0) (h3 : x3.2.2 =
    0) (h4 : xor_swap.2.2 = 0) :
   [x1, x2, x3, xor_swap].filter (fun c => c.2.2 != 0) = [x1] := by
  simp [List.filter_cons, h1, h2, h3, h4]

theorem corners_exact (i j : Nat) : corners (i, 0) (j, 0) = [(i, j, 65536)] := by
  have e : ∀ w : Nat, w = 256 → corners (i, 0) (j, 0) = [(i, j, 256 * w)] := by
    intro w hw
    unfold corners
    simp only [Nat.sub_zero, Nat.mul_zero, Nat.zero_mul]
    rw [← hw]
    rw [filter_first_of_four]
    · have : w * w ≠ 0 := Nat.mul_ne_zero (by omega) (by omega)
      exact this
    · rfl
    · rfl
    · rfl
  rw [e 256 rfl]

theorem weighted_sum_bounds (cs : List (Nat × Nat × Nat)) (w : Nat × Nat × Nat → Int) (M : Int) (hw : ∀ c, -M ≤ w c ∧
    w c ≤ M) :
   -(M * ((cs.map fun c => c.2.2).sum : Nat)) ≤ (cs.map fun c => (c.2.2 : Int) * w c).sum ∧
       (cs.map fun c => (c.2.2 : Int) * w c).sum ≤ M * ((cs.map fun c => c.2.2).sum : Nat) := by
  induction cs with
  | nil => simp
  | cons c cs ih =>
    simp only [List.map_cons, List.sum_cons]
    have h := hw c
    have h1 := Int.mul_le_mul_of_nonneg_left h.2 (show (0 : Int) ≤ c.2.2 by omega)
    have h2 := Int.mul_le_mul_of_nonneg_left h.1 (show (0 : Int) ≤ c.2.2 by omega)
    rw [Int.natCast_add, Int.mul_add]
    rw [Int.mul_neg, Int.mul_comm _ M] at h2
    rw [Int.mul_comm _ M] at h1
    omega

/-- The weights of the corners add up to 65536. -/
theorem corners_sum (a b : Nat × Nat) (ha : a.2 ≤ 256) (hb : b.2 ≤ 256) : ((corners a b).map fun c => c.2.2).sum =
    65536 := by
  have F : ∀ l : List (Nat × Nat × Nat), ((l.filter fun c => c.2.2 != 0).map fun c => c.2.2).sum =
      (l.map fun c => c.2.2).sum := by
    intro l
    induction l with
    | nil => rfl
    | cons n l ih =>
      rw [List.filter_cons]
      split
      · simp [ih]
      · rename_i h; simp at h; simp [ih, h]
  unfold corners
  rw [F]
  simp only [List.map_cons, List.map_nil, List.sum_cons, List.sum_nil]
  obtain ⟨x, hx⟩ := Nat.exists_eq_add_of_le ha
  obtain ⟨y, hy⟩ := Nat.exists_eq_add_of_le hb
  have e1 : 256 - a.2 = x := by omega
  have e2 : 256 - b.2 = y := by omega
  rw [e1, e2]
  have : (x + a.2) * (y + b.2) = 65536 := by rw [show x + a.2 = 256 by omega, show y + b.2 = 256 by omega]
  rw [Nat.add_mul, Nat.mul_add, Nat.mul_add] at this
  omega

theorem Profile.Ok.word_range (p : Profile) (h : p.Ok) (c r k : Nat) (hk : k < 7) : (k < 3 → -131071 ≤ p.word c r k ∧
    p.word c r k ≤ 131071) ∧ (3 ≤ k → -32767 ≤ p.word c r k ∧ p.word c r k ≤ 32767) := by
  unfold Profile.word
  rw [List.getD_eq_getElem?_getD, List.getElem?_map]
  cases hw : p.words[(c * p.focus.length + r) * 7 + k]? with
  | none => simp
  | some w =>
    have := h.wordRange _ w hw
    rw [show ((c * p.focus.length + r) * 7 + k) % 7 = k by omega] at this
    exact this

/-- An interpolated coefficient lies within the range of its words. -/
theorem coefficient_range (p : Profile) (l : LensState) (h : p.Ok) (k : Nat) (M : Int) (hM : ∀ c r,
    -M ≤ p.word c r k ∧ p.word c r k ≤ M) :
   -M ≤ p.coefficient (corners (stationWeight p.focal (clampToStations p.focal l.focal)) (stationWeight p.focus (clampToStations p.focus l.focus))) k ∧
    p.coefficient (corners (stationWeight p.focal (clampToStations p.focal l.focal)) (stationWeight p.focus (clampToStations p.focus l.focus))) k ≤ M := by
  have S := weighted_sum_bounds (corners (stationWeight p.focal (clampToStations p.focal l.focal)) (stationWeight p.focus (clampToStations p.focus l.focus))) (fun c => p.word c.1 c.2.1 k) M (fun c => hM _ _)
  rw [corners_sum _ _ (stationWeight_le _ h.focalOrder _) (stationWeight_le _ h.focusOrder _)] at S
  unfold Profile.coefficient roundHalfUp
  generalize (List.map (fun c : Nat × Nat × Nat => (c.2.2 : Int) * p.word c.1 c.2.1 k) _).sum = z at S ⊢
  omega

theorem exec_act_running (f : Device → Device) {q : List Instr} {d : Device} {c : Instr} (h : d.resetHeld = false)
    (e : exec c ⟨q, d⟩ = act f ⟨q, d⟩) : exec c ⟨q, d⟩ = .next ⟨q, f d⟩ := by
  rw [e, act_running _ _ _ h]

end Sys2Proof.Machine
end

