-- ==== Sys2Proof/Laws/Bounds.lean ====
section
/-! SUPPORT. The law of limits, BoundsLaw, is kept by every shared operation. -/

namespace Sys2Proof.Machine

theorem List.length_tail_le' {α : Type} (l : List α) : l.tail.length ≤ l.length := by
  cases l <;> simp

/-- A part whose bounded state is that of a part in bounds is in bounds. -/
theorem BoundsLaw.of {d d' : Device} (h : BoundsLaw d)
    (cA : d'.portA.credits ≤ 4) (cB : d'.portB.credits ≤ 4)
    (rA : rowsQueued d'.portA.queue ≤ 4) (rB : rowsQueued d'.portB.queue ≤ 16)
    (pt : d'.passThrough = d.passThrough) (up : d'.upstream = d.upstream) (co : d'.commands = d.commands)
    (an : d'.answers = d.answers) (he : d'.heldLens = d.heldLens) (mo : d'.mode = d.mode)
    (pm : d'.pendingMode = d.pendingMode) : BoundsLaw d' where
  creditsA := cA
  creditsB := cB
  rowsA := rA
  rowsB := rB
  passThrough := pt ▸ h.passThrough
  upstream := up ▸ h.upstream
  commands := co ▸ h.commands
  answers := an ▸ h.answers
  age := he ▸ h.age
  pending := by rw [mo, pm]; exact h.pending

/-- A change of one port within the limits. -/
theorem BoundsLaw.setPort {d : Device} (h : BoundsLaw d) (p : OutPort) (x : Port) (c : x.credits ≤ 4)
    (r : rowsQueued x.queue ≤ rowsQueued (d.port p).queue) : BoundsLaw (d.setPort p x) := by
  cases p
  · exact h.of c h.creditsB (Nat.le_trans r h.rowsA) h.rowsB rfl rfl rfl rfl rfl rfl rfl
  · exact h.of h.creditsA c h.rowsA (Nat.le_trans r h.rowsB) rfl rfl rfl rfl rfl rfl rfl

theorem BoundsLaw.credits {d : Device} (h : BoundsLaw d) (p : OutPort) : (d.port p).credits ≤ 4 := by
  cases p
  · exact h.creditsA
  · exact h.creditsB

theorem BoundsLaw.flow {d : Device} (h : BoundsLaw d) (p : OutPort) (f : Port → Port)
    (c : ∀ x : Port, x.credits ≤ 4 → (f x).credits ≤ 4) (r : ∀ x, (f x).queue = x.queue) : BoundsLaw (d.flow p f) := by
  unfold Device.flow
  split
  · exact h.setPort p _ (c _ (h.credits p)) (Nat.le_of_eq (by rw [r]))
  · exact h

theorem rowsQueued_tail (q : List Item) : rowsQueued q.tail ≤ rowsQueued q := by
  cases q with
  | nil => exact Nat.le_refl _
  | cons i q => unfold rowsQueued; rw [List.tail_cons, List.countP_cons]; exact Nat.le_add_right _ _

theorem rowsQueued_take (q : List Item) (n : Nat) : rowsQueued (q.take n) ≤ rowsQueued q :=
  (List.take_sublist n q).countP_le

theorem rowsQueued_itemsA (c : FrameContext) (y : Nat) (v : List Sample) : rowsQueued (itemsA c y v) ≤ 1 := by
  unfold itemsA
  split
  · split <;> split <;> simp [rowsQueued, headItem, rowItem]
  · exact Nat.zero_le _

theorem rowsQueued_itemsA_notLive (c : FrameContext) (y : Nat) (v : List Sample) (h : c.deliveryA.crop? = none) :
    itemsA c y v = [] := by
  unfold itemsA
  split
  · rename_i e
    rw [e] at h
    simp [Delivery.crop?] at h
  · rfl

theorem rowsQueued_itemsB (c : FrameContext) (y : Nat) (v : List Sample) (rows : Nat) (h : rows ≤ 16) :
    rows + rowsQueued (itemsB c y v rows) ≤ 16 := by
  unfold itemsB
  split
  · split <;> split
    · by_cases hr : 16 ≤ rows <;> simp [rowsQueued, headItem, rowItem, hr] <;> omega
    · simpa [rowsQueued, headItem] using h
    · by_cases hr : 16 ≤ rows <;> simp [rowsQueued, rowItem, hr] <;> omega
    · simpa [rowsQueued] using h
  · exact h

theorem fixBand_deliveryA (c : FrameContext) (ps : Vector Entry 8) (y : Nat) : (c.fixBand ps y).deliveryA = c.deliveryA := rfl

theorem atLine_deliveryA (c : FrameContext) (ps : Vector Entry 8) : (c.atLine ps).deliveryA = c.deliveryA := by
  unfold FrameContext.atLine; split <;> rfl

theorem boundsLaw_kept : Kept BoundsLaw where
  bump _ _ _ h := h.of h.creditsA h.creditsB h.rowsA h.rowsB rfl rfl rfl rfl rfl rfl rfl
  raise _ _ h := h.of h.creditsA h.creditsB h.rowsA h.rowsB rfl rfl rfl rfl rfl rfl rfl
  setOpened _ lane _ h _ := by
    cases lane <;> exact h.of h.creditsA h.creditsB h.rowsA h.rowsB rfl rfl rfl rfl rfl rfl rfl
  takeStoreRequest d h := by
    obtain ⟨_, _, _, _, e⟩ := takeStoreRequest_footprint d
    rw [e]
    exact h.of h.creditsA h.creditsB h.rowsA h.rowsB rfl rfl rfl rfl rfl rfl rfl
  takeHead d tag group payload h := by
    have h1 : BoundsLaw d.endBySync := by
      obtain ⟨_, _, _, _, e⟩ := endBySync_footprint d
      rw [e]
      exact h.of h.creditsA h.creditsB h.rowsA h.rowsB rfl rfl rfl rfl rfl rfl rfl
    unfold Device.takeHead
    dsimp only
    generalize d.endBySync = d at h1
    split
    · refine ⟨h1.creditsA, h1.creditsB, h1.rowsA, h1.rowsB, h1.passThrough, h1.upstream, h1.commands, h1.answers, ?_,
        h1.pending⟩
      intro l hl
      unfold Device.refuseHead at hl
      simp only [Device.raise_heldLens, Device.bump_heldLens] at hl
      split at hl
      · cases hl; exact Nat.zero_le _
      · exact h1.age l hl
    · obtain ⟨m, n, cs, e, hm, hn⟩ := createContext_footprint d tag group (embeddedNote payload)
      rw [e]
      refine ⟨Nat.le_trans hm h1.creditsA, Nat.le_trans hn h1.creditsB, h1.rowsA, h1.rowsB, h1.passThrough, h1.upstream,
        h1.commands, h1.answers, ?_, by simp⟩
      intro l hl
      dsimp only at hl
      rcases firstNote_held (embeddedNote payload) (d.heldLens.map HeldLens.aged) d.policy.staleLimit d.geometry.height
        with e | ⟨r, e⟩
      · rw [e] at hl
        obtain ⟨l0, _, rfl⟩ := Option.map_eq_some_iff.mp hl
        exact Nat.min_le_left _ _
      · rw [e] at hl
        cases hl
        exact Nat.zero_le _
  takeRow d r samples bad h _ := by
    obtain ⟨_, _, _, e⟩ := takeRow_footprint d r samples bad
    rw [e]
    exact h.of h.creditsA h.creditsB h.rowsA h.rowsB rfl rfl rfl rfl rfl rfl rfl
  takeNote d r h := by
    obtain ⟨fs, cs, hl, e, ha⟩ := takeNote_footprint d r
    rw [e]
    refine ⟨h.creditsA, h.creditsB, h.rowsA, h.rowsB, h.passThrough, h.upstream, h.commands, h.answers, ?_, h.pending⟩
    intro l hx
    dsimp only at hx
    rcases ha with rfl | ⟨r, rfl⟩
    · exact h.age l hx
    · cases hx
      exact Nat.zero_le _
  takeTail d tag h := by
    obtain ⟨_, _, _, _, e⟩ := takeTail_footprint d tag
    rw [e]
    exact h.of h.creditsA h.creditsB h.rowsA h.rowsB rfl rfl rfl rfl rfl rfl rfl
  joinPassThrough d p h := by
    unfold Device.joinPassThrough
    split
    · rename_i room
      have room : d.passThrough.length < 8 := room
      exact { h with passThrough := by simp only [List.length_append, List.length_singleton]; omega }
    · exact h.of h.creditsA h.creditsB h.rowsA h.rowsB rfl rfl rfl rfl rfl rfl rfl
  joinUpstream d p h := by
    unfold Device.joinUpstream
    split
    · rename_i room
      have room : d.upstream.length < 8 := room
      exact { h with upstream := by simp only [List.length_append, List.length_singleton]; omega }
    · exact h.of h.creditsA h.creditsB h.rowsA h.rowsB rfl rfl rfl rfl rfl rfl rfl
  joinCommands d p h := by
    unfold Device.joinCommands
    split
    · rename_i room
      have room : d.commands.length < 8 := room
      exact { h with commands := by simp only [List.length_append, List.length_singleton]; omega }
    · exact h.of h.creditsA h.creditsB h.rowsA h.rowsB rfl rfl rfl rfl rfl rfl rfl
  credit d p h := h.flow p _ (fun _ _ => Nat.min_le_left _ _) fun _ => rfl
  hold d p h := h.flow p _ (fun _ hc => hc) fun _ => rfl
  resume d p h := h.flow p _ (fun _ hc => hc) fun _ => rfl
  laneLock d p h := by
    unfold Device.laneLock
    split
    · exact h
    · split
      · cases p <;> exact h.of h.creditsA h.creditsB h.rowsA h.rowsB rfl rfl rfl rfl rfl rfl rfl
      · exact h
  alignmentDone d p h := by
    unfold Device.alignmentDone
    split
    · cases p
      · exact h.of h.creditsA h.creditsB h.rowsA h.rowsB rfl rfl rfl rfl rfl rfl rfl
      · exact h.of (Nat.zero_le _) h.creditsB (Nat.zero_le _) h.rowsB rfl rfl rfl rfl rfl rfl rfl
      · exact h.of h.creditsA (Nat.zero_le _) h.rowsA (Nat.zero_le _) rfl rfl rfl rfl rfl rfl rfl
    · exact h
  laneLoss d p h := by
    by_cases down : d.link p = .down
    · unfold Device.laneLoss
      rw [if_pos down]
      exact h
    · cases p
      · obtain ⟨_, _, _, e⟩ := laneLossU_footprint d down
        rw [e]
        exact h.of h.creditsA h.creditsB h.rowsA h.rowsB rfl rfl rfl rfl rfl rfl rfl
      · obtain ⟨_, _, e⟩ := laneLossA_footprint d down
        rw [e]
        exact h.of (Nat.zero_le _) h.creditsB (Nat.zero_le _) h.rowsB rfl rfl rfl rfl rfl rfl rfl
      · obtain ⟨_, _, e⟩ := laneLossB_footprint d down
        rw [e]
        exact h.of h.creditsA (Nat.zero_le _) h.rowsA (Nat.zero_le _) rfl rfl rfl rfl rfl rfl rfl
  holdReset d h := h.of h.creditsA h.creditsB h.rowsA h.rowsB rfl rfl rfl rfl rfl rfl rfl
  partReset d node fitted _ := by
    constructor <;> simp [Device.partReset, Device.afterReset, Port.reset, rowsQueued]
  produceLine d h := by
    unfold Device.produceLine
    split
    · rename_i ready
      split
      · exact h
      · rename_i c rest hf
        obtain ⟨cs, e⟩ := lineOnHead_eq d c rest
        have h1 : BoundsLaw (d.lineOnHead c rest) := by
          rw [e]
          refine h.of h.creditsA h.creditsB ?_ ?_ rfl rfl rfl rfl rfl rfl rfl
          · simp only [rowsQueued_append]
            unfold Device.engine at ready
            rw [hf] at ready
            simp only at ready
            split at ready
            · cases ready
            · split at ready
              · cases ready
              · rename_i hp
                unfold Device.portTest at hp
                simp only [Bool.not_not, Bool.and_eq_true, decide_eq_true_eq, not_and] at hp
                by_cases live : c.deliveryA.crop?.isSome = true
                · have := hp live
                  have : ¬ 4 ≤ rowsQueued d.portA.queue := this
                  have := rowsQueued_itemsA (c.atLine d.profiles) (c.atLine d.profiles).nextLine
                    (d.lineOf (c.atLine d.profiles)).values
                  have := h.rowsA
                  omega
                · rw [rowsQueued_itemsA_notLive]
                  · exact h.rowsA
                  · rw [atLine_deliveryA]; simpa using live
          · simp only [rowsQueued_append]
            exact rowsQueued_itemsB _ _ _ _ h.rowsB
        dsimp only
        split
        · obtain ⟨fs, r, cs, ps, ss, qa, qb, e, ha, hb⟩ := close_footprint (d.lineOnHead c rest)
          rw [e]
          refine h1.of h1.creditsA h1.creditsB ?_ ?_ rfl rfl rfl rfl rfl rfl rfl
          · simp only [rowsQueued_append, ha]; exact h1.rowsA
          · simp only [rowsQueued_append, hb]; exact h1.rowsB
        · exact h1
    · exact h
  arbiterChoice d h := by
    unfold Device.arbiterChoice
    split
    · split
      · exact h.of h.creditsA h.creditsB h.rowsA h.rowsB rfl rfl rfl rfl rfl rfl rfl
      · exact h
    · exact h
  portBSend d h := by
    unfold Device.portBSend
    split
    · split
      · exact h.of h.creditsA h.creditsB h.rowsA h.rowsB rfl rfl rfl rfl rfl rfl rfl
      · exact h
    · exact h
  upstreamSend d h := by
    unfold Device.upstreamSend
    split
    · split
      · exact h.of h.creditsA h.creditsB h.rowsA h.rowsB rfl rfl rfl rfl rfl rfl rfl
      · exact h
    · exact h
  itemSent d p h := by
    unfold Device.itemSent
    split
    · have h1 := h.setPort p { d.port p with queue := (d.port p).queue.tail } (h.credits p) (rowsQueued_tail _)
      cases p <;> exact h1.of h1.creditsA h1.creditsB h1.rowsA h1.rowsB rfl rfl rfl rfl rfl rfl rfl
    · exact h
  answerSent d h := by
    unfold Device.answerSent
    split
    · exact { h with answers := Nat.le_trans (List.length_tail_le' _) h.answers }
    · exact h
  passThroughSent d h := by
    unfold Device.passThroughSent
    split
    · exact { h with passThrough := Nat.le_trans (List.length_tail_le' _) h.passThrough }
    · exact h
  upstreamSent d h := by
    unfold Device.upstreamSent
    split
    · exact { h with upstream := Nat.le_trans (List.length_tail_le' _) h.upstream }
    · exact h
  popCommand d r rest h hc := by
    have := h.commands
    rw [hc, List.length_cons] at this
    exact { h with commands := by dsimp only; omega }
  answer d tag code r h room :=
    { h with answers := by simp only [Device.answer_answers, List.length_append, List.length_singleton]; omega }
  zeroCounters d h := h.of h.creditsA h.creditsB h.rowsA h.rowsB rfl rfl rfl rfl rfl rfl rfl
  alerts d v h := h.of h.creditsA h.creditsB h.rowsA h.rowsB rfl rfl rfl rfl rfl rfl rfl
  alertEnable d v h := h.of h.creditsA h.creditsB h.rowsA h.rowsB rfl rfl rfl rfl rfl rfl rfl
  setMode d args h := by
    unfold runSetMode
    split
    · exact h
    · split
      · refine { h with pending := ?_ }
        dsimp only
        split
        · simp
        · rename_i hne
          simpa using hne
      · exact h
  setGeometry d args h := by
    unfold runSetGeometry
    dsimp only
    split
    · split
      · exact h
      · exact h.of h.creditsA h.creditsB h.rowsA h.rowsB rfl rfl rfl rfl rfl rfl rfl
    · exact h
  setInput d v h := h.of h.creditsA h.creditsB h.rowsA h.rowsB rfl rfl rfl rfl rfl rfl rfl
  setRoute d g v h := h.of h.creditsA h.creditsB h.rowsA h.rowsB rfl rfl rfl rfl rfl rfl rfl
  setPort d p enable crop h := h.setPort p _ (h.credits p) (Nat.le_refl _)
  profileOpen d args h := by
    unfold runProfileOpen
    dsimp only
    split
    · split
      · exact h
      · exact h.of h.creditsA h.creditsB h.rowsA h.rowsB rfl rfl rfl rfl rfl rfl rfl
    · exact h
  profileWrite d args h := by
    unfold runProfileWrite
    dsimp only
    split
    · split
      · split
        · exact h
        · exact h.of h.creditsA h.creditsB h.rowsA h.rowsB rfl rfl rfl rfl rfl rfl rfl
      · exact h
    · exact h
  profileClose d args h := by
    unfold runProfileClose
    split
    · dsimp only
      split
      · split
        · exact h
        · split
          · exact h
          · exact h.of h.creditsA h.creditsB h.rowsA h.rowsB rfl rfl rfl rfl rfl rfl rfl
      · exact h
    · exact h
  profileRetire d e h := h.of h.creditsA h.creditsB h.rowsA h.rowsB rfl rfl rfl rfl rfl rfl rfl
  resetPipeline d h := by
    obtain ⟨ps, e⟩ := foldl_unbindContext_footprint d.frames d
    unfold Device.resetPipeline
    rw [e]
    exact { h with age := by intro l hl; cases hl }
  resetProfiles d h := h.of h.creditsA h.creditsB h.rowsA h.rowsB rfl rfl rfl rfl rfl rfl rfl
  resetPort d p h := by
    have hq : rowsQueued ((if d.itemOnLane p then (d.port p).queue.take 1 else []) ++
        if (d.port p).link = .up then [Item.restartMarker] else []) ≤ rowsQueued (d.port p).queue := by
      rw [rowsQueued_append]
      have h1 : rowsQueued (if d.itemOnLane p then (d.port p).queue.take 1 else []) ≤ rowsQueued (d.port p).queue := by
        split
        · exact rowsQueued_take _ _
        · exact Nat.zero_le _
      have h2 : rowsQueued (if (d.port p).link = .up then [Item.restartMarker] else []) = 0 := by
        split <;> rfl
      omega
    have h1 := h.setPort p { d.port p with
      queue := (if d.itemOnLane p then (d.port p).queue.take 1 else []) ++
        if (d.port p).link = .up then [Item.restartMarker] else []
      credits := 0 } (Nat.zero_le _) hq
    unfold Device.resetPort
    exact h1.of h1.creditsA h1.creditsB h1.rowsA h1.rowsB rfl rfl rfl rfl rfl rfl rfl

end Sys2Proof.Machine
end

