-- ==== Sys2Proof/Laws/HeaderCode.lean ====
section
/-! SUPPORT. The header code (R3, R4): its check value and parity are linear, so the table of R4 sees the error
alone; the layout of R3 and the table of R4 in the words of the statements. -/

namespace Sys2Proof.Machine

theorem xorPositions_xor (a b : BitVec 40) (l : List (Nat × Nat)) (hl : ∀ x ∈ l, x.2 < 40) :
    xorPositions (a ^^^ b) l = xorPositions a l ^^^ xorPositions b l := by
  induction l with
  | nil => simp [xorPositions]
  | cons x l ih =>
    obtain ⟨p, i⟩ := x
    have hi := hl (p, i) (by simp)
    unfold xorPositions
    rw [ih fun x hx => hl x (List.mem_cons_of_mem _ hx)]
    rw [BitVec.getMsbD_xor]
    apply BitVec.eq_of_getLsbD_eq
    intro k hk
    cases a.getMsbD i <;> cases b.getMsbD i <;> simp only [Bool.xor_true, Bool.xor_false, Bool.false_xor,
        Bool.true_xor, Bool.not_true, Bool.not_false, if_true, Bool.false_eq_true, if_false, BitVec.getLsbD_xor,
        show BitVec.getLsbD (0 : BitVec 6) k = false by simp] <;>
      (generalize BitVec.getLsbD (xorPositions a l) k = x; generalize BitVec.getLsbD (xorPositions b l) k =
          y;generalize BitVec.getLsbD (BitVec.ofNat 6 p) k = z; cases x <;> cases y <;> cases z <;> rfl)

theorem oddOnes_xor {w} (a b : BitVec w) (n) : oddOnes (a ^^^ b) n = Bool.xor (oddOnes a n) (oddOnes b n) := by
  induction n with
  | zero => rfl
  | succ n ih => simp only [oddOnes, ih, BitVec.getLsbD_xor]; cases a.getLsbD n <;> cases b.getLsbD n <;> cases oddOnes a n <;> cases oddOnes b n <;> rfl

theorem checkValue_xor (a b) : checkValue (a ^^^ b) = checkValue a ^^^ checkValue b :=
    xorPositions_xor a b _ (by decide)

/-- The data bits, check value and parity bit of a 48-bit header. -/
def headerParts (w : BitVec 48) : BitVec 40 × BitVec 6 × Bool := (w.extractLsb' 8 40, w.extractLsb' 1 6, w.getLsbD 7)

theorem checkHeader_parts (w : BitVec 48) : checkHeader (beBytes 6 w.toNat) =
    checkCode (headerParts w).1 (headerParts w).2.1 (headerParts w).2.2 := by
  have e : beBytes 6 w.toNat = beBytes 5 (w.toNat / 256) ++ [BitVec.ofNat 8 w.toNat] := by
    simp only [beBytes, List.cons_append, List.nil_append, Nat.div_div_eq_div_mul]
    simp
  unfold checkHeader
  have h5 := beBytes_length 5 (w.toNat / 256)
  rw [e, List.drop_append, List.take_append, h5, List.take_of_length_le (Nat.le_of_eq h5),
      List.drop_eq_nil_of_le (Nat.le_of_eq h5)]
  simp only [Nat.sub_self, List.take_zero, List.append_nil, List.drop_zero, List.nil_append, List.headD_cons,
      beNat_beBytes]
  unfold headerParts
  have a1 : BitVec.ofNat 40 (w.toNat / 256 % 256 ^ 5) = w.extractLsb' 8 40 := by
    apply BitVec.eq_of_toNat_eq
    simp [Nat.shiftRight_eq_div_pow]
  have a2 : BitVec.extractLsb' 1 6 (BitVec.ofNat 8 w.toNat) = w.extractLsb' 1 6 := by
    apply BitVec.eq_of_getLsbD_eq; intro i hi
    rw [BitVec.getLsbD_extractLsb', BitVec.getLsbD_extractLsb', BitVec.getLsbD_ofNat]
    simp [hi, show 1 + i < 8 by omega, BitVec.getLsbD]
  have a3 : (BitVec.ofNat 8 w.toNat).getLsbD 7 = w.getLsbD 7 := by
    rw [BitVec.getLsbD_ofNat]; simp [BitVec.getLsbD]
  rw [a1, a2, a3]

theorem headerParts_headerBits (h : Header) : headerParts (headerBits h) = (h.bits, checkValue h.bits,
    parityBit h.bits (checkValue h.bits)) := by
  have e : beNat h.bytes = h.bits.toNat * 256 + (checkByte h.bits).toNat := by
    rw [Header.bytes, beNat_append, beNat_beBytes, Nat.mod_eq_of_lt (by have := h.bits.isLt <;> omega)]
    simp [beNat]
  have e2 : headerBits h = h.bits ++ checkByte h.bits := by
    unfold headerBits
    rw [e]
    apply BitVec.eq_of_toNat_eq
    have := h.bits.isLt; have := (checkByte h.bits).isLt
    rw [BitVec.toNat_append, BitVec.toNat_ofNat, Nat.mod_eq_of_lt (by omega), Nat.shiftLeft_eq, Nat.mul_comm,
        show 256 = 2 ^ 8 from rfl, ← Nat.two_pow_add_eq_or_of_lt (by omega)]
  rw [e2]
  unfold headerParts
  simp only [Prod.mk.injEq]
  refine ⟨?_, ?_, ?_⟩
  · apply BitVec.eq_of_getLsbD_eq; intro i hi
    rw [BitVec.getLsbD_extractLsb', BitVec.getLsbD_append]; simp [hi]
  · rw [← checkByte_value]; apply BitVec.eq_of_getLsbD_eq; intro i hi
    rw [BitVec.getLsbD_extractLsb', BitVec.getLsbD_append, BitVec.getLsbD_extractLsb']; simp [hi]; omega
  · rw [← checkByte_parity, BitVec.getLsbD_append]; simp

theorem headerParts_xor (a b) : headerParts (a ^^^ b) = ((headerParts a).1 ^^^ (headerParts b).1,
    (headerParts a).2.1 ^^^ (headerParts b).2.1, Bool.xor (headerParts a).2.2 (headerParts b).2.2) := by
  unfold headerParts; simp [BitVec.extractLsb'_xor]

/-- The syndrome and the parity of received header parts. -/
def syndrome (x : BitVec 40 × BitVec 6 × Bool) : BitVec 6 × Bool := (x.2.1 ^^^ checkValue x.1,
    Bool.xor (parityBit x.1 x.2.1) x.2.2)

theorem xor_swap (a b c d : BitVec 6) : (a ^^^ b) ^^^ (c ^^^ d) = (a ^^^ c) ^^^ (b ^^^ d) := by
    apply BitVec.eq_of_getLsbD_eq; intro i hi
    simp only [BitVec.getLsbD_xor]
    generalize a.getLsbD i = a; generalize b.getLsbD i = b; generalize c.getLsbD i = c; generalize d.getLsbD i = d
    cases a <;> cases b <;> cases c <;> cases d <;> rfl

theorem syndrome_headerBits (h : Header) (e : BitVec 48) :
   checkHeader (beBytes 6 (headerBits h ^^^ e).toNat) =
     (let s := (syndrome (headerParts e)).1.toNat
      if s = 0 then (if (syndrome (headerParts e)).2 then .corrected (.ofBits (h.bits ^^^ (headerParts e).1)) else .clean (.ofBits (h.bits ^^^ (headerParts e).1)))
      else if (syndrome (headerParts e)).2 && s ≤ 46 then .corrected (.ofBits (invertAt (h.bits ^^^ (headerParts e).1) s)) else .uncorrectable) := by
  rw [checkHeader_parts, headerParts_xor, headerParts_headerBits]
  unfold checkCode
  have s1 : (checkValue h.bits ^^^ (headerParts e).2.1) ^^^ checkValue (h.bits ^^^ (headerParts e).1) =
      (syndrome (headerParts e)).1 := by
    rw [checkValue_xor, xor_swap]; simp [syndrome]
  have s2 : Bool.xor (parityBit (h.bits ^^^ (headerParts e).1) (checkValue h.bits ^^^ (headerParts e).2.1)) (Bool.xor (parityBit h.bits (checkValue h.bits)) (headerParts e).2.2) = (syndrome (headerParts e)).2 := by
    unfold syndrome parityBit
    rw [oddOnes_xor, oddOnes_xor]
    generalize oddOnes h.bits 40 = a
    generalize oddOnes (checkValue h.bits) 6 = b
    generalize oddOnes _ 40 = c; generalize oddOnes _ 6 = d; generalize (headerParts e).2.2 = f
    cases a <;> cases b <;> cases c <;> cases d <;> cases f <;> rfl
  simp only [s1, s2]

/-! ## The layout and the code of R3, in the words of the statements -/

theorem zero_xor_six (x : BitVec 6) : (0 : BitVec 6) ^^^ x = x := BitVec.zero_xor

theorem foldl_xor (l : List (BitVec 6)) (a : BitVec 6) : l.foldl (· ^^^ ·) a = a ^^^ l.foldl (· ^^^ ·) 0 := by
  induction l generalizing a with
  | nil => simp
  | cons x l ih => rw [List.foldl_cons, List.foldl_cons, ih, ih (0 ^^^ x), zero_xor_six, BitVec.xor_assoc]

theorem xorPositions_foldl (d : BitVec 40) (l : List (Nat × Nat)) :
    xorPositions d l = ((l.filter fun x => d.getMsbD x.2).map fun x => BitVec.ofNat 6 x.1).foldl (· ^^^ ·) 0 := by
  induction l with
  | nil => rfl
  | cons x l ih =>
    unfold xorPositions
    rw [List.filter_cons, ih]
    split
    · rw [List.map_cons, List.foldl_cons, foldl_xor _ (0 ^^^ _), zero_xor_six]
    · rw [zero_xor_six]

theorem codePositions_eq : codePositions = dataPositions := by decide

/-- The check value is the exclusive-or of the positions of the data bits that are 1 (R3). -/
theorem checkValue_eq (d : BitVec 40) : checkValue d = codeCheck d := by
  unfold checkValue codeCheck
  rw [codePositions_eq, xorPositions_foldl]

theorem oddOnes_countP {w} (x : BitVec w) (n : Nat) : (oddOnes x n).toNat = (List.range n).countP x.getLsbD % 2 := by
  induction n with
  | zero => rfl
  | succ n ih =>
    rw [List.range_succ, List.countP_append, List.countP_singleton]
    unfold oddOnes
    cases x.getLsbD n <;> cases h : oddOnes x n <;> rw [h] at ih <;> simp at ih ⊢ <;> omega

/-- The 47 bits hold an even number of ones exactly where the received parity bit is the one of the code (R3, R4). -/
theorem codeOnes_even (d : BitVec 40) (c : BitVec 6) (p : Bool) :
    codeOnes d c p % 2 = 0 ↔ Bool.xor (parityBit d c) p = false := by
  unfold codeOnes parityBit
  have a := oddOnes_countP d 40
  have b := oddOnes_countP c 6
  cases hx : oddOnes d 40 <;> cases hy : oddOnes c 6 <;> cases p <;> rw [hx] at a <;> rw [hy] at b <;> simp at a b ⊢ <;> omega

/-- The five field bytes of a header (R3). -/
theorem Header.fieldBytes (h : Header) : beBytes 5 h.bits.toNat =
    [h.kind ++ h.node ++ h.spare, h.length.extractLsb' 8 8, h.length.extractLsb' 0 8, h.field.extractLsb' 8 8,
      h.field.extractLsb' 0 8] := by
  obtain ⟨k, n, s, l, f⟩ := h
  simp only [beBytes, ofNat_div, Header.bits]
  simp only [List.cons.injEq, and_true]
  refine ⟨?_, ?_, ?_, ?_, ?_⟩ <;>
    (apply BitVec.eq_of_getLsbD_eq
     intro i hi
     simp only [BitVec.getLsbD_extractLsb', BitVec.getLsbD_append, hi, decide_true, Bool.true_and])
  · simp [show ¬ 32 + i < 16 by omega, show ¬ 32 + i - 16 < 16 by omega, show 32 + i - 16 - 16 = i by omega]
  · simp [show ¬ 24 + i < 16 by omega, show 24 + i - 16 = 8 + i by omega, show 8 + i < 16 by omega]
  · simp [show ¬ 16 + i < 16 by omega, show 16 + i - 16 = i by omega, show i < 16 by omega]
  · simp [show 8 + i < 16 by omega]
  · simp [show i < 16 by omega]

/-- The bytes of a header as the part makes it are laid out as R3 gives, with the code's own check value and parity bit. -/
theorem Header.bytes_layout (h : Header) :
    h.bytes = headerLayout h (codeCheck h.dataBits) (parityBit h.dataBits (codeCheck h.dataBits)) false := by
  unfold Header.bytes headerLayout checkByte
  rw [Header.fieldBytes, checkValue_eq]
  rfl

/-- The check of six bytes in the layout of R3 is the table of R4 on their data bits, check value and parity bit. -/
theorem checkHeader_layout (h : Header) (c : BitVec 6) (p low : Bool) (payload : List Byte) :
    checkHeader (headerLayout h c p low ++ payload) = checkCode h.dataBits c p := by
  have e : headerLayout h c p low ++ payload =
      beBytes 5 h.bits.toNat ++ ((BitVec.ofBool p ++ c ++ BitVec.ofBool low : BitVec 8) :: payload) := by
    rw [Header.fieldBytes]; rfl
  have h5 : (beBytes 5 h.bits.toNat).length = 5 := beBytes_length _ _
  have last : ∀ (c : BitVec 6) (p low : Bool), (BitVec.ofBool p ++ c ++ BitVec.ofBool low : BitVec 8).extractLsb' 1 6 = c ∧
      (BitVec.ofBool p ++ c ++ BitVec.ofBool low : BitVec 8).getLsbD 7 = p := by decide
  unfold checkHeader
  rw [e, List.drop_append, List.take_append, h5]
  simp only [Nat.sub_self, List.take_zero, List.append_nil, List.drop_zero]
  rw [List.take_of_length_le (Nat.le_of_eq h5), List.drop_eq_nil_of_le (Nat.le_of_eq h5), beNat_beBytes,
    Nat.mod_eq_of_lt (by have := h.bits.isLt; omega), BitVec.ofNat_toNat, BitVec.setWidth_eq]
  rw [List.nil_append, List.headD_cons, (last c p low).1, (last c p low).2]
  rfl

theorem Header.dataBits_ofBits (h : Header) : Header.ofBits h.dataBits = h := Header.ofBits_bits h

end Sys2Proof.Machine
end

