-- ==== Sys2Proof/Laws/Links.lean ====
section
/-! SUPPORT. The law of the links, LinkLaw, is kept by every shared operation. -/

namespace Sys2Proof.Machine

/-- What the law of the links sees of the part, the contexts apart. -/
def Device.linkView (d : Device) :=
  ((d.linkU, d.openU, d.laneU, d.upstream), (d.portA, d.openA, d.laneA, d.answers, d.passThrough),
    (d.portB, d.openB, d.laneB, d.portBFitted), d.node)

/-- No port has a LIVE delivery that had none. -/
def NoMoreLive (frames frames' : List FrameContext) : Prop :=
  ∀ c' ∈ frames', (c'.deliveryA.isLive → ∃ c ∈ frames, c.deliveryA.isLive) ∧
    (c'.deliveryB.isLive → ∃ c ∈ frames, c.deliveryB.isLive)

theorem NoMoreLive.map {frames : List FrameContext} (g : FrameContext → FrameContext)
    (hg : ∀ c, ((g c).deliveryA.isLive → c.deliveryA.isLive) ∧ ((g c).deliveryB.isLive → c.deliveryB.isLive)) :
    NoMoreLive frames (frames.map g) := by
  intro c' hc'
  obtain ⟨c, hc, rfl⟩ := List.mem_map.mp hc'
  exact ⟨fun h => ⟨c, hc, (hg c).1 h⟩, fun h => ⟨c, hc, (hg c).2 h⟩⟩

theorem NoMoreLive.subset {frames frames' : List FrameContext} (h : ∀ c ∈ frames', c ∈ frames) :
    NoMoreLive frames frames' :=
  fun c hc => ⟨fun hl => ⟨c, h c hc, hl⟩, fun hl => ⟨c, h c hc, hl⟩⟩

theorem LinkLaw.of {d d' : Device} (h : LinkLaw d) (v : d'.linkView = d.linkView)
    (live : NoMoreLive d.frames d'.frames) : LinkLaw d' := by
  unfold Device.linkView at v
  simp only [Prod.mk.injEq] at v
  obtain ⟨⟨v1, v2, v3, v4⟩, ⟨v5, v6, v7, v8, v9⟩, ⟨v10, v11, v12, v13⟩, v14⟩ := v
  constructor
  · rw [v1, v2, v3]; exact h.quietU
  · rw [v5, v6, v7]
    intro hn
    obtain ⟨a, b, c, l⟩ := h.quietA hn
    refine ⟨a, b, c, fun x hx hl => ?_⟩
    obtain ⟨y, hy, hl⟩ := (live x hx).1 hl
    exact l y hy hl
  · rw [v10, v11, v12]
    intro hn
    obtain ⟨a, b, c, l⟩ := h.quietB hn
    refine ⟨a, b, c, fun x hx hl => ?_⟩
    obtain ⟨y, hy, hl⟩ := (live x hx).2 hl
    exact l y hy hl
  · rw [v13, v10]; exact h.notFitted
  · rw [v3, v4]; exact h.frontU
  · rw [v7]
    intro l hl
    rw [← h.frontA l hl]
    cases hs : l.source <;> simp [Device.frontPacket, v8, v9, v5, v14]
  · rw [v12, v10, v14]; exact h.frontB
  · intro p
    rw [show d'.opened p = d.opened p by cases p <;> assumption]
    exact h.openLength p

/-- Nothing the law of the links sees changes. -/
theorem LinkLaw.same {d d' : Device} (h : LinkLaw d) (v : d'.linkView = d.linkView) (f : d'.frames = d.frames) : LinkLaw d' :=
  h.of v (by rw [f]; exact .subset fun _ hc => hc)

theorem LinkLaw.onFilling {d : Device} (h : LinkLaw d) (f : FrameContext → FrameContext)
    (hf : ∀ c, (f c).deliveryA = c.deliveryA ∧ (f c).deliveryB = c.deliveryB) : LinkLaw (d.onFilling f) := by
  refine h.of rfl (.map (fun c => if c.isFilling then f c else c) fun c => ?_)
  split
  · rw [(hf c).1, (hf c).2]; exact ⟨id, id⟩
  · exact ⟨id, id⟩

theorem LinkLaw.endInput {d : Device} (h : LinkLaw d) (always : Bool) : LinkLaw (d.endInput always) := by
  obtain ⟨fs, r, cs, e⟩ := endInput_footprint d always
  have hs := endInput_frames d always
  refine h.of (by rw [e]; rfl) ?_
  rw [hs]
  refine .map (fun c => if c.isFilling then c.ended always else c) fun c => ?_
  split
  · unfold FrameContext.ended
    split <;> exact ⟨id, id⟩
  · exact ⟨id, id⟩

theorem LinkLaw.endBySync {d : Device} (h : LinkLaw d) : LinkLaw d.endBySync := by
  unfold Device.endBySync
  split
  · exact h
  · exact ((h.onFilling FrameContext.setSync fun _ => ⟨rfl, rfl⟩).endInput true).same rfl rfl

/-! ## Credits: only a port whose link is UP takes a frame on -/

theorem answerCredit_live {p : Port} {g : Geometry} (h : (p.answerCredit g).isLive) : p.link = .up := by
  unfold Port.answerCredit at h
  split at h
  · rename_i hc
    simp only [Bool.and_eq_true, beq_iff_eq] at hc
    exact hc.2
  · exact h.elim

theorem creditAnswer_live {d : Device} {p : OutPort} {m : Bool} {g : Geometry} (h : (d.creditAnswer p m g).isLive) :
    (d.port p).link = .up := by
  unfold Device.creditAnswer at h
  split at h
  · exact answerCredit_live h
  · exact h.elim

theorem LinkLaw.createContext {d : Device} (h : LinkLaw d) (tag : BitVec 16) (group : Fin 8)
    (embedded : Option LensRecord) : LinkLaw (d.createContext tag group embedded) := by
  obtain ⟨m, n, cs, e, hm, hn⟩ := createContext_footprint d tag group embedded
  rw [e]
  have la : (d.newContext tag group embedded).deliveryA.isLive → d.portA.link = .up := fun hl => creditAnswer_live hl
  have lb : (d.newContext tag group embedded).deliveryB.isLive → d.portB.link = .up := fun hl => creditAnswer_live hl
  generalize d.newContext tag group embedded = c at *
  refine ⟨h.quietU, fun hu => ?_, fun hu => ?_, h.notFitted, h.frontU, fun l hl => ?_, h.frontB, ?_⟩
  · obtain ⟨a, b, q, l⟩ := h.quietA hu
    refine ⟨a, b, ⟨?_, q.2.1, q.2.2⟩, fun x hx hl => ?_⟩
    · have := q.1
      show m = 0
      omega
    · rcases List.mem_append.mp hx with hx | hx
      · exact l x hx hl
      · rw [List.mem_singleton] at hx
        subst hx
        exact hu (la hl)
  · obtain ⟨a, b, q, l⟩ := h.quietB hu
    refine ⟨a, b, ⟨?_, q.2.1, q.2.2⟩, fun x hx hl => ?_⟩
    · have := q.1
      show n = 0
      omega
    · rcases List.mem_append.mp hx with hx | hx
      · exact l x hx hl
      · rw [List.mem_singleton] at hx
        subst hx
        exact hu (lb hl)
  · rw [← h.frontA l hl]
    cases l.source <;> rfl
  · exact fun p bytes hb => h.openLength p bytes (by rw [← hb]; cases p <;> rfl)

/-! ## Queues that grow at the tail keep their front -/

theorem head?_append_map {α β : Type} (f : α → β) (q r : List α) (b : β) (h : q.head?.map f = some b) :
    (q ++ r).head?.map f = some b := by
  cases q with
  | nil => cases h
  | cons a q => exact h

/-- Items join the tails of the port queues, on ports whose link is UP. -/
theorem LinkLaw.append {d : Device} (h : LinkLaw d) (qa qb : List Item) (ha : d.portA.link ≠ .up → qa = [])
    (hb : d.portB.link ≠ .up → qb = []) :
    LinkLaw { d with portA := { d.portA with queue := d.portA.queue ++ qa },
                     portB := { d.portB with queue := d.portB.queue ++ qb } } := by
  refine ⟨h.quietU, fun hu => ?_, fun hu => ?_, h.notFitted, h.frontU, fun l hl => ?_, fun bytes hl => ?_, ?_⟩
  · obtain ⟨a, b, q, l⟩ := h.quietA hu
    refine ⟨a, b, ⟨q.1, q.2.1, ?_⟩, l⟩
    show d.portA.queue ++ qa = []
    rw [ha hu, q.2.2]; rfl
  · obtain ⟨a, b, q, l⟩ := h.quietB hu
    refine ⟨a, b, ⟨q.1, q.2.1, ?_⟩, l⟩
    show d.portB.queue ++ qb = []
    rw [hb hu, q.2.2]; rfl
  · have := h.frontA l hl
    cases hs : l.source <;> rw [hs] at this
    · exact this
    · exact this
    · simp only [Device.frontPacket, Option.map_map] at this ⊢
      exact head?_append_map _ _ _ _ this
  · exact head?_append_map _ _ _ _ (h.frontB bytes hl)
  · exact fun p bytes hb => h.openLength p bytes (by rw [← hb]; cases p <;> rfl)

theorem itemsA_notLive {c : FrameContext} {y : Nat} {vs : List Sample} (h : ¬ c.deliveryA.isLive) : itemsA c y vs = [] := by
  unfold itemsA
  split
  · rename_i e; rw [e] at h; exact absurd trivial h
  · rfl

theorem itemsB_notLive {c : FrameContext} {y : Nat} {vs : List Sample} {n : Nat} (h : ¬ c.deliveryB.isLive) :
    itemsB c y vs n = [] := by
  unfold itemsB
  split
  · rename_i e; rw [e] at h; exact absurd trivial h
  · rfl

theorem reportItem_notLive {c : FrameContext} {p : OutPort} (h : ¬ (c.delivery p).isLive) : reportItem c p = [] := by
  unfold reportItem
  split
  · rename_i e; rw [e] at h; exact absurd trivial h
  · rfl

theorem LinkLaw.close {d : Device} (h : LinkLaw d) : LinkLaw d.close := by
  have h1 : LinkLaw d.endBeforeClose := by
    unfold Device.endBeforeClose
    split
    · split
      · exact h.endInput false
      · exact h
    · exact h
  unfold Device.close
  generalize d.endBeforeClose = d at h1
  split
  · rename_i c rest hf
    rw [closeEnded_eq]
    have hm : c ∈ d.frames := by rw [hf]; exact List.mem_cons_self
    refine (h1.append (reportItem c .a) (reportItem c .b) (fun hu => reportItem_notLive ((h1.quietA hu).2.2.2 c hm))
      (fun hu => reportItem_notLive ((h1.quietB hu).2.2.2 c hm))).of rfl (.subset ?_)
    intro x hx
    show x ∈ d.frames
    rw [hf]
    exact List.mem_cons_of_mem _ hx
  · exact h1

theorem LinkLaw.lineOnHead {d : Device} (h : LinkLaw d) {c : FrameContext} {rest : List FrameContext}
    (hf : d.frames = c :: rest) : LinkLaw (d.lineOnHead c rest) := by
  obtain ⟨cs, e⟩ := lineOnHead_eq d c rest
  have hm : c ∈ d.frames := by rw [hf]; exact List.mem_cons_self
  have hd : (c.atLine d.profiles).deliveryA = c.deliveryA ∧ (c.atLine d.profiles).deliveryB = c.deliveryB := by
    unfold FrameContext.atLine
    split <;> exact ⟨rfl, rfl⟩
  rw [e]
  refine (h.append _ _ (fun hu => itemsA_notLive ?_) (fun hu => itemsB_notLive ?_)).of rfl ?_
  · rw [hd.1]; exact (h.quietA hu).2.2.2 c hm
  · rw [hd.2]; exact (h.quietB hu).2.2.2 c hm
  · intro x hx
    rcases List.mem_cons.mp hx with rfl | hx
    · refine ⟨fun hl => ⟨c, hm, ?_⟩, fun hl => ⟨c, hm, ?_⟩⟩
      · rw [← hd.1]; exact hl
      · rw [← hd.2]
        simp only [FrameContext.afterLine] at hl
        split at hl
        · exact hl.elim
        · exact hl
    · have : x ∈ d.frames := by rw [hf]; exact List.mem_cons_of_mem _ hx
      exact ⟨fun hl => ⟨x, this, hl⟩, fun hl => ⟨x, this, hl⟩⟩

theorem cutLive_notLive (x : Delivery) : ¬ x.cutLive.isLive := by cases x <;> exact id

theorem readSymbol_length (o : Option (List Byte)) (sym : Symbol) (h : ∀ bytes, o = some bytes → bytes.length ≤ 6 + 16384) :
    ∀ bytes, (readSymbol o sym).1 = some bytes → bytes.length ≤ 6 + 16384 := by
  intro bytes hb
  unfold readSymbol at hb
  split at hb <;> (try split at hb) <;> first
    | (cases hb; done)
    | exact h bytes hb
    | (injection hb with hb; subst hb; exact Nat.zero_le _)
    | (injection hb with hb; subst hb; rename_i lt; rw [List.length_append, List.length_singleton]; exact lt)

/-- A flow symbol on a port whose link is UP. -/
theorem LinkLaw.flow {d : Device} (h : LinkLaw d) (p : OutPort) (f : Port → Port)
    (hf : ∀ x, (f x).link = x.link ∧ (f x).queue = x.queue) : LinkLaw (d.flow p f) := by
  unfold Device.flow
  split
  · rename_i up
    cases p
    · refine ⟨h.quietU, fun hu => absurd ((hf _).1.trans up) hu, h.quietB, h.notFitted, h.frontU, fun l hl => ?_, h.frontB, ?_⟩
      · have := h.frontA l hl
        cases hs : l.source <;> rw [hs] at this
        · exact this
        · exact this
        · show Option.map Packet.bytes ((f d.portA).queue.head?.map (Item.packet d.node)) = _
          rw [(hf _).2]
          exact this
      · exact fun p bytes hb => h.openLength p bytes (by rw [← hb]; cases p <;> rfl)
    · refine ⟨h.quietU, h.quietA, fun hu => absurd ((hf _).1.trans up) hu, fun hn => (hf _).1.trans (h.notFitted hn), h.frontU,
        fun l hl => ?_, fun bytes hl => ?_, ?_⟩
      · rw [← h.frontA l hl]
        cases l.source <;> rfl
      · show Option.map _ (f d.portB).queue.head? = _
        rw [(hf _).2]
        exact h.frontB bytes hl
      · exact fun p bytes hb => h.openLength p bytes (by rw [← hb]; cases p <;> rfl)
  · exact h

/-! ## Kept -/

theorem linkLaw_kept : Kept LinkLaw where
  bump _ _ _ h := h.same rfl rfl
  raise _ _ h := h.same rfl rfl
  setOpened d lane sym h up := by
    have hl := readSymbol_length (d.opened lane) sym (h.openLength lane)
    generalize (readSymbol (d.opened lane) sym).1 = o at hl
    cases lane
    · refine ⟨fun hu => absurd up hu, h.quietA, h.quietB, h.notFitted, h.frontU, fun l hx => ?_, h.frontB, fun p bytes hb => ?_⟩
      · rw [← h.frontA l hx]; cases l.source <;> rfl
      · cases p
        · exact hl bytes hb
        · exact h.openLength .a bytes hb
        · exact h.openLength .b bytes hb
    · refine ⟨h.quietU, fun hu => absurd up hu, h.quietB, h.notFitted, h.frontU, fun l hx => ?_, h.frontB, fun p bytes hb => ?_⟩
      · rw [← h.frontA l hx]; cases l.source <;> rfl
      · cases p
        · exact h.openLength .u bytes hb
        · exact hl bytes hb
        · exact h.openLength .b bytes hb
    · refine ⟨h.quietU, h.quietA, fun hu => absurd up hu, h.notFitted, h.frontU, fun l hx => ?_, h.frontB, fun p bytes hb => ?_⟩
      · rw [← h.frontA l hx]; cases l.source <;> rfl
      · cases p
        · exact h.openLength .u bytes hb
        · exact h.openLength .a bytes hb
        · exact hl bytes hb
  takeStoreRequest d h := by
    unfold Device.takeStoreRequest
    split
    · exact h
    · rename_i r _
      have h0 : LinkLaw { d with storeReq := none } := h.same rfl rfl
      generalize { d with storeReq := none } = d at h0
      have on : ∀ g : FrameContext → FrameContext, (∀ c, (g c).deliveryA = c.deliveryA ∧ (g c).deliveryB = c.deliveryB) →
          LinkLaw (d.onFrame r.frame g) := by
        intro g hg
        refine h0.of rfl (.map (fun c => if c.id == r.frame then g c else c) fun c => ?_)
        split
        · rw [(hg c).1, (hg c).2]; exact ⟨id, id⟩
        · exact ⟨id, id⟩
      unfold Device.storeRow
      split
      · split
        · exact (on (fun c => { c with rowsStored := satAdd c.rowsStored 1 }) fun _ => ⟨rfl, rfl⟩).same rfl rfl
        · exact (on FrameContext.setOverrun fun _ => ⟨rfl, rfl⟩).same rfl rfl
      · exact h0
  takeHead d tag group payload h := by
    unfold Device.takeHead
    dsimp only
    split
    · exact h.endBySync.same rfl rfl
    · exact h.endBySync.createContext _ _ _
  takeRow d r samples bad h _ := by
    unfold Device.takeRow
    split
    · exact h.same rfl rfl
    · exact h.same rfl rfl
    · split
      · exact h
      · split
        · exact h.same rfl rfl
        · split
          · exact h.same rfl rfl
          · have h1 := h.onFilling (·.afterRow r bad) fun _ => ⟨rfl, rfl⟩
            unfold Device.acceptRow
            dsimp only
            split <;> split <;> first
              | exact h1.same rfl rfl
              | (split <;> exact h1.same rfl rfl)
  takeNote d r h := by
    unfold Device.takeNote
    split
    · split
      · exact h
      · split
        · exact (h.onFilling FrameContext.setMismatch fun _ => ⟨rfl, rfl⟩).same rfl rfl
        · rename_i c _ _
          unfold Device.acceptNote
          dsimp only
          split
          · have h1 : LinkLaw { d.onFilling (fun x => { x with
                notes := placeNote ⟨r.clampRow c.geometry.height, false⟩ x.notes }) with
                heldLens := some ⟨r.clampRow c.geometry.height, 0⟩ } :=
              (h.onFilling (fun x => { x with
                notes := placeNote ⟨r.clampRow c.geometry.height, false⟩ x.notes }) fun _ => ⟨rfl, rfl⟩).same rfl rfl
            split
            · exact (h1.onFilling FrameContext.setLate fun _ => ⟨rfl, rfl⟩).same rfl rfl
            · exact h1
          · exact h.same rfl rfl
    · exact h.same rfl rfl
  takeTail d tag h := by
    unfold Device.takeTail
    split
    · exact h
    · exact h.same rfl rfl
    · split
      · exact h
      · split
        · exact h.endInput false
        · exact (h.onFilling FrameContext.setSync fun _ => ⟨rfl, rfl⟩).same rfl rfl
  joinPassThrough d p h := by
    unfold Device.joinPassThrough
    split
    · refine ⟨h.quietU, h.quietA, h.quietB, h.notFitted, h.frontU, fun l hl => ?_, h.frontB, ?_⟩
      · have := h.frontA l hl
        cases hs : l.source <;> rw [hs] at this
        · exact this
        · exact head?_append_map _ _ _ _ this
        · exact this
      · exact fun p bytes hb => h.openLength p bytes (by rw [← hb]; cases p <;> rfl)
    · exact h.same rfl rfl
  joinUpstream d p h := by
    unfold Device.joinUpstream
    split
    · refine ⟨h.quietU, h.quietA, h.quietB, h.notFitted, fun b hb => head?_append_map _ _ _ _ (h.frontU b hb),
        fun l hl => ?_, h.frontB, ?_⟩
      · rw [← h.frontA l hl]; cases l.source <;> rfl
      · exact fun p bytes hb => h.openLength p bytes (by rw [← hb]; cases p <;> rfl)
    · exact h.same rfl rfl
  joinCommands d p h := by unfold Device.joinCommands; split <;> exact h.same rfl rfl
  credit d p h := h.flow p _ fun _ => ⟨rfl, rfl⟩
  hold d p h := h.flow p _ fun _ => ⟨rfl, rfl⟩
  resume d p h := h.flow p _ fun _ => ⟨rfl, rfl⟩
  laneLock d p h := by
    unfold Device.laneLock
    split
    · exact h
    · rename_i hb
      split
      · rename_i down
        cases p
        · refine ⟨fun _ => h.quietU (by rw [show d.linkU = .down from down]; decide), h.quietA, h.quietB, h.notFitted, h.frontU, fun l hl => ?_, h.frontB, ?_⟩
          · rw [← h.frontA l hl]; cases l.source <;> rfl
          · exact fun p bytes hb => h.openLength p bytes (by rw [← hb]; cases p <;> rfl)
        · refine ⟨h.quietU, fun _ => h.quietA (by rw [show d.portA.link = .down from down]; decide), h.quietB, h.notFitted, h.frontU, fun l hl => ?_, h.frontB, ?_⟩
          · rw [← h.frontA l hl]; cases l.source <;> rfl
          · exact fun p bytes hb => h.openLength p bytes (by rw [← hb]; cases p <;> rfl)
        · refine ⟨h.quietU, h.quietA, fun _ => h.quietB (by rw [show d.portB.link = .down from down]; decide), fun hn => ?_, h.frontU, fun l hl => ?_, h.frontB, ?_⟩
          · exact absurd (by simp [show d.portBFitted = false from hn]) hb
          · rw [← h.frontA l hl]; cases l.source <;> rfl
          · exact fun p bytes hb => h.openLength p bytes (by rw [← hb]; cases p <;> rfl)
      · exact h
  alignmentDone d p h := by
    unfold Device.alignmentDone
    split
    · rename_i al
      cases p
      · refine ⟨fun hu => absurd rfl hu, h.quietA, h.quietB, h.notFitted, h.frontU, fun l hl => ?_, h.frontB, ?_⟩
        · rw [← h.frontA l hl]; cases l.source <;> rfl
        · exact fun p bytes hb => h.openLength p bytes (by rw [← hb]; cases p <;> rfl)
      · obtain ⟨_, q, _, _⟩ := h.quietA (by rw [show d.portA.link = .aligning from al]; decide)
        refine ⟨h.quietU, fun hu => absurd rfl hu, h.quietB, h.notFitted, h.frontU, fun l hl => ?_, h.frontB, ?_⟩
        · rw [show d.laneA = some l from hl] at q; cases q
        · exact fun p bytes hb => h.openLength p bytes (by rw [← hb]; cases p <;> rfl)
      · obtain ⟨_, q, _, _⟩ := h.quietB (by rw [show d.portB.link = .aligning from al]; decide)
        refine ⟨h.quietU, h.quietA, fun hu => absurd rfl hu, fun hn => ?_, h.frontU, fun l hl => ?_, fun b hb => ?_, ?_⟩
        · rw [show d.link .b = d.portB.link from rfl, h.notFitted hn] at al; cases al
        · rw [← h.frontA l hl]; cases l.source <;> rfl
        · rw [show d.laneB = some b from hb] at q; cases q
        · exact fun p bytes hb => h.openLength p bytes (by rw [← hb]; cases p <;> rfl)
    · exact h
  laneLoss d p h := by
    by_cases down : d.link p = .down
    · unfold Device.laneLoss
      rw [if_pos down]
      exact h
    · cases p
      · have h0 : LinkLaw { d with openU := none, laneU := none, linkU := .down } := by
          refine ⟨fun _ => ⟨rfl, rfl⟩, h.quietA, h.quietB, h.notFitted, fun b hb => (by cases hb), fun l hl => ?_, h.frontB, ?_⟩
          · rw [← h.frontA l hl]; cases l.source <;> rfl
          · intro p bytes hb
            cases p
            · cases hb
            · exact h.openLength .a bytes hb
            · exact h.openLength .b bytes hb
        obtain ⟨fs, r, cs, e⟩ := endInput_footprint { d with openU := none, laneU := none } true
        have hs := endInput_frames { d with openU := none, laneU := none } true
        unfold Device.laneLoss Device.loseLink
        rw [if_neg down]
        refine h0.of (by rw [e]; rfl) ?_
        refine (show NoMoreLive d.frames (({ d with openU := none, laneU := none } : Device).endInput true).frames from ?_)
        rw [hs]
        refine .map (fun c => if c.isFilling then c.ended true else c) fun c => ?_
        split
        · unfold FrameContext.ended
          split <;> exact ⟨id, id⟩
        · exact ⟨id, id⟩
      · obtain ⟨_, _, e⟩ := laneLossA_footprint d down
        rw [e]
        refine ⟨h.quietU, fun _ => ⟨rfl, rfl, ⟨rfl, rfl, rfl⟩, fun x hx => ?_⟩, fun hu => ?_, h.notFitted, h.frontU, fun l hl => (by cases hl), h.frontB, ?_⟩
        · obtain ⟨c, _, rfl⟩ := List.mem_map.mp hx
          exact cutLive_notLive c.deliveryA
        · obtain ⟨a, b, q, l⟩ := h.quietB hu
          refine ⟨a, b, q, fun x hx => ?_⟩
          obtain ⟨c, hc, rfl⟩ := List.mem_map.mp hx
          exact l c hc
        · intro p bytes hb
          cases p
          · exact h.openLength .u bytes hb
          · cases hb
          · exact h.openLength .b bytes hb
      · obtain ⟨_, _, e⟩ := laneLossB_footprint d down
        rw [e]
        refine ⟨h.quietU, fun hu => ?_, fun _ => ⟨rfl, rfl, ⟨rfl, rfl, rfl⟩, fun x hx => ?_⟩, fun _ => rfl, h.frontU, fun l hl => ?_, fun b hb => (by cases hb), ?_⟩
        · obtain ⟨a, b, q, l⟩ := h.quietA hu
          refine ⟨a, b, q, fun x hx => ?_⟩
          obtain ⟨c, hc, rfl⟩ := List.mem_map.mp hx
          exact l c hc
        · obtain ⟨c, _, rfl⟩ := List.mem_map.mp hx
          exact cutLive_notLive c.deliveryB
        · rw [← h.frontA l hl]; cases l.source <;> rfl
        · intro p bytes hb
          cases p
          · exact h.openLength .u bytes hb
          · exact h.openLength .a bytes hb
          · cases hb
  holdReset d h := by
    refine ⟨fun hu => ⟨(h.quietU hu).1, rfl⟩, fun hu => ?_, fun hu => ?_, h.notFitted, fun b hb => (by cases hb),
      fun l hl => (by cases hl), fun b hb => (by cases hb), ?_⟩
    · obtain ⟨a, _, q, l⟩ := h.quietA hu
      exact ⟨a, rfl, q, l⟩
    · obtain ⟨a, _, q, l⟩ := h.quietB hu
      exact ⟨a, rfl, q, l⟩
    · exact fun p bytes hb => h.openLength p bytes (by rw [← hb]; cases p <;> rfl)
  partReset d node fitted _ := by
    refine ⟨fun _ => ⟨rfl, rfl⟩, fun _ => ⟨rfl, rfl, ⟨rfl, rfl, rfl⟩, fun x hx => by cases hx⟩,
      fun _ => ⟨rfl, rfl, ⟨rfl, rfl, rfl⟩, fun x hx => by cases hx⟩, fun _ => rfl, fun b hb => (by cases hb),
      fun l hl => (by cases hl), fun b hb => (by cases hb), fun p bytes hb => ?_⟩
    cases p <;> cases hb
  produceLine d h := by
    unfold Device.produceLine
    split
    · split
      · exact h
      · rename_i c rest hf
        dsimp only
        split
        · exact (h.lineOnHead hf).close
        · exact h.lineOnHead hf
    · exact h
  arbiterChoice d h := by
    unfold Device.arbiterChoice
    split
    · rename_i hc
      simp only [Bool.and_eq_true, beq_iff_eq] at hc
      split
      · refine ⟨h.quietU, fun hu => absurd hc.1.2 hu, h.quietB, h.notFitted, h.frontU, fun l hl => ?_, h.frontB, ?_⟩
        · obtain ⟨p, hp, rfl⟩ := Option.map_eq_some_iff.mp hl
          rename_i s _
          have : ({ d with lastSource := s, laneA := (d.frontPacket s).map fun p => ⟨s, p.bytes⟩ } : Device).frontPacket s =
            d.frontPacket s := by cases s <;> rfl
          rw [this, hp]
          rfl
        · exact fun p bytes hb => h.openLength p bytes (by rw [← hb]; cases p <;> rfl)
      · exact h
    · exact h
  portBSend d h := by
    unfold Device.portBSend
    split
    · rename_i hc
      simp only [Bool.and_eq_true, beq_iff_eq] at hc
      split
      · rename_i i q hq
        refine ⟨h.quietU, h.quietA, fun hu => absurd hc.1.2 hu, h.notFitted, h.frontU, fun l hl => ?_, fun b hb => ?_, ?_⟩
        · rw [← h.frontA l hl]; cases l.source <;> rfl
        · show d.portB.queue.head?.map _ = _
          rw [hq, ← hb]
          rfl
        · exact fun p bytes hb => h.openLength p bytes (by rw [← hb]; cases p <;> rfl)
      · exact h
    · exact h
  upstreamSend d h := by
    unfold Device.upstreamSend
    split
    · rename_i hc
      simp only [Bool.and_eq_true, beq_iff_eq] at hc
      split
      · rename_i i q hq
        refine ⟨fun hu => absurd hc.2 hu, h.quietA, h.quietB, h.notFitted, fun b hb => ?_, fun l hl => ?_, h.frontB, ?_⟩
        · show d.upstream.head?.map _ = _
          rw [hq, ← hb]
          rfl
        · rw [← h.frontA l hl]; cases l.source <;> rfl
        · exact fun p bytes hb => h.openLength p bytes (by rw [← hb]; cases p <;> rfl)
      · exact h
    · exact h
  itemSent d p h := by
    unfold Device.itemSent
    split
    · cases p
      · refine ⟨h.quietU, fun hu => ?_, h.quietB, h.notFitted, h.frontU, fun l hl => (by cases hl), h.frontB, ?_⟩
        · obtain ⟨a, _, q, l⟩ := h.quietA hu
          refine ⟨a, rfl, ⟨q.1, q.2.1, ?_⟩, l⟩
          show d.portA.queue.tail = []
          rw [q.2.2]; rfl
        · exact fun p bytes hb => h.openLength p bytes (by rw [← hb]; cases p <;> rfl)
      · refine ⟨h.quietU, h.quietA, fun hu => ?_, h.notFitted, h.frontU, fun l hl => ?_, fun b hb => (by cases hb), ?_⟩
        · obtain ⟨a, _, q, l⟩ := h.quietB hu
          refine ⟨a, rfl, ⟨q.1, q.2.1, ?_⟩, l⟩
          show d.portB.queue.tail = []
          rw [q.2.2]; rfl
        · rw [← h.frontA l hl]; cases l.source <;> rfl
        · exact fun p bytes hb => h.openLength p bytes (by rw [← hb]; cases p <;> rfl)
    · exact h
  answerSent d h := by
    unfold Device.answerSent
    split
    · refine ⟨h.quietU, fun hu => ?_, h.quietB, h.notFitted, h.frontU, fun l hl => (by cases hl), h.frontB, ?_⟩
      · obtain ⟨a, _, q, l⟩ := h.quietA hu
        exact ⟨a, rfl, q, l⟩
      · exact fun p bytes hb => h.openLength p bytes (by rw [← hb]; cases p <;> rfl)
    · exact h
  passThroughSent d h := by
    unfold Device.passThroughSent
    split
    · refine ⟨h.quietU, fun hu => ?_, h.quietB, h.notFitted, h.frontU, fun l hl => (by cases hl), h.frontB, ?_⟩
      · obtain ⟨a, _, q, l⟩ := h.quietA hu
        exact ⟨a, rfl, q, l⟩
      · exact fun p bytes hb => h.openLength p bytes (by rw [← hb]; cases p <;> rfl)
    · exact h
  upstreamSent d h := by
    unfold Device.upstreamSent
    split
    · refine ⟨fun hu => ⟨(h.quietU hu).1, rfl⟩, h.quietA, h.quietB, h.notFitted, fun b hb => (by cases hb), fun l hl => ?_,
        h.frontB, ?_⟩
      · rw [← h.frontA l hl]; cases l.source <;> rfl
      · exact fun p bytes hb => h.openLength p bytes (by rw [← hb]; cases p <;> rfl)
    · exact h
  popCommand _ _ _ h _ := h.same rfl rfl
  answer d tag code r h _ := by
    refine ⟨h.quietU, h.quietA, h.quietB, h.notFitted, h.frontU, fun l hl => ?_, h.frontB, ?_⟩
    · have := h.frontA l hl
      cases hs : l.source <;> rw [hs] at this
      · simp only [Device.frontPacket, Option.map_map] at this ⊢
        exact head?_append_map _ _ _ _ this
      · exact this
      · exact this
    · exact fun p bytes hb => h.openLength p bytes (by rw [← hb]; cases p <;> rfl)
  zeroCounters _ h := h.same rfl rfl
  alerts _ _ h := h.same rfl rfl
  alertEnable _ _ h := h.same rfl rfl
  setMode d args h := by
    unfold runSetMode
    split
    · exact h
    · split <;> exact h.same rfl rfl
  setGeometry d args h := by
    unfold runSetGeometry
    dsimp only
    split
    · split <;> exact h.same rfl rfl
    · exact h
  setInput _ _ h := h.same rfl rfl
  setRoute _ _ _ h := h.same rfl rfl
  setPort d p enable crop h := by
    cases p
    · refine ⟨h.quietU, h.quietA, h.quietB, h.notFitted, h.frontU, fun l hl => ?_, h.frontB, ?_⟩
      · rw [← h.frontA l hl]; cases l.source <;> rfl
      · exact fun p bytes hb => h.openLength p bytes (by rw [← hb]; cases p <;> rfl)
    · refine ⟨h.quietU, h.quietA, h.quietB, h.notFitted, h.frontU, fun l hl => ?_, h.frontB, ?_⟩
      · rw [← h.frontA l hl]; cases l.source <;> rfl
      · exact fun p bytes hb => h.openLength p bytes (by rw [← hb]; cases p <;> rfl)
  profileOpen d args h := by
    unfold runProfileOpen
    dsimp only
    split
    · split <;> exact h.same rfl rfl
    · exact h
  profileWrite d args h := by
    unfold runProfileWrite
    dsimp only
    split
    · split
      · split <;> exact h.same rfl rfl
      · exact h
    · exact h
  profileClose d args h := by
    unfold runProfileClose
    split
    · dsimp only
      split
      · split
        · exact h
        · split <;> exact h.same rfl rfl
      · exact h
    · exact h
  profileRetire _ _ h := h.same rfl rfl
  resetPipeline d h := by
    obtain ⟨ps, e⟩ := foldl_unbindContext_footprint d.frames d
    unfold Device.resetPipeline
    rw [e]
    exact h.of rfl fun c hc => by cases hc
  resetProfiles _ h := h.same rfl rfl
  resetPort d p h := by
    unfold Device.resetPort
    cases p
    · refine ⟨h.quietU, fun hu => ?_, fun hu => ?_, h.notFitted, h.frontU, fun l hl => ?_, h.frontB, ?_⟩
      · obtain ⟨a, b, q, l⟩ := h.quietA hu
        refine ⟨a, b, ⟨rfl, q.2.1, ?_⟩, fun x hx => ?_⟩
        · have hu' : d.portA.link ≠ .up := hu
          show (if d.itemOnLane .a then d.portA.queue.take 1 else []) ++ (if d.portA.link = .up then [Item.restartMarker] else []) = []
          rw [if_neg hu', q.2.2]
          split <;> rfl
        · obtain ⟨c, _, rfl⟩ := List.mem_map.mp hx
          exact cutLive_notLive c.deliveryA
      · obtain ⟨a, b, q, l⟩ := h.quietB hu
        refine ⟨a, b, q, fun x hx => ?_⟩
        obtain ⟨c, hc, rfl⟩ := List.mem_map.mp hx
        exact l c hc
      · have hl : d.laneA = some l := hl
        have := h.frontA l hl
        cases hs : l.source <;> rw [hs] at this
        · exact this
        · exact this
        · have on : d.itemOnLane .a = true := by simp [Device.itemOnLane, hl, hs]
          show Option.map Packet.bytes (((if d.itemOnLane .a then d.portA.queue.take 1 else []) ++
            (if d.portA.link = .up then [Item.restartMarker] else [])).head?.map (Item.packet d.node)) = _
          rw [if_pos on, Option.map_map]
          apply head?_append_map
          rw [List.head?_take]
          simpa [Device.frontPacket, Option.map_map] using this
      · exact fun p bytes hb => h.openLength p bytes (by rw [← hb]; cases p <;> rfl)
    · refine ⟨h.quietU, fun hu => ?_, fun hu => ?_, h.notFitted, h.frontU, fun l hl => ?_, fun b hb => ?_, ?_⟩
      · obtain ⟨a, b, q, l⟩ := h.quietA hu
        refine ⟨a, b, q, fun x hx => ?_⟩
        obtain ⟨c, hc, rfl⟩ := List.mem_map.mp hx
        exact l c hc
      · obtain ⟨a, b, q, l⟩ := h.quietB hu
        refine ⟨a, b, ⟨rfl, q.2.1, ?_⟩, fun x hx => ?_⟩
        · have hu' : d.portB.link ≠ .up := hu
          show (if d.itemOnLane .b then d.portB.queue.take 1 else []) ++ (if d.portB.link = .up then [Item.restartMarker] else []) = []
          rw [if_neg hu', q.2.2]
          split <;> rfl
        · obtain ⟨c, _, rfl⟩ := List.mem_map.mp hx
          exact cutLive_notLive c.deliveryB
      · rw [← h.frontA l hl]; cases l.source <;> rfl
      · have hb : d.laneB = some b := hb
        have on : d.itemOnLane .b = true := by simp [Device.itemOnLane, hb]
        show Option.map _ ((if d.itemOnLane .b then d.portB.queue.take 1 else []) ++
            (if d.portB.link = .up then [Item.restartMarker] else [])).head? = _
        rw [if_pos on]
        apply head?_append_map
        rw [List.head?_take]
        exact h.frontB b hb
      · exact fun p bytes hb => h.openLength p bytes (by rw [← hb]; cases p <;> rfl)

end Sys2Proof.Machine
end

