-- ==== Sys2Proof/Laws/Requests.lean ====
section
/-! SUPPORT. Service requests: execution, the reading of argument bytes, and the checks of each command on its
arguments. -/

namespace Sys2Proof.Machine

/-- A request at the head of the queue with room for its answer is executed: its command runs, or BADLEN where its
arguments do not fit (R172, R174). -/
theorem exec_request {tag : Byte} {code : Byte} {args rest} {q : List Instr} {d : Device}
    (h : d.Asked (tag :: code :: args) rest)
  (n : Nat) (mine fits run) (c : Instr) (hc : ∀ s, exec c s = act (·.execute n mine fits run) s) (hn : code.toNat =
      n) (hm : mine args = true) :
  exec c ⟨q, d⟩ = .next ⟨q, if fits args then (run args { d with commands := rest }).1.answer tag code (run args { d with commands := rest }).2
     else d.answered rest tag code .badLen []⟩ := by
  obtain ⟨r, ⟨p, hp, hcm⟩, room⟩ := h
  rw [hc, act_running _ _ _ r]
  unfold Device.execute
  simp only [hcm, hp]
  rw [if_pos (by simp [hn, hm, Device.answerRoom, Config.queuePlaces, room])]
  cases fits args <;> rfl

/-- A request with as many argument bytes as its command takes runs it (R172, R174). -/
theorem exec_fixedRequest {tag code : Byte} {args rest} {q : List Instr} {d : Device}
    (h : d.Asked (tag :: code :: args) rest)
  (n len : Nat) (run) (c : Instr) (hc : ∀ s, exec c s = act (·.executeFixed n len run) s) (hn : code.toNat =
      n) (hl : args.length = len) :
  exec c ⟨q, d⟩ = .next ⟨q, (run args { d with commands := rest }).1.answer tag code (run args { d with commands := rest }).2⟩ := by
  rw [exec_request h n _ _ run c hc hn rfl, if_pos (by simp [hl])]

/-- An execution that is not the oldest request's, or has no room for its answer, leaves the part as it is: there is no
request, its body is too short, its code or its arguments are another row's (R172, R174; log entries 4 and 7). -/
theorem Device.execute_idle (d : Device) (n : Nat) (mine fits : List Byte → Bool)
    (run : List Byte → Device → Device × Reply)
    (h : ∀ p rest tag code args, d.commands = p :: rest → p.payload = tag :: code :: args →
      code.toNat ≠ n ∨ mine args = false ∨ 8 ≤ d.answers.length) : d.execute n mine fits run = d := by
  unfold Device.execute
  split
  · rfl
  · rename_i p rest hc
    split
    · rename_i tag code args hp
      rw [if_neg]
      simp only [Bool.and_eq_true, beq_iff_eq, Device.answerRoom, Config.queuePlaces, decide_eq_true_eq]
      rintro ⟨⟨hn, hm⟩, room⟩
      rcases h p rest tag code args hc hp with g | g | g
      · exact g hn
      · rw [hm] at g; cases g
      · omega
    · rfl

/-- RESET_PART leaves the part as it is where the oldest request is not it, or is answered and has no room (R172, R187; log
entry 4). -/
theorem Device.executeResetPart_idle (d : Device)
    (h : ∀ p rest tag code args, d.commands = p :: rest → p.payload = tag :: code :: args →
      code.toNat ≠ 17 ∨ (args ≠ [] ∧ 8 ≤ d.answers.length)) : d.executeResetPart = d := by
  unfold Device.executeResetPart
  split
  · rfl
  · rename_i p rest hc
    split
    · rename_i tag code args hp
      rcases h p rest tag code args hc hp with g | ⟨g, full⟩
      · rw [if_neg g]
      · have some : args.isEmpty = false := by simpa using g
        have none : d.answerRoom = false := by simp [Device.answerRoom, Config.queuePlaces] <;> exact full
        rw [some, none]
        split <;> rfl
    · rfl

/-- A RESET_BLOCK of another block is not the row's (R186; log entry 7). -/
theorem blockMine_other (n : Nat) (code : Byte) (small : code.toNat ≤ 4) (other : code.toNat ≠ n) :
    blockMine n [code] = false := by
  have e : fieldAt [code] 0 1 = code.toNat := by simp [fieldAt, beNat]
  simp [blockMine, e, other] <;> omega

theorem executions_kind : ∀ e ∈ executions, ∃ n mine fits run, (∀ s, exec e.1 s =
    act (·.execute n mine fits run) s) ∧ e.2.toNat = n ∨ (∀ s, exec e.1 s = act Device.executeResetPart s) ∧ e.2 =
    17 := by
  intro e he
  simp only [executions, List.mem_cons, List.not_mem_nil, or_false] at he
  rcases he with rfl|rfl|rfl|rfl|rfl|rfl|rfl|rfl|rfl|rfl|rfl|rfl|rfl|rfl|rfl|rfl|rfl|rfl|rfl|rfl|rfl
  all_goals first
    | exact ⟨_, _, _, _, .inl ⟨fun _ => rfl, rfl⟩⟩
    | exact ⟨0, fun _ => true, fun _ => true, runIdentify, .inr ⟨fun _ => rfl, rfl⟩⟩

theorem exec_resetPart_badLength {tag : Byte} {args rest} {q : List Instr} {d : Device}
    (h : d.Asked (tag :: 17 :: args) rest) (hl : args ≠ []) :
   exec .resetPart ⟨q, d⟩ = .next ⟨q, d.answered rest tag 17 .badLen []⟩ := by
  obtain ⟨r, ⟨p, hp, hcm⟩, room⟩ := h
  show act Device.executeResetPart ⟨q, d⟩ = _
  rw [act_running _ _ _ r]; unfold Device.executeResetPart; simp only [hcm, hp]
  have : args.isEmpty = false := by simpa using hl
  simp [this, Device.answerRoom, Config.queuePlaces, room]; rfl

theorem blockMine_badLength (n : Nat) (args : List Byte) (h : args.length ≠ 1) : blockMine n args = true := by
  have : (args.length != 1) = true := by simpa using h
  unfold blockMine; rw [this]; rfl

theorem mask_padded (m : BitVec 6) : (0#2 ++ m : BitVec 8).setWidth 6 = m ∧ maskFits (0#2 ++ m : BitVec 8) = true ∧
    m.setWidth 8 = (0#2 ++ m : BitVec 8) := by
  revert m; decide

theorem flatMap_zipIdx {α} (l : List α) (k : Nat) (f : α × Nat → List Byte) : (l.zipIdx k).flatMap f =
    (List.range l.length).flatMap fun i => match l[i]? with | some x => f (x, k + i) | none => [] := by
  induction l generalizing k with
  | nil => rfl
  | cons a l ih =>
    rw [List.zipIdx_cons, List.flatMap_cons, ih, List.length_cons, List.range_succ_eq_map, List.flatMap_cons,
        List.flatMap_map]
    simp only [List.getElem?_cons_zero, List.getElem?_cons_succ, Nat.add_zero]
    congr 1
    congr 1
    funext i
    cases l[i]? <;> simp [Nat.add_comm, Nat.add_left_comm]

theorem counterPairs_eq (v : Vector (BitVec 16) 26) : counterPairs v =
    (List.finRange 26).flatMap fun (i : Fin 26) => BitVec.ofNat 8 (i.val + 1) :: beBytes 2 (v[i]).toNat := by
  unfold counterPairs
  rw [flatMap_zipIdx]
  rw [show List.range v.toList.length = (List.finRange 26).map Fin.val by rw [Vector.length_toList]; decide]
  rw [List.flatMap_map]
  congr 1
  funext i
  simp

/-- A field written high byte first at an offset reads as its number. -/
theorem fieldAt_mid (pre post : List Byte) (w n off : Nat) (h : pre.length = off) : fieldAt (pre ++ (beBytes w n ++
    post)) off w = n % 256 ^ w := by
  unfold fieldAt
  rw [List.drop_append, h, List.drop_of_length_le (by omega), Nat.sub_self, List.drop_zero, List.nil_append,
      List.take_append, beBytes_length, List.take_of_length_le (Nat.le_of_eq (beBytes_length _ _)),
      Nat.sub_self, List.take_zero, List.append_nil, beNat_beBytes]

/-- A byte at an offset reads as its number. -/
theorem fieldAt_byte (pre post : List Byte) (b : Byte) (off : Nat) (h : pre.length = off) : fieldAt (pre ++
    (b :: post)) off 1 = b.toNat := by
  unfold fieldAt
  rw [List.drop_append, h, List.drop_of_length_le (by omega), Nat.sub_self, List.drop_zero, List.nil_append]
  simp [beNat]

theorem beBytes_length_two (n) : (beBytes 2 n).length = 2 := beBytes_length 2 n

theorem beBytes_length_four (n) : (beBytes 4 n).length = 4 := beBytes_length 4 n

/-- The fields of a SET_GEOMETRY are read where they are sent (R176). -/
theorem GeometryFields.ofBytes_bytes (g : SentGeometry) : GeometryFields.ofBytes g.bytes = ⟨g.width.toNat,
    g.height.toNat, g.phase.toNat, g.cx64.toNat, g.cy64.toNat, g.rref.toNat, g.edge.toNat, g.fill.toNat,
    g.bandHeight.toNat⟩ := by
  have w1 := g.width.isLt
  have w2 := g.height.isLt
  have w3 := g.cx64.isLt
  have w4 := g.cy64.isLt
  have w5 := g.rref.isLt
  have w6 := g.fill.isLt
  have f1 := fieldAt_mid [] (beBytes 2 g.height.toNat ++ [g.phase] ++ beBytes 4 g.cx64.toNat ++
      beBytes 4 g.cy64.toNat ++ beBytes 2 g.rref.toNat ++ [g.edge] ++ beBytes 2 g.fill.toNat ++
      [g.bandHeight]) 2 g.width.toNat 0 rfl
  have f2 := fieldAt_mid (beBytes 2 g.width.toNat) ([g.phase] ++ beBytes 4 g.cx64.toNat ++ beBytes 4 g.cy64.toNat ++
      beBytes 2 g.rref.toNat ++ [g.edge] ++ beBytes 2 g.fill.toNat ++
      [g.bandHeight]) 2 g.height.toNat 2 (beBytes_length_two _)
  have f3 := fieldAt_byte (beBytes 2 g.width.toNat ++ beBytes 2 g.height.toNat) (beBytes 4 g.cx64.toNat ++
      beBytes 4 g.cy64.toNat ++ beBytes 2 g.rref.toNat ++ [g.edge] ++ beBytes 2 g.fill.toNat ++
      [g.bandHeight]) g.phase 4 (by simp [beBytes_length_two])
  have f4 := fieldAt_mid (beBytes 2 g.width.toNat ++ beBytes 2 g.height.toNat ++
      [g.phase]) (beBytes 4 g.cy64.toNat ++ beBytes 2 g.rref.toNat ++ [g.edge] ++ beBytes 2 g.fill.toNat ++
      [g.bandHeight]) 4 g.cx64.toNat 5 (by simp [beBytes_length_two])
  have f5 := fieldAt_mid (beBytes 2 g.width.toNat ++ beBytes 2 g.height.toNat ++ [g.phase] ++
      beBytes 4 g.cx64.toNat) (beBytes 2 g.rref.toNat ++ [g.edge] ++ beBytes 2 g.fill.toNat ++
      [g.bandHeight]) 4 g.cy64.toNat 9 (by simp [beBytes_length_two, beBytes_length_four])
  have f6 := fieldAt_mid (beBytes 2 g.width.toNat ++ beBytes 2 g.height.toNat ++ [g.phase] ++
      beBytes 4 g.cx64.toNat ++ beBytes 4 g.cy64.toNat) ([g.edge] ++ beBytes 2 g.fill.toNat ++
      [g.bandHeight]) 2 g.rref.toNat 13 (by simp [beBytes_length_two, beBytes_length_four])
  have f7 := fieldAt_byte (beBytes 2 g.width.toNat ++ beBytes 2 g.height.toNat ++ [g.phase] ++
      beBytes 4 g.cx64.toNat ++ beBytes 4 g.cy64.toNat ++ beBytes 2 g.rref.toNat) (beBytes 2 g.fill.toNat ++
      [g.bandHeight]) g.edge 15 (by simp [beBytes_length_two, beBytes_length_four])
  have f8 := fieldAt_mid (beBytes 2 g.width.toNat ++ beBytes 2 g.height.toNat ++ [g.phase] ++
      beBytes 4 g.cx64.toNat ++ beBytes 4 g.cy64.toNat ++ beBytes 2 g.rref.toNat ++
      [g.edge]) ([g.bandHeight]) 2 g.fill.toNat 16 (by simp [beBytes_length_two, beBytes_length_four])
  have f9 := fieldAt_byte (beBytes 2 g.width.toNat ++ beBytes 2 g.height.toNat ++ [g.phase] ++
      beBytes 4 g.cx64.toNat ++ beBytes 4 g.cy64.toNat ++ beBytes 2 g.rref.toNat ++ [g.edge] ++
      beBytes 2 g.fill.toNat) [] g.bandHeight 18 (by simp [beBytes_length_two, beBytes_length_four])
  simp only [List.append_assoc, List.nil_append, List.cons_append] at f1 f2 f3 f4 f5 f6 f7 f8 f9
  unfold GeometryFields.ofBytes SentGeometry.bytes
  simp only [List.append_assoc, List.cons_append, List.nil_append, f1, f2, f3, f4, f5, f6, f7, f8, f9]
  rw [Nat.mod_eq_of_lt (by omega), Nat.mod_eq_of_lt (by omega), Nat.mod_eq_of_lt (by omega),
      Nat.mod_eq_of_lt (by omega), Nat.mod_eq_of_lt (by omega), Nat.mod_eq_of_lt (by omega)]

theorem eq_ofNat_iff (b : Byte) (n : Nat) (h : n < 256) : b = BitVec.ofNat 8 n ↔ b.toNat = n := by
  constructor
  · intro e; rw [e, BitVec.toNat_ofNat]; omega
  · intro e; apply BitVec.eq_of_toNat_eq; rw [e, BitVec.toNat_ofNat]; omega

theorem SentGeometry.inRange_nine (g : SentGeometry) : g.InRange 9 ↔ (g.bandHeight.toNat = 16 ∨ g.bandHeight.toNat =
    32 ∨ g.bandHeight.toNat = 64 ∨ g.bandHeight.toNat = 128) := by
  simp only [SentGeometry.InRange]
  have h1 : g.bandHeight = 16 ↔ _ := eq_ofNat_iff g.bandHeight 16 (by decide)
  have h2 : g.bandHeight = 32 ↔ _ := eq_ofNat_iff g.bandHeight 32 (by decide)
  have h3 : g.bandHeight = 64 ↔ _ := eq_ofNat_iff g.bandHeight 64 (by decide)
  have h4 : g.bandHeight = 128 ↔ _ := eq_ofNat_iff g.bandHeight 128 (by decide)
  rw [h1, h2, h3, h4]

theorem GeometryFields.firstBad_some (g : SentGeometry) (n : Nat) (hn : n ∈ [1, 2, 3, 4, 5, 6, 7, 8, 9])
    (hb : ¬ g.InRange n) (hp : ∀ m, m < n → g.InRange m) :
   (GeometryFields.ofBytes g.bytes).firstBad = some (BitVec.ofNat 8 n) := by
  rw [GeometryFields.ofBytes_bytes]
  unfold GeometryFields.firstBad
  dsimp only
  have e1 : ∀ k, k < n → g.InRange k := hp
  simp only [List.mem_cons, List.not_mem_nil, or_false] at hn
  have P1 : ∀ (h : g.InRange 1), ¬ ((decide (g.width.toNat < 64) || decide (8192 < g.width.toNat) || g.width.toNat % 16 != 0) = true) := by
    intro h; simp only [SentGeometry.InRange] at h; simp; omega
  have P2 : ∀ (h : g.InRange 2), ¬ ((decide (g.height.toNat < 64) || decide (16382 < g.height.toNat) || g.height.toNat % 2 != 0) = true) := by
    intro h; simp only [SentGeometry.InRange] at h; simp; omega
  have P3 : ∀ (h : g.InRange 3), ¬ (3 < g.phase.toNat) := by
    intro h; simp only [SentGeometry.InRange] at h; omega
  have P4 : ∀ (_ : g.InRange 1) (h : g.InRange 4), ¬ (64 * g.width.toNat - 1 < g.cx64.toNat) := by
    intro h1 h; simp only [SentGeometry.InRange] at h h1; omega
  have P5 : ∀ (_ : g.InRange 2) (h : g.InRange 5), ¬ (64 * g.height.toNat - 1 < g.cy64.toNat) := by
    intro h1 h; simp only [SentGeometry.InRange] at h h1; omega
  have P6 : ∀ (h : g.InRange 6), ¬ ((decide (g.rref.toNat = 0) || decide (8191 < g.rref.toNat)) = true) := by
    intro h; simp only [SentGeometry.InRange] at h; simp; omega
  have P7 : ∀ (h : g.InRange 7), ¬ (1 < g.edge.toNat) := by
    intro h; simp only [SentGeometry.InRange] at h; omega
  have P8 : ∀ (h : g.InRange 8), ¬ (16383 < g.fill.toNat) := by
    intro h; simp only [SentGeometry.InRange] at h; omega
  rcases hn with rfl|rfl|rfl|rfl|rfl|rfl|rfl|rfl|rfl
  · rw [if_pos]; rfl
    simp only [SentGeometry.InRange] at hb; simp; omega
  · rw [if_neg (P1 (hp 1 (by omega))), if_pos]; rfl
    simp only [SentGeometry.InRange] at hb; simp; omega
  · rw [if_neg (P1 (hp 1 (by omega))), if_neg (P2 (hp 2 (by omega))), if_pos]; rfl
    simp only [SentGeometry.InRange] at hb; omega
  · rw [if_neg (P1 (hp 1 (by omega))), if_neg (P2 (hp 2 (by omega))), if_neg (P3 (hp 3 (by omega))), if_pos]; rfl
    have h1 := hp 1 (by omega)
    simp only [SentGeometry.InRange] at hb h1; omega
  · rw [if_neg (P1 (hp 1 (by omega))), if_neg (P2 (hp 2 (by omega))), if_neg (P3 (hp 3 (by omega))),
        if_neg (P4 (hp 1 (by omega)) (hp 4 (by omega))), if_pos]
    rfl
    have h1 := hp 2 (by omega)
    simp only [SentGeometry.InRange] at hb h1; omega
  · rw [if_neg (P1 (hp 1 (by omega))), if_neg (P2 (hp 2 (by omega))), if_neg (P3 (hp 3 (by omega))),
        if_neg (P4 (hp 1 (by omega)) (hp 4 (by omega))), if_neg (P5 (hp 2 (by omega)) (hp 5 (by omega))), if_pos]
    rfl
    simp only [SentGeometry.InRange] at hb; simp; omega
  · rw [if_neg (P1 (hp 1 (by omega))), if_neg (P2 (hp 2 (by omega))), if_neg (P3 (hp 3 (by omega))),
        if_neg (P4 (hp 1 (by omega)) (hp 4 (by omega))), if_neg (P5 (hp 2 (by omega)) (hp 5 (by omega))),
        if_neg (P6 (hp 6 (by omega))), if_pos]
    rfl
    simp only [SentGeometry.InRange] at hb; omega
  · rw [if_neg (P1 (hp 1 (by omega))), if_neg (P2 (hp 2 (by omega))), if_neg (P3 (hp 3 (by omega))),
        if_neg (P4 (hp 1 (by omega)) (hp 4 (by omega))), if_neg (P5 (hp 2 (by omega)) (hp 5 (by omega))),
        if_neg (P6 (hp 6 (by omega))), if_neg (P7 (hp 7 (by omega))), if_pos]
    rfl
    simp only [SentGeometry.InRange] at hb; omega
  · rw [if_neg (P1 (hp 1 (by omega))), if_neg (P2 (hp 2 (by omega))), if_neg (P3 (hp 3 (by omega))),
        if_neg (P4 (hp 1 (by omega)) (hp 4 (by omega))), if_neg (P5 (hp 2 (by omega)) (hp 5 (by omega))),
        if_neg (P6 (hp 6 (by omega))), if_neg (P7 (hp 7 (by omega))), if_neg (P8 (hp 8 (by omega))), if_pos]
    rfl
    rw [SentGeometry.inRange_nine] at hb; simp; omega

theorem GeometryFields.firstBad_none (g : SentGeometry) (h : ∀ n, g.InRange n) :
    (GeometryFields.ofBytes g.bytes).firstBad = none := by
  rw [GeometryFields.ofBytes_bytes]
  unfold GeometryFields.firstBad
  dsimp only
  have h1 := h 1
  have h2 := h 2
  have h3 := h 3
  have h4 := h 4
  have h5 := h 5; have h6 := h 6; have h7 := h 7; have h8 := h 8; have h9 := (SentGeometry.inRange_nine g).mp (h 9)
  simp only [SentGeometry.InRange] at h1 h2 h3 h4 h5 h6 h7 h8
  rw [if_neg (by simp <;> omega), if_neg (by simp <;> omega), if_neg (by omega), if_neg (by omega), if_neg (by omega),
      if_neg (by simp <;> omega), if_neg (by omega), if_neg (by omega), if_neg (by simp <;> omega)]

theorem SentGeometry.bytes_length (g : SentGeometry) : g.bytes.length = 19 := by
  simp [SentGeometry.bytes, beBytes_length_two, beBytes_length_four]

theorem SentPort.bytes_length (s : SentPort) (c : Byte) : (c :: s.bytes).length = 10 := by
  simp [SentPort.bytes, beBytes_length_two]

/-- The fields of a SET_PORT are read where they are sent (R176). -/
theorem PortFields.ofBytes_bytes (s : SentPort) (code : Byte) : fieldAt (code :: s.bytes) 0 1 = code.toNat ∧
    PortFields.ofBytes (code :: s.bytes) = ⟨s.enable.toNat, ⟨s.colBase.toNat, s.colLimit.toNat, s.rowBase.toNat,
    s.rowLimit.toNat⟩⟩ := by
  have w1 := s.colBase.isLt
  have w2 := s.colLimit.isLt
  have w3 := s.rowBase.isLt
  have w4 := s.rowLimit.isLt
  have f0 := fieldAt_byte [] (s.enable :: (beBytes 2 s.colBase.toNat ++ beBytes 2 s.colLimit.toNat ++
      beBytes 2 s.rowBase.toNat ++ beBytes 2 s.rowLimit.toNat)) code 0 rfl
  have f1 := fieldAt_byte [code] (beBytes 2 s.colBase.toNat ++ beBytes 2 s.colLimit.toNat ++
      beBytes 2 s.rowBase.toNat ++ beBytes 2 s.rowLimit.toNat) s.enable 1 rfl
  have f2 := fieldAt_mid [code, s.enable] (beBytes 2 s.colLimit.toNat ++ beBytes 2 s.rowBase.toNat ++
      beBytes 2 s.rowLimit.toNat) 2 s.colBase.toNat 2 rfl
  have f3 := fieldAt_mid ([code, s.enable] ++ beBytes 2 s.colBase.toNat) (beBytes 2 s.rowBase.toNat ++
      beBytes 2 s.rowLimit.toNat) 2 s.colLimit.toNat 4 (by simp [beBytes_length_two])
  have f4 := fieldAt_mid ([code, s.enable] ++ beBytes 2 s.colBase.toNat ++
      beBytes 2 s.colLimit.toNat) (beBytes 2 s.rowLimit.toNat) 2 s.rowBase.toNat 6 (by simp [beBytes_length_two])
  have f5 := fieldAt_mid ([code, s.enable] ++ beBytes 2 s.colBase.toNat ++ beBytes 2 s.colLimit.toNat ++
      beBytes 2 s.rowBase.toNat) [] 2 s.rowLimit.toNat 8 (by simp [beBytes_length_two])
  simp only [List.append_assoc, List.nil_append, List.cons_append, List.append_nil] at f0 f1 f2 f3 f4 f5
  unfold PortFields.ofBytes SentPort.bytes
  simp only [List.append_assoc, List.cons_append, List.nil_append, f0, f1, f2, f3, f4, f5]
  rw [Nat.mod_eq_of_lt (by omega), Nat.mod_eq_of_lt (by omega), Nat.mod_eq_of_lt (by omega),
      Nat.mod_eq_of_lt (by omega)]
  exact ⟨trivial, rfl⟩

theorem PortFields.firstBad_bytes (s : SentPort) (c : Byte) :
   (∀ n ∈ [2, 3, 4, 5, 6], ¬ s.InRange n → (∀ m, m < n → s.InRange m) →
       (PortFields.ofBytes (c :: s.bytes)).firstBad = some (BitVec.ofNat 8 n)) ∧
   ((∀ n, s.InRange n) → s.colLimit < s.colBase → (PortFields.ofBytes (c :: s.bytes)).firstBad = some 4) ∧
   ((∀ n, s.InRange n) → s.colBase ≤ s.colLimit → s.rowLimit < s.rowBase →
       (PortFields.ofBytes (c :: s.bytes)).firstBad = some 6) ∧
   ((∀ n, s.InRange n) → s.colBase ≤ s.colLimit → s.rowBase ≤ s.rowLimit →
       (PortFields.ofBytes (c :: s.bytes)).firstBad = none) := by
  rw [(PortFields.ofBytes_bytes s c).2]
  unfold PortFields.firstBad
  dsimp only
  simp only [BitVec.lt_def, BitVec.le_def]
  have P2 : s.InRange 2 → ¬ (1 < s.enable.toNat) := by
    intro h; simp only [SentPort.InRange] at h; omega
  have P3 : s.InRange 3 → ¬ ((decide (8176 < s.colBase.toNat) || s.colBase.toNat % 16 != 0) = true) := by
    intro h; simp only [SentPort.InRange] at h; simp; omega
  have P4 : s.InRange 4 → ¬ ((decide (s.colLimit.toNat < 15) || decide (8191 < s.colLimit.toNat) || (s.colLimit.toNat + 1) % 16 != 0) = true) := by
    intro h; simp only [SentPort.InRange] at h; simp; omega
  have P5 : s.InRange 5 → ¬ ((decide (16380 < s.rowBase.toNat) || s.rowBase.toNat % 2 != 0) = true) := by
    intro h; simp only [SentPort.InRange] at h; simp; omega
  have P6 : s.InRange 6 → ¬ ((decide (s.rowLimit.toNat < 1) || decide (16381 < s.rowLimit.toNat) || s.rowLimit.toNat % 2 != 1) = true) := by
    intro h; simp only [SentPort.InRange] at h; simp; omega
  refine ⟨fun n hn hb hp => ?_, fun h hc => ?_, fun h hc hr => ?_, fun h hc hr => ?_⟩
  · simp only [List.mem_cons, List.not_mem_nil, or_false] at hn
    rcases hn with rfl|rfl|rfl|rfl|rfl
    · rw [if_pos]; rfl
      simp only [SentPort.InRange] at hb; omega
    · rw [if_neg (P2 (hp 2 (by omega))), if_pos]; rfl
      simp only [SentPort.InRange] at hb; simp; omega
    · rw [if_neg (P2 (hp 2 (by omega))), if_neg (P3 (hp 3 (by omega))), if_pos]; rfl
      simp only [SentPort.InRange] at hb; simp; omega
    · rw [if_neg (P2 (hp 2 (by omega))), if_neg (P3 (hp 3 (by omega))), if_neg (P4 (hp 4 (by omega))), if_pos]; rfl
      simp only [SentPort.InRange] at hb; simp; omega
    · rw [if_neg (P2 (hp 2 (by omega))), if_neg (P3 (hp 3 (by omega))), if_neg (P4 (hp 4 (by omega))),
          if_neg (P5 (hp 5 (by omega))), if_pos]
      rfl
      simp only [SentPort.InRange] at hb; simp; omega
  · rw [if_neg (P2 (h 2)), if_neg (P3 (h 3)), if_neg (P4 (h 4)), if_neg (P5 (h 5)), if_neg (P6 (h 6)), if_pos hc]
  · rw [if_neg (P2 (h 2)), if_neg (P3 (h 3)), if_neg (P4 (h 4)), if_neg (P5 (h 5)), if_neg (P6 (h 6)),
        if_neg (by omega), if_pos hr]
  · rw [if_neg (P2 (h 2)), if_neg (P3 (h 3)), if_neg (P4 (h 4)), if_neg (P5 (h 5)), if_neg (P6 (h 6)),
        if_neg (by omega), if_neg (by omega)]

/-- The profile table after unbinding every context of a list. -/
def unbindAll (cs : List FrameContext) (ps : Vector Entry 8) : Vector Entry 8 :=
  cs.foldl (fun ps c => match c.entry with | some e => ps.set e (ps[e]).unbind | none => ps) ps

theorem foldl_unbindContext (cs : List FrameContext) (d : Device) : cs.foldl Device.unbindContext d =
    { d with profiles := unbindAll cs d.profiles } := by
  induction cs generalizing d with
  | nil => rfl
  | cons c cs ih =>
    rw [List.foldl_cons, ih]
    unfold unbindAll
    rw [List.foldl_cons]
    unfold Device.unbindContext
    cases c.entry <;> rfl

/-- An entry unbound a number of times. -/
def unbindTimes (n : Nat) (x : Entry) : Entry := match n with | 0 => x | n + 1 => unbindTimes n x.unbind

theorem unbindAll_get (cs : List FrameContext) (ps : Vector Entry 8) (e : Fin 8) : (unbindAll cs ps)[e] =
    unbindTimes (boundContexts cs e) ps[e] := by
  induction cs generalizing ps with
  | nil => rfl
  | cons c cs ih =>
    unfold unbindAll
    rw [List.foldl_cons]
    show (unbindAll cs _)[e] = _
    rw [ih]
    unfold boundContexts
    rw [List.countP_cons]
    cases hc : c.entry with
    | none => simp
    | some f =>
      by_cases hf : f = e
      · subst hf
        simp [unbindTimes]
      · have : f.val ≠ e.val := fun h => hf (Fin.ext h)
        simp only [Fin.getElem_fin, Vector.getElem_set_ne _ _ this]
        simp [hf]

theorem unbindTimes_ready (n m : Nat) (p : Profile) : unbindTimes n (.ready p m) = .ready p (m - n) := by
  induction n generalizing m with
  | zero => rfl
  | succ n ih => unfold unbindTimes; unfold Entry.unbind; rw [ih]; congr 1; omega

theorem unbindTimes_retiring (n m : Nat) (p : Profile) (h : n < m) : unbindTimes n (.retiring p m) =
    .retiring p (m - n) := by
  induction n generalizing m with
  | zero => rfl
  | succ n ih => unfold unbindTimes; unfold Entry.unbind; simp only; rw [if_neg (by omega),
      ih _ (by omega)]; congr 1; omega

theorem unbindTimes_empty (n : Nat) : unbindTimes n .empty = .empty := by
  induction n with
  | zero => rfl
  | succ n ih => unfold unbindTimes; exact ih

theorem unbindTimes_last (n : Nat) (p : Profile) (h : 0 < n) : unbindTimes n (.retiring p n) = .empty := by
  have : ∀ n m, m ≤ n → 0 < n → unbindTimes n (.retiring p m) = .empty := by
    intro n
    induction n with
    | zero => intro m _ h; omega
    | succ n ih =>
      intro m hm _
      unfold unbindTimes; unfold Entry.unbind; simp only
      by_cases h1 : m - 1 = 0
      · rw [if_pos h1, unbindTimes_empty]
      · rw [if_neg h1]; exact ih _ (by omega) (by omega)
  exact this n n (Nat.le_refl _) h

theorem Entry.retire_cases (x : Entry) : (x = .empty ∨ (∃ p, x = .loading p) ∨ (∃ p, x = .ready p 0) → x.retire =
    .empty) ∧ (∀ p n, (x = .ready p n ∧ n ≠ 0) ∨ x = .retiring p n → x.retire = .retiring p n) := by
  constructor
  · rintro (h | ⟨p, h⟩ | ⟨p, h⟩) <;> rw [h] <;> rfl
  · rintro p n (⟨h, hn⟩ | h)
    · rw [h]; simp [Entry.retire, hn]
    · rw [h]; rfl

/-- A RESET_BLOCK resets its block, or is refused BADARG (R184). -/
theorem exec_blockReset {tag b : Byte} {rest} {q : List Instr} {d : Device} (h : d.Asked [tag, 16, b] rest)
    (code : Nat) (reset : Device → Device) (c : Instr)
   (hc : ∀ s, exec c s = act (·.executeResetBlock code reset) s) (hb : b.toNat = code ∨ 4 < b.toNat) :
   exec c ⟨q, d⟩ = .next ⟨q, if 4 < b.toNat then d.answered rest tag 16 .badArg [1] else (reset { d with commands := rest }).answer tag 16 ⟨.ok, [b]⟩⟩ := by
  have fe : fieldAt [b] 0 1 = b.toNat := by simp [fieldAt, beNat]
  rw [exec_request h 16 (blockMine code) _ _ c hc rfl (by unfold blockMine; rw [fe]; rcases hb with hb | hb <;> simp [hb])]
  rw [if_pos (by rfl)]
  unfold runResetBlock
  rw [fe]
  split <;> rfl

theorem halfWordBytes_length (l : List (BitVec 16)) : (halfWordBytes l).length = 2 * l.length := by
  induction l with
  | nil => rfl
  | cons v l ih =>
    unfold halfWordBytes at *
    rw [List.flatMap_cons, List.length_append, beBytes_length_two, ih, List.length_cons]; omega

theorem halfWords_halfWordBytes (l : List (BitVec 16)) (post : List Byte) : halfWords l.length (halfWordBytes l ++
    post) = l.map BitVec.toNat := by
  induction l with
  | nil => rfl
  | cons v l ih =>
    have e : halfWordBytes (v :: l) = beBytes 2 v.toNat ++ halfWordBytes l := by
      unfold halfWordBytes; rw [List.flatMap_cons]
    rw [e, List.length_cons, halfWords, List.append_assoc,
        List.take_append_of_le_length (by rw [beBytes_length_two] <;> omega),
        List.take_of_length_le (by rw [beBytes_length_two] <;> omega),
      List.drop_append_of_le_length (by rw [beBytes_length_two] <;> omega),
          List.drop_of_length_le (by rw [beBytes_length_two] <;> omega), List.nil_append, ih, beNat_beBytes,
          List.map_cons]
    have := v.isLt
    rw [Nat.mod_eq_of_lt (by omega)]

/-- The fields of a PROFILE_OPEN are read where they are sent (R177). -/
theorem OpenFields.ofBytes_bytes (o : SentOpen) (h1 : o.focal.length < 256) (h2 : o.focus.length < 256) :
    OpenFields.ofBytes o.bytes =
   ⟨o.entry.toNat, o.lensId, o.converter.toNat, o.focal.length, o.focus.length, o.focal.map BitVec.toNat,
       o.focus.map BitVec.toNat, o.reachUp.toNat, o.reachDown.toNat⟩ := by
  have w1 := o.reachUp.isLt
  have w2 := o.reachDown.isLt
  have w3 := o.lensId.isLt
  have f0 := fieldAt_byte [] (beBytes 4 o.lensId.toNat ++ [o.converter, BitVec.ofNat 8 o.focal.length,
      BitVec.ofNat 8 o.focus.length]
    ++ halfWordBytes o.focal ++ halfWordBytes o.focus ++ beBytes 2 o.reachUp.toNat ++
        beBytes 2 o.reachDown.toNat) o.entry 0 rfl
  have f1 := fieldAt_mid [o.entry] ([o.converter, BitVec.ofNat 8 o.focal.length, BitVec.ofNat 8 o.focus.length]
    ++ halfWordBytes o.focal ++ halfWordBytes o.focus ++ beBytes 2 o.reachUp.toNat ++
        beBytes 2 o.reachDown.toNat) 4 o.lensId.toNat 1 rfl
  have f2 := fieldAt_byte ([o.entry] ++ beBytes 4 o.lensId.toNat) ([BitVec.ofNat 8 o.focal.length,
      BitVec.ofNat 8 o.focus.length]
    ++ halfWordBytes o.focal ++ halfWordBytes o.focus ++ beBytes 2 o.reachUp.toNat ++
        beBytes 2 o.reachDown.toNat) o.converter 5 (by simp [beBytes_length_four])
  have f3 := fieldAt_byte ([o.entry] ++ beBytes 4 o.lensId.toNat ++ [o.converter]) ([BitVec.ofNat 8 o.focus.length]
    ++ halfWordBytes o.focal ++ halfWordBytes o.focus ++ beBytes 2 o.reachUp.toNat ++
        beBytes 2 o.reachDown.toNat) (BitVec.ofNat 8 o.focal.length) 6 (by simp [beBytes_length_four])
  have f4 := fieldAt_byte ([o.entry] ++ beBytes 4 o.lensId.toNat ++ [o.converter, BitVec.ofNat 8 o.focal.length]) (
    halfWordBytes o.focal ++ halfWordBytes o.focus ++ beBytes 2 o.reachUp.toNat ++
        beBytes 2 o.reachDown.toNat) (BitVec.ofNat 8 o.focus.length) 7 (by simp [beBytes_length_four])
  have f5 := fieldAt_mid ([o.entry] ++ beBytes 4 o.lensId.toNat ++ [o.converter, BitVec.ofNat 8 o.focal.length,
      BitVec.ofNat 8 o.focus.length]
    ++ halfWordBytes o.focal ++ halfWordBytes o.focus) (beBytes 2 o.reachDown.toNat) 2 o.reachUp.toNat (8 + 2 * (o.focal.length + o.focus.length)) (by simp [beBytes_length_four, halfWordBytes_length] <;> omega)
  have f6 := fieldAt_mid ([o.entry] ++ beBytes 4 o.lensId.toNat ++ [o.converter, BitVec.ofNat 8 o.focal.length,
      BitVec.ofNat 8 o.focus.length]
    ++ halfWordBytes o.focal ++ halfWordBytes o.focus ++
        beBytes 2 o.reachUp.toNat) [] 2 o.reachDown.toNat (10 + 2 * (o.focal.length + o.focus.length)) (by simp [beBytes_length_four, beBytes_length_two, halfWordBytes_length] <;> omega)
  have b1 : (BitVec.ofNat 8 o.focal.length).toNat = o.focal.length := by rw [BitVec.toNat_ofNat]; omega
  have b2 : (BitVec.ofNat 8 o.focus.length).toNat = o.focus.length := by rw [BitVec.toNat_ofNat]; omega
  have l1 : halfWords o.focal.length (o.bytes.drop 8) = o.focal.map BitVec.toNat := by
    have : o.bytes = ([o.entry] ++ beBytes 4 o.lensId.toNat ++ [o.converter, BitVec.ofNat 8 o.focal.length,
        BitVec.ofNat 8 o.focus.length])
      ++ (halfWordBytes o.focal ++ (halfWordBytes o.focus ++ beBytes 2 o.reachUp.toNat ++
          beBytes 2 o.reachDown.toNat)) := by
      unfold SentOpen.bytes; simp only [List.append_assoc]
    rw [this, List.drop_append, List.drop_of_length_le (by simp [beBytes_length_four]), List.nil_append]
    have : 8 - ([o.entry] ++ beBytes 4 o.lensId.toNat ++ [o.converter, BitVec.ofNat 8 o.focal.length,
        BitVec.ofNat 8 o.focus.length]).length = 0 := by
      simp [beBytes_length_four]
    rw [this, List.drop_zero, halfWords_halfWordBytes]
  have l2 : halfWords o.focus.length (o.bytes.drop (8 + 2 * o.focal.length)) = o.focus.map BitVec.toNat := by
    have : o.bytes = ([o.entry] ++ beBytes 4 o.lensId.toNat ++ [o.converter, BitVec.ofNat 8 o.focal.length,
        BitVec.ofNat 8 o.focus.length] ++ halfWordBytes o.focal)
      ++ (halfWordBytes o.focus ++ (beBytes 2 o.reachUp.toNat ++ beBytes 2 o.reachDown.toNat)) := by
      unfold SentOpen.bytes; simp only [List.append_assoc]
    have L : ([o.entry] ++ beBytes 4 o.lensId.toNat ++ [o.converter, BitVec.ofNat 8 o.focal.length,
        BitVec.ofNat 8 o.focus.length] ++ halfWordBytes o.focal).length = 8 + 2 * o.focal.length := by
      simp [beBytes_length_four, halfWordBytes_length]; omega
    rw [this, List.drop_append, L, List.drop_of_length_le (by rw [L] <;> omega), List.nil_append, Nat.sub_self,
        List.drop_zero, halfWords_halfWordBytes]
  unfold OpenFields.ofBytes
  have E : o.bytes = [o.entry] ++ beBytes 4 o.lensId.toNat ++ [o.converter, BitVec.ofNat 8 o.focal.length,
      BitVec.ofNat 8 o.focus.length]
    ++ halfWordBytes o.focal ++ halfWordBytes o.focus ++ beBytes 2 o.reachUp.toNat ++ beBytes 2 o.reachDown.toNat :=
        rfl
  simp only [List.append_assoc, List.nil_append, List.cons_append, List.append_nil] at f0 f1 f2 f3 f4 f5 f6 E
  rw [← E] at f0 f1 f2 f3 f4 f5 f6
  rw [b1] at f3; rw [b2] at f4
  simp only [f0, f1, f2, f3, f4, f5, f6, l1, l2]
  rw [Nat.mod_eq_of_lt (by omega), Nat.mod_eq_of_lt (by omega), Nat.mod_eq_of_lt (by omega)]
  simp

theorem SentOpen.bytes_length (o : SentOpen) : o.bytes.length = 12 + 2 * (o.focal.length + o.focus.length) := by
  simp [SentOpen.bytes, beBytes_length_two, beBytes_length_four, halfWordBytes_length]; omega

theorem openFits_bytes (o : SentOpen) (h1 : o.focal.length < 256) (h2 : o.focus.length < 256) : openFits o.bytes =
    true := by
  have e := OpenFields.ofBytes_bytes o h1 h2
  have e1 : fieldAt o.bytes 6 1 = o.focal.length := congrArg OpenFields.focalCount e
  have e2 : fieldAt o.bytes 7 1 = o.focus.length := congrArg OpenFields.focusCount e
  unfold openFits
  rw [e1, e2, SentOpen.bytes_length]
  simp; omega

theorem stationFault_increasing (l : List (BitVec 16)) (pos : Nat) (h : l.Pairwise (· < ·)) :
    stationFault pos (l.map BitVec.toNat) = none := by
  induction l generalizing pos with
  | nil => rfl
  | cons a l ih =>
    cases l with
    | nil => rfl
    | cons b l =>
      have hab : a < b := (List.pairwise_cons.mp h).1 b (by simp)
      rw [BitVec.lt_def] at hab
      show (if b.toNat ≤ a.toNat then _ else _) = none
      rw [if_neg (by omega)]
      exact ih _ (List.pairwise_cons.mp h).2

theorem stationFault_append (before : List (BitVec 16)) (a b : BitVec 16) (after : List (BitVec 16)) (pos : Nat)
    (h : (before ++ [a]).Pairwise (· < ·)) (hb : b ≤ a) :
    stationFault pos ((before ++ a :: b :: after).map BitVec.toNat) = some (pos + before.length + 1) := by
  induction before generalizing pos with
  | nil =>
    rw [BitVec.le_def] at hb
    show (if b.toNat ≤ a.toNat then _ else _) = _
    rw [if_pos hb]; rfl
  | cons x l ih =>
    have hx := List.pairwise_cons.mp h
    cases l with
    | nil =>
      have hxa : x < a := hx.1 a (by simp)
      rw [BitVec.lt_def] at hxa
      show (if a.toNat ≤ x.toNat then _ else stationFault (pos + 1) _) = _
      rw [if_neg (by omega)]
      have := ih (pos + 1) hx.2
      simp only [List.nil_append, List.map_cons] at this ⊢
      rw [this]; simp
    | cons y l =>
      have hxa : x < y := hx.1 y (by simp)
      rw [BitVec.lt_def] at hxa
      show (if y.toNat ≤ x.toNat then _ else stationFault (pos + 1) _) = _
      rw [if_neg (by omega)]
      have := ih (pos + 1) hx.2
      refine this.trans ?_
      simp; omega

theorem stationFault_firstFault (l : List (BitVec 16)) (p : Nat) (h : FirstFault l p) :
    stationFault 1 (l.map BitVec.toNat) = some p := by
  obtain ⟨b, a, c, r, rfl, hp, hb, rfl⟩ := h
  rw [stationFault_append _ _ _ _ _ hp hb]; congr 1; omega

theorem any_zero_iff (l : List (BitVec 16)) : (l.map BitVec.toNat).any (· == 0) = true ↔ 0 ∈ l := by
  simp only [List.any_eq_true, List.mem_map, beq_iff_eq]
  constructor
  · rintro ⟨_, ⟨x, hx, rfl⟩, h0⟩
    have : x = 0 := BitVec.eq_of_toNat_eq h0
    exact this ▸ hx
  · intro h; exact ⟨0, ⟨0, h, rfl⟩, rfl⟩

theorem OpenFields.refusal_bytes (o : SentOpen) (h1 : o.focal.length < 256) (h2 : o.focus.length < 256) (e : Entry) :
   (e ≠ .empty → (OpenFields.ofBytes o.bytes).refusal e = some ⟨.state, [e.code]⟩) ∧
   (e = .empty →
     (∀ n ∈ [3, 4, 5, 6], ¬ o.InRange n → (∀ m, m < n → o.InRange m) → (OpenFields.ofBytes o.bytes).refusal e =
         some ⟨.badArg, [BitVec.ofNat 8 n, 0]⟩) ∧
     (∀ position, (∀ n, o.InRange n) → FirstFault o.focal position → (OpenFields.ofBytes o.bytes).refusal e =
         some ⟨.badStation, [1, BitVec.ofNat 8 position]⟩) ∧
     (∀ position, (∀ n, o.InRange n) → o.focal.Pairwise (· < ·) → FirstFault o.focus position →
         (OpenFields.ofBytes o.bytes).refusal e = some ⟨.badStation, [2, BitVec.ofNat 8 position]⟩) ∧
     ((∀ n, o.InRange n) → o.focal.Pairwise (· < ·) → o.focus.Pairwise (· < ·) →
         (OpenFields.ofBytes o.bytes).refusal e = none)) := by
  rw [OpenFields.ofBytes_bytes o h1 h2]
  unfold OpenFields.refusal
  dsimp only
  have P3 : o.InRange 3 → ¬ (3 < o.converter.toNat) := by intro h; simp only [SentOpen.InRange] at h; omega
  have P4 : o.InRange 4 → ¬ ((decide (o.focal.length = 0) || decide (Config.maxFocalStations < o.focal.length)) =
      true) := by
    intro h
    simp only [SentOpen.InRange] at h; simp only [Config.maxFocalStations, Bool.or_eq_true, decide_eq_true_eq]; omega
  have P5 : o.InRange 5 → ¬ ((decide (o.focus.length = 0) || decide (Config.maxFocusStations < o.focus.length)) =
      true) := by
    intro h
    simp only [SentOpen.InRange] at h; simp only [Config.maxFocusStations, Bool.or_eq_true, decide_eq_true_eq]; omega
  have P6 : o.InRange 6 → ¬ ((o.focal.map BitVec.toNat).any (· == 0) = true) := by
    intro h; simp only [SentOpen.InRange] at h; exact fun e => h ((any_zero_iff _).mp e)
  refine ⟨fun he => ?_, fun he => ?_⟩
  · rw [if_pos (by simpa using he)]
  · subst he
    rw [if_neg (by simp)]
    refine ⟨fun n hn hb hp => ?_, fun p h hf => ?_, fun p h hi hf => ?_, fun h hi hj => ?_⟩
    · simp only [List.mem_cons, List.not_mem_nil, or_false] at hn
      rcases hn with rfl|rfl|rfl|rfl
      · rw [if_pos]; rfl
        simp only [SentOpen.InRange] at hb; omega
      · rw [if_neg (P3 (hp 3 (by omega))), if_pos]; rfl
        simp only [SentOpen.InRange] at hb
        simp only [Config.maxFocalStations, Bool.or_eq_true, decide_eq_true_eq]; omega
      · rw [if_neg (P3 (hp 3 (by omega))), if_neg (P4 (hp 4 (by omega))), if_pos]; rfl
        simp only [SentOpen.InRange] at hb
        simp only [Config.maxFocusStations, Bool.or_eq_true, decide_eq_true_eq]; omega
      · rw [if_neg (P3 (hp 3 (by omega))), if_neg (P4 (hp 4 (by omega))), if_neg (P5 (hp 5 (by omega))), if_pos]; rfl
        simp only [SentOpen.InRange] at hb
        exact (any_zero_iff _).mpr (Classical.byContradiction hb)
    · rw [if_neg (P3 (h 3)), if_neg (P4 (h 4)), if_neg (P5 (h 5)), if_neg (P6 (h 6)), stationFault_firstFault _ _ hf]
    · rw [if_neg (P3 (h 3)), if_neg (P4 (h 4)), if_neg (P5 (h 5)), if_neg (P6 (h 6)), stationFault_increasing _ _ hi,
          stationFault_firstFault _ _ hf]
    · rw [if_neg (P3 (h 3)), if_neg (P4 (h 4)), if_neg (P5 (h 5)), if_neg (P6 (h 6)), stationFault_increasing _ _ hi,
          stationFault_increasing _ _ hj]

/-- The item a sent item is read as. -/
def SentItem.item : SentItem → WriteItem
  | .literal v => .literal v.toInt
  | .run n v => .run n.toNat v.toInt

theorem signed24_beBytes (v : BitVec 24) (post : List Byte) : signed24 ((beBytes 3 v.toNat ++ post).take 3) =
    v.toInt := by
  rw [List.take_append_of_le_length (by rw [beBytes_length] <;> omega),
      List.take_of_length_le (by rw [beBytes_length] <;> omega)]
  unfold signed24; rw [beNat_beBytes]
  have := v.isLt
  rw [Nat.mod_eq_of_lt (by omega)]; simp

/-- The items of a PROFILE_WRITE are read as they are sent (R177). -/
theorem writeItems_bytes (items : List SentItem) (fuel : Nat) (h : items.length ≤ fuel) :
    writeItems fuel (items.flatMap SentItem.bytes) = some (items.map SentItem.item) := by
  induction items generalizing fuel with
  | nil => cases fuel <;> rfl
  | cons i l ih =>
    cases fuel with
    | zero => simp at h
    | succ fuel =>
      have hl : l.length ≤ fuel := by simp at h; exact h
      cases i with
      | literal v =>
        rw [List.flatMap_cons]
        show writeItems (fuel + 1) (0 :: (beBytes 3 v.toNat ++ l.flatMap SentItem.bytes)) = _
        unfold writeItems
        rw [if_pos rfl, if_neg (by simp [beBytes_length]),
            List.drop_append_of_le_length (by rw [beBytes_length] <;> omega),
            List.drop_of_length_le (by rw [beBytes_length] <;> omega), List.nil_append, ih fuel hl, signed24_beBytes]
        rfl
      | run n v =>
        rw [List.flatMap_cons]
        show writeItems (fuel + 1) (1 :: (beBytes 2 n.toNat ++ beBytes 3 v.toNat ++ l.flatMap SentItem.bytes)) = _
        unfold writeItems
        have d2 : (beBytes 2 n.toNat ++ beBytes 3 v.toNat ++ l.flatMap SentItem.bytes).drop 2 = beBytes 3 v.toNat ++
            l.flatMap SentItem.bytes := by
          rw [List.append_assoc, List.drop_append_of_le_length (by rw [beBytes_length] <;> omega),
              List.drop_of_length_le (by rw [beBytes_length] <;> omega), List.nil_append]
        have d5 : (beBytes 2 n.toNat ++ beBytes 3 v.toNat ++ l.flatMap SentItem.bytes).drop 5 =
            l.flatMap SentItem.bytes := by
          rw [List.drop_append_of_le_length (by simp [beBytes_length]),
              List.drop_of_length_le (by simp [beBytes_length]), List.nil_append]
        have t2 : (beBytes 2 n.toNat ++ beBytes 3 v.toNat ++ l.flatMap SentItem.bytes).take 2 = beBytes 2 n.toNat :=
            by
          rw [List.append_assoc, List.take_append_of_le_length (by rw [beBytes_length] <;> omega),
              List.take_of_length_le (by rw [beBytes_length] <;> omega)]
        rw [if_neg (by decide), if_pos rfl, if_neg (by simp [beBytes_length] <;> omega), d5, d2, t2, ih fuel hl,
            signed24_beBytes, beNat_beBytes]
        have := n.isLt
        rw [Nat.mod_eq_of_lt (by omega)]; rfl

theorem beBytes_beNat (w : Nat) (l : List Byte) (h : l.length = w) : beBytes w (beNat l) = l := by
  subst h
  induction l with
  | nil => rfl
  | cons b l ih =>
    show beBytes (l.length + 1) _ = _
    have e : beNat (b :: l) = b.toNat * 256 ^ l.length + beNat l := by
      unfold beNat
      rw [List.foldl_cons]
      have K : ∀ (l : List Byte) k, l.foldl (fun n (b : Byte) => n * 256 + b.toNat) k =
          k * 256 ^ l.length + l.foldl (fun n (b : Byte) => n * 256 + b.toNat) 0 := by
        intro l
        induction l with
        | nil => intro k; simp
        | cons c l ih =>
          intro k
          rw [List.foldl_cons, List.foldl_cons, ih, ih (0 * 256 + c.toNat), List.length_cons, Nat.pow_succ,
              Nat.add_mul]
          rw [Nat.zero_mul, Nat.zero_add]
          have : k * 256 * 256 ^ l.length = k * (256 ^ l.length * 256) := by ac_rfl
          rw [this, Nat.add_assoc]
      rw [K]; simp
    have lt := beNat_lt l
    unfold beBytes
    rw [e]
    have q : (b.toNat * 256 ^ l.length + beNat l) / 256 ^ l.length = b.toNat := by
      rw [Nat.mul_comm, Nat.mul_add_div (Nat.pow_pos (by decide)), Nat.div_eq_of_lt lt]; rfl
    rw [q]
    have m : ∀ w n k, w ≤ k → beBytes w (n * 256 ^ k + beNat l) = beBytes w (beNat l) := by
      intro w
      induction w with
      | zero => intros; rfl
      | succ w iw =>
        intro n k hk
        unfold beBytes
        rw [iw n k (by omega)]
        congr 1
        obtain ⟨j, rfl⟩ : ∃ j, k = w + (j + 1) := ⟨k - w - 1, by omega⟩
        have : n * 256 ^ (w + (j + 1)) = 256 ^ w * (256 * (n * 256 ^ j)) := by
          rw [Nat.pow_add, Nat.pow_succ]; ac_rfl
        rw [this, Nat.mul_add_div (Nat.pow_pos (by decide))]
        apply BitVec.eq_of_toNat_eq
        rw [BitVec.toNat_ofNat, BitVec.toNat_ofNat]; omega
    rw [m _ _ _ (Nat.le_refl _), ih]; simp

theorem bytes_of_writeItems (fuel : Nat) (bytes : List Byte) (ws : List WriteItem) (h : writeItems fuel bytes =
    some ws) : ∃ items : List SentItem, bytes = items.flatMap SentItem.bytes := by
  induction fuel generalizing bytes ws with
  | zero =>
    cases bytes with
    | nil => exact ⟨[], rfl⟩
    | cons b l => simp [writeItems] at h
  | succ fuel ih =>
    cases bytes with
    | nil => exact ⟨[], rfl⟩
    | cons b l =>
      unfold writeItems at h
      have B : ∀ w (k : List Byte), k.length = w → ∃ v : BitVec (8 * w), beBytes w v.toNat = k := by
        intro w k hk
        refine ⟨BitVec.ofNat _ (beNat k), ?_⟩
        have := beNat_lt k
        rw [BitVec.toNat_ofNat, Nat.pow_mul, Nat.mod_eq_of_lt (by rw [hk] at this; exact this), beBytes_beNat w k hk]
      split at h
      · split at h
        · cases h
        · rename_i hb hl
          cases hr : writeItems fuel (l.drop 3) with
          | none => rw [hr] at h; simp at h
          | some ws' =>
            obtain ⟨items, hi⟩ := ih _ _ hr
            obtain ⟨v, hv⟩ := B 3 (l.take 3) (by simp <;> omega)
            refine ⟨.literal v :: items, ?_⟩
            rw [List.flatMap_cons, ← hi]
            show b :: l = 0 :: (beBytes 3 v.toNat ++ _)
            rw [hv, List.take_append_drop, hb]
      · split at h
        · split at h
          · cases h
          · rename_i hb hl
            cases hr : writeItems fuel (l.drop 5) with
            | none => rw [hr] at h; simp at h
            | some ws' =>
              obtain ⟨items, hi⟩ := ih _ _ hr
              obtain ⟨n, hn⟩ := B 2 (l.take 2) (by simp <;> omega)
              obtain ⟨v, hv⟩ := B 3 ((l.drop 2).take 3) (by simp <;> omega)
              refine ⟨.run n v :: items, ?_⟩
              rw [List.flatMap_cons, ← hi]
              show b :: l = 1 :: (beBytes 2 n.toNat ++ beBytes 3 v.toNat ++ _)
              rw [hn, hv, hb, List.append_assoc]
              have : l.drop 5 = (l.drop 2).drop 3 := by rw [List.drop_drop]
              rw [this, List.take_append_drop, List.take_append_drop]
        · cases h

/-- The fields of a PROFILE_WRITE are read where they are sent (R177). -/
theorem writeBytes_fields (entry : Byte) (start : BitVec 16) (items : List SentItem) :
    itemsOf (writeBytes entry start items) = some (items.map SentItem.item) ∧
  fieldAt (writeBytes entry start items) 0 1 = entry.toNat ∧ fieldAt (writeBytes entry start items) 1 2 =
      start.toNat ∧ writeFits (writeBytes entry start items) = true := by
  have D : (writeBytes entry start items).drop 3 = items.flatMap SentItem.bytes := by
    unfold writeBytes
    show (beBytes 2 start.toNat ++ _).drop 2 = _
    rw [List.drop_append_of_le_length (by rw [beBytes_length] <;> omega),
        List.drop_of_length_le (by rw [beBytes_length] <;> omega), List.nil_append]
  have L : (writeBytes entry start items).length = 3 + (items.flatMap SentItem.bytes).length := by
    unfold writeBytes; simp [beBytes_length]; omega
  have C : items.length ≤ (items.flatMap SentItem.bytes).length := by
    clear D L
    induction items with
    | nil => simp
    | cons i l ih =>
      rw [List.flatMap_cons, List.length_append, List.length_cons]
      have : 1 ≤ i.bytes.length := by cases i <;> simp [SentItem.bytes]
      omega
  have I : itemsOf (writeBytes entry start items) = some (items.map SentItem.item) := by
    unfold itemsOf; rw [D, writeItems_bytes _ _ (by omega)]
  refine ⟨I, fieldAt_byte [] _ entry 0 rfl, ?_, ?_⟩
  · have := fieldAt_mid [entry] (items.flatMap SentItem.bytes) 2 start.toNat 1 rfl
    have h := start.isLt
    rw [Nat.mod_eq_of_lt (by omega)] at this
    exact this
  · unfold writeFits; rw [I, L]; simp

/-- Argument bytes that fit PROFILE_WRITE are an entry, a start index and whole items (R177). -/
theorem writeBytes_of_writeFits (args : List Byte) (h : writeFits args = true) : ∃ entry start items, args =
    writeBytes entry start items := by
  unfold writeFits at h
  simp only [Bool.and_eq_true, decide_eq_true_eq] at h
  obtain ⟨h3, hi⟩ := h
  rcases args with _ | ⟨a, _ | ⟨b, _ | ⟨c, l⟩⟩⟩ <;> simp at h3
  obtain ⟨ws, hw⟩ := Option.isSome_iff_exists.mp hi
  obtain ⟨items, hx⟩ := bytes_of_writeItems _ _ _ hw
  refine ⟨a, BitVec.ofNat 16 (beNat [b, c]), items, ?_⟩
  have := beNat_lt [b, c]
  unfold writeBytes
  rw [← hx, BitVec.toNat_ofNat, Nat.mod_eq_of_lt (by simpa using this), beBytes_beNat 2 [b, c] rfl]
  rfl

theorem expand_items (items : List SentItem) : expand (items.map SentItem.item) = items.flatMap SentItem.values := by
  unfold expand
  rw [List.flatMap_map]
  congr 1; funext i; cases i <;> rfl

theorem badCount_iff (i : SentItem) : i.item.badCount = true ↔ ¬ i.CountOk := by
  cases i with
  | literal v => simp [SentItem.item, WriteItem.badCount, SentItem.CountOk]
  | run n v => simp [SentItem.item, WriteItem.badCount, SentItem.CountOk]; omega

theorem SentItem.values_eq (i : SentItem) : i.values = List.replicate i.item.count i.item.value := by cases i <;> rfl

theorem outOfRange_iff (k : Nat) (v : Int) : outOfRange k v = true ↔ ¬ InPlace k v := by
  unfold outOfRange InPlace
  by_cases h : k % 7 < 3
  · rw [if_pos h]; simp; omega
  · rw [if_neg h]; simp; omega

theorem valueFault_skip (before : List SentItem) (l : List WriteItem) (number index : Nat)
    (h : AllInPlace index (before.flatMap SentItem.values)) :
   valueFault number index (before.map SentItem.item ++ l) =
       valueFault (number + before.length) (index + (before.flatMap SentItem.values).length) l := by
  induction before generalizing number index with
  | nil => rfl
  | cons i b ih =>
    rw [List.flatMap_cons] at h ⊢
    rw [List.map_cons, List.cons_append]
    have step : ∀ rest, valueFault number index (i.item :: rest) =
        match (List.range i.item.count).find? fun j => outOfRange (index + j) i.item.value with
      | some j => some (number, index + j)
      | none => valueFault (number + 1) (index + i.item.count) rest := fun _ => rfl
    rw [step]
    have N : ((List.range i.item.count).find? fun j => outOfRange (index + j) i.item.value) = none := by
      rw [List.find?_eq_none]
      intro j hj
      rw [List.mem_range] at hj
      rw [outOfRange_iff]
      have := h j i.item.value (by rw [SentItem.values_eq, List.getElem?_append_left (by simpa using hj)]; simp [hj])
      exact fun c => c this
    rw [N]
    have vl : i.values.length = i.item.count := by rw [SentItem.values_eq]; simp
    show valueFault (number + 1) (index + i.item.count) _ = _
    rw [ih]
    · rw [List.length_cons, List.length_append, vl, Nat.add_assoc number, Nat.add_comm 1, Nat.add_assoc index]
    · intro j v hj
      have := h (i.item.count + j) v (by rw [List.getElem?_append_right (by omega), vl, Nat.add_sub_cancel_left]; exact hj)
      rwa [← Nat.add_assoc] at this

theorem valueFault_first (before : List SentItem) (item : SentItem) (after : List SentItem) (start j : Nat) (v : Int)
   (h : AllInPlace start (before.flatMap SentItem.values)) (hj : item.values[j]? = some v)
   (hk : AllInPlace (start + (before.flatMap SentItem.values).length) (item.values.take j)) (hb : ¬ InPlace (start + (before.flatMap SentItem.values).length + j) v) :
   valueFault 1 start ((before ++ item :: after).map SentItem.item) = some (before.length + 1,
       start + (before.flatMap SentItem.values).length + j) := by
  rw [List.map_append, valueFault_skip _ _ _ _ h, List.map_cons]
  generalize start + (before.flatMap SentItem.values).length = first at hk hb ⊢
  rw [SentItem.values_eq] at hj hk
  have jl : j < item.item.count := by
    have := (List.getElem?_eq_some_iff.mp hj).1; simpa using this
  have hv : v = item.item.value := by
    rw [List.getElem?_replicate, if_pos jl] at hj; exact (Option.some.inj hj).symm
  subst hv
  show (match (List.range item.item.count).find? fun j => outOfRange (first + j) item.item.value with
      | some j => some (1 + before.length, first + j)
      | none => _) = _
  have F : ((List.range item.item.count).find? fun j => outOfRange (first + j) item.item.value) = some j := by
    rw [List.find?_range_eq_some]
    refine ⟨(outOfRange_iff _ _).mpr hb, ?_, ?_⟩
    · exact List.mem_range.mpr jl
    · intro k hkj
      have := hk k item.item.value (by rw [List.getElem?_take, if_pos hkj, List.getElem?_replicate, if_pos (Nat.lt_trans hkj jl)])
      have c := mt (outOfRange_iff (first + k) item.item.value).mp (fun c => c this)
      cases hq : outOfRange (first + k) item.item.value
      · rfl
      · exact absurd hq c
  rw [F]; simp only [Option.some.injEq, Prod.mk.injEq, and_true]; omega

theorem valueFault_inPlace (items : List SentItem) (start : Nat)
    (h : AllInPlace start (items.flatMap SentItem.values)) : valueFault 1 start (items.map SentItem.item) = none := by
  have := valueFault_skip items [] 1 start h
  rw [List.append_nil] at this
  rw [this]; rfl

theorem findIdx?_badCount_none (items : List SentItem) (h : ∀ i ∈ items, i.CountOk) :
    (items.map SentItem.item).findIdx? WriteItem.badCount = none := by
  rw [List.findIdx?_eq_none_iff]
  intro w hw
  obtain ⟨i, hi, rfl⟩ := List.mem_map.mp hw
  have := mt (badCount_iff i).mp (fun c => c (h i hi))
  simpa using this

theorem findIdx?_badCount_first (before : List SentItem) (item : SentItem) (after : List SentItem) (h : ∀ i ∈ before,
    i.CountOk) (hb : ¬ item.CountOk) :
    ((before ++ item :: after).map SentItem.item).findIdx? WriteItem.badCount = some before.length := by
  rw [List.map_append, List.findIdx?_append, findIdx?_badCount_none before h, List.map_cons, List.findIdx?_cons,
      (badCount_iff item).mpr hb]
  simp

end Sys2Proof.Machine
end

