-- ==== Sys2Proof/Laws/RowBits.lean ====
section
/-! SUPPORT. Rows as bits: unpacking a packed row gives its samples, where each bit of a row stands (R7), and the row CRC
byte by byte (R8). -/

namespace Sys2Proof.Machine

theorem byteBits_val : ∀ a b c d e f g h : Bool, byteBits (BitVec.ofNat 8 (bitsNat [a,b,c,d,e,f,g,h])) =
    [a,b,c,d,e,f,g,h] := by
  decide +kernel

theorem byteBits_list (l : List Bool) (h : l.length = 8) : byteBits (BitVec.ofNat 8 (bitsNat l)) = l := by
  match l, h with
  | [a,b,c,d,e,f,g,h], _ => exact byteBits_val a b c d e f g h

theorem bytesBits_packBytes (n : Nat) (bits : List Bool) (h : bits.length ≤ 8 * n) : bytesBits (packBytes n bits) =
    bits ++ List.replicate (8 * n - bits.length) false := by
  induction n generalizing bits with
  | zero =>
    have : bits = [] := List.length_eq_zero_iff.mp (by omega)
    subst this; rfl
  | succ n ih =>
    unfold packBytes
    show byteBits _ ++ bytesBits (packBytes n (bits.drop 8)) = _
    rw [byteBits_list _ (by simp <;> omega), ih _ (by simp <;> omega)]
    by_cases h8 : 8 ≤ bits.length
    · have : (bits.take 8).length = 8 := by simp; omega
      rw [this]
      simp only [Nat.sub_self, List.replicate_zero, List.append_nil]
      rw [← List.append_assoc, List.take_append_drop]
      congr 2; simp; omega
    · have a : bits.take 8 = bits := List.take_of_length_le (by omega)
      have b : bits.drop 8 = [] := List.drop_of_length_le (by omega)
      rw [a, b, List.append_assoc]
      congr 1
      simp
      omega

theorem packBytes_length (n) (bits) : (packBytes n bits).length = n := by
  induction n generalizing bits with
  | zero => rfl
  | succ n ih => simp [packBytes, ih]

theorem bitsNat_snoc (l : List Bool) (b : Bool) : bitsNat (l ++ [b]) = bitsNat l * 2 + b.toNat := by
  simp [bitsNat, List.foldl_append]

theorem bitsNat_msb (s : Sample) (k : Nat) (h : k ≤ 14) : bitsNat ((List.range k).map s.getMsbD) =
    s.toNat / 2 ^ (14 - k) := by
  induction k with
  | zero => have := s.isLt; rw [Nat.div_eq_of_lt this]; rfl
  | succ k ih =>
    rw [List.range_succ, List.map_append, List.map_cons, List.map_nil, bitsNat_snoc, ih (by omega)]
    have hb : (s.getMsbD k).toNat = s.toNat / 2 ^ (13 - k) % 2 := by
      unfold BitVec.getMsbD
      simp only [show k < 14 by omega, decide_true, Bool.true_and, BitVec.getLsbD, Nat.toNat_testBit]
    rw [hb, show 14 - k = (13 - k) + 1 by omega, Nat.pow_succ, ← Nat.div_div_eq_div_mul, show 14 - (k + 1) = 13 - k by omega]
    omega

theorem sampleBits_val (s : Sample) : BitVec.ofNat 14 (bitsNat (sampleBits s)) = s := by
  have e : bitsNat (sampleBits s) = s.toNat := by
    unfold sampleBits; rw [bitsNat_msb s 14 (Nat.le_refl _)]; simp
  rw [e, BitVec.ofNat_toNat, BitVec.setWidth_eq]

theorem sampleBits_flat_length (samples : List Sample) : (samples.flatMap sampleBits).length = 14 * samples.length :=
    by
  induction samples with
  | nil => rfl
  | cons s l ih => rw [List.flatMap_cons, List.length_append, ih, List.length_cons]; simp [sampleBits]; omega

/-- Unpacking packed samples gives them back (R7). -/
theorem unpackSamples_bits (samples : List Sample) (junk : List Bool) :
    unpackSamples samples.length (samples.flatMap sampleBits ++ junk) = samples := by
  induction samples with
  | nil => rfl
  | cons s l ih =>
    have hl : (sampleBits s).length = 14 := by simp [sampleBits]
    rw [List.length_cons, List.flatMap_cons, List.append_assoc]
    unfold unpackSamples
    rw [List.take_append, List.drop_append, hl, List.take_of_length_le (by omega), List.drop_of_length_le (by omega)]
    simp only [Nat.sub_self, List.take_zero, List.append_nil, List.drop_zero, List.nil_append, sampleBits_val, ih]

/-! ## Single bits of packed and unpacked rows, and the CRC -/

/-- Where an element of a list of equal parts stands. -/
theorem flatMap_getElem? {α β} (f : α → List β) (n : Nat) (len : ∀ x, (f x).length = n) (l : List α) (i j : Nat)
    (h : j < n) : (l.flatMap f)[n * i + j]? = l[i]?.bind fun x => (f x)[j]? := by
  induction l generalizing i with
  | nil => simp
  | cons x l ih =>
    rw [List.flatMap_cons]
    cases i with
    | zero =>
      rw [List.getElem?_append_left (by rw [len]; omega)]
      simp
    | succ i =>
      rw [Nat.mul_add, Nat.mul_one, List.getElem?_append_right (by rw [len]; omega), len,
        show n * i + n + j - n = n * i + j by omega, ih, List.getElem?_cons_succ]

/-- Bit `j` of byte `k` (R7). -/
theorem bytesBits_getElem? (bytes : List Byte) (k j : Nat) (h : j < 8) :
    (bytesBits bytes)[8 * k + j]? = bytes[k]?.map fun b => b.getMsbD j := by
  have bit : ∀ b : Byte, (byteBits b)[j]? = some (b.getMsbD j) := by
    intro b
    match j, h with
    | 0, _ | 1, _ | 2, _ | 3, _ | 4, _ | 5, _ | 6, _ | 7, _ => rfl
  unfold bytesBits
  rw [flatMap_getElem? byteBits 8 (fun _ => rfl) _ _ _ h]
  cases bytes[k]? <;> simp [bit]

/-- Bit `j` of sample `i` in the stream (R7). -/
theorem sampleBits_getElem? (samples : List Sample) (i j : Nat) (h : j < 14) :
    (samples.flatMap sampleBits)[14 * i + j]? = samples[i]?.map fun s => s.getMsbD j := by
  have bit : ∀ s : Sample, (sampleBits s)[j]? = some (s.getMsbD j) := by
    intro s
    simp [sampleBits, h]
  rw [flatMap_getElem? sampleBits 14 (fun s => by simp [sampleBits]) _ _ _ h]
  cases samples[i]? <;> simp [bit]

theorem packRow_length (samples : List Sample) : (packRow samples).length = (14 * samples.length + 7) / 8 :=
  packBytes_length _ _

/-- A packed byte's bits are those of the samples' stream, zeros after its end (R7). -/
theorem packRow_bit (samples : List Sample) (k : Nat) (b : Byte) (hb : (packRow samples)[k]? = some b) (j : Nat)
    (h : j < 8) :
    (∀ s, samples[(8 * k + j) / 14]? = some s → b.getMsbD j = s.getMsbD ((8 * k + j) % 14)) ∧
      (14 * samples.length ≤ 8 * k + j → b.getMsbD j = false) := by
  have fl := sampleBits_flat_length samples
  have stream := bytesBits_packBytes ((14 * samples.length + 7) / 8) (samples.flatMap sampleBits) (by rw [fl]; omega)
  have bit := bytesBits_getElem? (packRow samples) k j h
  have hk : k < (14 * samples.length + 7) / 8 := by
    rw [← packRow_length]; exact (List.getElem?_eq_some_iff.mp hb).1
  rw [hb, show bytesBits (packRow samples) = _ from stream] at bit
  refine ⟨fun s hs => ?_, fun late => ?_⟩
  · have hi : (8 * k + j) / 14 < samples.length := (List.getElem?_eq_some_iff.mp hs).1
    rw [List.getElem?_append_left (by rw [fl]; omega)] at bit
    have other := sampleBits_getElem? samples ((8 * k + j) / 14) ((8 * k + j) % 14) (Nat.mod_lt _ (by decide))
    rw [Nat.div_add_mod, hs, bit] at other
    simpa using other
  · rw [List.getElem?_append_right (by rw [fl]; omega), List.getElem?_replicate, fl, if_pos (by omega)] at bit
    simpa using bit.symm

theorem bitsNat_cons (b : Bool) (l : List Bool) : bitsNat (b :: l) = 2 ^ l.length * b.toNat + bitsNat l := by
  have fold : ∀ (l : List Bool) (k : Nat),
      l.foldl (fun n b => n * 2 + b.toNat) k = 2 ^ l.length * k + bitsNat l := by
    intro l
    induction l with
    | nil => intro k; simp [bitsNat]
    | cons c l ih =>
      intro k
      rw [bitsNat, List.foldl_cons, List.foldl_cons, ih, ih (0 * 2 + c.toNat), List.length_cons, Nat.pow_succ, Nat.mul_add]
      rw [Nat.mul_assoc, Nat.mul_comm k 2]
      simp [Nat.add_assoc]
  rw [bitsNat, List.foldl_cons, fold]
  simp

theorem bitsNat_lt (l : List Bool) : bitsNat l < 2 ^ l.length := by
  induction l with
  | nil => decide
  | cons b l ih =>
    rw [bitsNat_cons, List.length_cons, Nat.pow_succ]
    cases b <;> simp <;> omega

/-- Bit `j` of the number a list of bits spells, the first bit its highest. -/
theorem bitsNat_testBit (l : List Bool) (j : Nat) (h : j < l.length) : (bitsNat l).testBit (l.length - 1 - j) = l[j] := by
  induction l generalizing j with
  | nil => cases h
  | cons b l ih =>
    rw [bitsNat_cons, Nat.testBit_two_pow_mul_add _ (bitsNat_lt l), List.length_cons]
    cases j with
    | zero => cases b <;> simp
    | succ j =>
      have hj : j < l.length := by simpa using h
      rw [if_pos (by omega), show l.length + 1 - 1 - (j + 1) = l.length - 1 - j by omega, ih j hj]
      rfl

theorem unpackSamples_length (n : Nat) (bits : List Bool) : (unpackSamples n bits).length = n := by
  induction n generalizing bits with
  | zero => rfl
  | succ n ih => simp [unpackSamples, ih]

theorem unpackSamples_getElem? (n : Nat) (bits : List Bool) (i : Nat) (h : i < n) :
    (unpackSamples n bits)[i]? = some (BitVec.ofNat 14 (bitsNat ((bits.drop (14 * i)).take 14))) := by
  induction n generalizing bits i with
  | zero => omega
  | succ n ih =>
    cases i with
    | zero => simp [unpackSamples]
    | succ i =>
      rw [unpackSamples, List.getElem?_cons_succ, ih _ _ (by omega), List.drop_drop,
        show 14 + 14 * i = 14 * (i + 1) by omega]

/-- The sample count of a row, whatever bits follow its last sample (R7). -/
theorem unpackRow_length (bytes : List Byte) : (unpackRow bytes).length = 8 * bytes.length / 14 :=
  unpackSamples_length _ _

theorem bytesBits_length (bytes : List Byte) : (bytesBits bytes).length = 8 * bytes.length := by
  induction bytes with
  | nil => rfl
  | cons b l ih =>
    rw [bytesBits, List.flatMap_cons, List.length_append, List.length_cons, ← bytesBits, ih, byteBits]
    simp only [List.length_cons, List.length_nil]
    omega

/-- A sample read from a row has the bits of its place in the stream (R7). -/
theorem unpackRow_bit (bytes : List Byte) (i : Nat) (s : Sample) (hs : (unpackRow bytes)[i]? = some s) (j : Nat)
    (h : j < 14) : ∃ b, bytes[(14 * i + j) / 8]? = some b ∧ s.getMsbD j = b.getMsbD ((14 * i + j) % 8) := by
  have hi : i < 8 * bytes.length / 14 := by
    rw [← unpackRow_length]; exact (List.getElem?_eq_some_iff.mp hs).1
  have inside : (14 * i + j) / 8 < bytes.length := by omega
  have stream := bytesBits_getElem? bytes ((14 * i + j) / 8) ((14 * i + j) % 8) (Nat.mod_lt _ (by decide))
  rw [Nat.div_add_mod, List.getElem?_eq_getElem inside] at stream
  have total := bytesBits_length bytes
  refine ⟨_, List.getElem?_eq_getElem inside, ?_⟩
  have len : (((bytesBits bytes).drop (14 * i)).take 14).length = 14 := by simp [total]; omega
  have bit := bitsNat_testBit (((bytesBits bytes).drop (14 * i)).take 14) j (by omega)
  rw [unpackRow, unpackSamples_getElem? _ _ _ hi] at hs
  have value : s = _ := (Option.some.inj hs).symm
  rw [value, BitVec.getMsbD]
  simp only [h, decide_true, Bool.true_and, BitVec.getLsbD_ofNat, show 14 - 1 - j < 14 by omega]
  rw [show 14 - 1 - j = (((bytesBits bytes).drop (14 * i)).take 14).length - 1 - j by omega, bit]
  rw [List.getElem_take, List.getElem_drop]
  have := (List.getElem?_eq_some_iff.mp stream).2
  simpa using this

/-- The register shifted by one bit, as the polynomial has it (R8). -/
theorem crcBit_eq (register : BitVec 16) (bit : Bool) : crcBit register bit = crcShift register bit := by
  have top : register.getMsbD 0 = register.getLsbD 15 := by simp [BitVec.getMsbD]
  unfold crcBit crcShift
  rw [top]
  cases register.getLsbD 15 <;> cases bit <;> simp <;> decide

/-- The register after one more byte, most significant bit first (R8). -/
theorem crc16_append (bytes : List Byte) (b : Byte) :
    crc16 (bytes ++ [b]) = ((List.range 8).map b.getMsbD).foldl crcShift (crc16 bytes) := by
  have shift : crcBit = crcShift := by funext r x; exact crcBit_eq r x
  have bits : bytesBits (bytes ++ [b]) = bytesBits bytes ++ (List.range 8).map b.getMsbD := by
    simp only [bytesBits, List.flatMap_append, List.flatMap_cons, List.flatMap_nil, List.append_nil]
    rfl
  unfold crc16
  rw [bits, List.foldl_append, shift]

theorem rowSampleBytes_append (bytes : List Byte) (high low : Byte) : rowSampleBytes (bytes ++ [high, low]) = bytes := by
  simp [rowSampleBytes]

/-- A row's CRC is bad where it is not the one of its number and sample bytes (R8). -/
theorem rowCrcBad_append (number : BitVec 16) (bytes : List Byte) (high low : Byte) :
    rowCrcBad number (bytes ++ [high, low]) = true ↔ rowCrc number bytes ≠ high ++ low := by
  have field : fieldAt (bytes ++ [high, low]) ((bytes ++ [high, low]).length - 2) 2 = (high ++ low : BitVec 16).toNat := by
    have value : ((high ++ low : BitVec 16)).toNat = high.toNat * 256 + low.toNat := by
      rw [BitVec.toNat_append, Nat.shiftLeft_eq, Nat.mul_comm,
        ← Nat.two_pow_add_eq_or_of_lt low.isLt, Nat.mul_comm]
    rw [value]
    simp [fieldAt, beNat]
  unfold rowCrcBad
  rw [rowSampleBytes_append, field, bne_iff_ne, ne_eq, ne_eq, BitVec.toNat_inj]

theorem rowCrc_eq (number : BitVec 16) (bytes : List Byte) :
    rowCrc number bytes = crc16 ([number.extractLsb' 8 8, number.extractLsb' 0 8] ++ bytes) := by
  unfold rowCrc
  simp only [beBytes, ofNat_div]

end Sys2Proof.Machine
end

