-- ==== Sys2Proof/Laws/Sites.lean ====
section
/-! SUPPORT. What the sample arithmetic's functions give, in the words of the statements: the cell of a value among the
stations and the corners' sum, the floors of the radius term and the scale, the colour of a site, its lattice cell and what
its neighbours give; and the bytes of a frame report. -/

namespace Sys2Proof.Machine

/-! ## Band sets -/

/-- The clamp to the stations, said without the case of one station (R111). -/
theorem clampToStations_of_two (l : List Nat) (v : Nat) (h : 2 ≤ l.length) :
    clampToStations l v = max (l.headD 0) (min (l.getLastD 0) v) := by
  unfold clampToStations
  rw [if_neg (by omega)]

/-- The index and weight of a clamped value are those of its cell, and the weight lies within 0 to 255 (R112). -/
theorem stationWeight_cell (l : List Nat) (v : Nat) (h : l.Pairwise (· < ·)) (n : 1 ≤ l.length) :
    StationCell l (max (l.headD 0) (min (l.getLastD 0) v)) (stationWeight l (clampToStations l v)).1
      (stationWeight l (clampToStations l v)).2 ∧ (stationWeight l (clampToStations l v)).2 ≤ 255 := by
  by_cases h1 : l.length = 1
  · unfold StationCell stationWeight
    rw [if_pos h1, if_pos (by omega)]
    exact ⟨⟨rfl, rfl⟩, by decide⟩
  · have two : 2 ≤ l.length := by omega
    have mono : ∀ a b (ha : a < l.length) (hb : b < l.length), a < b → l[a] < l[b] :=
      fun a b ha hb hab => List.pairwise_iff_getElem.mp h a b ha hb hab
    have hh : l.headD 0 = l[0] := by
      rw [List.headD_eq_head?_getD, List.head?_eq_getElem?]; simp [show 0 < l.length by omega]
    have hl : l.getLastD 0 = l[l.length - 1] := by
      rw [List.getLastD_eq_getLast?, List.getLast?_eq_getElem?]; simp [show l.length - 1 < l.length by omega]
    rw [clampToStations_of_two l v two]
    have ends := mono 0 (l.length - 1) (by omega) (by omega) (by omega)
    rw [hh, hl]
    generalize hw : max l[0] (min l[l.length - 1] v) = w
    unfold StationCell stationWeight
    rw [if_neg h1, if_neg (show ¬ l.length ≤ 1 by omega), hh, hl, List.getElem?_eq_getElem (show 0 < l.length by omega),
      List.getElem?_eq_getElem (show l.length - 1 < l.length by omega)]
    simp only [Option.some.injEq]
    by_cases e0 : l[0] = w
    · rw [if_pos e0, if_pos e0.symm]
      exact ⟨⟨rfl, rfl⟩, by decide⟩
    · rw [if_neg e0, if_neg (Ne.symm e0)]
      by_cases e1 : l[l.length - 1] = w
      · rw [if_pos e1, if_pos e1.symm]
        exact ⟨⟨rfl, rfl⟩, Nat.zero_le _⟩
      · rw [if_neg e1, if_neg (Ne.symm e1)]
        have C := le_iff_countP l w h
        have first := (C 0 (by omega)).mp (by omega)
        have last := mt (C (l.length - 1) (by omega)).mpr (by omega)
        generalize hi : l.countP (· ≤ w) - 1 = i
        have i1 : i + 1 < l.length := by omega
        have lo := (C i (by omega)).mpr (by omega)
        have hi' := mt (C (i + 1) i1).mp (by omega)
        have g0 : l.getD i 0 = l[i] := by rw [List.getD_eq_getElem?_getD]; simp [show i < l.length by omega]
        have g1 : l.getD (i + 1) 0 = l[i + 1] := by rw [List.getD_eq_getElem?_getD]; simp [i1]
        simp only [g0, g1]
        refine ⟨⟨l[i], l[i + 1], List.getElem?_eq_getElem (by omega), List.getElem?_eq_getElem i1, lo, by omega, rfl⟩, ?_⟩
        rw [← Nat.lt_succ_iff, Nat.div_lt_iff_lt_mul (by omega)]
        omega

/-- A sum is what it is without its terms of weight 0. -/
theorem sum_nonzero_weights {α} (l : List α) (w : α → Nat) (f : α → Int) :
    ((l.filter fun c => w c != 0).map fun c => (w c : Int) * f c).sum = (l.map fun c => (w c : Int) * f c).sum := by
  induction l with
  | nil => rfl
  | cons c l ih =>
    rw [List.filter_cons]
    split
    · simp only [List.map_cons, List.sum_cons, ih]
    · rename_i h
      have : w c = 0 := by simpa using h
      simp only [List.map_cons, List.sum_cons, ih, this]
      omega

/-- A coefficient is the rounded sum over the four corners of the station cell (R113, R114). -/
theorem coefficient_rounded (p : Profile) (focal focus : Nat × Nat) (hf : focal.2 ≤ 255) (hd : focus.2 ≤ 255)
    (place : Nat) :
    RoundedUp
      ((256 - focal.2) * (256 - focus.2) * p.word focal.1 focus.1 place
        + focal.2 * (256 - focus.2) * p.word (focal.1 + 1) focus.1 place
        + (256 - focal.2) * focus.2 * p.word focal.1 (focus.1 + 1) place
        + focal.2 * focus.2 * p.word (focal.1 + 1) (focus.1 + 1) place)
      65536 (p.coefficient (corners focal focus) place) := by
  have S := sum_nonzero_weights
    [(focal.1, focus.1, (256 - focal.2) * (256 - focus.2)), (focal.1 + 1, focus.1, focal.2 * (256 - focus.2)),
      (focal.1, focus.1 + 1, (256 - focal.2) * focus.2), (focal.1 + 1, focus.1 + 1, focal.2 * focus.2)]
    (fun c => c.2.2) fun c => p.word c.1 c.2.1 place
  unfold Profile.coefficient corners
  rw [S]
  simp only [List.map_cons, List.map_nil, List.sum_cons, List.sum_nil, Int.natCast_mul,
    Int.natCast_sub (show focal.2 ≤ 256 by omega), Int.natCast_sub (show focus.2 ≤ 256 by omega), Int.add_zero,
    Int.add_assoc]
  exact roundHalfUp_spec _ _ (by decide)

/-! ## Source positions -/

/-- The quotient of integers by a positive divisor is floored. -/
theorem ediv_floored (n d : Int) (h : 0 < d) : Floored n d (n / d) := by
  unfold Floored
  have h1 := Int.mul_ediv_self_le (x := n) (k := d) (by omega)
  have h2 := Int.lt_mul_ediv_self_add (x := n) (k := d) h
  rw [Int.mul_add]
  omega

/-- A site has the colour whose origin its parities are (R134). -/
theorem colourAt_origin (phase : BayerPhase) (x y : Nat) :
    (colourAt phase (x % 2) (y % 2), x % 2, y % 2) ∈ colourOrigins phase := by
  have all : ∀ phase : BayerPhase, ∀ px < 2, ∀ py < 2, (colourAt phase px py, px, py) ∈ colourOrigins phase := by
    intro phase
    cases phase <;> decide
  exact all phase _ (Nat.mod_lt _ (by decide)) _ (Nat.mod_lt _ (by decide))

/-- The floored scale is the floor of the polynomial, all terms over 65536³ (R140). -/
theorem flooredScale_floored (s : BandSet) (c0 c1 rho : Int) :
    Floored (65536 ^ 3 * (65536 + c0) + 65536 ^ 2 * ((s.k1 + c1) * rho) + 65536 * (s.k2 * rho ^ 2) + s.k3 * rho ^ 3)
      (65536 ^ 3) (flooredScale s (c0, c1) rho) := by
  unfold Floored flooredScale
  simp only [Int.mul_comm ((s.k1 + c1) * rho), Int.mul_comm (s.k2 * rho ^ 2)]
  generalize (s.k1 + c1) * rho = a
  generalize s.k2 * rho ^ 2 = b
  generalize s.k3 * rho ^ 3 = c
  omega

/-- The source row of a site lies within its reach (R143). -/
theorem sourcePosition_row (c : FrameContext) (s : BandSet) (x y : Nat) :
    64 * ((y : Int) - c.reachUp) ≤ (sourcePosition c s x y).sy ∧
      (sourcePosition c s x y).sy ≤ 64 * ((y : Int) + c.reachDown) := by
  unfold sourcePosition
  dsimp only
  unfold limit
  omega

/-! ## Resampling -/

/-- A coordinate lies in its lattice cell (R145). -/
theorem latticeCell_on (position : Int) (parity : Nat) :
    OnLattice position parity (latticeCell position parity).1 (latticeCell position parity).2 := by
  unfold OnLattice latticeCell
  dsimp only
  omega

/-- The answer to a fetch gives its sample and its mark (R76, R77). -/
theorem Fetched.gives (f : Fetched) (column : Nat) : f.Gives column (f.at column) f.isSubstituted := by
  cases f <;> simp +contextual [Fetched.Gives, Fetched.at, Fetched.isSubstituted, List.getD_eq_getElem?_getD]

/-- A neighbour gives what the edge policy and the fetch give it (R147 to R150). -/
theorem Neighbour.sample_gives (n : Neighbour) (g : Geometry) (px py : Nat) (fetch : Nat → Fetched) :
    NeighbourGives g fetch px py n.column n.row (n.sample g px py fetch).1 (n.sample g px py fetch).2 := by
  have read : ∀ i j : Nat, (i : Int) = limit 0 (((g.width / 2 : Nat) : Int) - 1) n.column →
      (j : Int) = limit 0 (((g.height / 2 : Nat) : Int) - 1) n.row → (n.inside g || g.edge == .replicate) = true →
      (fetch (2 * j + py)).Gives (2 * i + px) (n.sample g px py fetch).1 (n.sample g px py fetch).2 := by
    intro i j hi hj h
    unfold Neighbour.sample
    rw [if_pos h, ← hi, ← hj]
    exact Fetched.gives _ _
  refine ⟨fun i j hi hj wi wj => read i j ?_ ?_ ?_, fun e i j hi hj => read i j hi hj ?_, fun e o => ?_⟩
  · unfold limit; omega
  · unfold limit; omega
  · have : n.inside g = true := by
      simp only [Neighbour.inside, Bool.and_eq_true, decide_eq_true_eq]
      omega
    rw [this]; rfl
  · rw [e]; simp
  · have : n.inside g = false := by
      rw [← Bool.not_eq_true]
      simp only [Neighbour.inside, Bool.and_eq_true, decide_eq_true_eq]
      omega
    unfold Neighbour.sample
    rw [this, e]
    exact ⟨rfl, rfl⟩

/-- A resampled value is the weighted mean, halves upward, where the weights sum to 1024 (R151). -/
theorem resample_toNat (values : List (Nat × Sample)) (h : (values.map Prod.fst).sum = 1024) :
    (resample values).toNat = ((values.map fun v => v.1 * v.2.toNat).sum + 512) / 1024 := by
  unfold resample
  rw [BitVec.toNat_ofNat]
  apply Nat.mod_eq_of_lt
  have bound : ∀ l : List (Nat × Sample), (l.map fun v => v.1 * v.2.toNat).sum ≤ (l.map Prod.fst).sum * 16383 := by
    intro l
    induction l with
    | nil => simp
    | cons a l ih =>
      simp only [List.map_cons, List.sum_cons, Nat.add_mul]
      have := Nat.mul_le_mul_left a.1 (show a.2.toNat ≤ 16383 by have := a.2.isLt; omega)
      omega
  have := bound values
  rw [h] at this
  omega

/-- The four neighbours' weights sum to 1024, and leaving out those of weight 0 changes no weighted sum (R146). -/
theorem neighbours_sum (u v : Int × Nat) (hu : u.2 ≤ 31) (hv : v.2 ≤ 31) :
    ((neighbours u v).map Neighbour.weight).sum = 1024 := by
  obtain ⟨i, u⟩ := u
  obtain ⟨j, v⟩ := v
  have all : ∀ u ≤ 31, ∀ v ≤ 31, ((neighbours (0, u) (0, v)).map Neighbour.weight).sum = 1024 := by decide +kernel
  rw [← all u hu v hv]
  have F : ∀ l : List Neighbour,
      ((l.filter fun n => n.weight != 0).map Neighbour.weight).sum = (l.map Neighbour.weight).sum := by
    intro l
    induction l with
    | nil => rfl
    | cons n l ih =>
      rw [List.filter_cons]
      split
      · simp [ih]
      · rename_i h; simp at h; simp [ih, h]
  unfold neighbours
  rw [F, F]
  rfl

/-- What a site reads and makes of it, said over its four neighbours: one of weight 0 adds nothing to the value and nothing
to the mark (R146, R151). -/
theorem resampledSite_reads (c : FrameContext) (fetch : Nat → Fetched) (x y : Nat) (p : SourcePosition) :
    let cell := latticeCell p.sx (x % 2)
    let cell' := latticeCell p.sy (y % 2)
    let gives (i j : Int) := (⟨0, i, j⟩ : Neighbour).sample c.geometry (x % 2) (y % 2) fetch
    let read : List ReadNeighbour :=
      [⟨(32 - cell.2) * (32 - cell'.2), cell.1, cell'.1, (gives cell.1 cell'.1).1, (gives cell.1 cell'.1).2⟩,
        ⟨cell.2 * (32 - cell'.2), cell.1 + 1, cell'.1, (gives (cell.1 + 1) cell'.1).1, (gives (cell.1 + 1) cell'.1).2⟩,
        ⟨(32 - cell.2) * cell'.2, cell.1, cell'.1 + 1, (gives cell.1 (cell'.1 + 1)).1, (gives cell.1 (cell'.1 + 1)).2⟩,
        ⟨cell.2 * cell'.2, cell.1 + 1, cell'.1 + 1, (gives (cell.1 + 1) (cell'.1 + 1)).1,
          (gives (cell.1 + 1) (cell'.1 + 1)).2⟩]
    (resampledSite c fetch x y p).1.toNat = ((read.map fun n => n.weight * n.value.toNat).sum + 512) / 1024 ∧
      ((resampledSite c fetch x y p).2 = true ↔ ∃ n ∈ read, n.weight ≠ 0 ∧ n.marked = true) := by
  intro cell cell' gives read
  let all : List Neighbour :=
    [⟨(32 - cell.2) * (32 - cell'.2), cell.1, cell'.1⟩, ⟨cell.2 * (32 - cell'.2), cell.1 + 1, cell'.1⟩,
      ⟨(32 - cell.2) * cell'.2, cell.1, cell'.1 + 1⟩, ⟨cell.2 * cell'.2, cell.1 + 1, cell'.1 + 1⟩]
  let reading (n : Neighbour) : ReadNeighbour :=
    ⟨n.weight, n.column, n.row, (gives n.column n.row).1, (gives n.column n.row).2⟩
  have sampled : ∀ n : Neighbour, n.sample c.geometry (x % 2) (y % 2) fetch = gives n.column n.row := fun _ => rfl
  have readAll : read = all.map reading := rfl
  have sums : ∀ l : List Neighbour,
      ((l.filter fun n => n.weight != 0).map fun n => n.weight * (gives n.column n.row).1.toNat).sum =
        (l.map fun n => n.weight * (gives n.column n.row).1.toNat).sum := by
    intro l
    induction l with
    | nil => rfl
    | cons n l ih =>
      rw [List.filter_cons]
      split
      · simp only [List.map_cons, List.sum_cons, ih]
      · rename_i h
        have : n.weight = 0 := by simpa using h
        simp only [List.map_cons, List.sum_cons, ih, this, Nat.zero_mul, Nat.zero_add]
  have weights := neighbours_sum cell cell' (latticeCell_on p.sx (x % 2)).1 (latticeCell_on p.sy (y % 2)).1
  unfold resampledSite
  dsimp only
  constructor
  · rw [resample_toNat]
    · rw [readAll, List.map_map, List.map_map, List.map_map]
      exact congrArg (fun z => (z + 512) / 1024) (sums all)
    · rw [List.map_map, List.map_map]
      exact weights
  · rw [readAll, List.any_eq_true]
    constructor
    · rintro ⟨r, hr, marked⟩
      obtain ⟨n, hn, rfl⟩ := List.mem_map.mp hr
      obtain ⟨hn, w⟩ := List.mem_filter.mp hn
      exact ⟨reading n, List.mem_map_of_mem hn, by simpa using w, marked⟩
    · rintro ⟨r, hr, w, marked⟩
      obtain ⟨n, hn, rfl⟩ := List.mem_map.mp hr
      exact ⟨_, List.mem_map_of_mem (List.mem_filter.mpr ⟨hn, by simpa [reading] using w⟩), marked⟩

/-! ## What the part sends -/

/-- The bytes of a frame report are those of the table of R165. -/
theorem Report.payload_eq (r : Report) : r.payload = sentReport r := by
  have bits : ∀ a b c d e : Bool, ∀ m : Mode,
      (BitVec.ofNat 8 (bitsNat [a, b, c, d, e, false] * 4 + m.code.toNat)) =
        (BitVec.ofBool a ++ BitVec.ofBool b ++ BitVec.ofBool c ++ BitVec.ofBool d ++ BitVec.ofBool e ++ 0#1
          ++ m.code.setWidth 2 : BitVec 8) := by
    intro a b c d e m
    cases m <;> revert a b c d e <;> decide
  have flags : ∀ a b c d e f g h : Bool, BitVec.ofNat 8 (bitsNat [a, b, c, d, e, f, g, h]) =
      (BitVec.ofBool a ++ BitVec.ofBool b ++ BitVec.ofBool c ++ BitVec.ofBool d ++ BitVec.ofBool e ++ BitVec.ofBool f
        ++ BitVec.ofBool g ++ BitVec.ofBool h : BitVec 8) := by decide
  have first : r.firstBand.elim false LensState.inherited = r.firstBand.any LensState.inherited := by
    cases r.firstBand <;> rfl
  unfold Report.payload sentReport Report.presenceByte FrameFlags.byte
  rw [bits, flags, first]
  cases r.entry <;> cases r.identity <;> cases r.firstBand <;> cases r.lastBand <;> rfl

end Sys2Proof.Machine
end

