-- ==== Sys2Proof/WellFormed.lean ====
section
/-! DEFINITION. Which terms are well-formed commands: a command for an arrival on a receiving lane carries symbols that
bring about one event, and that event is the row's own.  The meanings do not need this: the part decides by the bits
(log entry 5). -/

namespace Sys2Proof

open Machine

/-- The symbols bring about one event, and it satisfies `p`, whether they begin outside a packet or just behind a START
that has already arrived (R1). -/
def oneEvent (syms : List Symbol) (p : LaneEvent → Bool) : Bool :=
  [none, some []].any fun opened =>
    match laneEvents opened syms with
    | [e] => p e
    | _ => false

/-- The event is a completed packet whose kind, or its absence, satisfies `p`. -/
def completedWith (p : Option Nat → Bool) : LaneEvent → Bool
  | .completed bytes => p (arrivalKind bytes)
  | _ => false

/-- The command is well-formed: its operands are what its row is about (R1, R4, R5, R15, R17). -/
def Instr.wellFormed : Instr → Bool
  | .packetAbandoned _ syms => oneEvent syms (· == .abandoned)
  | .uncorrectableHeader _ syms => oneEvent syms (completedWith (· == none))
  | .frameHeadTaken syms => oneEvent syms (completedWith (· == some 1))
  | .rowTaken syms => oneEvent syms (completedWith (· == some 2))
  | .lensNoteTaken syms => oneEvent syms (completedWith (· == some 3))
  | .frameTailTaken syms => oneEvent syms (completedWith (· == some 4))
  | .passThroughPacket syms => oneEvent syms (completedWith (·.any fun k => k < 1 || 4 < k))
  | .serviceRequestReceived syms => oneEvent syms (completedWith (· == some 9))
  | .reversePacketRefused .a syms => oneEvent syms (completedWith (·.any fun k => k != 9))
  | .reversePacketRefused .b syms => oneEvent syms (completedWith Option.isSome)
  | .storeRequest | .credit _ | .hold _ | .resume _ | .laneLock _ | .alignmentDone _ | .laneLoss _
  | .resetPinAsserted | .resetRelease _ _ | .lineProduction | .arbiterChoice | .portBSend | .upstreamSend
  | .portItemSent _ | .answerSent | .passThroughSent | .upstreamSent | .unknownCommand | .identify | .readStatus
  | .readCounters | .clearAlerts | .setAlerts | .setMode | .setGeometry | .setInput | .setRoute | .setPort
  | .profileOpen | .profileWrite | .profileClose | .profileRetire | .profileQuery | .resetBlockPipeline
  | .resetBlockProfiles | .resetBlockPortA | .resetBlockPortB | .resetBlockCounters | .resetPart => true

end Sys2Proof
end

