-- ==== Sys2Proof/Tests/Slice0.lean ====
section
/-! SUPPORT. Tests: expected results are the manual's worked examples and tables, cited by rule or section. -/

namespace Sys2Proof.Tests

open Sys2Proof.Machine

set_option Elab.async false

/-! ## Helpers -/

/-- The part after reset with every link UP. -/
def base : Device :=
  { Device.afterReset 0 true with
    linkU := .up
    portA := { Port.reset true with link := .up }
    portB := { Port.reset true with link := .up } }

/-- The state of a part with no command waiting. -/
def on (d : Device) : State := ⟨[], d⟩

/-- The part after a command, from a part with no command waiting. -/
def after (c : Instr) (d : Device) : Device :=
  match exec c (on d) with
  | .next s => s.device
  | _ => d

/-- The bytes of a packet with its header made by the part's own rule (R3). -/
def packetBytes (kind : BitVec 4) (field : BitVec 16) (payload : List Byte) : List Byte :=
  (madePacket 0 kind field payload).bytes

/-- The symbols of such a packet. -/
def packetSyms (kind : BitVec 4) (field : BitVec 16) (payload : List Byte) : List Symbol :=
  Symbol.packet (packetBytes kind field payload)

/-- A part whose oldest request has this body. -/
def asked (d : Device) (body : List Byte) : Device :=
  { d with commands := [madePacket 0 9 0 body] }

/-- The newest answer's status and results. -/
def lastAnswer (d : Device) : Option (Status × List Byte) :=
  d.answers.getLast?.map fun a => (a.status, a.results)

/-! ## Chapter 1 -/

/-- 1.2, worked example: the header of a frame tail, kind 4, node 5, tag 1. -/
theorem test_header_built : (Header.bytes ⟨4, 5, 0, 0, 1⟩) = [74, 0, 0, 0, 1, 210] := by decide +kernel

/-- 1.2, worked example: one inverted bit is put right. -/
theorem test_header_corrected :
    checkHeader [72, 0, 0, 0, 1, 210] = .corrected ⟨4, 5, 0, 0, 1⟩ := by decide +kernel

/-- 1.2, worked example: two inverted bits are found. -/
theorem test_header_uncorrectable : checkHeader [72, 0, 0, 0, 0, 210] = .uncorrectable := by decide +kernel

/-- R8: the nine bytes 49 to 57 give 0x29B1. -/
theorem test_crc : crc16 [49, 50, 51, 52, 53, 54, 55, 56, 57] = 0x29B1 := by decide +kernel

/-- 1.4, worked example: packing two samples. -/
theorem test_pack : packRow [16383, 1] = [255, 252, 0, 16] := by decide +kernel

/-- 1.4, worked example: four or five sample bytes give the same two samples. -/
theorem test_unpack :
    unpackRow [255, 252, 0, 16] = [16383, 1] ∧ unpackRow [255, 252, 0, 16, 7] = [16383, 1] := by decide +kernel

/-- R1: a START inside a packet abandons it and opens a new one. -/
theorem test_abandoned_by_start :
    (after (.packetAbandoned .u [.start, .data 1, .start]) base).count .headerBad = 1
      ∧ (after (.packetAbandoned .u [.start, .data 1, .start]) base).openU = some [] := by decide +kernel

/-- R4: an uncorrectable header is counted and sets HEADER. -/
theorem test_uncorrectable_counted :
    (after (.uncorrectableHeader .b (Symbol.packet [72, 0, 0, 0, 0, 210])) base).count .headerBad = 1
      ∧ (after (.uncorrectableHeader .b (Symbol.packet [72, 0, 0, 0, 0, 210])) base).alerts = Alert.header.mask := by
  decide +kernel

/-- R17: a request on port B's reverse lane is refused. -/
theorem test_reverse_refused :
    (after (.reversePacketRefused .b (packetSyms 9 0 [1, 1])) base).count .serviceForeign = 1 := by decide +kernel

/-- R6, R17: a frame head, a lens note and a frame tail whose payload breaks the rule of its kind are malformed on every
receiving lane; an empty row is so on port U's alone. -/
theorem test_malformed_by_lane :
    let bad (lane : LinkPort) (kind : BitVec 4) (payload : List Byte) : BitVec 16 × BitVec 16 × BitVec 6 :=
      let d := after (.packetAbandoned lane (packetSyms kind 0 payload)) base
      (d.count .headerBad, d.count .serviceForeign, d.alerts)
    (∀ lane ∈ [LinkPort.u, .a, .b], ∀ p ∈ [((1 : BitVec 4), []), (1, [0, 0]), (1, [128]), (3, List.replicate 9 0), (4, [0])],
      bad lane p.1 p.2 = (1, 0, 1)) ∧
      bad .u 2 [] = (1, 0, 1) ∧ bad .a 2 [] = (0, 1, 0) ∧ bad .b 2 [] = (0, 1, 0) ∧ bad .a 4 [] = (0, 1, 0) := by
  decide +kernel

/-- R19, R171: a request for another node goes to the upstream queue, one for this node to the command queue. -/
theorem test_request_addressed :
    (after (.serviceRequestReceived (packetSyms 9 0 [1, 1])) base).commands.length = 1
      ∧ (after (.serviceRequestReceived (packetSyms 9 0 [1, 1])) { base with node := 3 }).upstream.length = 1 := by
  decide +kernel

/-- R16: a foreign packet is passed through. -/
theorem test_passed_through :
    (after (.passThroughPacket (packetSyms 7 2 [])) base).passThrough = [⟨7, 0, 0, 2, []⟩] := by decide +kernel

/-- R20: lane lock and alignment done bring a DOWN link to UP; R20: port B not fitted stays DOWN. -/
theorem test_link_up :
    (after (.alignmentDone .a) (after (.laneLock .a) (Device.afterReset 0 false))).portA.link = .up
      ∧ (after (.laneLock .b) (Device.afterReset 0 false)).portB.link = .down := by decide +kernel

/-- R20, R167: a lane loss of an UP port A. -/
theorem test_lane_loss :
    (after (.laneLoss .a) { base with portA := { base.portA with credits := 3, held := true } }).portA
      = { Port.reset true with link := .down }
      ∧ (after (.laneLoss .a) base).count .linkLoss = 1 := by decide +kernel

/-- R188: the straps are latched at the release. -/
theorem test_straps :
    (after (.resetRelease 5 false) (after .resetPinAsserted base)).node = 5
      ∧ (after (.resetRelease 5 false) (after .resetPinAsserted base)).portBFitted = false
      ∧ (after .resetPinAsserted base).attn = none := by decide +kernel

/-! ## Chapter 2 -/

/-- SET_MODE on a part. -/
def askMode (m : Byte) (d : Device) : Device :=
  after .setMode (asked d [7, 6, m])

/-- 2.6, worked example, events 4 to 7. -/
theorem test_mode_session :
    lastAnswer (askMode 2 base) = some (.ok, [0, 2])
      ∧ lastAnswer (askMode 1 (askMode 2 base)) = some (.wrongMode, [0, 2])
      ∧ lastAnswer (askMode 0 (askMode 1 (askMode 2 base))) = some (.ok, [0, 255]) := by decide +kernel

/-- R26: a mode code above 3. -/
theorem test_mode_bad : lastAnswer (askMode 4 base) = some (.badArg, [0, 255]) := by decide +kernel

/-- 2.6, last event: W 2048 with cx64 191968 is refused at field 4. -/
theorem test_geometry_field4 :
    lastAnswer (after .setGeometry (asked base
      [1, 7, 8, 0, 14, 64, 0, 0, 2, 237, 224, 0, 1, 199, 224, 12, 216, 0, 0, 0, 64])) = some (.badArg, [4]) := by
  decide +kernel

/-- R30: the geometry of 2.6's third event is written. -/
theorem test_geometry_written :
    (after .setGeometry (asked base
      [1, 7, 0x15, 0x60, 0x0E, 0x40, 0, 0, 2, 0xAB, 0xE0, 0, 1, 0xC7, 0xE0, 0x0C, 0xD8, 0, 0, 0, 64])).geometry
      = ⟨5472, 3648, .rggb, 175072, 116704, 3288, .replicate, 0, 64⟩ := by decide +kernel

/-- R33: a stale limit of 0 is refused, KEEP to DROP is written. -/
theorem test_input :
    lastAnswer (after .setInput (asked base [1, 8, 1, 0])) = some (.badArg, [2])
      ∧ (after .setInput (asked base [1, 8, 1, 8])).policy = ⟨.drop, 8⟩ := by decide +kernel

/-! ## Chapter 3 -/

/-- A small geometry: W 64, H 64. -/
def small : Geometry := { Geometry.reset with width := 64, height := 64, cx64 := 2016, cy64 := 2016, rref := 45, bandHeight := 16 }

/-- The part with the small geometry and a filling frame of tag 55 with the note 3020, none, 400, 250. -/
def opened : Device :=
  after (.frameHeadTaken (packetSyms 1 55 ([0x80, 0, 3] ++ beBytes 4 3020 ++ [0] ++ beBytes 2 400 ++ beBytes 2 250)))
    { base with geometry := small, portA := { base.portA with credits := 1 } }

/-- The first context of a part. -/
def firstFrame (d : Device) : Option FrameContext := d.frames.head?

/-- R46 to R49: the created context. -/
theorem test_head_creates :
    (firstFrame opened).map FrameContext.tag = some 55
      ∧ (firstFrame opened).map FrameContext.deliveryA = some (.live ⟨0, 63, 0, 63⟩)
      ∧ opened.portA.credits = 0 ∧ opened.receiver = .filling
      ∧ opened.heldLens.map HeldLens.age = some 0 := by decide +kernel

/-- 3.9, 11.5: a head that finds a filling context ends it short with SYNC. -/
theorem test_head_syncs :
    (firstFrame (after (.frameHeadTaken (packetSyms 1 56 [0])) opened)).map FrameContext.input = some (.ended true)
      ∧ (after (.frameHeadTaken (packetSyms 1 56 [0])) opened).count .rowsMissing = 64
      ∧ (after (.frameHeadTaken (packetSyms 1 56 [0])) opened).frames.length = 2 := by decide +kernel

/-- A row packet of the given samples. -/
def rowSyms (r : BitVec 16) (samples : List Sample) : List Symbol :=
  packetSyms 2 r (packRow samples ++ beBytes 2 (rowCrc r (packRow samples)).toNat)

/-- R52, R54: a short row after a gap: padded, counted, handed to the line store. -/
theorem test_row_taken :
    (after (.rowTaken (rowSyms 2 [5, 6])) opened).storeReq.map StoredRow.row = some 2
      ∧ (after (.rowTaken (rowSyms 2 [5, 6])) opened).count .rowsMissing = 2
      ∧ (after (.rowTaken (rowSyms 2 [5, 6])) opened).count .rowsWidth = 1
      ∧ (after (.rowTaken (rowSyms 2 [5, 6])) opened).count .rowsCrc = 0 := by decide +kernel

/-- R66, R69: the store request takes slot 0. -/
theorem test_row_stored :
    ((after .storeRequest (after (.rowTaken (rowSyms 2 [5, 6])) opened)).slots[0]).map StoredRow.row = some 2
      ∧ (after .storeRequest (after (.rowTaken (rowSyms 2 [5, 6])) opened)).freeSlots = 383 := by decide +kernel

/-- R56: a note of another lens is discarded with MISMATCH. -/
theorem test_note_mismatch :
    (after (.lensNoteTaken (packetSyms 3 9 (beBytes 4 3600 ++ [1, 1, 1, 1, 1]))) opened).count .lensMismatch = 1 := by
  decide +kernel

/-- R57, third row of the table: rows 0, 2000 and a note at 1500; and the replacement at 1500. -/
theorem test_note_placed :
    let n (r f : Nat) : Note := ⟨⟨r, ⟨1, 0⟩, f, 0⟩, false⟩
    placeNote (n 1500 1) [n 0 0, n 2000 0] = [n 0 0, n 1500 1, n 2000 0]
      ∧ placeNote (n 1500 2) [n 0 0, n 1500 1, n 2000 0] = [n 0 0, n 1500 2, n 2000 0] := by decide +kernel

/-- R59: the tail of another tag is a sync fault, the frame's own ends its input (short: no row was taken). -/
theorem test_tail :
    (after (.frameTailTaken (packetSyms 4 56 [])) opened).count .frameSync = 1
      ∧ (after (.frameTailTaken (packetSyms 4 55 [])) opened).receiver = .idle
      ∧ (after (.frameTailTaken (packetSyms 4 55 [])) opened).count .rowsMissing = 64 := by decide +kernel

/-! ## Chapter 4 -/

/-- A context for arithmetic tests: 4.4 and 8.11. -/
def frame : FrameContext :=
  { id := 0, tag := 70, group := 0, mode := .correct
    geometry := ⟨6000, 4000, .rggb, 192000, 128000, 2000, .replicate, 64, 32⟩
    policy := ⟨.keep, 8⟩, identity := none, entry := none, reachUp := 96, reachDown := 96
    deliveryA := .excluded, deliveryB := .excluded, notes := [], input := .filling, front := none, nextLine := 0
    band := none, firstBand := none, lastBand := none, rowsStored := 0, rowsMissing := 0, crcErrors := 0
    linesReachClamp := 0, linesScaleClamp := 0, linesSubstituted := 0, lateNotes := 0, flags := .clear }

/-- A stored row whose every sample is `v`. -/
def flatRow (row : Nat) (v : Sample) : StoredRow := ⟨0, row, [v], false⟩

/-- 4.4, example: substitution around the gap of rows 43 to 45, on rows 41, 42, 46 and 47. -/
theorem test_substitution :
    let rows := [flatRow 41 41, flatRow 42 42, flatRow 46 46, flatRow 47 47]
    fetchRow rows frame 44 42 = .held [42] ∧ fetchRow rows frame 44 43 = .substituted [41]
      ∧ fetchRow rows frame 44 44 = .substituted [42] ∧ fetchRow rows frame 44 45 = .substituted [47] := by
  decide +kernel

/-- 4.4, second frame: reach 0/0, rows 41 and 47 lost too: fill for line 45, row 42 for line 44. -/
theorem test_fill :
    let rows := [flatRow 42 42, flatRow 46 46]
    let c := { frame with reachUp := 0, reachDown := 0 }
    fetchRow rows c 45 45 = .filled 64 ∧ fetchRow rows c 44 44 = .substituted [42] := by decide +kernel

/-! ## Chapter 5 -/

/-- 5.7: PROFILE_OPEN of entry 4 with the given focus stations. -/
def openBody (focus : List Byte) : List Byte :=
  [1, 11, 4] ++ beBytes 4 3020 ++ [0, 2, 2] ++ beBytes 2 350 ++ beBytes 2 700 ++ focus ++ beBytes 2 96 ++ beBytes 2 250

/-- 5.7, first event: focus 500, 0 is no station list; 5.3: reach 250 is taken as 180, length 28. -/
theorem test_profile_open :
    lastAnswer (after .profileOpen (asked base (openBody [1, 244, 0, 0]))) = some (.badStation, [2, 2])
      ∧ lastAnswer (after .profileOpen (asked base (openBody [0, 0, 1, 244]))) = some (.ok, [4, 96, 180, 0, 28]) := by
  decide +kernel

/-- A 24-bit literal item. -/
def lit (v : Int) : List Byte := 0 :: beBytes 3 (BitVec.ofInt 24 v).toNat

/-- A run item of count 3. -/
def run3 (v : Int) : List Byte := [1, 0, 3] ++ beBytes 3 (BitVec.ofInt 24 v).toNat

/-- The part with entry 4 LOADING. -/
def loading : Device := after .profileOpen (asked base (openBody [0, 0, 1, 244]))

/-- 5.7: the write of indices 14 to 27, with the values of its second run. -/
def writeBody (second : Int) (tail : List Byte) : List Byte :=
  [1, 12, 4, 0, 14] ++ lit (-800) ++ lit 90 ++ run3 0 ++ lit (-18) ++ lit 5 ++ lit (-600) ++ lit 80 ++ run3 second
    ++ lit (-18) ++ lit 5 ++ tail

/-- 5.7: RANGE with length 28 and L 15; BADARG at item 8, index 24; OK with count 14 (half is written) and next 28. -/
theorem test_profile_write :
    lastAnswer (after .profileWrite (asked loading (writeBody 0 (lit 7)))) = some (.range, [0, 28, 0, 0, 0, 15])
      ∧ lastAnswer (after .profileWrite (asked loading (writeBody 40000 []))) = some (.badArg, [0, 8, 0, 24])
      ∧ lastAnswer (after .profileWrite (asked loading (writeBody 0 []))) = some (.ok, [0, 14, 0, 28]) := by
  decide +kernel

/-- 5.7: a close with an unwritten word is INCOMPLETE; R97: the query of a LOADING entry. -/
theorem test_profile_close_incomplete :
    lastAnswer (after .profileClose (asked loading [1, 13, 4])) = some (.incomplete, [0, 0, 0, 0])
      ∧ lastAnswer (after .profileQuery (asked loading [1, 15, 4]))
        = some (.ok, [1, 0, 0, 11, 204, 0, 2, 2, 96, 180, 0, 28, 0, 0, 0]) := by decide +kernel

/-- The profile of 5.7. -/
def lens3020 : Profile where
  identity := ⟨3020, 0⟩
  focal := [350, 700]
  focus := [0, 500]
  words := [-2400, 300, 0, 40, -12, -35, 10, -2200, 280, 0, 40, -12, -35, 10,
    -800, 90, 0, 0, 0, -18, 5, -600, 80, 0, 0, 0, -18, 5].map (⟨·, true⟩)
  reachUp := 96
  reachDown := 96

/-- 5.8: a close that meets a READY entry of its identity is refused; a retire of a bound entry leaves it RETIRING. -/
theorem test_profile_duplicate_and_retire :
    let d := { base with profiles := (base.profiles.set 2 (.ready lens3020 2)).set 4 (.loading lens3020) }
    lastAnswer (after .profileClose (asked d [1, 13, 4])) = some (.duplicate, [2])
      ∧ lastAnswer (after .profileRetire (asked d [1, 14, 2])) = some (.ok, [3, 2]) := by decide +kernel

/-! ## Chapter 6 -/

/-- R108, table: the band focal lengths. -/
theorem test_interpolate :
    interpolate 350 450 0 2000 1008 = 400 ∧ interpolate 450 350 0 2000 1008 = 400 ∧ interpolate 300 301 0 32 16 = 301
      ∧ interpolate 301 300 0 32 16 = 301 ∧ interpolate 500 700 1200 2600 1312 = 516 := by decide +kernel

/-- R112, table: column and weight. -/
theorem test_station_weight :
    stationWeight [350, 700] 420 = (0, 51) ∧ stationWeight [350, 700] 700 = (1, 0)
      ∧ stationWeight [240, 350, 700] 350 = (1, 0) ∧ stationWeight [240, 350, 700] 699 = (1, 255)
      ∧ stationWeight [500] 7 = (0, 0) := by decide +kernel

/-- 6.7: the band set of focal 420, focus 400. -/
theorem test_band_set : lens3020.bandSet ⟨420, 400, false⟩ = ⟨-1922, 244, 0, 32, -10, -32, 9⟩ := by decide +kernel

/-- 6.7: k1 at the edge of the grid, and the clamp that sets RANGE. -/
theorem test_band_set_edges :
    (lens3020.bandSet ⟨516, 374, false⟩).k1 = -1495 ∧ (lens3020.bandSet ⟨700, 300, false⟩).k1 = -680
      ∧ (lens3020.bandSet ⟨800, 400, false⟩).k1 = -641 ∧ lens3020.clamps ⟨800, 400, false⟩ = true
      ∧ (lens3020.bandSet ⟨350, 0, false⟩).k1 = -2400 := by decide +kernel

/-- R105: centre rows, the last one clamped. -/
theorem test_centre_row :
    centreRow Geometry.reset 31 = 1008 ∧ centreRow { Geometry.reset with bandHeight := 128 } 31 = 3999 := by
  decide +kernel

/-! ## Chapter 8 -/

/-- 8.11: the band set of the worked example. -/
def exampleSet : BandSet := ⟨-2048, 512, 0, 32, 0, -32, 0⟩

/-- Stored rows of 8.11, as answers: the sample depends on row and column. -/
def redFetch (k : Nat) : Fetched :=
  .held (List.replicate 4562 0 ++ if k = 826 then [1000, 0, 1200] else [1400, 0, 1600])

/-- The blue neighbours of 8.11. -/
def blueFetch (k : Nat) : Fetched :=
  .held (List.replicate 4561 0 ++ if k = 829 then [2000, 0, 2100] else [2200, 0, 2300])

/-- 8.11: the red site (4600, 800) has value 1425, and the blue site (4601, 801) has value 2150. -/
theorem test_sites :
    (site frame exampleSet redFetch 4600 800).value = 1425
      ∧ (site frame exampleSet blueFetch 4601 801).value = 2150 := by decide +kernel

/-- 8.11: the position codes of the red site. -/
theorem test_position_codes :
    (site { frame with mode := .mapx } exampleSet redFetch 4600 800).value = 5842
      ∧ (site { frame with mode := .mapy } exampleSet redFetch 4600 800).value = 9954 := by decide +kernel

/-- 8.12: a corner beyond the image, under REPLICATE and under FILL, with the reach-clamp mark. -/
theorem test_corner :
    let s : BandSet := ⟨4096, 0, 0, 0, 0, 0, 0⟩
    let filled := { frame with geometry := { frame.geometry with edge := .fill } }
    site frame s (fun _ => .held [900]) 0 0 = ⟨900, true, false, false⟩
      ∧ site filled s (fun _ => .held [900]) 0 0 = ⟨64, true, false, false⟩ := by decide +kernel

/-- 8.12: the second table's scales. -/
theorem test_scale_limits :
    (sourcePosition frame ⟨40000, 0, 0, 0, 0, 0, 0⟩ 0 0).sx = -191997
      ∧ (sourcePosition frame ⟨-30000, 0, 0, 0, 0, 0, 0⟩ 0 0) = ⟨96000, 6144, true, true⟩
      ∧ (sourcePosition { frame with geometry := { frame.geometry with rref := 1000 } } ⟨4096, 0, 0, 0, 0, 0, 0⟩ 0 0)
        = ⟨-48000, -6144, false, true⟩ := by decide +kernel

/-! ## Chapters 7 and 9 -/

/-- A PASS frame of H 64 at line 2 with rows 0 to 4 held, LIVE on both ports. -/
def draining : Device :=
  { base with
    frames := [{ frame with
      mode := .pass, geometry := small, reachUp := 0, reachDown := 0, front := some 4, nextLine := 2
      deliveryA := .live ⟨0, 15, 0, 63⟩, deliveryB := .live ⟨16, 31, 2, 63⟩
      band := some ⟨0, none, .identity⟩ }]
    receiver := .filling
    slots := ((base.slots.set 0 (some ⟨0, 0, List.replicate 64 10, false⟩)).set 1
      (some ⟨0, 2, List.replicate 64 12, false⟩)).set 2 (some ⟨0, 4, List.replicate 64 14, false⟩) }

/-- R121, R126, R127: the line is handed to both ports, row 0 is released, the line advances. -/
theorem test_line_produced :
    (after .lineProduction draining).portA.queue = [.row 0 2 (List.replicate 16 12)]
      ∧ (after .lineProduction draining).portB.queue = [.row 0 0 (List.replicate 16 12)]
      ∧ (after .lineProduction draining).slots[0] = none ∧ (after .lineProduction draining).slots[1] ≠ none
      ∧ (firstFrame (after .lineProduction draining)).map FrameContext.nextLine = some 3 := by decide +kernel

/-- R119: port A LIVE with 4 rows queued makes the engine wait; R163: port B with 16 rows is cut. -/
theorem test_port_limits :
    ({ draining with portA := { draining.portA with queue := List.replicate 4 (.row 9 0 []) } }).engine = .waitPort
      ∧ (after .lineProduction { draining with
          portB := { draining.portB with queue := List.replicate 16 (.row 9 0 []) } }).count .cutB = 1 := by
  decide +kernel

/-- R61, R128: the last line closes the frame with its report on the LIVE ports. -/
theorem test_close :
    let d := { draining with frames := draining.frames.map fun c => { c with front := some 63, nextLine := 63 } }
    (after .lineProduction d).frames = [] ∧ (after .lineProduction d).slots[1] = none
      ∧ (after .lineProduction d).portA.queue.length = 2 ∧ (after .lineProduction d).receiver = .idle := by
  decide +kernel

/-- 9.5, example: after a choice of the frame source the answer goes first, then pass-through, then frame. -/
theorem test_rotation :
    let d := { base with
      answers := [⟨1, 1, .ok, []⟩], passThrough := [⟨7, 0, 0, 2, []⟩], portA := { base.portA with queue := [.restartMarker] } }
    (after .arbiterChoice d).lastSource = .answer
      ∧ (after .arbiterChoice (after .answerSent (after .arbiterChoice d))).lastSource = .passThrough
      ∧ (after .arbiterChoice (after .passThroughSent (after .arbiterChoice (after .answerSent (after .arbiterChoice d))))).lastSource
        = .frame := by decide +kernel

/-- R156, R160: credits stop at 4; HOLD and RESUME. -/
theorem test_flow :
    (after (.credit .a) { base with portA := { base.portA with credits := 4 } }).portA.credits = 4
      ∧ (after (.hold .b) base).portB.held = true ∧ (after (.resume .b) (after (.hold .b) base)).portB.held = false := by
  decide +kernel

/-- R161, R159: port B sends its front item, which leaves at its END. -/
theorem test_port_b_send :
    let d := { base with portB := { base.portB with queue := [.restartMarker] } }
    (after .portBSend d).laneB = some (packetBytes 8 0 [])
      ∧ (after (.portItemSent .b) (after .portBSend d)).portB.queue = [] := by decide +kernel

/-- R19: the upstream queue sends its front request, which leaves at its END. -/
theorem test_upstream :
    let d := { base with upstream := [⟨9, 3, 0, 0, [1, 1]⟩] }
    (after .upstreamSend d).laneU = some (Packet.bytes ⟨9, 3, 0, 0, [1, 1]⟩)
      ∧ (after .upstreamSent (after .upstreamSend d)).upstream = [] := by decide +kernel

/-- R153: column base 8 is no multiple of 16; R154, table: the clipped crop of 4096..8191, 3000..16381. -/
theorem test_crop :
    lastAnswer (after .setPort (asked base [1, 10, 0, 1, 0, 8, 31, 255, 0, 0, 63, 253])) = some (.badArg, [3])
      ∧ clipCrop ⟨4096, 8191, 3000, 16381⟩ Geometry.reset = some ⟨4096, 5999, 3000, 3999⟩ := by decide +kernel

/-- R155: group 2 with member set both. -/
theorem test_route : (after .setRoute (asked base [1, 9, 2, 3])).routes[2] = ⟨true, true⟩ := by decide +kernel

/-! ## Chapter 10 -/

/-- R179: IDENTIFY. -/
theorem test_identify :
    lastAnswer (after .identify (asked base [1, 1])) = some (.ok, [8, 23, 1, 84, 1, 0, 1, 1, 128, 8, 12, 6, 8, 2]) := by
  decide +kernel

/-- R180: READ_STATUS after reset with the links UP is 18 bytes. -/
theorem test_read_status :
    lastAnswer (after .readStatus (asked base [1, 2]))
      = some (.ok, [0, 255, 0, 0, 1, 128, 0, 0, 0, 2, 2, 2, 0, 0, 0, 0, 0, 63]) := by decide +kernel

/-- R182: 79 result bytes, pair 4 reads ROWS_MISSING, and a clear zeroes it. -/
theorem test_read_counters :
    let d := base.bump .rowsMissing 7
    ((lastAnswer (after .readCounters (asked d [1, 3, 1]))).map fun a => (a.2.length, (a.2.drop 10).take 3)) = some (79, [4, 0, 7])
      ∧ (after .readCounters (asked d [1, 3, 1])).count .rowsMissing = 0 := by decide +kernel

/-- R184, table: CLEAR_ALERTS of SYNC and DROP leaves LINK; R185: SET_ALERTS refuses bit 7. -/
theorem test_alerts :
    lastAnswer (after .clearAlerts (asked (((base.raise .sync).raise .drop).raise .link) [1, 4, 6])) = some (.ok, [32])
      ∧ lastAnswer (after .setAlerts (asked base [1, 5, 128])) = some (.badArg, [1]) := by decide +kernel

/-- R174: a body too short, and a code not in the list. -/
theorem test_unknown :
    lastAnswer (after .unknownCommand (asked base [9])) = some (.badLen, [])
      ∧ lastAnswer (after .unknownCommand (asked base [9, 18, 1])) = some (.unknown, [])
      ∧ lastAnswer (after .identify (asked base [9, 1, 1])) = some (.badLen, []) := by decide +kernel

/-- R186: the block resets answer with their code. -/
theorem test_block_resets :
    lastAnswer (after .resetBlockPipeline (asked opened [1, 16, 0])) = some (.ok, [0])
      ∧ (after .resetBlockPipeline (asked opened [1, 16, 0])).frames = []
      ∧ (after .resetBlockPortB (asked base [1, 16, 3])).portB.queue = [.restartMarker]
      ∧ (after .resetBlockCounters (asked (base.bump .cutB) [1, 16, 4])).count .cutB = 0
      ∧ lastAnswer (after .resetBlockPortA (asked base [1, 16, 5])) = some (.badArg, [1]) := by decide +kernel

/-- R101: a profile reset empties a LOADING entry. -/
theorem test_profile_reset : (after .resetBlockProfiles (asked loading [1, 16, 1])).profiles[4] = .empty := by decide +kernel

/-- R187: RESET_PART makes no answer and keeps the straps. -/
theorem test_reset_part :
    (after .resetPart (asked { base with node := 0, portBFitted := false } [1, 17])).answers = []
      ∧ (after .resetPart (asked { base with portBFitted := false } [1, 17])).portBFitted = false
      ∧ (after .resetPart (asked base [1, 17])).linkU = .down := by decide +kernel

/-! ## Well-formed commands -/

/-- A symbol list with no event is no packet command. -/
theorem smoke_no_event : (Instr.frameHeadTaken [.start, .data 1]).wellFormed = false := by decide +kernel

/-- A packet that completes is not abandoned. -/
theorem smoke_not_abandoned : (Instr.packetAbandoned .u (packetSyms 4 1 [])).wellFormed = false := by decide +kernel

/-- A clean header is not uncorrectable. -/
theorem smoke_not_uncorrectable : (Instr.uncorrectableHeader .u (packetSyms 4 1 [])).wellFormed = false := by
  decide +kernel

/-- Each packet row refuses another row's kind. -/
theorem smoke_wrong_kind :
    (Instr.frameHeadTaken (packetSyms 4 1 [])).wellFormed = false
      ∧ (Instr.rowTaken (packetSyms 4 1 [])).wellFormed = false
      ∧ (Instr.lensNoteTaken (packetSyms 4 1 [])).wellFormed = false
      ∧ (Instr.frameTailTaken (packetSyms 5 1 [])).wellFormed = false
      ∧ (Instr.passThroughPacket (packetSyms 4 1 [])).wellFormed = false
      ∧ (Instr.serviceRequestReceived (packetSyms 4 1 [])).wellFormed = false
      ∧ (Instr.reversePacketRefused .a (packetSyms 9 1 [])).wellFormed = false := by decide +kernel

/-- Port B's refusal needs a packet whose header passes the check. -/
theorem smoke_reverse_b : (Instr.reversePacketRefused .b (Symbol.packet [72, 0, 0, 0, 0, 210])).wellFormed = false := by
  decide +kernel

/-- Well-formed terms. -/
theorem smoke_accepted :
    (Instr.frameTailTaken (packetSyms 4 1 [])).wellFormed = true
      ∧ (Instr.reversePacketRefused .b (packetSyms 9 1 [])).wellFormed = true
      ∧ (Instr.packetAbandoned .u [.data 1, .start]).wellFormed = true := by decide +kernel

/-! ## Witnesses: concrete states and operands that meet the hypotheses of the obligations, each clause at the limits of its
range -/

/-- The part right after reset: every link DOWN. -/
def down : Device := Device.afterReset 0 true

/-- The part held in reset. -/
def heldPart : Device := { base with resetHeld := true }

/-- A filling frame of the small geometry, tag 70, without a row. -/
def smallFrame : FrameContext := { frame with geometry := small }

/-- A part whose only frame is `c`, which fills. -/
def filling (c : FrameContext) : Device := { base with frames := [c], receiver := .filling }

/-- A frame whose input has ended. -/
def endedFrame : FrameContext := { smallFrame with input := .ended false }

/-- A part with no frame filling and one place free in the frame queue. -/
def onePlace : Device := { base with frames := [endedFrame], geometry := small }

/-- The identity of 5.7. -/
def id3020 : Identity := ⟨3020, 0⟩

/-- An embedded note. -/
def sentNote : SentNote := ⟨63, id3020, 0, 400, 250⟩

/-- A note of a row. -/
def noteAt (row : Nat) : Note := ⟨⟨row, id3020, 400, 250⟩, false⟩

/-- A row of frame 0. -/
def zeroRow (row : Nat) : StoredRow := ⟨0, row, List.replicate 64 0, false⟩

theorem base_receiving (lane : LinkPort) : base.Receiving lane := by
  cases lane <;> exact ⟨rfl, rfl, rfl⟩

theorem onePlace_receiving : onePlace.Receiving .u := ⟨rfl, rfl, rfl⟩

theorem filling_receiving (c : FrameContext) : (filling c).Receiving .u := ⟨rfl, rfl, rfl⟩

theorem filling_last (c : FrameContext) (h : c.input = .filling) : FillsLast (filling c).frames [] c :=
  ⟨rfl, h, by simp⟩

theorem onePlace_noneFills : NoneFills onePlace.frames := by
  simp [NoneFills, onePlace, endedFrame]

theorem sentNote_valid : SentNote.Valid (some sentNote) ∧ SentNote.Valid none :=
  ⟨fun m h => by cases h; decide, fun _ h => by cases h⟩

theorem asked_asked (d : Device) (body : List Byte) (h : d.resetHeld = false) (room : d.answers.length < 8) :
    (asked d body).Asked body [] :=
  ⟨h, ⟨_, rfl, rfl⟩, room⟩

theorem witness_HeldInReset : base.resetHeld = false ∧ heldPart.resetHeld = true ∧
    ∀ n a, Instr.arbiterChoice ≠ .resetRelease n a := ⟨rfl, rfl, fun _ _ h => by cases h⟩

theorem witness_ResetPart : (asked base [1, 17]).resetHeld = false ∧
    (asked base [1, 17]).commands = [⟨9, 0, 0, 0, [1, 17]⟩] ∧ (asked base [1, 17, 0]).Asked [1, 17, 0] [] :=
  ⟨rfl, rfl, asked_asked _ _ rfl (by decide)⟩

theorem witness_LinkMoves :
    let a := { down with linkU := .aligning, portA := { down.portA with link := .aligning },
                         portB := { down.portB with link := .aligning } }
    down.resetHeld = false ∧ down.linkU = .down ∧ down.portA.link = .down ∧ down.portB.link = .down ∧
      down.portBFitted = true ∧ (Device.afterReset 0 false).portBFitted = false ∧ base.link .b ≠ .down ∧
      a.linkU = .aligning ∧ a.portA.link = .aligning ∧ a.portB.link = .aligning ∧ base.link .a ≠ .aligning := by
  decide +kernel

theorem witness_LaneLoss : base.resetHeld = false ∧ down.link .a = .down ∧ base.linkU ≠ .down ∧ NoneFills base.frames ∧
    FillsLast (filling smallFrame).frames [] smallFrame ∧ (filling smallFrame).linkU ≠ .down ∧
    base.portA.link ≠ .down ∧ base.portB.link ≠ .down :=
  ⟨rfl, rfl, by decide, by simp [NoneFills, base, Device.afterReset], filling_last _ rfl, by decide, by decide, by decide⟩

theorem witness_SymbolsOneByOne :
    exec (.packetAbandoned .u [.start]) (on base) = .next (on { base with openU := some [] }) ∧
      Instr.rowTaken [.start] ∈ arrivals .u [.start] := ⟨rfl, by decide⟩

theorem witness_LaneReading :
    let opened (n : Nat) : Device := { base with openU := some (List.replicate n 0) }
    base.resetHeld = false ∧ down.link .u ≠ .up ∧ base.link .u = .up ∧ base.opened .u = none ∧
      (∀ n, (opened n).link .u = .up ∧ (opened n).opened .u = some (List.replicate n 0)) ∧
      (List.replicate 16389 (0 : Byte)).length < 6 + 16384 ∧ 6 + 16384 ≤ (List.replicate 16390 (0 : Byte)).length ∧
      (List.replicate 5 (0 : Byte)).length < 6 ∧ 6 ≤ (List.replicate 6 (0 : Byte)).length := by
  refine ⟨rfl, by decide, rfl, rfl, fun n => ⟨rfl, rfl⟩, ?_, ?_, ?_, ?_⟩ <;> rw [List.length_replicate] <;> decide

theorem witness_FlowSymbols : base.resetHeld = false ∧ (∀ p, (base.port p).link = .up) ∧ ∀ p, (down.port p).link ≠ .up :=
  ⟨rfl, fun p => by cases p <;> rfl, fun p => by cases p <;> decide⟩

/-- A received header for each row of the table of R4: the fields, the check value and the parity bit of the header
[74, 0, 0, 0, 1, 210], and the same with bits of it changed. -/
theorem witness_HeaderErrors : (∃ i j : Fin 47, i ≠ j) ∧
    let h : Header := ⟨4, 5, 0, 0, 1⟩
    let s (c : BitVec 6) := (c ^^^ codeCheck h.dataBits).toNat
    headerLayout h 41 true false = [74, 0, 0, 0, 1, 210] ∧ s 41 = 0 ∧ codeOnes h.dataBits 41 true % 2 = 0 ∧
      ¬ codeOnes h.dataBits 41 false % 2 = 0 ∧
      (s 40 = 1 ∧ s 9 = 32 ∧ ¬ codeOnes h.dataBits 40 true % 2 = 0) ∧
      (codePositions[0]? = some (s 42) ∧ ¬ codeOnes h.dataBits 42 false % 2 = 0 ∧
        (⟨12, 5, 0, 0, 1⟩ : Header).dataBits = h.dataBits ^^^ BitVec.twoPow 40 (39 - 0)) ∧
      (codePositions[39]? = some (s 7) ∧ ¬ codeOnes h.dataBits 7 false % 2 = 0 ∧
        (⟨4, 5, 0, 0, 0⟩ : Header).dataBits = h.dataBits ^^^ BitVec.twoPow 40 (39 - 39)) ∧
      (s 6 = 47 ∧ s 22 = 63) ∧ s 40 ≠ 0 ∧ codeOnes h.dataBits 40 false % 2 = 0 :=
  ⟨⟨0, 46, by decide⟩, by decide +kernel⟩

/-- A field between two others, and one whose number is too great for it. -/
theorem witness_HeaderRoundTrip : ([1] ++ beBytes 2 0x10203 ++ [4] : List Byte) = [1, 2, 3, 4] ∧
    fieldAt [1, 2, 3, 4] 1 2 = 0x10203 % 256 ^ 2 := by
  decide +kernel

theorem witness_DamagedPackets :
    base.Receiving .u ∧ (packetBytes 4 1 []).length = 6 ∧ checkHeader [72, 0, 0, 0, 0, 210] = .uncorrectable ∧
      checkHeader [72, 0, 0, 0, 1, 210] = .corrected ⟨4, 5, 0, 0, 1⟩ ∧
      checkHeader (Header.bytes ⟨7, 0, 0, 16385, 0⟩) = .clean ⟨7, 0, 0, 16385, 0⟩ ∧
      checkHeader (packetBytes 7 1 [] ++ [0]) = .clean ⟨7, 0, 0, 0, 1⟩ ∧
      ((packetBytes 7 1 [] ++ [0]).drop 6).length ≠ 0 ∧
      checkHeader (packetBytes 4 1 [0]) = .clean ⟨4, 0, 0, 1, 1⟩ ∧ BreaksKindRule .u 4 ((packetBytes 4 1 [0]).drop 6) := by
  refine ⟨base_receiving .u, ?_, ?_, ?_, ?_, ?_, ?_, ?_, ?_⟩
  rotate_right
  · exact .inr (.inr (.inr (.inr (.inr ⟨rfl, by decide +kernel⟩))))
  all_goals decide +kernel

/-- The part with the store request for row 3 of its filling frame on its way. -/
def requesting : Device := { filling smallFrame with storeReq := some (zeroRow 3) }

/-- A packet of the greatest length, and the row packet that follows the one whose store request is on its way. -/
theorem witness_StoreRequestFirst : requesting.Receiving .u ∧ requesting.storeReq = some (zeroRow 3) ∧
    (after .storeRequest requesting).slots[0] = some (zeroRow 3) ∧
    (after (.rowTaken (rowSyms 4 [5, 6])) requesting).slots[0] = some (zeroRow 3) ∧
    (List.replicate 16384 (0 : Byte)).length ≤ 16384 ∧ ¬ BreaksKindRule .u 7 (List.replicate 16384 0) :=
  ⟨⟨rfl, rfl, rfl⟩, rfl, by decide +kernel, by decide +kernel, Nat.le_of_eq List.length_replicate, by
    rintro (⟨h, _⟩ | ⟨h, _⟩ | ⟨h, _⟩ | ⟨_, h, _⟩ | ⟨h, _⟩ | ⟨h, _⟩) <;> revert h <;> decide⟩

theorem witness_HeadEndsFilling : SentNote.Valid (some sentNote) ∧ (filling smallFrame).Receiving .u ∧
    (filling smallFrame).storeReq = none ∧ FillsLast (filling smallFrame).frames [] smallFrame :=
  ⟨sentNote_valid.1, filling_receiving _, rfl, filling_last _ rfl⟩

theorem witness_HeadRefused :
    let d := { base with frames := [endedFrame, endedFrame] }
    SentNote.Valid (some sentNote) ∧ d.Receiving .u ∧ d.storeReq = none ∧ NoneFills d.frames ∧ 2 ≤ d.frames.length :=
  ⟨sentNote_valid.1, ⟨rfl, rfl, rfl⟩, rfl, by simp [NoneFills, endedFrame], by decide⟩

/-- The hypotheses of HeadCreates, FirstNote, Binding and CreditRequests. -/
theorem witness_HeadCreates : SentNote.Valid (some sentNote) ∧ SentNote.Valid none ∧ onePlace.Receiving .u ∧
    onePlace.storeReq = none ∧ NoneFills onePlace.frames ∧ onePlace.frames.length < 2 :=
  ⟨sentNote_valid.1, sentNote_valid.2, onePlace_receiving, rfl, onePlace_noneFills, by decide⟩

/-- The stale limit is 8: an age of 7 is raised to 8, one of 8 to 9. -/
theorem witness_FirstNote :
    let d (age : Nat) := { onePlace with heldLens := some ⟨sentNote.record, age⟩ }
    min 255 ((7 : Nat) + 1) ≤ (d 7).policy.staleLimit ∧ (d 8).policy.staleLimit < min 255 ((8 : Nat) + 1) ∧
      onePlace.heldLens = none := by decide

/-- A part whose next head meets one READY entry for lens 3020, in CORRECT. -/
def bindable : Device :=
  { onePlace with pendingMode := some .correct, profiles := onePlace.profiles.set 4 (.ready lens3020 0) }

/-- The frame a head without or with the note creates. -/
def created (d : Device) (note : Option SentNote) : Option FrameContext :=
  (after (.frameHeadTaken (packetSyms 1 5 (frontHeadPayload 0 0 note))) d).frames.getLast?

theorem witness_Binding :
    (created onePlace none).map FrameContext.mode = some .pass ∧
      (created bindable (some sentNote)).map (fun c => (c.mode, c.identity)) = some (.correct, some id3020) ∧
      (created bindable none).map (fun c => (c.mode, c.identity)) = some (.correct, none) ∧
      bindable.profiles[(4 : Fin 8)] = .ready lens3020 0 ∧ lens3020.identity = id3020 ∧
      ∀ f : Fin 8, f ≠ 4 → bindable.profiles[f] = .empty := by decide +kernel

/-- A crop that begins at the last group of columns, and one that begins at the width; a credit and none; a port that is
not enabled. -/
theorem witness_CreditRequests :
    let p (base credits : Nat) : Port :=
      { onePlace.portA with crop := { onePlace.portA.crop with colBase := base }, credits := credits }
    onePlace.routes[(0 : Fin 8)].a = true ∧ (p 48 1).enable = true ∧ (p 48 1).link = .up ∧
      (p 48 1).crop.colBase < onePlace.geometry.width ∧ (p 48 1).crop.rowBase < onePlace.geometry.height ∧
      (p 48 1).credits ≠ 0 ∧ (p 48 0).credits = 0 ∧ onePlace.geometry.width ≤ (p 64 1).crop.colBase ∧
      (Port.reset false).enable = false ∧ onePlace.routes[(0 : Fin 8)].b = false := by decide +kernel

theorem witness_RowsDiscarded :
    let c := { smallFrame with front := some 5 }
    [(0 : Byte), 0].length = 2 ∧ (List.replicate 16384 (0 : Byte)).length ≤ 16384 ∧ base.Receiving .u ∧
      base.storeReq = none ∧ base.receiver = .idle ∧ { base with receiver := .discarding }.receiver = .discarding ∧
      (filling c).receiver = .filling ∧ FillsLast (filling c).frames [] c ∧ c.geometry.height ≤ (64 : BitVec 16).toNat ∧
      (63 : BitVec 16).toNat < c.geometry.height ∧ c.front = some 5 ∧ (5 : BitVec 16).toNat ≤ 5 := by
  refine ⟨rfl, Nat.le_of_eq List.length_replicate, base_receiving .u, rfl, rfl, rfl, rfl, filling_last _ rfl, ?_, ?_, rfl, ?_⟩ <;> decide

theorem witness_RowTaken :
    let c := { smallFrame with front := some 5, policy := ⟨.drop, 8⟩ }
    let good := packRow [1, 2] ++ beBytes 2 (rowCrc 6 (packRow [1, 2])).toNat
    (filling c).Receiving .u ∧ (filling c).storeReq = none ∧ (filling c).receiver = .filling ∧
      FillsLast (filling c).frames [] c ∧ (6 : BitVec 16).toNat < c.geometry.height ∧ 5 < (6 : BitVec 16).toNat ∧
      2 ≤ good.length ∧ rowCrcBad 6 good = false ∧ rowCrcBad 6 [0, 0] = true ∧ c.policy.crc = .drop ∧
      smallFrame.front = none ∧ smallFrame.policy.crc = .keep := by
  refine ⟨filling_receiving _, rfl, rfl, filling_last _ rfl, ?_, ?_, ?_, ?_, ?_, rfl, rfl, rfl⟩ <;> decide +kernel

theorem witness_NoteOutsideFrame : (1 : BitVec 16) ≠ 0 ∧ base.Receiving .u ∧ base.storeReq = none ∧
    base.receiver ≠ .filling := ⟨by decide, base_receiving .u, rfl, by decide⟩

/-- Band 1 of the small geometry has its centre at row 24: a note at 23 is late, one at 24 is not.  A note of a row held, or
an eighth, is taken; a ninth of a new row is not. -/
theorem witness_NoteInFrame :
    let c := { smallFrame with band := some ⟨1, none, .identity⟩, identity := some id3020, notes := [noteAt 0, noteAt 30] }
    let full := { c with notes := (List.range 8).map noteAt }
    (filling c).Receiving .u ∧ (filling c).receiver = .filling ∧ FillsLast (filling c).frames [] c ∧
      c.identity = some id3020 ∧ id3020 ≠ ⟨3020, 1⟩ ∧ c.band = some ⟨1, none, .identity⟩ ∧
      (let centre := min (1 * small.bandHeight + small.bandHeight / 2) (small.height - 1); 23 < centre ∧ ¬ 24 < centre) ∧
      c.notes = [noteAt 0] ++ [] ++ [noteAt 30] ∧ c.notes.length < 8 ∧
      full.notes = [noteAt 0, noteAt 1, noteAt 2] ++ [noteAt 3] ++ [noteAt 4, noteAt 5, noteAt 6, noteAt 7] ∧
      (∀ x ∈ full.notes, x.record.row ≠ 8) ∧ 8 ≤ full.notes.length := by
  refine ⟨filling_receiving _, rfl, filling_last _ rfl, ?_⟩
  decide +kernel

theorem witness_FrameTail :
    let c (f : Nat) := { smallFrame with front := some f }
    base.Receiving .u ∧ base.storeReq = none ∧ base.receiver = .idle ∧
      { base with receiver := .discarding }.receiver = .discarding ∧
      (∀ f, (filling (c f)).receiver = .filling ∧ FillsLast (filling (c f)).frames [] (c f)) ∧
      (c 63).tag = 70 ∧ (c 63).tag ≠ 71 ∧ (c 63).front = some 63 ∧ (c 63).geometry.height ≤ 63 + 1 ∧
      62 + 1 < (c 62).geometry.height ∧ smallFrame.front = none :=
  ⟨base_receiving .u, rfl, rfl, rfl, fun _ => ⟨rfl, filling_last _ rfl⟩, rfl, by decide, rfl, by decide, by decide, rfl⟩

theorem witness_PassThrough :
    let p : Packet := ⟨7, 0, 0, 2, []⟩
    (∀ k ∈ [(1 : BitVec 4), 2, 3, 4], p.kind ≠ k) ∧ p.payload.length ≤ 16384 ∧ base.Receiving .u ∧
      (List.replicate 7 p).length < 8 ∧ 8 ≤ (List.replicate 8 p).length ∧
      { base with passThrough := List.replicate 8 p }.Receiving .u :=
  ⟨by decide, by decide, base_receiving .u, by decide, by decide, ⟨rfl, rfl, rfl⟩⟩

theorem witness_ServiceRequestReceived :
    let p : Packet := ⟨9, 0, 0, 2, [1, 1]⟩
    let d (n : Nat) := { base with commands := List.replicate n p, upstream := List.replicate n p }
    p.kind = 9 ∧ p.payload.length ≤ 16384 ∧ (∀ n, (d n).Receiving .a) ∧ p.node = base.node ∧ p.node ≠ 1 ∧
      (d 7).commands.length < 8 ∧ 8 ≤ (d 8).commands.length ∧ (d 7).upstream.length < 8 ∧ 8 ≤ (d 8).upstream.length ∧
      { d 7 with node := 1 }.Receiving .a :=
  ⟨rfl, by decide, fun _ => ⟨rfl, rfl, rfl⟩, rfl, by decide, by decide, by decide, by decide, by decide, ⟨rfl, rfl, rfl⟩⟩

/-- A row of no bytes, which breaks no rule on a reverse lane, and a frame tail of one byte, which does. -/
theorem witness_ReversePacketRefused : (2 : BitVec 4) ≠ 9 ∧ base.Receiving .a ∧ base.Receiving .b ∧
    (∀ lane ∈ [LinkPort.a, .b], ¬ BreaksKindRule lane 2 []) ∧ ∀ lane, BreaksKindRule lane 4 [0] := by
  refine ⟨by decide, base_receiving .a, base_receiving .b, ?_, fun _ => ?_⟩
  · rintro lane hl (⟨h, _⟩ | ⟨h, _⟩ | ⟨h, _⟩ | ⟨h, _⟩ | ⟨h, _⟩ | ⟨h, _⟩)
    case inr.inr.inr.inl => subst h; revert hl; decide
    all_goals revert h; decide
  · exact .inr (.inr (.inr (.inr (.inr ⟨rfl, by decide⟩))))

theorem witness_StoreRequest :
    let r := zeroRow 3
    let d := { filling smallFrame with storeReq := some r }
    let full := { d with slots := Vector.replicate 384 (some (zeroRow 0)) }
    d.resetHeld = false ∧ base.storeReq = none ∧ d.storeReq = some r ∧ d.frames = [] ++ smallFrame :: [] ∧
      smallFrame.id = r.frame ∧ d.slots[(0 : Fin 384)] = none ∧ (∀ i : Fin 384, full.slots[i] ≠ none) ∧
      ∀ x ∈ base.frames, x.id ≠ r.frame := by
  refine ⟨rfl, rfl, rfl, rfl, rfl, ?_, fun i => by simp, by simp [base, Device.afterReset]⟩
  decide +kernel

/-- The bound of line 2 at reach 0/0 is row 4: a front of 4 makes the engine READY, one of 3 does not. -/
theorem witness_LineWaits :
    let c := { smallFrame with reachUp := 0, reachDown := 0, nextLine := 2, front := some 3 }
    base.frames = [] ∧ c.input = .filling ∧ c.front = some 3 ∧
      3 < min (c.nextLine + c.reachDown + 2) (c.geometry.height - 1) ∧
      { smallFrame with deliveryA := .live ⟨0, 15, 0, 63⟩ }.deliveryA = .live ⟨0, 15, 0, 63⟩ ∧
      4 ≤ rowsQueued (List.replicate 4 (.row 9 0 [])) := by decide +kernel

/-- The head frame of `draining`, with its next line. -/
def drainingFrame (line front : Nat) : FrameContext :=
  { frame with
    mode := .pass, geometry := small, reachUp := 0, reachDown := 0, front := some front, nextLine := line
    deliveryA := .live ⟨0, 15, 0, 63⟩, deliveryB := .live ⟨16, 31, 2, 63⟩
    band := some ⟨0, none, .identity⟩ }

/-- Line 62 needs row 63, as line 61 does: the last that is not the frame's last, and line 63, the last. -/
theorem witness_LineProduced : ∀ line ∈ [2, 62], ∀ front ∈ [63], let c := drainingFrame line front
    { draining with frames := [c] }.frames = c :: [] ∧ EngineReady { draining with frames := [c] } c ∧
      c.nextLine + 1 ≠ c.geometry.height := by
  intro line hl front hf
  simp only [List.mem_cons, List.not_mem_nil, or_false] at hl hf
  subst hf
  rcases hl with rfl | rfl <;>
    exact ⟨rfl, ⟨rfl, fun _ => ⟨63, rfl, by decide⟩, fun _ _ => by decide⟩, by decide⟩

theorem witness_LastLine : let c := drainingFrame 63 63
    EngineReady { draining with frames := [c] } c ∧ c.nextLine + 1 = c.geometry.height ∧
      (c.input = .filling → NoneFills []) ∧ c.entry = none ∧ { c with entry := some 4 }.entry = some 4 ∧
      ({ base with profiles := base.profiles.set 4 (.ready lens3020 1) }).profiles[(4 : Fin 8)] = .ready lens3020 1 ∧
      ({ base with profiles := base.profiles.set 4 (.retiring lens3020 1) }).profiles[(4 : Fin 8)] = .retiring lens3020 1 ∧
      (1 : Nat) ≤ 1 ∧ (1 : Nat) < 2 ∧ draining.slots[(1 : Fin 384)] = some ⟨0, 2, List.replicate 64 12, false⟩ ∧
      draining.slots[(3 : Fin 384)] = none := by
  refine ⟨⟨rfl, fun _ => ⟨63, rfl, by decide⟩, fun _ _ => by decide⟩, by decide, fun _ => by simp [NoneFills], rfl, rfl, ?_⟩
  decide +kernel

theorem witness_BandFixed : ({ smallFrame with nextLine := 15 }).nextLine % small.bandHeight ≠ 0 ∧
    ({ smallFrame with nextLine := 16 }).nextLine % small.bandHeight = 0 ∧ smallFrame.entry = none ∧
    (Entry.ready lens3020 1).profile? = some lens3020 ∧ bandLens [noteAt 0] 24 = some ⟨400, 250, false⟩ := by
  decide +kernel

theorem witness_BandLens :
    [noteAt 0, noteAt 24, noteAt 30].Pairwise (fun a b => a.record.row < b.record.row) ∧ (noteAt 24).record.row = 24 ∧
      (noteAt 23).record.row < 24 ∧ 24 < (noteAt 25).record.row ∧ 23 < (noteAt 24).record.row ∧
      (noteAt 24).record.row < 25 := by decide

theorem lens3020_ok : lens3020.Ok := by
  refine ⟨by decide, by decide, by decide, by decide, by decide, by decide, rfl, fun i w h => ?_, by decide⟩
  have hi : i < 28 := (List.getElem?_eq_some_iff.mp h).1
  have all : ∀ i : Fin 28, (i.val % 7 < 3 → -131071 ≤ (lens3020.words.getD i.val ⟨0, false⟩).value ∧
      (lens3020.words.getD i.val ⟨0, false⟩).value ≤ 131071) ∧
      (3 ≤ i.val % 7 → -32767 ≤ (lens3020.words.getD i.val ⟨0, false⟩).value ∧
        (lens3020.words.getD i.val ⟨0, false⟩).value ≤ 32767) := by decide +kernel
  have e : lens3020.words.getD i ⟨0, false⟩ = w := by rw [List.getD_eq_getElem?_getD, h]; rfl
  exact e ▸ all ⟨i, hi⟩

/-- The rows of the table of R112, the values one step inside the first and the last station, and the words of R83 at the
first and the last index. -/
theorem witness_BandSets : lens3020.Ok ∧ 2 ≤ lens3020.focal.length ∧ (349 : Nat) < lens3020.focal.headD 0 ∧
    lens3020.focal.getLastD 0 < 701 ∧ lens3020.focal[1]? = some 700 ∧ lens3020.focus[0]? = some 0 ∧
    StationCell [350, 700] 420 0 51 ∧ StationCell [350, 700] 516 0 121 ∧ StationCell [350, 700] 350 0 0 ∧
    StationCell [350, 700] 700 1 0 ∧ StationCell [240, 350, 700] 350 1 0 ∧ StationCell [240, 350, 700] 699 1 255 ∧
    StationCell [500] 7 0 0 ∧ StationCell [350, 700] 351 0 0 ∧ StationCell [0, 500] 499 0 255 ∧
    (lens3020.bandSet ⟨420, 400, false⟩).places[0]? = some (-1922) ∧
    (lens3020.bandSet ⟨420, 400, false⟩).places[6]? = some 9 := by
  refine ⟨lens3020_ok, by decide, by decide, by decide, rfl, rfl, ?_, ?_, ?_, ?_, ?_, ?_, ?_, ?_, ?_, ?_, ?_⟩
  any_goals simp [StationCell]
  all_goals decide +kernel

theorem small_ok : small.Ok := by
  constructor <;> decide

/-- The two fetches differ outside the rows read for line 10 at reach 0/0, which are 8 to 12. -/
theorem witness_RowsRead :
    let c := { smallFrame with reachUp := 0, reachDown := 0 }
    let fetch (v : Sample) (k : Nat) : Fetched := .held [if k < 8 ∨ 12 < k then v else 1]
    c.geometry.Ok ∧ 63 < c.geometry.width ∧ 10 < c.geometry.height ∧ fetch 2 7 ≠ fetch 3 7 ∧ fetch 2 13 ≠ fetch 3 13 ∧
      ∀ k, 10 ≤ k + c.reachUp + 2 → k ≤ 10 + c.reachDown + 2 → k < c.geometry.height → fetch 2 k = fetch 3 k := by
  refine ⟨small_ok, by decide, by decide, by decide, by decide, fun k h1 h2 _ => ?_⟩
  have : ¬ (k < 8 ∨ 12 < k) := by simp at h1 h2; omega
  simp [this]

/-- Two samples in four bytes, the last four bits of them pad; the same two from five bytes, the last twelve bits no
sample; a bad and a good CRC. -/
theorem witness_RowRoundTrip :
    (packRow [16383, 1])[3]? = some 16 ∧ (8 * 3 + 3) / 14 = 1 ∧ [(16383 : Sample), 1][1]? = some 1 ∧
      14 * [(16383 : Sample), 1].length ≤ 8 * 3 + 4 ∧ (unpackRow [255, 252, 0, 16, 255])[1]? = some 1 ∧
      (unpackRow [255, 252, 0, 16, 255]).length = 2 ∧ rowCrcBad 5 ([1] ++ [0, 0]) = true ∧
      rowCrcBad 5 ([1] ++ [(rowCrc 5 [1]).extractLsb' 8 8, (rowCrc 5 [1]).extractLsb' 0 8]) = false := by
  decide +kernel

theorem witness_LineValues :
    let b : Band := ⟨3, none, ⟨1, 2, 3, 4, 5, 6, 7⟩⟩
    { smallFrame with band := some b }.band = some b ∧ 63 < small.width := by
  decide +kernel

/-- Of rows 41 and 45, at one distance of the missing row 43, the upper is the substitute; with neither there is none. -/
theorem witness_FetchRow :
    0 < frame.geometry.height ∧ flatRow 41 41 ∈ [flatRow 41 41, flatRow 45 45] ∧
      (∀ r ∈ [flatRow 41 41, flatRow 45 45], r.row ≠ 43) ∧ Substitutes frame 44 43 (flatRow 41 41) ∧
      Substitutes frame 44 43 (flatRow 45 45) ∧ ((41 : Int) - 43).natAbs = ((45 : Int) - 43).natAbs ∧
      ∀ r ∈ [flatRow 42 42], r.row ≠ 43 ∧ ¬ Substitutes frame 44 43 r := by
  refine ⟨by decide, by decide, by decide, ⟨by decide, by decide, by decide, by decide⟩,
    ⟨by decide, by decide, by decide, by decide⟩, by decide, fun r h => ?_⟩
  simp only [List.mem_cons, List.not_mem_nil, or_false] at h
  subst h
  exact ⟨by decide, fun h => absurd h.1 (by decide)⟩

theorem witness_IdentityMapping :
    let c := { smallFrame with reachUp := 0, reachDown := 0 }
    c.geometry.Ok ∧ 63 < c.geometry.width ∧ 63 < c.geometry.height ∧ c.reachUp = 0 ∧ c.reachDown = 0 ∧
      c.mode = .correct ∧ { c with mode := .mapx }.mode = .mapx ∧ { c with mode := .mapy }.mode = .mapy :=
  ⟨small_ok, by decide, by decide, rfl, rfl, rfl, rfl, rfl⟩

/-- The least reference radius; the third and fourth rows of the table of R138; the scales of R140, floored toward -∞; one
site of each colour. -/
theorem witness_SourcePositions : 1 ≤ { small with rref := 1 }.rref ∧
    Floored (65536 * ((-191968) * (-191968) + (-127968) * (-127968))) ((64 * 3606) ^ 2) 65494 ∧
    Floored (65536 * ((-192000) * (-192000) + (-128000) * (-128000))) ((64 * 1000) ^ 2) 851968 ∧
    min 262144 (851968 : Int) = 262144 ∧ Floored (65536 ^ 3 * (-31965) + 1) (65536 ^ 3) (-31965) ∧
    Floored (65536 ^ 3 * (-31965) - 1) (65536 ^ 3) (-31966) ∧ (Colour.gr, 1 % 2, 0 % 2) ∈ colourOrigins .rggb ∧
    (Colour.gr, 0 % 2, 0 % 2) ∈ colourOrigins .grbg ∧ (Colour.r, 0 % 2, 1 % 2) ∈ colourOrigins .gbrg ∧
    (Colour.b, 0 % 2, 0 % 2) ∈ colourOrigins .bggr := by
  simp only [Floored]
  decide +kernel

/-- Lattice column 31 is the last of the small geometry's 32, and row 31 its last row; column -1 is brought to 0 and column
32 to 31 under REPLICATE, and both take the fill value under FILL. -/
theorem witness_Resampling :
    (31 : Nat) ≤ 31 ∧ (([(1023, 5), (1, 16383)] : List (Nat × Sample)).map Prod.fst).sum = 1024 ∧ frame.mode = .correct ∧
      { frame with mode := .pass }.mode = .pass ∧ small.edge = .replicate ∧ { small with edge := .fill }.edge = .fill ∧
      31 < small.width / 2 ∧ 31 < small.height / 2 ∧
      ((0 : Nat) : Int) = max 0 (min (((small.width / 2 : Nat) : Int) - 1) (-1)) ∧
      ((31 : Nat) : Int) = max 0 (min (((small.width / 2 : Nat) : Int) - 1) 32) ∧ (-1 : Int) < 0 ∧
      ((small.width / 2 : Nat) : Int) ≤ 32 ∧ (32 - 31) * (32 - 31) = 1 ∧
      (Fetched.held [5, 6]).Gives 1 6 false ∧ (Fetched.substituted [5, 6]).Gives 1 6 true ∧ (Fetched.filled 7).Gives 1 7 true := by
  refine ⟨by decide, by decide, rfl, rfl, rfl, rfl, by decide, by decide, by decide, by decide, by decide, by decide,
    by decide, ?_, ?_, ?_⟩ <;> simp [Fetched.Gives]

/-- The bytes of each packet the part makes, from the tables of 1.4 and R165, and the sources of port A's lane, one of them
or none with a packet. -/
theorem witness_SendingsBegin :
    let d := { base with passThrough := [⟨7, 0, 0, 2, []⟩] }
    (headItem { frame with entry := some 4, identity := some ⟨3020, 1⟩ } ⟨16, 31, 2, 63⟩).packet 5 =
      ⟨1, 5, 0, 70, [0, 16, 0, 62, 1, 0x81, 0, 0, 11, 204]⟩ ∧
    (headItem { frame with identity := some ⟨3020, 1⟩ } ⟨16, 31, 2, 63⟩).packet 5 = ⟨1, 5, 0, 70, [0, 16, 0, 62, 1, 0]⟩ ∧
    (Item.report 0 { frame with
        entry := some 4, identity := some ⟨3020, 1⟩, firstBand := some ⟨420, 400, true⟩, rowsStored := 258,
        flags := { FrameFlags.clear with inherited := true, late := true }, deliveryA := .cut,
        deliveryB := .live ⟨0, 15, 0, 1⟩ }.report).packet 5 =
      ⟨6, 5, 0, 70, [0xE9, 4, 1, 0, 0, 11, 204, 0x41, 1, 164, 1, 144, 0, 0, 0, 0, 1, 2, 0, 0, 0, 0, 0, 0, 0, 0, 0, 0, 0, 0,
        14]⟩ ∧
    { base with answers := [⟨7, 6, .wrongMode, [0, 2]⟩] }.frontPacket .answer = some ⟨5, 0, 0, 0, [7, 6, 4, 0, 2]⟩ ∧
    { base with answers := [⟨7, 6, .wrongMode, [0, 2]⟩] }.answers = ⟨7, 6, .wrongMode, [0, 2]⟩ :: [] ∧
    { base with portA := { base.portA with queue := [.cutMarker 0 9] } }.frontPacket .frame = some ⟨7, 0, 0, 9, []⟩ ∧
    base.resetHeld = false ∧ down.portA.link ≠ .up ∧ { base.portA with held := true }.held = true ∧
      base.answers = [] ∧ base.passThrough = [] ∧ base.portA.queue = [] ∧
      d.laneA = none ∧ d.portA.link = .up ∧ d.portA.held = false ∧
      Sys2Proof.Machine.rotation d.lastSource = [.answer] ++ .passThrough :: [.frame] ∧
      (∀ t ∈ [Source.answer], d.frontPacket t = none) ∧
      d.frontPacket .passThrough = some ⟨7, 0, 0, 2, []⟩ ∧
      { base with laneB := some [] }.laneB ≠ none ∧ base.portB.link = .up ∧ base.portB.held = false ∧
      { base.portB with queue := [.restartMarker] }.queue = .restartMarker :: [] ∧ base.laneB = none ∧
      base.laneU = none ∧ base.linkU = .up ∧ base.upstream = [] ∧
      { base with upstream := [⟨9, 3, 0, 0, [1, 1]⟩] }.upstream = ⟨9, 3, 0, 0, [1, 1]⟩ :: [] := by
  decide +kernel

/-- The four states of a sending lane, on each port: DOWN, ALIGNING, UP between packets and UP with one begun. -/
theorem witness_LaneCarries : ∀ lane : LinkPort, lane ∈ [.u, .a, .b] →
    let sending := { base with laneU := some [1], laneA := some ⟨.answer, [1]⟩, laneB := some [1] }
    (down.resetHeld = false ∧ down.link lane = .down ∧ down.laneOutput lane = .idle) ∧
      (down.setLink lane .aligning).laneOutput lane = .align ∧
      (base.link lane = .up ∧ base.sending lane = none ∧ base.laneOutput lane = .idle) ∧
      sending.sending lane = some [1] ∧ sending.laneOutput lane = .packet [1] := by
  decide +kernel

theorem witness_SendingsEnd :
    let d (s : Source) := { base with laneA := some ⟨s, [1]⟩, laneB := some [1], laneU := some [1] }
    base.resetHeld = false ∧ (d .frame).laneA = some ⟨.frame, [1]⟩ ∧ (d .answer).laneA = some ⟨.answer, [1]⟩ ∧
      (d .passThrough).laneA = some ⟨.passThrough, [1]⟩ ∧ (d .frame).laneB = some [1] ∧ (d .frame).laneU = some [1] ∧
      (∀ l, (d .answer).laneA = some l → l.source ≠ .frame) ∧ (∀ l, (d .frame).laneA = some l → l.source ≠ .answer) ∧
      (∀ l, (d .frame).laneA = some l → l.source ≠ .passThrough) ∧ base.laneB = none ∧ base.laneU = none := by
  refine ⟨rfl, rfl, rfl, rfl, rfl, rfl, ?_, ?_, ?_, rfl, rfl⟩ <;>
    · intro l h
      cases h
      decide

/-- A part whose answer queue is full. -/
def answersFull : Device := { base with answers := List.replicate 8 ⟨1, 1, .ok, []⟩ }

/-- Seven answers leave room, eight do not; the listed codes are 1 to 17; a fixed length missed by one; a body of one byte;
another code than the row's, with and without room; RESET_BLOCK of the first and the last block but the row's. -/
theorem witness_Execution :
    (Instr.resetPart, 17) ∈ executions ∧ base.commands = [] ∧ (asked base [1, 18]).Asked [1, 18] [] ∧
      (asked base [1]).commands = [⟨9, 0, 0, 0, [1]⟩] ∧ [(1 : Byte)].length < 2 ∧
      (asked answersFull [1, 18]).commands = [⟨9, 0, 0, 0, [1, 18]⟩] ∧ (18 : Byte) ≠ 17 ∧
      (Instr.resetBlockPipeline, 0) ∈ blockResets ∧ (asked base [1, 16, 1]).commands = [⟨9, 0, 0, 0, [1, 16, 1]⟩] ∧
      (asked answersFull [1, 16, 4]).commands = [⟨9, 0, 0, 0, [1, 16, 4]⟩] ∧ (1 : Byte).toNat ≤ 4 ∧ (4 : Byte).toNat ≤ 4 ∧
      (1 : Byte) ≠ 0 ∧ (4 : Byte) ≠ 0 ∧
      (asked { base with answers := List.replicate 7 ⟨1, 1, .ok, []⟩ } [1, 1]).Asked [1, 1] [] ∧
      (asked answersFull [1, 1]).commands = [⟨9, 0, 0, 0, [1, 1]⟩] ∧ 8 ≤ (asked answersFull [1, 1]).answers.length ∧
      (asked base []).Asked [] [] ∧ (asked base [1]).Asked [1] [] ∧ (asked base [1, 0]).Asked [1, 0] [] ∧
      17 < (18 : Byte).toNat ∧ 1 ≤ (1 : Byte).toNat ∧ (17 : Byte).toNat ≤ 17 ∧
      (Instr.setMode, 6, 1) ∈ fixedLengths ∧ (asked base [1, 6, 1, 1]).Asked [1, 6, 1, 1] [] ∧ [(1 : Byte), 1].length ≠ 1 := by
  refine ⟨by decide, rfl, asked_asked _ _ rfl (by decide), rfl, by decide, rfl, by decide, by decide, rfl, rfl, by decide,
    by decide, by decide, by decide, asked_asked _ _ rfl (by decide), rfl, by decide, ?_⟩
  refine ⟨asked_asked _ _ rfl (by decide), asked_asked _ _ rfl (by decide), asked_asked _ _ rfl (by decide), ?_⟩
  exact ⟨by decide, by decide, by decide, by decide, asked_asked _ _ rfl (by decide), by decide⟩

/-- Requests that meet the premise of the statements about one command: any body, asked of a part with room. -/
theorem witness_Asked (body : List Byte) : (asked base body).Asked body [] :=
  asked_asked base body rfl (by decide)

theorem witness_IdentifyAndStatus : (asked base [1, 1]).Asked [1, 1] [] ∧ (asked base [1, 2]).Asked [1, 2] [] :=
  ⟨witness_Asked _, witness_Asked _⟩

theorem witness_CountersAndAlertsCommands :
    (∀ a, (asked base [1, 3, a]).Asked [1, 3, a] [] ∧ (asked base [1, 4, a]).Asked [1, 4, a] [] ∧
      (asked base [1, 5, a]).Asked [1, 5, a] []) ∧
      1 < (2 : Byte).toNat ∧ 64 ≤ (64 : Byte).toNat ∧ (63 : Byte) = (0#2 ++ (63 : BitVec 6) : BitVec 8) :=
  ⟨fun _ => ⟨witness_Asked _, witness_Asked _, witness_Asked _⟩, by decide, by decide, by decide⟩

/-- From PASS every mode is admitted; with CORRECT pending, MAPX is not. -/
theorem witness_SetMode :
    let d := { base with pendingMode := some .correct }
    (asked d [1, 6, 4]).Asked [1, 6, 4] [] ∧ 3 < (4 : Byte).toNat ∧ (3 : Byte) = Mode.mapy.code ∧
      base.pendingMode.getD base.mode = .pass ∧
      ¬ (Mode.mapx = d.pendingMode.getD d.mode ∨ d.pendingMode.getD d.mode = .pass ∨ Mode.mapx = .pass) :=
  ⟨asked_asked _ _ rfl (by decide), by decide, by decide, rfl, by decide⟩

/-- The greatest geometry of R28, each field at the end of its range. -/
def largest : SentGeometry := ⟨8192, 16382, 3, 524287, 1048447, 8191, 1, 16383, 128⟩

/-- The same with its field `n` one step out of range. -/
def largestBut (n : Nat) : SentGeometry :=
  match n with
  | 1 => { largest with width := 8208 }
  | 2 => { largest with height := 16384 }
  | 3 => { largest with phase := 4 }
  | 4 => { largest with cx64 := 524288 }
  | 5 => { largest with cy64 := 1048448 }
  | 6 => { largest with rref := 8192 }
  | 7 => { largest with edge := 2 }
  | 8 => { largest with fill := 16384 }
  | _ => { largest with bandHeight := 129 }

theorem witness_SetGeometry :
    (∀ g : SentGeometry, (asked base (1 :: 7 :: g.bytes)).Asked (1 :: 7 :: g.bytes) []) ∧
      (base.mode = .pass ∧ (base.pendingMode = none ∨ base.pendingMode = some .pass)) ∧
      ¬ ({ base with mode := .correct }.mode = .pass) ∧ (∀ n, largest.InRange n) ∧
      ∀ n ∈ [1, 2, 3, 4, 5, 6, 7, 8, 9], ¬ (largestBut n).InRange n ∧ ∀ m, m < n → (largestBut n).InRange m := by
  refine ⟨fun _ => witness_Asked _, ⟨rfl, .inl rfl⟩, by decide, fun n => ?_, fun n hn => ?_⟩
  · unfold SentGeometry.InRange
    split <;> first | trivial | decide
  · simp only [List.mem_cons, List.not_mem_nil, or_false] at hn
    rcases hn with rfl | rfl | rfl | rfl | rfl | rfl | rfl | rfl | rfl <;> refine ⟨by simp [SentGeometry.InRange, largestBut, largest], fun m hm => ?_⟩ <;>
      (unfold SentGeometry.InRange; split <;> first | trivial | (exfalso; omega) | decide)

theorem witness_SetInputAndRoute :
    (∀ a b, (asked base [1, 8, a, b]).Asked [1, 8, a, b] [] ∧ (asked base [1, 9, a, b]).Asked [1, 9, a, b] []) ∧
      1 < (2 : Byte).toNat ∧ (1 : Byte).toNat ≤ 1 ∧ (1 : Byte) ≠ 0 ∧ 7 < (8 : Byte).toNat ∧ (7 : Byte).toNat ≤ 7 ∧
      3 < (4 : Byte).toNat ∧ (7 : Byte).toNat = (7 : Fin 8) ∧ (3 : Byte).toNat ≤ 3 :=
  ⟨fun _ _ => ⟨witness_Asked _, witness_Asked _⟩, by decide, by decide, by decide, by decide, by decide, by decide,
    by decide, by decide⟩

/-- The widest crop. -/
def widest : SentPort := ⟨1, 0, 8191, 0, 16381⟩

/-- The widest crop with argument `n` one step out of range. -/
def widestBut (n : Nat) : SentPort :=
  match n with
  | 2 => { widest with enable := 2 }
  | 3 => { widest with colBase := 8192 }
  | 4 => { widest with colLimit := 8207 }
  | 5 => { widest with rowBase := 16382 }
  | _ => { widest with rowLimit := 16383 }

theorem inRange_port (s : SentPort) (h : s.InRange 2 ∧ s.InRange 3 ∧ s.InRange 4 ∧ s.InRange 5 ∧ s.InRange 6) (n : Nat) :
    s.InRange n := by
  obtain ⟨h2, h3, h4, h5, h6⟩ := h
  unfold SentPort.InRange at *
  split <;> first | trivial | assumption

theorem witness_SetPort :
    (∀ (code : Byte) (s : SentPort), (asked base (1 :: 10 :: code :: s.bytes)).Asked (1 :: 10 :: code :: s.bytes) []) ∧
      1 < (2 : Byte).toNat ∧ base.portBFitted = true ∧ { base with portBFitted := false }.portBFitted = false ∧
      (∀ n ∈ [2, 3, 4, 5, 6], ¬ (widestBut n).InRange n ∧ ∀ m, m < n → (widestBut n).InRange m) ∧
      (∀ n, widest.InRange n) ∧ widest.colBase ≤ widest.colLimit ∧ widest.rowBase ≤ widest.rowLimit ∧
      (∀ n, { widest with colBase := 16, colLimit := 15 }.InRange n) ∧ (15 : BitVec 16) < 16 ∧
      (∀ n, { widest with rowBase := 2, rowLimit := 1 }.InRange n) ∧ (1 : BitVec 16) < 2 := by
  refine ⟨fun _ _ => witness_Asked _, by decide, rfl, rfl, fun n hn => ?_, inRange_port _ ?_, by decide, by decide,
    inRange_port _ ?_, by decide, inRange_port _ ?_, by decide⟩
  · simp only [List.mem_cons, List.not_mem_nil, or_false] at hn
    rcases hn with rfl | rfl | rfl | rfl | rfl <;> refine ⟨by simp [SentPort.InRange, widestBut, widest], fun m hm => ?_⟩ <;>
      (unfold SentPort.InRange; split <;> first | trivial | (exfalso; omega) | decide)
  all_goals refine ⟨?_, ?_, ?_, ?_, ?_⟩ <;> simp [SentPort.InRange, widest]

/-- The arguments of the profile of 5.7, on entry 4. -/
def open3020 : SentOpen := ⟨4, 3020, 0, [350, 700], [0, 500], 96, 250⟩

/-- The same with argument `n` one step out of range. -/
def open3020But (n : Nat) : SentOpen :=
  match n with
  | 3 => { open3020 with converter := 4 }
  | 4 => { open3020 with focal := List.replicate 13 350 }
  | 5 => { open3020 with focus := List.replicate 7 500 }
  | _ => { open3020 with focal := [0] }

theorem witness_ProfileOpen :
    (∀ o : SentOpen, (asked base (1 :: 11 :: o.bytes)).Asked (1 :: 11 :: o.bytes) []) ∧
      [(4 : Byte), 0, 0, 0, 1, 0, 1].length < 8 ∧ [(4 : Byte), 0, 0, 0, 1, 0, 0, 0].length ≠ 12 + 2 * (0 + 0) ∧
      open3020.focal.length < 256 ∧ open3020.focus.length < 256 ∧ 8 ≤ (8 : Byte).toNat ∧
      open3020.entry.toNat = (4 : Fin 8) ∧ base.profiles[(4 : Fin 8)] = .empty ∧
      loading.profiles[(4 : Fin 8)] ≠ .empty ∧
      (∀ n ∈ [3, 4, 5, 6], ¬ (open3020But n).InRange n ∧ ∀ m, m < n → (open3020But n).InRange m) ∧
      (∀ n, open3020.InRange n) ∧ open3020.focal.Pairwise (· < ·) ∧ open3020.focus.Pairwise (· < ·) ∧
      FirstFault [350, 350] 2 ∧ FirstFault [0, 500, 499] 3 := by
  refine ⟨fun _ => witness_Asked _, by decide, by decide, by decide, by decide, by decide, by decide, by decide +kernel,
    by decide +kernel, fun n hn => ?_, fun n => ?_, by decide, by decide, ⟨[], 350, 350, [], rfl, by decide, by decide, rfl⟩,
    ⟨[0], 500, 499, [], rfl, by decide, by decide, rfl⟩⟩
  · simp only [List.mem_cons, List.not_mem_nil, or_false] at hn
    rcases hn with rfl | rfl | rfl | rfl <;> refine ⟨by simp [SentOpen.InRange, open3020But, open3020], fun m hm => ?_⟩ <;>
      (unfold SentOpen.InRange; split <;> first | trivial | (exfalso; omega) | decide)
  · unfold SentOpen.InRange
    split <;> first | trivial | decide

/-- A LOADING entry of 28 words takes 14 from index 14 on, not 15; index 24 has place 3, so 32768 is out of its range and
32767 is not. -/
theorem witness_ProfileWrite :
    (∀ e s i, (asked loading (1 :: 12 :: writeBytes e s i)).Asked (1 :: 12 :: writeBytes e s i) []) ∧
      (∀ e s i, [(4 : Byte)] ≠ writeBytes e s i) ∧ 8 ≤ (8 : Byte).toNat ∧ (4 : Byte).toNat = (4 : Fin 8) ∧
      (∀ p, base.profiles[(4 : Fin 8)] ≠ .loading p) ∧
      loading.profiles[(4 : Fin 8)] = .loading { lens3020 with words := List.replicate 28 ⟨0, false⟩, reachDown := 180 } ∧
      ¬ (SentItem.run 1 0).CountOk ∧ (SentItem.run 2 0).CountOk ∧ (SentItem.run 255 0).CountOk ∧
      ¬ (SentItem.run 256 0).CountOk ∧ 28 < 14 + (SentItem.run 15 0).values.length ∧
      14 + (SentItem.run 14 0).values.length ≤ 28 ∧ (SentItem.literal 32768).values[0]? = some 32768 ∧
      AllInPlace 24 [] ∧ AllInPlace 24 [32767] ∧ ¬ InPlace 24 32768 := by
  refine ⟨fun e s i => asked_asked _ _ (by decide +kernel) (by decide +kernel), fun e s i h => ?_, by decide, by decide,
    fun p h => ?_, by decide +kernel, ?_⟩
  · have := congrArg List.length h
    simp [writeBytes, beBytes] at this
  · have : base.profiles[(4 : Fin 8)] = .empty := by decide +kernel
    rw [this] at h
    cases h
  · refine ⟨by simp [SentItem.CountOk], by simp [SentItem.CountOk], by simp [SentItem.CountOk], by simp [SentItem.CountOk],
      by decide, by decide, by decide, fun j v h => by simp at h, fun j v h => ?_, by simp [InPlace]⟩
    cases j with
    | zero => simp at h; subst h; simp [InPlace]
    | succ j => simp at h

/-- A complete and an incomplete LOADING entry, a READY one of the same identity, and bound and unbound entries. -/
theorem witness_ProfileCloseRetireQuery :
    let d := { base with profiles := (base.profiles.set 2 (.ready lens3020 2)).set 4 (.loading lens3020) }
    (∀ code, (asked d [1, code, 4]).Asked [1, code, 4] []) ∧ 8 ≤ (8 : Byte).toNat ∧
      (∀ p, base.profiles[(4 : Fin 8)] ≠ .loading p) ∧ d.profiles[(4 : Fin 8)] = .loading lens3020 ∧ lens3020.Complete ∧
      d.profiles[(2 : Fin 8)] = .ready lens3020 2 ∧ (∀ g : Fin 8, g ≠ 2 → d.profiles[g] = .empty ∨ g = 4) ∧
      ([⟨0, true⟩, ⟨0, false⟩] : List CoefWord) = [⟨0, true⟩] ++ ⟨0, false⟩ :: [] ∧
      base.profiles[(4 : Fin 8)] = .empty ∧ (2 : Nat) ≠ 0 ∧ (Entry.loading lens3020).profile? = some lens3020 := by
  refine ⟨fun _ => asked_asked _ _ rfl (by decide), by decide, fun p h => ?_, by decide +kernel, ?_, by decide +kernel,
    by decide +kernel, rfl, by decide +kernel, by decide, rfl⟩
  · have : base.profiles[(4 : Fin 8)] = .empty := by decide +kernel
    rw [this] at h
    cases h
  · have : ∀ w ∈ lens3020.words, w.written = true := by decide +kernel
    exact this

theorem witness_BlockResets :
    (∀ code, (asked base [1, 16, code]).Asked [1, 16, code] []) ∧ (Instr.resetBlockPipeline, 0) ∈ blockResets ∧
      4 < (5 : Byte).toNat ∧ boundContexts [{ smallFrame with entry := some 4 }] 4 = 1 ∧ boundContexts [smallFrame] 4 = 0 ∧
      (base.profiles.set 4 (.ready lens3020 1))[(4 : Fin 8)] = .ready lens3020 1 ∧
      (base.profiles.set 4 (.retiring lens3020 1))[(4 : Fin 8)] = .retiring lens3020 1 ∧ 0 < 1 ∧
      { base with laneA := some ⟨.frame, []⟩ }.laneA.map LaneSend.source = some .frame ∧ base.portA.link = .up ∧
      base.laneB = none := by
  refine ⟨fun _ => witness_Asked _, ?_⟩
  decide +kernel

/-- A part in order with one filling frame. -/
def lawful : Device :=
  { filling { smallFrame with reachUp := 0, reachDown := 0 } with geometry := small, nextFrame := 1 }

/-- The premises of the statements about the laws hold in states that step: with a flow symbol and with the frame's tail at
the front of the queue, and with nothing in it. -/
theorem witness_Laws : FrameLaw lawful ∧ StoreLaw lawful ∧ ProfileLaw lawful ∧ BoundsLaw lawful ∧ LinkLaw lawful ∧
    step ⟨[.credit .a, .storeRequest], lawful⟩ =
      .next ⟨[.storeRequest], { lawful with portA := { lawful.portA with credits := 1 } }⟩ ∧
    (after (.frameTailTaken (packetSyms 4 70 [])) lawful).receiver = .idle ∧ step (on lawful) = .next (on lawful) := by
  refine ⟨?_, ?_, ?_, ?_, ?_, rfl, by decide +kernel, rfl⟩
  · refine ⟨small_ok, by decide, by simp [lawful, filling], by decide, ?_, by simp [lawful, filling]⟩
    intro c h
    simp only [lawful, filling, List.mem_singleton] at h
    subst h
    constructor <;> simp [smallFrame, frame, small_ok]
    decide
  · constructor <;> simp [lawful, filling, base, Device.afterReset, smallFrame, frame]
  · constructor <;> simp [lawful, filling, base, Device.afterReset, smallFrame, frame, Entry.holdCount, boundContexts, Entry.Ok]
    constructor <;> simp
  · constructor <;> simp [lawful, filling, base, Device.afterReset, Port.reset, rowsQueued]
  · constructor <;> simp [lawful, filling, base, Device.afterReset, Port.reset, Device.opened]
    intro p b
    cases p <;> simp

end Sys2Proof.Tests
end

/-! # Proofs: the pixel link (chapter 1)

The obligations on lanes, links, packets and the header and row codes.  Each part first says once what the operations of
the model do; the theorems that settle the obligations are put together from those rules and from Sys2Proof/Laws. -/

namespace Sys2Proof.Machine

/-! ## Commands while RST is held, and the sendings' ends -/

/-- While RST is held every command but RESET_RELEASE goes through `act`, and has no effect (R21). -/
theorem exec_held {c : Instr} (release : ∀ n a, c ≠ .resetRelease n a) (q : List Instr) {d : Device}
    (held : d.resetHeld = true) : exec c ⟨q, d⟩ = .next ⟨q, d⟩ := by
  cases c with
  | resetRelease n a => exact absurd rfl (release n a)
  | _ => simp [act_held _ q d held]

theorem laneOutput_held {d : Device} (held : d.resetHeld = true) (lane : LinkPort) : d.laneOutput lane = .idle := by
  simp [Device.laneOutput, held]

theorem attn_held {d : Device} (held : d.resetHeld = true) : d.attn = none := by
  simp [Device.attn, held]

/-- Settles O3: `act` shuts out every command but the release. -/
theorem heldInReset : Obligations.HeldInReset := by
  unfold Obligations.HeldInReset
  refine ⟨fun q d running => act_running Device.holdReset q d running, fun q d held => ⟨?_, ?_, attn_held held⟩⟩
  · exact fun c release => exec_held release q held
  · exact laneOutput_held held

/-- Port A's lane carries an item of this source. -/
def Device.laneAHas (d : Device) (source : Source) : Bool :=
  d.laneA.any fun l => l.source == source

theorem laneAHas_some {d : Device} {source : Source} {bytes : List Byte} (h : d.laneA = some ⟨source, bytes⟩) :
    d.laneAHas source = true := by
  simp [Device.laneAHas, h]

theorem laneAHas_other {d : Device} {source : Source} (h : ∀ l, d.laneA = some l → l.source ≠ source) :
    d.laneAHas source = false := by
  cases e : d.laneA with
  | none => simp [Device.laneAHas, e]
  | some l => simpa [Device.laneAHas, e] using h l e

theorem itemSentA_eq (d : Device) : d.itemSent .a =
    if d.laneAHas .frame then { d with portA := { d.portA with queue := d.portA.queue.tail }, laneA := none } else d :=
  rfl

theorem itemSentB_eq (d : Device) : d.itemSent .b =
    if d.laneB.isSome then { d with portB := { d.portB with queue := d.portB.queue.tail }, laneB := none } else d :=
  rfl

theorem answerSent_eq (d : Device) : d.answerSent =
    if d.laneAHas .answer then { d with answers := d.answers.tail, laneA := none } else d :=
  rfl

theorem passThroughSent_eq (d : Device) : d.passThroughSent =
    if d.laneAHas .passThrough then { d with passThrough := d.passThrough.tail, laneA := none } else d :=
  rfl

theorem upstreamSent_eq (d : Device) : d.upstreamSent =
    if d.laneU.isSome then { d with upstream := d.upstream.tail, laneU := none } else d :=
  rfl

/-- Settles O46: each END asks whether its lane carries such an item. -/
theorem sendingsEnd : Obligations.SendingsEnd := by
  unfold Obligations.SendingsEnd
  intro bytes q d running
  simp only [exec_portItemSent, exec_answerSent, exec_passThroughSent, exec_upstreamSent, act_running _ _ _ running,
    itemSentA_eq, itemSentB_eq, answerSent_eq, passThroughSent_eq, upstreamSent_eq]
  refine ⟨fun h => ?_, fun h => ?_, fun h => ?_, fun h => ?_, fun h => ?_, fun h => ?_, fun h => ?_, fun h => ?_,
    fun h => ?_, fun h => ?_⟩
  · rw [if_pos (laneAHas_some h)]
  · rw [if_pos (by rw [h]; rfl)]
  · rw [if_pos (laneAHas_some h)]
  · rw [if_pos (laneAHas_some h)]
  · rw [if_pos (by rw [h]; rfl)]
  · rw [if_neg (by simp [laneAHas_other h])]
  · rw [if_neg (by simp [h])]
  · rw [if_neg (by simp [laneAHas_other h])]
  · rw [if_neg (by simp [laneAHas_other h])]
  · rw [if_neg (by simp [h])]

/-! ## Link events (R20, R60, R167) -/

theorem laneLock_down {d : Device} {p : LinkPort} (fitted : p ≠ .b ∨ d.portBFitted = true) (down : d.link p = .down) :
    d.laneLock p = d.setLink p .aligning := by
  have regarded : ¬ (p = .b && !d.portBFitted) = true := by
    rcases fitted with other | fitted
    · rw [decide_eq_false other]; exact Bool.false_ne_true
    · rw [fitted, Bool.not_true, Bool.and_false]; exact Bool.false_ne_true
  unfold Device.laneLock
  rw [if_neg regarded, if_pos down]

theorem laneLock_unfitted {d : Device} (unfitted : d.portBFitted = false) : d.laneLock .b = d := by
  unfold Device.laneLock
  rw [if_pos (by simp [unfitted])]

theorem laneLock_same {d : Device} {p : LinkPort} (notDown : d.link p ≠ .down) : d.laneLock p = d := by
  unfold Device.laneLock
  rw [if_neg notDown, ite_self]

theorem alignmentDone_same {d : Device} {p : LinkPort} (notAligning : d.link p ≠ .aligning) : d.alignmentDone p = d := by
  unfold Device.alignmentDone
  rw [if_neg notAligning]

theorem alignmentDone_u {d : Device} (aligning : d.linkU = .aligning) :
    d.alignmentDone .u = { d with linkU := .up } := by
  unfold Device.alignmentDone
  exact if_pos aligning

theorem alignmentDone_a {d : Device} (aligning : d.portA.link = .aligning) :
    d.alignmentDone .a = { d with portA := ⟨d.portA.enable, d.portA.crop, 0, false, [], .up⟩ } := by
  unfold Device.alignmentDone
  exact if_pos aligning

theorem alignmentDone_b {d : Device} (aligning : d.portB.link = .aligning) :
    d.alignmentDone .b = { d with portB := ⟨d.portB.enable, d.portB.crop, 0, false, [], .up⟩ } := by
  unfold Device.alignmentDone
  exact if_pos aligning

/-- Settles O8: the moves of R20's table, state by state. -/
theorem linkMoves : Obligations.LinkMoves := by
  unfold Obligations.LinkMoves
  refine ⟨fun d => ⟨rfl, rfl, rfl⟩, fun q d running => ?_⟩
  simp only [exec_laneLock, exec_alignmentDone, act_running _ _ _ running]
  refine ⟨fun down => ?_, fun down => ?_, fun down fitted => ?_, fun unfitted => ?_, fun p notDown => ?_,
    fun aligning => ?_, fun aligning => ?_, fun aligning => ?_, fun p notAligning => ?_⟩
  · rw [laneLock_down (p := .u) (.inl (by decide)) down]; rfl
  · rw [laneLock_down (p := .a) (.inl (by decide)) down]; rfl
  · rw [laneLock_down (p := .b) (.inr fitted) down]; rfl
  · rw [laneLock_unfitted unfitted]
  · rw [laneLock_same notDown]
  · rw [alignmentDone_u aligning]
  · rw [alignmentDone_a aligning]
  · rw [alignmentDone_b aligning]
  · rw [alignmentDone_same notAligning]

theorem laneLoss_same {d : Device} {p : LinkPort} (down : d.link p = .down) : d.laneLoss p = d := by
  unfold Device.laneLoss
  rw [if_pos down]

/-- The loss of a link that is not DOWN: its effects on the port, the link DOWN, LINK_LOSS and LINK (R20). -/
theorem laneLoss_lost {d : Device} {p : LinkPort} (notDown : d.link p ≠ .down) :
    d.laneLoss p = (((d.loseLink p).setLink p .down).bump .linkLoss).raise .link := by
  unfold Device.laneLoss
  rw [if_neg notDown]

theorem endInput_noneFills {d : Device} (noFrame : NoneFills d.frames) (always : Bool) : d.endInput always = d := by
  unfold Device.endInput Device.filling?
  rw [find?_noneFills noFrame]

/-- The loss of port U's link while no frame fills (R20). -/
theorem loseLink_u_noneFills {d : Device} (noFrame : NoneFills d.frames) :
    d.loseLink .u = { d with openU := none, laneU := none, receiver := .idle } := by
  unfold Device.loseLink
  rw [endInput_noneFills (d := { d with openU := none, laneU := none }) noFrame]

/-- The loss of port U's link ends the filling frame's input short (R42, R60). -/
theorem loseLink_u_fillsLast {d : Device} {pre : List FrameContext} {c : FrameContext} (fills : FillsLast d.frames pre c) :
    d.loseLink .u = { d with openU := none, laneU := none, receiver := .idle, frames := pre ++ [endedShort c] }.bump
      .rowsMissing (rowsAfterFront c) := by
  unfold Device.loseLink
  rw [endInput_short (d := { d with openU := none, laneU := none }) fills]
  rfl

theorem loseLink_a (d : Device) : d.loseLink .a =
    { d with
      openA := none, laneA := none, portA := { d.portA with queue := [], credits := 0, held := false },
      frames := d.frames.map fun c => { c with deliveryA := cutIfLive c.deliveryA } } := by
  rw [cutIfLive_eq]
  rfl

theorem loseLink_b (d : Device) : d.loseLink .b =
    { d with
      openB := none, laneB := none, portB := { d.portB with queue := [], credits := 0, held := false },
      frames := d.frames.map fun c => { c with deliveryB := cutIfLive c.deliveryB } } := by
  rw [cutIfLive_eq]
  rfl

/-- Settles O9: what the port loses, then the link's move. -/
theorem laneLoss : Obligations.LaneLoss := by
  unfold Obligations.LaneLoss
  intro q d running
  simp only [exec_laneLoss, act_running _ _ _ running]
  refine ⟨fun p down => ?_, fun notDown noFrame => ?_, fun pre c notDown fills => ?_, fun notDown => ?_, fun notDown => ?_⟩
  · rw [laneLoss_same down]
  · rw [laneLoss_lost (p := .u) notDown, loseLink_u_noneFills noFrame]; rfl
  · rw [laneLoss_lost (p := .u) notDown, loseLink_u_fillsLast fills]; rfl
  · rw [laneLoss_lost (p := .a) notDown, loseLink_a]; rfl
  · rw [laneLoss_lost (p := .b) notDown, loseLink_b]; rfl

/-! ## Symbols (R1) -/

/-- Nothing an arriving symbol brings about moves the reset pin. -/
theorem resetHeld_keptByPackets (held : Bool) : KeptByPackets fun d => d.resetHeld = held where
  bump _ _ _ h := h
  raise _ _ h := h
  setOpened d lane sym h _ := by cases lane <;> exact h
  takeStoreRequest d h := by obtain ⟨_, _, _, _, e⟩ := takeStoreRequest_footprint d; rw [e]; exact h
  takeHead d tag group payload h := by
    obtain ⟨_, _, _, _, e⟩ := endBySync_footprint d
    unfold Device.takeHead
    rw [e]
    dsimp only
    split
    · exact h
    · obtain ⟨_, _, _, e, _⟩ := createContext_footprint { d with frames := _, receiver := _, counters := _, alerts := _ }
        tag group (embeddedNote payload)
      rw [e]
      exact h
  takeRow d r samples bad h _ := by obtain ⟨_, _, _, e⟩ := takeRow_footprint d r samples bad; rw [e]; exact h
  takeNote d r h := by obtain ⟨_, _, _, e, _⟩ := takeNote_footprint d r; rw [e]; exact h
  takeTail d tag h := by obtain ⟨_, _, _, _, e⟩ := takeTail_footprint d tag; rw [e]; exact h
  joinPassThrough d p h := by unfold Device.joinPassThrough; split <;> exact h
  joinUpstream d p h := by unfold Device.joinUpstream; split <;> exact h
  joinCommands d p h := by unfold Device.joinCommands; split <;> exact h
  credit d p h := by unfold Device.flow; cases p <;> split <;> exact h
  hold d p h := by unfold Device.flow; cases p <;> split <;> exact h
  resume d p h := by unfold Device.flow; cases p <;> split <;> exact h

theorem takeSymbols_resetHeld (d : Device) (lane : LinkPort) (syms : List Symbol) :
    (d.takeSymbols lane syms).resetHeld = d.resetHeld :=
  (resetHeld_keptByPackets d.resetHeld).takeSymbols lane syms rfl

theorem takeSymbols_notUp {d : Device} {lane : LinkPort} (notUp : d.link lane ≠ .up) (syms : List Symbol) :
    d.takeSymbols lane syms = d := by
  unfold Device.takeSymbols
  rw [if_neg notUp]

/-- Symbols are read in turn: the link is as it was after the first part, so the rest is read as it would be alone. -/
theorem takeSymbols_append (d : Device) (lane : LinkPort) (xs ys : List Symbol) :
    d.takeSymbols lane (xs ++ ys) = (d.takeSymbols lane xs).takeSymbols lane ys := by
  by_cases up : d.link lane = .up
  · have after := takeSymbols_link d lane xs up
    unfold Device.takeSymbols at after ⊢
    rw [if_pos up] at after ⊢
    rw [List.foldl_append, if_pos up, if_pos after]
  · rw [takeSymbols_notUp up, takeSymbols_notUp up, takeSymbols_notUp up]

/-- Settles O10: a list is read as its parts in turn, whatever row of the table brings it. -/
theorem symbolsOneByOne : Obligations.SymbolsOneByOne := by
  unfold Obligations.SymbolsOneByOne
  refine ⟨fun lane xs ys q d d1 first => ?_, fun lane syms c arrives q d => ?_⟩
  · rw [exec_packetAbandoned, act_next] at first ⊢
    obtain ⟨rfl⟩ : (if d.resetHeld then d else d.takeSymbols lane xs) = d1 := by simpa using first
    rw [exec_packetAbandoned, act_next]
    cases held : d.resetHeld with
    | true => simp [held]
    | false => simp [takeSymbols_resetHeld, held, takeSymbols_append]
  · rw [exec_arrivals arrives, exec_packetAbandoned]

/-- The three symbols that are handed to a port (R18). -/
def IsFlowSymbol (s : Symbol) : Prop :=
  s = .credit ∨ s = .hold ∨ s = .resume

/-- A symbol that is no flow symbol does nothing beyond the packet it completes or abandons (R1). -/
theorem symbolEffect_nothing {s : Symbol} (noFlow : ¬ IsFlowSymbol s) (d : Device) (lane : LinkPort) :
    d.symbolEffect lane s .nothing = d := by
  cases s with
  | credit => exact absurd (.inl rfl) noFlow
  | hold => exact absurd (.inr (.inl rfl)) noFlow
  | resume => exact absurd (.inr (.inr rfl)) noFlow
  | _ => rfl

theorem symbolEffect_abandoned (s : Symbol) (d : Device) (lane : LinkPort) :
    d.symbolEffect lane s .abandoned = (d.bump .headerBad).raise .header :=
  rfl

theorem symbolEffect_completed (s : Symbol) (d : Device) (lane : LinkPort) (bytes : List Byte) :
    d.symbolEffect lane s (.completed bytes) = d.receivePacket lane bytes :=
  rfl

/-- One symbol on a lane whose link is UP: the packet then open, and the effect of what came about (R1). -/
theorem exec_symbol {lane : LinkPort} {d : Device} {s : Symbol} {before after : Option (List Byte)} {e : LaneEvent}
    (running : d.resetHeld = false) (up : d.link lane = .up) (opened : d.opened lane = before)
    (read : readSymbol before s = (after, e)) (q : List Instr) :
    exec (.packetAbandoned lane [s]) ⟨q, d⟩ = .next ⟨q, (d.setOpened lane after).symbolEffect lane s e⟩ := by
  rw [exec_packetAbandoned, act_running _ _ _ running, takeSymbols_single _ _ _ up, Device.takeSymbol, opened, read]

/-- What a symbol does outside a packet (R1). -/
theorem readSymbol_outside {s : Symbol} (other : s ≠ .start) : readSymbol none s = (none, .nothing) := by
  cases s with
  | start => exact absurd rfl other
  | _ => rfl

theorem readSymbol_data_room {bytes : List Byte} (room : bytes.length < 6 + 16384) (b : Byte) :
    readSymbol (some bytes) (.data b) = (some (bytes ++ [b]), .nothing) :=
  if_pos room

theorem readSymbol_data_full {bytes : List Byte} (full : 6 + 16384 ≤ bytes.length) (b : Byte) :
    readSymbol (some bytes) (.data b) = (none, .abandoned) :=
  if_neg (Nat.not_lt.mpr full)

theorem readSymbol_stop_short {bytes : List Byte} (short : bytes.length < 6) :
    readSymbol (some bytes) .stop = (none, .abandoned) :=
  if_pos short

theorem readSymbol_stop_whole {bytes : List Byte} (whole : 6 ≤ bytes.length) :
    readSymbol (some bytes) .stop = (none, .completed bytes) :=
  if_neg (Nat.not_lt.mpr whole)

/-- A symbol that is neither START nor a flow symbol is ignored outside a packet (R1). -/
theorem exec_symbol_ignored {lane : LinkPort} {d : Device} {s : Symbol} (running : d.resetHeld = false)
    (up : d.link lane = .up) (closed : d.opened lane = none) (other : s ≠ .start) (noFlow : ¬ IsFlowSymbol s)
    (q : List Instr) : exec (.packetAbandoned lane [s]) ⟨q, d⟩ = .next ⟨q, d⟩ := by
  rw [exec_symbol running up closed (readSymbol_outside other) q, symbolEffect_nothing noFlow, ← closed, setOpened_same]

/-- A symbol that abandons the packet open counts in HEADER_BAD, with the alert flag HEADER (R1). -/
theorem exec_symbol_abandons {lane : LinkPort} {d : Device} {s : Symbol} {bytes : List Byte} {after : Option (List Byte)}
    (running : d.resetHeld = false) (up : d.link lane = .up) (opened : d.opened lane = some bytes)
    (read : readSymbol (some bytes) s = (after, .abandoned)) (q : List Instr) : exec (.packetAbandoned lane [s]) ⟨q, d⟩ =
      .next ⟨q, ((d.setOpened lane after).bump .headerBad).raise .header⟩ := by
  rw [exec_symbol running up opened read q, symbolEffect_abandoned]

/-- Settles O11: the table of `readSymbol`, outside a packet and inside one. -/
theorem laneReading : Obligations.LaneReading := by
  unfold Obligations.LaneReading
  refine ⟨fun d => ⟨rfl, rfl, rfl⟩, fun d packet => ⟨rfl, rfl, rfl⟩, fun lane q d running =>
    ⟨fun notUp syms => ?_, fun up closed => ?_, fun bytes up opened => ?_⟩⟩
  · rw [exec_packetAbandoned, act_running _ _ _ running, takeSymbols_notUp notUp]
  · refine ⟨?_, fun b => exec_symbol_ignored running up closed (by simp) (by simp [IsFlowSymbol]) q, fun s hs =>
      exec_symbol_ignored running up closed ?_ ?_ q⟩
    · rw [exec_symbol running up closed rfl q]; rfl
    · rintro rfl; simp at hs
    · rintro (rfl | rfl | rfl) <;> simp at hs
  · have abandons {s after} (read : readSymbol (some bytes) s = (after, .abandoned)) :=
      exec_symbol_abandons running up opened read q
    refine ⟨fun b room => ?_, fun b full => abandons (readSymbol_data_full full b), abandons rfl, fun s hs => abandons ?_,
      fun short => abandons (readSymbol_stop_short short), fun whole => ?_⟩
    · rw [exec_symbol running up opened (readSymbol_data_room room b) q, symbolEffect_nothing (by simp [IsFlowSymbol])]
    · simp only [List.mem_cons, List.not_mem_nil, or_false] at hs
      rcases hs with rfl | rfl | rfl <;> rfl
    · rw [exec_symbol running up opened (readSymbol_stop_whole whole) q, symbolEffect_completed]

/-! ## Packets on the receiving lanes (R4, R6, R15, R17) -/

/-- The length check, in the words of R6. -/
theorem malformed_iff (lane : LinkPort) (h : Header) (payload : List Byte) : malformed lane h payload = true ↔
    16384 < h.length.toNat ∨ h.length.toNat ≠ payload.length ∨ BreaksKindRule lane h.kind payload := by
  rw [← breaksKindRule_iff]
  simp [malformed, or_assoc]

theorem Device.Receiving.bump {d : Device} {lane : LinkPort} (h : d.Receiving lane) (c : Counter) (n : Nat) :
    (d.bump c n).Receiving lane := by
  obtain ⟨running, up, closed⟩ := h
  refine ⟨running, ?_, ?_⟩
  · rw [← up]; cases lane <;> rfl
  · rw [← closed]; cases lane <;> rfl

theorem receivePacket_clean {bytes : List Byte} {h : Header} (clean : checkHeader bytes = .clean h) (d : Device)
    (lane : LinkPort) : d.receivePacket lane bytes = d.checkedPacket lane h (bytes.drop 6) := by
  unfold Device.receivePacket
  rw [clean]

theorem receivePacket_corrected {bytes : List Byte} {h : Header} (corrected : checkHeader bytes = .corrected h)
    (d : Device) (lane : LinkPort) :
    d.receivePacket lane bytes = (d.bump .headerFixed).checkedPacket lane h (bytes.drop 6) := by
  unfold Device.receivePacket
  rw [corrected]

theorem receivePacket_uncorrectable {bytes : List Byte} (bad : checkHeader bytes = .uncorrectable) (d : Device)
    (lane : LinkPort) : d.receivePacket lane bytes = (d.bump .headerBad).raise .header := by
  unfold Device.receivePacket
  rw [bad]
  rfl

theorem packetAbandoned_mem (lane : LinkPort) (syms : List Symbol) :
    Instr.packetAbandoned lane syms ∈ arrivals lane syms :=
  List.mem_cons_self

theorem drop_header (h : Header) (payload : List Byte) : (h.bytes ++ payload).drop 6 = payload := by
  rw [← h.bytes_length, List.drop_left]

/-- Settles O15: the three outcomes of the header check, a corrected header going on as the clean one. -/
theorem damagedPackets : Obligations.DamagedPackets := by
  unfold Obligations.DamagedPackets
  intro lane bytes q d receiving short long c arrives
  rw [exec_arrival receiving short long arrives]
  refine ⟨fun bad => ?_, fun h clean breaks => ?_, fun h corrected => ?_⟩
  · rw [receivePacket_uncorrectable bad]
  · rw [receivePacket_clean clean, Device.checkedPacket, if_pos ((malformed_iff _ _ _).mpr breaks)]
    rfl
  · have length : (h.bytes ++ bytes.drop 6).length = bytes.length := by
      rw [List.length_append, h.bytes_length, List.length_drop]; omega
    rw [exec_arrival (receiving.bump .headerFixed 1) (by omega) (by omega) (packetAbandoned_mem lane _),
      receivePacket_corrected corrected, receivePacket_clean (checkHeader_bytes h _), drop_header]

/-- A packet from port U of none of the front end's four kinds is passed through (R5, R15). -/
theorem sortU_passThrough {d : Device} {p : Packet} (noRequest : d.storeReq = none)
    (other : ∀ k ∈ [(1 : BitVec 4), 2, 3, 4], p.kind ≠ k) : d.sortU p = d.joinPassThrough p := by
  have kind : ∀ k ∈ [(1 : BitVec 4), 2, 3, 4], p.kind.toNat ≠ k.toNat :=
    fun k hk e => other k hk (BitVec.eq_of_toNat_eq e)
  unfold Device.sortU
  rw [takeStoreRequest_none noRequest]
  split
  · next e => exact absurd e (kind 1 (by decide))
  · next e => exact absurd e (kind 2 (by decide))
  · next e => exact absurd e (kind 3 (by decide))
  · next e => exact absurd e (kind 4 (by decide))
  · rfl

/-- Settles O28: no rule of kind binds such a packet, so it is sorted, into the pass-through queue. -/
theorem passThrough : Obligations.PassThrough := by
  unfold Obligations.PassThrough
  intro p q d other long receiving noRequest
  have kept : ¬ BreaksKindRule .u p.kind p.payload := fun h => other _ h.kind_mem rfl
  rw [exec_packetU receiving long kept (by simp [arrivals]), sortU_passThrough noRequest other, Device.joinPassThrough]
  refine ⟨fun room => ?_, fun full => ?_⟩
  · rw [if_pos room]
  · rw [if_neg (Nat.not_lt.mpr full)]

theorem sortPacket_a_other {d : Device} {p : Packet} (other : p.kind ≠ 9) :
    d.sortPacket .a p = d.bump .serviceForeign := by
  unfold Device.sortPacket Device.sortA
  rw [if_neg other]

theorem reversePacketRefused_mem (port : OutPort) (syms : List Symbol) :
    Instr.reversePacketRefused port syms ∈ arrivals port.link syms := by
  cases port <;> simp [arrivals, OutPort.link]

/-- Settles O30: a packet that keeps the rule of its kind is refused by the sorting, any other by the length check. -/
theorem reversePacketRefused : Obligations.ReversePacketRefused := by
  unfold Obligations.ReversePacketRefused
  intro p q d long
  refine ⟨fun other receiving kept => ?_, fun receiving kept => ?_, fun port receiving breaks => ?_⟩
  · rw [exec_packet receiving long kept (reversePacketRefused_mem .a _), sortPacket_a_other other]
  · rw [exec_packet receiving long kept (reversePacketRefused_mem .b _)]
    rfl
  · exact exec_malformedPacket receiving long breaks (reversePacketRefused_mem port _)

/-! ## The header code (R2, R3, R4) -/

/-- A number of `width` bytes is read back from wherever it stands, modulo what fits (R2). -/
theorem fieldAt_beBytes (before after : List Byte) (width n : Nat) :
    fieldAt (before ++ beBytes width n ++ after) before.length width = n % 256 ^ width := by
  have field : ((before ++ beBytes width n ++ after).drop before.length).take width = beBytes width n := by
    rw [List.append_assoc, List.drop_left]
    exact List.take_left' (beBytes_length width n)
  rw [fieldAt, field, beNat_beBytes]

/-- The parity bit the part sends makes the number of ones even (R3). -/
theorem codeOnes_parityBit (data : BitVec 40) (c : BitVec 6) : codeOnes data c (parityBit data c) % 2 = 0 := by
  rw [codeOnes_even, Bool.xor_self]

/-- Settles O13: the layout of R3 with the code's own check value and parity bit, and byte order both ways. -/
theorem headerRoundTrip : Obligations.HeaderRoundTrip := by
  unfold Obligations.HeaderRoundTrip
  refine ⟨fun h payload => ⟨h.bytes_length, checkHeader_bytes h payload⟩, codePositions_eq, fun h => ?_,
    fun width n => ⟨beBytes_length width n, fun i => beBytes_getElem? width n i⟩, fieldAt_beBytes⟩
  exact ⟨_, h.bytes_layout, codeOnes_parityBit _ _⟩

theorem dataPositions_nodup : dataPositions.Nodup := by decide

/-- The data positions are those of 3 to 46 that are not powers of two. -/
theorem dataPositions_range : ∀ s ∈ dataPositions, s ≠ 0 ∧ s ≤ 46 := by decide

/-- A position of data bit `i + 1` inverts that bit (R4). -/
theorem invertAt_dataPosition {i s : Nat} (h : dataPositions[i]? = some s) (data : BitVec 40) :
    invertAt data s = data ^^^ BitVec.twoPow 40 (39 - i) := by
  obtain ⟨inside, rfl⟩ := List.getElem?_eq_some_iff.mp h
  have place : dataPositions.idxOf? dataPositions[i] = some i := by
    rw [List.idxOf?_eq_some_iff]
    exact ⟨inside, rfl, fun j before => List.pairwise_iff_getElem.mp dataPositions_nodup j i _ inside before⟩
  unfold invertAt
  rw [place]

/-- A position of no data bit leaves the data bits (R4). -/
theorem invertAt_checkPosition {s : Nat} (h : s ∉ dataPositions) (data : BitVec 40) : invertAt data s = data := by
  unfold invertAt
  rw [List.idxOf?_eq_none_iff.mpr h]

/-- Inverting a bit of a position commutes with an error in the data bits. -/
theorem invertAt_xor (a b : BitVec 40) (s : Nat) : invertAt (a ^^^ b) s = a ^^^ invertAt b s := by
  unfold invertAt
  split
  · rw [BitVec.xor_assoc]
  · rfl

/-- The table of R4 at syndrome 0. -/
theorem checkCode_zero {data : BitVec 40} {c : BitVec 6} {p : Bool} (s0 : (c ^^^ codeCheck data).toNat = 0) :
    checkCode data c p =
      if codeOnes data c p % 2 = 0 then .clean (.ofBits data) else .corrected (.ofBits data) := by
  unfold checkCode
  simp only [checkValue_eq, s0, if_true, codeOnes_even]
  cases Bool.xor (parityBit data c) p <;> rfl

/-- The table of R4 at a syndrome other than 0. -/
theorem checkCode_nonzero {data : BitVec 40} {c : BitVec 6} {p : Bool} (s0 : (c ^^^ codeCheck data).toNat ≠ 0) :
    checkCode data c p =
      if codeOnes data c p % 2 ≠ 0 ∧ (c ^^^ codeCheck data).toNat ≤ 46 then
        .corrected (.ofBits (invertAt data (c ^^^ codeCheck data).toNat)) else .uncorrectable := by
  unfold checkCode
  simp only [checkValue_eq, s0, if_false, ne_eq, codeOnes_even]
  cases Bool.xor (parityBit data c) p <;> simp

/-- The syndromes that name a check bit are positions of no data bit (R3). -/
theorem checkPositions_noData : ∀ s ∈ [1, 2, 4, 8, 16, 32], s ≠ 0 ∧ s ≤ 46 ∧ s ∉ dataPositions := by decide

/-- The syndrome and the parity are linear: of two errors together they are those of each, combined. -/
theorem syndrome_xor (a b : BitVec 48) : syndrome (headerParts (a ^^^ b)) =
    ((syndrome (headerParts a)).1 ^^^ (syndrome (headerParts b)).1,
      Bool.xor (syndrome (headerParts a)).2 (syndrome (headerParts b)).2) := by
  rw [headerParts_xor]
  generalize headerParts a = x
  generalize headerParts b = y
  obtain ⟨dx, cx, px⟩ := x
  obtain ⟨dy, cy, py⟩ := y
  simp only [syndrome, checkValue_xor, xor_swap, parityBit, oddOnes_xor, Prod.mk.injEq, true_and]
  generalize oddOnes dx 40 = a1
  generalize oddOnes dy 40 = a2
  generalize oddOnes cx 6 = b1
  generalize oddOnes cy 6 = b2
  simp only [Bool.xor_assoc, Bool.xor_left_comm]

/-- The error of one inverted code word bit: bit 0 of the 48 is no code word bit (R3). -/
def bitError (i : Fin 47) : BitVec 48 :=
  BitVec.twoPow 48 (i + 1)

/-- One inverted bit makes the parity odd, and inverting the data bit at its syndrome undoes it. -/
theorem syndrome_bitError : ∀ i, (syndrome (headerParts (bitError i))).2 = true ∧
    (syndrome (headerParts (bitError i))).1.toNat ≤ 46 ∧
    invertAt (headerParts (bitError i)).1 (syndrome (headerParts (bitError i))).1.toNat = 0#40 ∧
    ((syndrome (headerParts (bitError i))).1.toNat = 0 → (headerParts (bitError i)).1 = 0#40) := by
  decide +kernel

/-- Different bits have different syndromes. -/
theorem syndrome_bitError_inj : ∀ i j,
    (syndrome (headerParts (bitError i))).1 = (syndrome (headerParts (bitError j))).1 → i = j := by
  decide +kernel

/-- Any one code word bit inverted is corrected (R4). -/
theorem checkHeader_oneError (h : Header) (i : Fin 47) :
    checkHeader (beBytes 6 (headerBits h ^^^ bitError i).toNat) = .corrected h := by
  obtain ⟨odd, small, undone, parity⟩ := syndrome_bitError i
  rw [syndrome_headerBits, odd]
  by_cases s0 : (syndrome (headerParts (bitError i))).1.toNat = 0
  · simp only [s0, if_true, parity s0]
    rw [BitVec.xor_zero, Header.ofBits_bits]
  · simp only [s0, if_false, small, decide_true, Bool.and_self, if_true, invertAt_xor, undone]
    rw [BitVec.xor_zero, Header.ofBits_bits]

/-- Any two code word bits inverted are uncorrectable: the parity is even, and the syndromes differ (R4). -/
theorem checkHeader_twoErrors (h : Header) {i j : Fin 47} (ne : i ≠ j) :
    checkHeader (beBytes 6 (headerBits h ^^^ bitError i ^^^ bitError j).toNat) = .uncorrectable := by
  obtain ⟨oddI, -⟩ := syndrome_bitError i
  obtain ⟨oddJ, -⟩ := syndrome_bitError j
  have s0 : ((syndrome (headerParts (bitError i))).1 ^^^ (syndrome (headerParts (bitError j))).1).toNat ≠ 0 :=
    fun e => ne (syndrome_bitError_inj i j (BitVec.xor_eq_zero_iff.mp (BitVec.eq_of_toNat_eq e)))
  rw [BitVec.xor_assoc, syndrome_headerBits, syndrome_xor, oddI, oddJ]
  simp only [s0, if_false, Bool.xor_self, Bool.false_and, Bool.false_eq_true]

/-- Bit 0 of byte 5 is ignored (R4). -/
theorem checkHeader_lowBit (h : Header) : checkHeader (beBytes 6 (headerBits h ^^^ 1).toNat) = .clean h := by
  have parts : headerParts 1 = (0, 0, false) := by decide +kernel
  have syndromeZero : syndrome (0, 0, false) = (0, false) := by decide +kernel
  rw [syndrome_headerBits, parts, syndromeZero]
  simp [Header.ofBits_bits]

/-- Settles O14: the table of R4 on six bytes in the layout of R3, and its linearity for errors of one and two bits. -/
theorem headerErrors : Obligations.HeaderErrors := by
  unfold Obligations.HeaderErrors
  refine ⟨fun h c p low payload => ?_, fun h =>
    ⟨checkHeader_oneError h, fun i j => checkHeader_twoErrors h, checkHeader_lowBit h⟩⟩
  rw [checkHeader_layout]
  refine ⟨fun s0 even => ?_, fun s0 odd => ?_, fun one odd => ?_, fun i h' position odd inverted => ?_, fun big => ?_,
    fun s0 even => ?_⟩
  · rw [checkCode_zero s0, if_pos even, Header.dataBits_ofBits]
  · rw [checkCode_zero s0, if_neg odd, Header.dataBits_ofBits]
  · obtain ⟨s0, small, noData⟩ := checkPositions_noData _ one
    rw [checkCode_nonzero s0, if_pos ⟨odd, small⟩, invertAt_checkPosition noData, Header.dataBits_ofBits]
  · rw [codePositions_eq] at position
    obtain ⟨s0, small⟩ := dataPositions_range _ (List.mem_of_getElem? position)
    rw [checkCode_nonzero s0, if_pos ⟨odd, small⟩, invertAt_dataPosition position, ← inverted, Header.dataBits_ofBits]
  · rw [checkCode_nonzero (by omega), if_neg fun fits => by omega]
  · rw [checkCode_nonzero s0, if_neg fun fits => fits.1 even]

/-! ## Rows (R7, R8) -/

theorem beBytes_two (x : BitVec 16) : beBytes 2 x.toNat = [x.extractLsb' 8 8, x.extractLsb' 0 8] := by
  simp only [beBytes, ofNat_div]

theorem append_extract (x : BitVec 16) : x.extractLsb' 8 8 ++ x.extractLsb' 0 8 = x := by
  apply BitVec.eq_of_getLsbD_eq
  intro i hi
  rw [BitVec.getLsbD_append, BitVec.getLsbD_extractLsb', BitVec.getLsbD_extractLsb']
  by_cases low : i < 8
  · simp [low]
  · simp [low, show i - 8 < 8 by omega, show 8 + (i - 8) = i by omega]

/-- A row as it is sent: the sample bytes, then the two bytes of the CRC (R8). -/
theorem rowPayload_eq (number : Nat) (samples : List Sample) : rowPayload number samples = packRow samples ++
    [(rowCrc (BitVec.ofNat 16 number) (packRow samples)).extractLsb' 8 8,
      (rowCrc (BitVec.ofNat 16 number) (packRow samples)).extractLsb' 0 8] := by
  rw [rowPayload, beBytes_two]

/-- Packed samples are read back: the padding is too short for one more (R7). -/
theorem unpackRow_packRow (samples : List Sample) : unpackRow (packRow samples) = samples := by
  have count : 8 * (packRow samples).length / 14 = samples.length := by rw [packRow_length]; omega
  have stream := bytesBits_packBytes ((14 * samples.length + 7) / 8) (samples.flatMap sampleBits)
    (by rw [sampleBits_flat_length]; omega)
  rw [unpackRow, count, packRow, stream, unpackSamples_bits]

theorem rowCrcBad_rowPayload (number : Nat) (samples : List Sample) :
    rowCrcBad (BitVec.ofNat 16 number) (rowPayload number samples) = false := by
  rw [rowPayload_eq, Bool.eq_false_iff, ne_eq, rowCrcBad_append, append_extract]
  exact fun differs => differs rfl

/-- The check value of the CRC: the nine bytes 49 to 57 (R8). -/
theorem crc16_checkValue : crc16 [49, 50, 51, 52, 53, 54, 55, 56, 57] = 0x29B1 := by
  decide +kernel

/-- Settles O44: where each bit of a packed and of an unpacked row stands, and the CRC byte by byte. -/
theorem rowRoundTrip : Obligations.RowRoundTrip := by
  unfold Obligations.RowRoundTrip
  refine ⟨fun number samples => ⟨?_, unpackRow_packRow samples, rowCrcBad_rowPayload number samples⟩,
    fun samples => ⟨packRow_length samples, packRow_bit samples⟩, fun bytes => ⟨unpackRow_length bytes, unpackRow_bit bytes⟩,
    fun number bytes high low =>
      ⟨rowSampleBytes_append bytes high low, rowCrcBad_append number bytes high low, rowCrc_eq number bytes⟩,
    rfl, crc16_append, crc16_checkValue⟩
  rw [rowPayload_eq, rowSampleBytes_append]

end Sys2Proof.Machine

/-! # Proofs: operating modes and frame geometry (chapter 2)

The settings commands.  Each command first has one equation per answer it can give, for the part from which the request
has left; the theorems that settle the obligations read these through `exec_reply`. -/

namespace Sys2Proof.Machine

/-- A request of the right length leaves the part as its command leaves it, with the command's reply answered (R174). -/
theorem exec_reply {tag code : Byte} {args : List Byte} {rest : List Packet} {d after : Device} {reply : Reply}
    {run : List Byte → Device → Device × Reply} {c : Instr} {n len : Nat} (asked : d.Asked (tag :: code :: args) rest)
    (command : ∀ s, exec c s = act (·.executeFixed n len run) s) (number : code.toNat = n) (length : args.length = len)
    (ran : run args { d with commands := rest } = (after, reply)) (q : List Instr) :
    exec c ⟨q, d⟩ = .next ⟨q, after.answer tag code reply⟩ := by
  rw [exec_fixedRequest asked n len run c command number length, ran]

/-! ## SET_MODE (R25, R26) -/

theorem Mode.ofCode_code (m : Mode) : Mode.ofCode m.code = some m := by
  cases m <;> rfl

theorem Mode.ofCode_unlisted {code : Byte} (unlisted : 3 < code.toNat) : Mode.ofCode code = none := by
  obtain ⟨k, above⟩ := Nat.exists_eq_add_of_lt unlisted
  rw [Mode.ofCode, above, show 3 + k + 1 = k + 4 by omega]
  rfl

theorem modeAdmitted_iff (reference requested : Mode) : modeAdmitted reference requested = true ↔
    requested = reference ∨ reference = .pass ∨ requested = .pass := by
  simp [modeAdmitted, or_assoc]

theorem runSetMode_badArg {code : Byte} (unlisted : 3 < code.toNat) (d : Device) :
    runSetMode [code] d = (d, ⟨.badArg, d.modeResults⟩) := by
  simp [runSetMode, Mode.ofCode_unlisted unlisted]

theorem runSetMode_ok {d : Device} {m : Mode} (admitted : modeAdmitted d.referenceMode m = true) :
    runSetMode [m.code] d = ({ d with pendingMode := if m = d.mode then none else some m },
      ⟨.ok, [d.mode.code, pendingCode (if m = d.mode then none else some m)]⟩) := by
  simp [runSetMode, Mode.ofCode_code, admitted, Device.modeResults]

theorem runSetMode_wrongMode {d : Device} {m : Mode} (refused : ¬ modeAdmitted d.referenceMode m = true) :
    runSetMode [m.code] d = (d, ⟨.wrongMode, d.modeResults⟩) := by
  simp [runSetMode, Mode.ofCode_code, refused]

/-- Settles O50: the code is read back as its mode, and the admission is R25's. -/
theorem setMode : Obligations.SetMode := by
  unfold Obligations.SetMode
  intro tag code q d rest asked reference
  refine ⟨fun unlisted => exec_reply asked exec_setMode rfl rfl (runSetMode_badArg unlisted _) q, ?_⟩
  rintro m rfl
  rw [← modeAdmitted_iff]
  exact ⟨fun admitted => exec_reply asked exec_setMode rfl rfl (runSetMode_ok admitted) q,
    fun refused => exec_reply asked exec_setMode rfl rfl (runSetMode_wrongMode refused) q⟩

/-! ## SET_GEOMETRY (R28 to R30) -/

theorem geometryAdmitted_iff (d : Device) : d.geometryAdmitted = true ↔
    d.mode = .pass ∧ (d.pendingMode = none ∨ d.pendingMode = some .pass) := by
  simp [Device.geometryAdmitted]

theorem bayerPhase_ofCode (g : SentGeometry) : BayerPhase.ofCode g.phase.toNat = g.bayer := by
  have rggb : g.phase = 0 ↔ g.phase.toNat = 0 := eq_ofNat_iff g.phase 0 (by decide)
  have grbg : g.phase = 1 ↔ g.phase.toNat = 1 := eq_ofNat_iff g.phase 1 (by decide)
  have gbrg : g.phase = 2 ↔ g.phase.toNat = 2 := eq_ofNat_iff g.phase 2 (by decide)
  simp only [SentGeometry.bayer, rggb, grbg, gbrg]
  match g.phase.toNat with
  | 0 | 1 | 2 | _ + 3 => rfl

/-- The geometry that the fields sent stand for (R28). -/
theorem geometry_ofBytes (g : SentGeometry) : (GeometryFields.ofBytes g.bytes).geometry =
    ⟨g.width.toNat, g.height.toNat, g.bayer, g.cx64.toNat, g.cy64.toNat, g.rref.toNat,
      if g.edge = 0 then .replicate else .fill, g.fill.setWidth 14, g.bandHeight.toNat⟩ := by
  have edge : g.edge = 0 ↔ g.edge.toNat = 0 := eq_ofNat_iff g.edge 0 (by decide)
  rw [GeometryFields.ofBytes_bytes, GeometryFields.geometry, bayerPhase_ofCode, BitVec.ofNat_toNat]
  simp only [edge]

theorem runSetGeometry_wrongMode {d : Device} (refused : ¬ d.geometryAdmitted = true) (args : List Byte) :
    runSetGeometry args d = (d, ⟨.wrongMode, []⟩) := by
  simp [runSetGeometry, refused, refuse]

theorem runSetGeometry_badArg {d : Device} (admitted : d.geometryAdmitted = true) {args : List Byte} {n : Byte}
    (bad : (GeometryFields.ofBytes args).firstBad = some n) : runSetGeometry args d = (d, ⟨.badArg, [n]⟩) := by
  simp [runSetGeometry, admitted, bad, badArg, refuse]

theorem runSetGeometry_ok {d : Device} (admitted : d.geometryAdmitted = true) {args : List Byte}
    (good : (GeometryFields.ofBytes args).firstBad = none) :
    runSetGeometry args d = ({ d with geometry := (GeometryFields.ofBytes args).geometry }, ⟨.ok, []⟩) := by
  simp [runSetGeometry, admitted, good]

/-- Settles O51: the fields are read where they are sent, and the first bad one is the first out of range. -/
theorem setGeometry : Obligations.SetGeometry := by
  unfold Obligations.SetGeometry
  intro tag g q d rest asked
  have admission := geometryAdmitted_iff { d with commands := rest }
  rw [← admission, ← geometry_ofBytes]
  refine ⟨fun refused => ?_, fun n field admitted bad before => ?_, fun admitted good => ?_⟩
  · exact exec_reply asked exec_setGeometry rfl g.bytes_length (runSetGeometry_wrongMode refused _) q
  · have firstBad := GeometryFields.firstBad_some g n field bad before
    exact exec_reply asked exec_setGeometry rfl g.bytes_length (runSetGeometry_badArg admitted firstBad) q
  · have noneBad := GeometryFields.firstBad_none g good
    exact exec_reply asked exec_setGeometry rfl g.bytes_length (runSetGeometry_ok admitted noneBad) q

/-! ## SET_INPUT and SET_ROUTE (R33, R155) -/

theorem fieldAt_first (a b : Byte) : fieldAt [a, b] 0 1 = a.toNat :=
  fieldAt_byte [] [b] a 0 rfl

theorem fieldAt_second (a b : Byte) : fieldAt [a, b] 1 1 = b.toNat :=
  fieldAt_byte [a] [] b 1 rfl

theorem runSetInput_badPolicy {a : Byte} (bad : 1 < a.toNat) (b : Byte) (d : Device) :
    runSetInput [a, b] d = (d, ⟨.badArg, [1]⟩) := by
  simp [runSetInput, fieldAt_first, bad, badArg, refuse]

theorem runSetInput_badLimit {a : Byte} (good : a.toNat ≤ 1) (d : Device) :
    runSetInput [a, 0] d = (d, ⟨.badArg, [2]⟩) := by
  simp [runSetInput, fieldAt_first, fieldAt_second, Nat.not_lt.mpr good, badArg, refuse]

theorem runSetInput_ok {a b : Byte} (good : a.toNat ≤ 1) (nonzero : b ≠ 0) (d : Device) :
    runSetInput [a, b] d = ({ d with policy := ⟨if a = 0 then .keep else .drop, b.toNat⟩ }, ⟨.ok, []⟩) := by
  have keep : a = 0 ↔ a.toNat = 0 := eq_ofNat_iff a 0 (by decide)
  have limit : b = 0 ↔ b.toNat = 0 := eq_ofNat_iff b 0 (by decide)
  rw [ne_eq, limit] at nonzero
  simp only [runSetInput, fieldAt_first, fieldAt_second, if_neg (Nat.not_lt.mpr good), if_neg nonzero, keep]

/-- The codes 0 to 3 of a member set are its two bits: A, then B (R155). -/
theorem memberSet_ofCode {b : Byte} (small : b.toNat ≤ 3) :
    (⟨b.toNat == 1 || b.toNat == 3, b.toNat == 2 || b.toNat == 3⟩ : MemberSet) = ⟨b.getLsbD 0, b.getLsbD 1⟩ := by
  rw [← BitVec.testBit_toNat, ← BitVec.testBit_toNat]
  match b.toNat, small with
  | 0, _ | 1, _ | 2, _ | 3, _ => rfl

theorem runSetRoute_badGroup {a : Byte} (bad : 7 < a.toNat) (b : Byte) (d : Device) :
    runSetRoute [a, b] d = (d, ⟨.badArg, [1]⟩) := by
  simp [runSetRoute, fieldAt_first, bad, badArg, refuse]

theorem runSetRoute_badSet {a b : Byte} (good : a.toNat ≤ 7) (bad : 3 < b.toNat) (d : Device) :
    runSetRoute [a, b] d = (d, ⟨.badArg, [2]⟩) := by
  simp [runSetRoute, fieldAt_first, fieldAt_second, Nat.not_lt.mpr good, bad, badArg, refuse]

theorem runSetRoute_ok {a b : Byte} {g : Fin 8} (group : a.toNat = g) (small : b.toNat ≤ 3) (d : Device) :
    runSetRoute [a, b] d = ({ d with routes := d.routes.set g ⟨b.getLsbD 0, b.getLsbD 1⟩ }, ⟨.ok, []⟩) := by
  have inTable : d.routes.setIfInBounds g ⟨b.getLsbD 0, b.getLsbD 1⟩ = d.routes.set g ⟨b.getLsbD 0, b.getLsbD 1⟩ := by
    simp [Vector.setIfInBounds, Vector.set, Array.setIfInBounds, g.isLt]
  simp only [runSetRoute, fieldAt_first, fieldAt_second, group, if_neg (show ¬ 7 < g.val by omega),
    if_neg (Nat.not_lt.mpr small), memberSet_ofCode small, inTable]

/-- Settles O52: both commands check their two arguments in order, then write. -/
theorem setInputAndRoute : Obligations.SetInputAndRoute := by
  unfold Obligations.SetInputAndRoute
  refine fun tag a b q d rest => ⟨fun asked => ⟨fun bad => ?_, fun good zero => ?_, fun good nonzero => ?_⟩,
    fun asked => ⟨fun bad => ?_, fun good bad => ?_, fun g group small => ?_⟩⟩
  · exact exec_reply asked exec_setInput rfl rfl (runSetInput_badPolicy bad b _) q
  · subst zero
    exact exec_reply asked exec_setInput rfl rfl (runSetInput_badLimit good _) q
  · exact exec_reply asked exec_setInput rfl rfl (runSetInput_ok good nonzero _) q
  · exact exec_reply asked exec_setRoute rfl rfl (runSetRoute_badGroup bad b _) q
  · exact exec_reply asked exec_setRoute rfl rfl (runSetRoute_badSet good bad _) q
  · exact exec_reply asked exec_setRoute rfl rfl (runSetRoute_ok group small _) q

end Sys2Proof.Machine

/-! # Proofs: frames in flight (chapter 3)

The packets that carry a frame, from its head to its tail, and the close.  Each operation of the frame queue first has one
equation per case of its rule, for a part whose filling context, if any, stands last; the theorems that settle the
obligations read these through the `exec` of the packet. -/

namespace Sys2Proof.Machine

/-! ## The laws of the frame queue and the line store (R37, R38, R67) -/

/-- Settles O58: every shared operation keeps the frame law alone, and both laws together. -/
theorem frameAndStoreLawsKept : Obligations.FrameAndStoreLawsKept := by
  unfold Obligations.FrameAndStoreLawsKept
  intro s t frameLaw ran
  have bothKept (storeLaw : StoreLaw s.device) := storeLaw_kept.step s t ⟨frameLaw, storeLaw⟩ ran
  exact ⟨frameLaw_kept.step s t frameLaw ran, fun storeLaw => (bothKept storeLaw).2⟩

/-! ## The filling context and the end of its input (R37, R38, R42) -/

theorem filling?_fillsLast {d : Device} {pre : List FrameContext} {c : FrameContext} (fills : FillsLast d.frames pre c) :
    d.filling? = some c :=
  find?_fillsLast fills

theorem filling?_noneFills {d : Device} (noFrame : NoneFills d.frames) : d.filling? = none :=
  find?_noneFills noFrame

theorem onFilling_fillsLast {d : Device} {pre : List FrameContext} {c : FrameContext} (fills : FillsLast d.frames pre c)
    (f : FrameContext → FrameContext) : d.onFilling f = { d with frames := pre ++ [f c] } := by
  unfold Device.onFilling
  rw [map_fillsLast fills]

/-- A change of the filling context that leaves it FILLING. -/
theorem FillsLast.change {frames pre : List FrameContext} {c c' : FrameContext} (fills : FillsLast frames pre c)
    (input : c'.input = c.input) : FillsLast (pre ++ [c']) pre c' :=
  ⟨rfl, input.trans fills.filling, fills.others⟩

/-- A tail or a close ends the input short unless the front stands at the last row (R42). -/
theorem endsShort_false_iff (c : FrameContext) :
    c.endsShort false = true ↔ ∀ f, c.front = some f → f + 1 < c.geometry.height := by
  cases front : c.front <;> simp [FrameContext.endsShort, front]

theorem ended_of_short {c : FrameContext} {always : Bool} (short : c.endsShort always = true) :
    c.ended always = endedShort c := by
  unfold FrameContext.ended endedShort
  rw [if_pos short, rowsNeverTaken_eq]

theorem ended_of_whole {c : FrameContext} {always : Bool} (whole : ¬ c.endsShort always = true) :
    c.ended always = { c with input := .ended false } := by
  unfold FrameContext.ended
  rw [if_neg whole]

/-- The filling frame's input ends short: SHORT, and the rows never taken (R42). -/
theorem endInput_of_short {d : Device} {pre : List FrameContext} {c : FrameContext} {always : Bool}
    (fills : FillsLast d.frames pre c) (short : c.endsShort always = true) : d.endInput always =
      { d with frames := pre ++ [endedShort c], receiver := .idle }.bump .rowsMissing (rowsAfterFront c) := by
  unfold Device.endInput
  simp only [filling?_fillsLast fills, short, if_true, onFilling_fillsLast fills, ended_of_short short, rowsNeverTaken_eq]

/-- The filling frame's input ends with its last row taken (R42). -/
theorem endInput_of_whole {d : Device} {pre : List FrameContext} {c : FrameContext} {always : Bool}
    (fills : FillsLast d.frames pre c) (whole : ¬ c.endsShort always = true) : d.endInput always =
      { d with frames := pre ++ [{ c with input := .ended false }], receiver := .idle } := by
  unfold Device.endInput
  simp only [filling?_fillsLast fills, whole, Bool.false_eq_true, if_false, onFilling_fillsLast fills, ended_of_whole whole]

/-! ## Frame heads (R45 to R49) -/

theorem endBySync_noneFills {d : Device} (noFrame : NoneFills d.frames) : d.endBySync = d :=
  (endBySync_filling d).2 (filling?_noneFills noFrame)

/-- A frame head ends the filling frame short, with SYNC (R45 case 1). -/
theorem endBySync_fillsLast {d : Device} {pre : List FrameContext} {c : FrameContext} (fills : FillsLast d.frames pre c) :
    d.endBySync = (({ d with
      frames := pre ++ [endedShort { c with flags := { c.flags with sync := true } }],
      receiver := .idle }.bump .rowsMissing (rowsAfterFront c)).bump .frameSync).raise .sync := by
  have marked : FillsLast (pre ++ [c.setSync]) pre c.setSync := fills.change rfl
  unfold Device.endBySync
  simp only [filling?_fillsLast fills, onFilling_fillsLast fills]
  rw [endInput_short (d := { d with frames := pre ++ [c.setSync] }) marked]
  rfl

/-- Once no frame fills, the head finds nothing more to end: it is handled as if it came then (R45). -/
theorem takeHead_endBySync (d : Device) (tag : BitVec 16) (group : Fin 8) (embedded : Option LensRecord) :
    d.endBySync.takeHead tag group embedded = d.takeHead tag group embedded := by
  have again : d.endBySync.endBySync = d.endBySync := (endBySync_filling d.endBySync).2 (endBySync_filling d).1
  unfold Device.takeHead
  rw [again]

theorem receiving_endBySync {d : Device} {lane : LinkPort} (receiving : d.Receiving lane) :
    d.endBySync.Receiving lane := by
  obtain ⟨_, _, _, _, e⟩ := endBySync_footprint d
  obtain ⟨running, up, closed⟩ := receiving
  rw [e]
  exact ⟨running, by cases lane <;> exact up, by cases lane <;> exact closed⟩

theorem storeReq_endBySync (d : Device) : d.endBySync.storeReq = d.storeReq := by
  obtain ⟨_, _, _, _, e⟩ := endBySync_footprint d
  rw [e]

/-- Settles O17: the part that the end by SYNC leaves takes the same head. -/
theorem headEndsFilling : Obligations.HeadEndsFilling := by
  unfold Obligations.HeadEndsFilling
  intro node spare tag group ignored note pre c q d valid receiving noRequest fills
  rw [← endBySync_fillsLast fills, exec_frameHead valid receiving noRequest,
    exec_frameHead valid (receiving_endBySync receiving) ((storeReq_endBySync d).trans noRequest), takeHead_endBySync]

theorem takeHead_refused {d : Device} (noFrame : NoneFills d.frames) (full : 2 ≤ d.frames.length) (tag : BitVec 16)
    (group : Fin 8) (embedded : Option LensRecord) :
    d.takeHead tag group embedded = d.refuseHead embedded := by
  unfold Device.takeHead
  rw [endBySync_noneFills noFrame]
  exact if_pos full

/-- Settles O18: no frame is ended, and the refused head's note is held as it was sent. -/
theorem headRefused : Obligations.HeadRefused := by
  unfold Obligations.HeadRefused
  intro node spare tag group ignored note q d valid receiving noRequest noFrame full
  rw [exec_frameHead valid receiving noRequest, takeHead_refused noFrame full]
  cases note <;> rfl

/-! ### The created context -/

theorem afterAnswer_credits (p : Port) (answer : Delivery) :
    p.afterAnswer answer = { p with credits := (p.afterAnswer answer).credits } := by
  cases answer <;> rfl

section
variable (d : Device) (tag : BitVec 16) (group : Fin 8) (embedded : Option LensRecord)

theorem createContext_frames :
    (d.createContext tag group embedded).frames = d.frames ++ [d.newContext tag group embedded] := by
  rw [createContext_parts]

theorem createContext_heldLens : (d.createContext tag group embedded).heldLens =
    (firstNote embedded (d.heldLens.map HeldLens.aged) d.policy.staleLimit d.geometry.height).held := by
  rw [createContext_parts]

theorem createContext_profiles : (d.createContext tag group embedded).profiles =
    boundProfiles d.profiles (d.newContext tag group embedded).entry := by
  rw [createContext_parts]

/-- The only counters a created context moves are those of an unprofiled frame and of the skips (R48, R157). -/
theorem createContext_count (k : Counter) : (d.createContext tag group embedded).count k =
    (((d.bump .framesUnprofiled (if (d.newContext tag group embedded).flags.unprofiled then 1 else 0)).bump .skipA
      (if (d.newContext tag group embedded).deliveryA = .skipped then 1 else 0)).bump .skipB
      (if (d.newContext tag group embedded).deliveryB = .skipped then 1 else 0)).count k := by
  rw [createContext_parts]
  rfl

theorem createContext_count_other {k : Counter} (unprofiled : k ≠ .framesUnprofiled) (skipA : k ≠ .skipA)
    (skipB : k ≠ .skipB) : (d.createContext tag group embedded).count k = d.count k := by
  rw [createContext_count, count_bump, if_neg skipB, count_bump, if_neg skipA, count_bump, if_neg unprofiled]

theorem createContext_count_framesUnprofiled : (d.createContext tag group embedded).count .framesUnprofiled =
    satAdd (d.count .framesUnprofiled) (if (d.newContext tag group embedded).flags.unprofiled then 1 else 0) := by
  rw [createContext_count, count_bump, if_neg (by decide), count_bump, if_neg (by decide), count_bump, if_pos rfl]

end

/-- Settles O19: the new context and the part are written out by `newContext` and `createContext_parts`. -/
theorem headCreates : Obligations.HeadCreates := by
  unfold Obligations.HeadCreates
  intro node spare tag group ignored note q d valid receiving noRequest noFrame room
  refine ⟨d.newContext tag group.toFin (note.map SentNote.record),
    d.createContext tag group.toFin (note.map SentNote.record),
    exec_frameHead_create valid receiving noRequest noFrame room, ?_, ?_, rfl⟩
  · rw [createContext_parts, ← afterAnswer_credits, ← afterAnswer_credits]
  · exact fun k unprofiled skipA skipB => createContext_count_other d _ _ _ unprofiled skipA skipB

/-! ### The first note (R44, R47) -/

theorem firstNote_embedded (r : LensRecord) (held : Option HeldLens) (stale height : Nat) :
    firstNote (some r) held stale height =
      ⟨[⟨{ r with row := min r.row (height - 1) }, false⟩], false, some ⟨{ r with row := min r.row (height - 1) }, 0⟩⟩ :=
  rfl

theorem firstNote_inherited {h : HeldLens} {stale : Nat} (fresh : h.age ≤ stale) (height : Nat) :
    firstNote none (some h) stale height = ⟨[⟨{ h.record with row := 0 }, true⟩], true, some h⟩ :=
  if_pos fresh

theorem firstNote_stale {h : HeldLens} {stale : Nat} (old : stale < h.age) (height : Nat) :
    firstNote none (some h) stale height = ⟨[], false, some h⟩ :=
  if_neg (Nat.not_le.mpr old)

theorem firstNote_absent (stale height : Nat) : firstNote none none stale height = ⟨[], false, none⟩ :=
  rfl

/-- What a created context takes from the first note. -/
theorem newContext_firstNote {d : Device} {embedded : Option LensRecord} {held : Option HeldLens} {first : FirstNote}
    (aged : d.heldLens.map HeldLens.aged = held)
    (chosen : firstNote embedded held d.policy.staleLimit d.geometry.height = first)
    (tag : BitVec 16) (group : Fin 8) :
    (d.newContext tag group embedded).notes = first.notes ∧
      (d.newContext tag group embedded).identity = first.identity ∧
      (d.newContext tag group embedded).flags.inherited = first.inherited ∧
      (d.createContext tag group embedded).heldLens = first.held := by
  subst aged chosen
  exact ⟨rfl, rfl, rfl, createContext_heldLens d tag group embedded⟩

/-- Settles O20: the four cases of `firstNote`, on the held lens state aged by the head.  (`firstNote` is the
name of the model's function.) -/
theorem firstNote_ofCreatedContext : Obligations.FirstNote := by
  unfold Obligations.FirstNote
  intro node spare tag group ignored note q d valid receiving noRequest noFrame room
  refine ⟨_, _, exec_frameHead_create valid receiving noRequest noFrame room, createContext_frames _ _ _ _, ?_, ?_, ?_, ?_⟩
  · rintro n rfl
    exact newContext_firstNote rfl (firstNote_embedded n.record _ _ _) tag group.toFin
  · rintro h rfl held fresh
    exact newContext_firstNote (congrArg _ held) (firstNote_inherited (h := h.aged) fresh _) tag group.toFin
  · rintro h rfl held old
    exact newContext_firstNote (congrArg _ held) (firstNote_stale (h := h.aged) old _) tag group.toFin
  · rintro rfl absent
    exact newContext_firstNote (congrArg _ absent) (firstNote_absent _ _) tag group.toFin

/-! ### The binding (R48, R98) -/

theorem bindingFor_correcting {mode : Mode} (corrects : mode ≠ .pass) (ps : Vector Entry 8) (identity : Option Identity) :
    bindingFor ps mode identity = identity.bind (lookupEntry ps) := by
  cases mode with
  | pass => exact absurd rfl corrects
  | _ => rfl

theorem bindingFor_none {ps : Vector Entry 8} {identity : Option Identity}
    (noReady : ∀ i, identity = some i → ∀ (e : Fin 8) p n, ps[e] = .ready p n → p.identity ≠ i) (mode : Mode) :
    bindingFor ps mode identity = none := by
  cases bound : bindingFor ps mode identity with
  | none => rfl
  | some e =>
    obtain ⟨-, p, n, ready, same⟩ := bindingFor_some bound
    exact absurd rfl (noReady p.identity same.symm e p n ready)

theorem reachFor_ready {ps : Vector Entry 8} {e : Fin 8} {p : Profile} {n : Nat} (ready : ps[e] = .ready p n) :
    reachFor ps (some e) = (p.reachUp, p.reachDown) := by
  simp only [reachFor, Option.bind_some, ready, Entry.profile?]

theorem boundProfiles_ready {ps : Vector Entry 8} {e : Fin 8} {p : Profile} {n : Nat} (ready : ps[e] = .ready p n) :
    boundProfiles ps (some e) = ps.set e (.ready p (n + 1)) := by
  simp [boundProfiles, ready, Entry.bind]

section
variable (d : Device) (tag : BitVec 16) (group : Fin 8) (embedded : Option LensRecord)

theorem newContext_entry : (d.newContext tag group embedded).entry =
    bindingFor d.profiles (d.newContext tag group embedded).mode (d.newContext tag group embedded).identity :=
  rfl

theorem newContext_reach : ((d.newContext tag group embedded).reachUp, (d.newContext tag group embedded).reachDown) =
    reachFor d.profiles (d.newContext tag group embedded).entry :=
  rfl

theorem newContext_unprofiled : (d.newContext tag group embedded).flags.unprofiled =
    ((d.newContext tag group embedded).mode != .pass && (d.newContext tag group embedded).entry.isNone) :=
  rfl

end

section
variable {d : Device} {tag : BitVec 16} {group : Fin 8} {embedded : Option LensRecord}

/-- A frame bound to a READY entry takes its reach and holds it (R48). -/
theorem createContext_bound {e : Fin 8} {p : Profile} {n : Nat} (ready : d.profiles[e] = .ready p n)
    (entry : (d.newContext tag group embedded).entry = some e) :
    (d.newContext tag group embedded).reachUp = p.reachUp ∧ (d.newContext tag group embedded).reachDown = p.reachDown ∧
      (d.newContext tag group embedded).flags.unprofiled = false ∧
      (d.createContext tag group embedded).profiles = d.profiles.set e (.ready p (n + 1)) ∧
      (d.createContext tag group embedded).count .framesUnprofiled = d.count .framesUnprofiled := by
  have unprofiled : (d.newContext tag group embedded).flags.unprofiled = false := by simp [newContext_unprofiled, entry]
  have reach := newContext_reach d tag group embedded
  rw [entry, reachFor_ready ready, Prod.mk.injEq] at reach
  obtain ⟨up, down⟩ := reach
  refine ⟨up, down, unprofiled, ?_, ?_⟩
  · rw [createContext_profiles, entry, boundProfiles_ready ready]
  · rw [createContext_count_framesUnprofiled, unprofiled, if_neg Bool.false_ne_true, satAdd_zero]

/-- A frame without an entry has reach 0/0, and is UNPROFILED unless its mode is PASS (R48). -/
theorem createContext_unbound (entry : (d.newContext tag group embedded).entry = none) :
    (d.newContext tag group embedded).reachUp = 0 ∧ (d.newContext tag group embedded).reachDown = 0 ∧
      (d.newContext tag group embedded).flags.unprofiled = ((d.newContext tag group embedded).mode != .pass) ∧
      (d.createContext tag group embedded).profiles = d.profiles ∧
      (d.createContext tag group embedded).count .framesUnprofiled = satAdd (d.count .framesUnprofiled)
        (if (d.newContext tag group embedded).mode = .pass then 0 else 1) := by
  have unprofiled : (d.newContext tag group embedded).flags.unprofiled =
      ((d.newContext tag group embedded).mode != .pass) := by
    rw [newContext_unprofiled, entry, Option.isNone_none, Bool.and_true]
  have reach := newContext_reach d tag group embedded
  rw [entry, reachFor, Option.bind_none, Prod.mk.injEq] at reach
  obtain ⟨up, down⟩ := reach
  refine ⟨up, down, unprofiled, ?_, ?_⟩
  · rw [createContext_profiles, entry]
    rfl
  · rw [createContext_count_framesUnprofiled, unprofiled]
    simp

end

/-- Settles O21: the lookup's answer decides between a bound frame and an unbound one. -/
theorem binding : Obligations.Binding := by
  unfold Obligations.Binding
  intro node spare tag group ignored note q d valid receiving noRequest noFrame room
  have entry := newContext_entry d tag group.toFin (note.map SentNote.record)
  refine ⟨_, _, exec_frameHead_create valid receiving noRequest noFrame room, createContext_frames _ _ _ _,
    fun pass => ?_, fun i e p n corrects identity ready same unique => ?_, fun corrects noReady => ?_⟩
  · rw [pass, bindingFor_pass] at entry
    obtain ⟨up, down, unprofiled, profiles, count⟩ := createContext_unbound entry
    rw [pass] at unprofiled
    rw [if_pos pass, satAdd_zero] at count
    exact ⟨entry, up, down, unprofiled, profiles, count⟩
  · rw [identity, bindingFor_correcting corrects, Option.bind_some, lookupEntry_unique ready same unique] at entry
    exact ⟨entry, createContext_bound ready entry⟩
  · rw [bindingFor_none noReady] at entry
    obtain ⟨up, down, unprofiled, profiles, count⟩ := createContext_unbound entry
    rw [bne_iff_ne.mpr corrects] at unprofiled
    rw [if_neg corrects] at count
    exact ⟨entry, up, down, unprofiled, profiles, count⟩

/-! ## Rows (R50 to R54) -/

/-- The rule of rows on port U's lane: room for the CRC (R6, R7). -/
theorem rowPayload_keepsRule {payload : List Byte} (whole : 2 ≤ payload.length) : ¬ BreaksKindRule .u 2 payload := by
  rw [← breaksKindRule_iff]
  show ¬ (LinkPort.u == .u && decide (payload.length < 2)) = true
  rw [Bool.and_eq_true, decide_eq_true_eq]
  omega

/-- A row is taken with the samples, the number and the CRC mark its payload carries (R7, R8). -/
theorem exec_row {node : BitVec 3} {spare : BitVec 1} {row : BitVec 16} {payload : List Byte} {q : List Instr} {d : Device}
    (whole : 2 ≤ payload.length) (long : payload.length ≤ 16384) (receiving : d.Receiving .u)
    (noRequest : d.storeReq = none) :
    exec (.rowTaken (Packet.symbols ⟨2, node, spare, row, payload⟩)) ⟨q, d⟩ =
      .next ⟨q, d.takeRow row.toNat (unpackRow (rowSampleBytes payload)) (rowCrcBad row payload)⟩ := by
  rw [exec_packetU receiving (p := ⟨2, node, spare, row, payload⟩) long (rowPayload_keepsRule whole) (by simp [arrivals]),
    Device.sortU, takeStoreRequest_none noRequest]
  rfl

theorem takeRow_idle {d : Device} (idle : d.receiver = .idle) (r : Nat) (samples : List Sample) (bad : Bool) :
    d.takeRow r samples bad = d.bump .rowsStray := by
  rw [Device.takeRow, idle]

theorem takeRow_discarding {d : Device} (discarding : d.receiver = .discarding) (r : Nat) (samples : List Sample)
    (bad : Bool) : d.takeRow r samples bad = d.bump .rowsDropped := by
  rw [Device.takeRow, discarding]

section
variable {d : Device} {pre : List FrameContext} {c : FrameContext} {r : Nat}

theorem takeRow_filling (filling : d.receiver = .filling) (fills : FillsLast d.frames pre c) (samples : List Sample)
    (bad : Bool) : d.takeRow r samples bad = if c.geometry.height ≤ r then d.bump .rowsRange
      else if c.notAbove r then d.bump .rowsOrder else d.acceptRow c r samples bad := by
  rw [Device.takeRow, filling, filling?_fillsLast fills]

theorem notAbove_iff : c.notAbove r = true ↔ ∃ f, c.front = some f ∧ r ≤ f := by
  cases front : c.front <;> simp [FrameContext.notAbove, front]

theorem drops_iff {bad : Bool} : c.drops bad = true ↔ bad = true ∧ c.policy.crc = .drop := by
  simp [FrameContext.drops]

/-- A row dropped for its CRC counts as missing and makes no store request (R52, R53). -/
theorem acceptRow_dropped {bad : Bool} (fills : FillsLast d.frames pre c) (drops : c.drops bad = true)
    (samples : List Sample) : d.acceptRow c r samples bad = ({ d with frames := pre ++ [{ c with
      rowsMissing := satAdd c.rowsMissing (c.gap r + 1)
      crcErrors := satAdd c.crcErrors 1
      front := some r }] }.bump .rowsMissing (c.gap r + 1)).bump .rowsCrc := by
  obtain ⟨rfl, -⟩ := drops_iff.mp drops
  unfold Device.acceptRow
  simp only [onFilling_fillsLast fills, FrameContext.afterRow, drops, if_true]

/-- A row that is not dropped becomes a store request of the frame's width (R52, R53, R54). -/
theorem acceptRow_stored {bad : Bool} (fills : FillsLast d.frames pre c) (kept : ¬ c.drops bad = true)
    (samples : List Sample) : d.acceptRow c r samples bad = (({ d with
      frames := pre ++ [{ c with
        rowsMissing := satAdd c.rowsMissing (c.gap r)
        crcErrors := satAdd c.crcErrors (if bad then 1 else 0)
        front := some r }]
      storeReq := some ⟨c.id, r, c.fitRow samples, bad⟩ }.bump .rowsMissing (c.gap r)).bump
        .rowsCrc (if bad then 1 else 0)).bump .rowsWidth (if samples.length = c.geometry.width then 0 else 1) := by
  unfold Device.acceptRow
  simp only [onFilling_fillsLast fills, FrameContext.afterRow, kept, Bool.false_eq_true, if_false, Nat.add_zero]
  cases bad <;> by_cases fits : samples.length = c.geometry.width <;> simp [fits, bump_zero] <;> rfl

end

/-- Settles O23: the receiver states, and the two tests of R51 in FILLING. -/
theorem rowsDiscarded : Obligations.RowsDiscarded := by
  unfold Obligations.RowsDiscarded
  intro node spare row payload q d whole long receiving noRequest
  rw [exec_row whole long receiving noRequest]
  refine ⟨fun idle => ?_, fun discarding => ?_, fun pre c filling fills outside => ?_,
    fun pre c f filling fills inside front behind => ?_⟩
  · rw [takeRow_idle idle]
  · rw [takeRow_discarding discarding]
  · rw [takeRow_filling filling fills, if_pos outside]
  · rw [takeRow_filling filling fills, if_neg (Nat.not_le.mpr inside), if_pos (notAbove_iff.mpr ⟨f, front, behind⟩)]

/-- Settles O24: a row that passes the tests of R51 is accepted, dropped or stored. -/
theorem rowTaken : Obligations.RowTaken := by
  unfold Obligations.RowTaken
  intro node spare row payload pre c q d whole long receiving noRequest filling fills inside above samples bad gap
  have passes : ¬ c.notAbove row.toNat = true := by
    intro behind
    obtain ⟨f, front, le⟩ := notAbove_iff.mp behind
    exact absurd le (Nat.not_le.mpr (above f front))
  have gapEq : c.gap row.toNat = gap := by
    simp only [FrameContext.gap, gap]
    cases c.front <;> rfl
  rw [exec_row whole long receiving noRequest, takeRow_filling filling fills, if_neg (Nat.not_le.mpr inside),
    if_neg passes, ← gapEq, ← drops_iff]
  refine ⟨fun crcBad policy => ?_, fun kept => ?_⟩
  · rw [acceptRow_dropped fills (drops_iff.mpr ⟨crcBad, policy⟩)]
  · rw [acceptRow_stored fills kept]
    rfl

/-! ## Lens notes (R55 to R58) -/

theorem takeNote_outside {d : Device} (outside : d.receiver ≠ .filling) (r : LensRecord) :
    d.takeNote r = { d with heldLens := some ⟨r, 0⟩ } := by
  unfold Device.takeNote
  split
  · next filling => exact absurd filling outside
  · rfl

/-- Settles O25: outside a frame the record is held as it is taken. -/
theorem noteOutsideFrame : Obligations.NoteOutsideFrame := by
  unfold Obligations.NoteOutsideFrame
  intro node spare row i high focal focus q d nonzero receiving noRequest outside
  rw [exec_lensNote nonzero receiving noRequest, takeNote_outside outside]

theorem mismatches_iff {c : FrameContext} {r : LensRecord} :
    c.mismatches r = true ↔ ∃ j, c.identity = some j ∧ j ≠ r.identity := by
  cases identity : c.identity <;> simp [FrameContext.mismatches, identity]

theorem notePlaced_iff {notes : List Note} {row : Nat} :
    notePlaced notes row = true ↔ (∃ n ∈ notes, n.record.row = row) ∨ notes.length < 8 := by
  simp [notePlaced]

theorem isLate_iff {c : FrameContext} {row : Nat} : c.isLate row = true ↔ ∃ b, c.band = some b ∧
    row < min (b.index * c.geometry.bandHeight + c.geometry.bandHeight / 2) (c.geometry.height - 1) := by
  unfold FrameContext.isLate
  cases c.band with
  | none => exact ⟨fun late => absurd late Bool.false_ne_true, fun ⟨_, absent, _⟩ => nomatch absent⟩
  | some b =>
    rw [Option.any_some, decide_eq_true_eq]
    exact ⟨fun before => ⟨b, rfl, before⟩, fun ⟨_, current, before⟩ => Option.some.inj current ▸ before⟩

section
variable {d : Device} {pre : List FrameContext} {c : FrameContext}

theorem takeNote_filling (filling : d.receiver = .filling) (fills : FillsLast d.frames pre c) (r : LensRecord) :
    d.takeNote r = if c.mismatches r then (d.onFilling FrameContext.setMismatch).bump .lensMismatch
      else d.acceptNote c (r.clampRow c.geometry.height) := by
  rw [Device.takeNote, filling, filling?_fillsLast fills]

/-- A ninth note of a new row is discarded (R57). -/
theorem acceptNote_overflow {r : LensRecord} (full : ¬ notePlaced c.notes r.row = true) :
    d.acceptNote c r = d.bump .lensOverflow :=
  if_neg full

theorem acceptNote_onTime (fills : FillsLast d.frames pre c) {r : LensRecord} (placed : notePlaced c.notes r.row = true)
    (onTime : ¬ c.isLate r.row = true) : d.acceptNote c r = { d with
      frames := pre ++ [{ c with notes := placeNote ⟨r, false⟩ c.notes }]
      heldLens := some ⟨r, 0⟩ } := by
  unfold Device.acceptNote
  simp only [placed, if_true, onTime, Bool.false_eq_true, if_false, onFilling_fillsLast fills]

/-- A late note is placed like any other, and marks the frame it is placed in (R58). -/
theorem acceptNote_late (fills : FillsLast d.frames pre c) {r : LensRecord} (placed : notePlaced c.notes r.row = true)
    (late : c.isLate r.row = true) : d.acceptNote c r = { d with
      frames := pre ++ [{ c with
        notes := placeNote ⟨r, false⟩ c.notes
        flags := { c.flags with late := true }
        lateNotes := satAdd c.lateNotes 1 }]
      heldLens := some ⟨r, 0⟩ }.bump .lensLate := by
  have noted : FillsLast (pre ++ [{ c with notes := placeNote ⟨r, false⟩ c.notes }]) pre
      { c with notes := placeNote ⟨r, false⟩ c.notes } := fills.change rfl
  unfold Device.acceptNote
  simp only [placed, if_true, late, onFilling_fillsLast fills]
  rw [onFilling_fillsLast (d := { d with frames := _, heldLens := _ }) noted]
  rfl

end

/-- Settles O26: the identity test, then the place in the list, then the centre of the current band. -/
theorem noteInFrame : Obligations.NoteInFrame := by
  unfold Obligations.NoteInFrame
  intro node spare row i high focal focus pre c q d nonzero receiving noRequest filling fills taken at' record late
  have ran : taken = .next ⟨q, d.takeNote (noteRecord row i focal focus)⟩ := exec_lensNote nonzero receiving noRequest
  rw [ran]
  refine ⟨fun j identity other => ?_, fun same => ?_⟩
  · rw [takeNote_filling filling fills, if_pos (mismatches_iff.mpr ⟨j, identity, other⟩), onFilling_fillsLast fills]
    rfl
  have matching : ¬ c.mismatches (noteRecord row i focal focus) = true := fun mismatch => by
    obtain ⟨j, identity, other⟩ := mismatches_iff.mp mismatch
    exact other (same j identity)
  have accepted : d.takeNote (noteRecord row i focal focus) = d.acceptNote c record := by
    rw [takeNote_filling filling fills, if_neg matching]
    rfl
  have lateIff : c.isLate record.row = true ↔ late := isLate_iff
  rw [accepted]
  refine ⟨fun xs zs ys notes before after equal atMostOne room => ?_, fun new full => ?_⟩
  · have placed : notePlaced c.notes record.row = true := notePlaced_iff.mpr <| room.imp_left fun found => by
      obtain ⟨z, mem⟩ := List.exists_mem_of_ne_nil zs found
      exact ⟨z, by simp [notes, mem], equal z mem⟩
    have list : placeNote ⟨record, false⟩ c.notes = xs ++ (⟨record, false⟩ : Note) :: ys := by
      rw [notes, placeNote_split ⟨record, false⟩ xs zs ys before after equal atMostOne]
    rw [← lateIff, ← list]
    refine ⟨fun onTime => ?_, fun isLate => ?_⟩
    · rw [acceptNote_onTime fills placed onTime]
    · rw [acceptNote_late fills placed isLate]
  · have overflow : ¬ notePlaced c.notes record.row = true := fun placed => by
      rcases notePlaced_iff.mp placed with ⟨n, mem, row⟩ | room
      · exact new n mem row
      · omega
    rw [acceptNote_overflow overflow]

/-! ## Frame tails (R59) -/

theorem tailPayload_keepsRule : ¬ BreaksKindRule .u 4 [] := by
  rw [← breaksKindRule_iff]
  decide

/-- A frame tail is taken with the tag of its header. -/
theorem exec_frameTail {node : BitVec 3} {spare : BitVec 1} {tag : BitVec 16} {q : List Instr} {d : Device}
    (receiving : d.Receiving .u) (noRequest : d.storeReq = none) :
    exec (.frameTailTaken (Packet.symbols ⟨4, node, spare, tag, []⟩)) ⟨q, d⟩ = .next ⟨q, d.takeTail tag⟩ := by
  rw [exec_packetU receiving (p := ⟨4, node, spare, tag, []⟩) (Nat.zero_le _) tailPayload_keepsRule (by simp [arrivals]),
    Device.sortU, takeStoreRequest_none noRequest]
  rfl

theorem takeTail_idle {d : Device} (idle : d.receiver = .idle) (tag : BitVec 16) : d.takeTail tag = d := by
  rw [Device.takeTail, idle]

theorem takeTail_discarding {d : Device} (discarding : d.receiver = .discarding) (tag : BitVec 16) :
    d.takeTail tag = { d with receiver := .idle } := by
  rw [Device.takeTail, discarding]

/-- Settles O27: the receiver states, and in FILLING the tag and then the front. -/
theorem frameTail : Obligations.FrameTail := by
  unfold Obligations.FrameTail
  intro node spare tag q d receiving noRequest taken
  have ran : taken = .next ⟨q, d.takeTail tag⟩ := exec_frameTail receiving noRequest
  rw [ran]
  refine ⟨fun idle => ?_, fun discarding => ?_, fun pre c filling fills other => ?_,
    fun pre c f filling fills same front last => ?_, fun pre c filling fills same missing => ?_⟩
  · rw [takeTail_idle idle]
  · rw [takeTail_discarding discarding]
  · rw [takeTail_filling fills filling, if_neg other, onFilling_fillsLast fills]
    rfl
  · have whole : ¬ c.endsShort false = true := fun short =>
      absurd ((endsShort_false_iff c).mp short f front) (Nat.not_lt.mpr last)
    rw [takeTail_filling fills filling, if_pos same, endInput_of_whole fills whole]
  · rw [takeTail_filling fills filling, if_pos same, endInput_of_short fills ((endsShort_false_iff c).mpr missing)]

/-! ## The last line and the close (R61, R62, R74, R121) -/

/-- A slot of the frame is free after a free-all, whatever was released before (R73, R74). -/
theorem freeWhere_freeWhere_own {frame : Nat} {r : StoredRow} (own : r.frame = frame) (p : Nat → Bool) :
    freeWhere frame (fun _ => true) (freeWhere frame p (some r)) = none := by
  cases released : p r.row <;> simp [freeWhere, own, released]

/-- A slot that holds no row of the frame is left as it is. -/
theorem freeWhere_other {frame : Nat} {slot : Option StoredRow} (other : ∀ r, slot = some r → r.frame ≠ frame)
    (p : Nat → Bool) : freeWhere frame p slot = slot := by
  cases slot with
  | none => rfl
  | some r => simp [freeWhere, other r rfl]

theorem lineOnHead_slots (d : Device) (c : FrameContext) (rest : List FrameContext) (i : Fin 384) :
    (d.lineOnHead c rest).slots[i] =
      freeWhere c.id (fun row => decide ((row : Int) ≤ (c.nextLine : Int) - c.reachUp - 2)) d.slots[i] := by
  obtain ⟨id, nextLine, reachUp, -⟩ := atLine_same c d.profiles
  simp only [lineOnHead_full, id, nextLine, reachUp, Fin.getElem_fin, Vector.getElem_map]

/-- A production of the last line ends in the close (R121). -/
theorem produceLine_last {d : Device} {c : FrameContext} {rest : List FrameContext} (frames : d.frames = c :: rest)
    (ready : EngineReady d c) (last : c.nextLine + 1 = c.geometry.height) :
    d.produceLine = (d.lineOnHead c rest).close := by
  unfold Device.produceLine
  rw [if_pos (engine_ready frames ready), frames]
  exact if_pos last

/-- The head frame at its close, its input ended where it still fills (R61 step 1). -/
def FrameContext.atClose (c : FrameContext) : FrameContext :=
  if c.input = .filling then { c with input := .ended false } else c

theorem atClose_entry (c : FrameContext) : c.atClose.entry = c.entry := by
  unfold FrameContext.atClose
  split <;> rfl

theorem atClose_id (c : FrameContext) : c.atClose.id = c.id := by
  unfold FrameContext.atClose
  split <;> rfl

theorem atClose_filling {c : FrameContext} (filling : c.input = .filling) :
    c.atClose = { c with input := .ended false } :=
  if_pos filling

theorem atClose_ended {c : FrameContext} (ended : c.input ≠ .filling) : c.atClose = c :=
  if_neg ended

/-- The close of a head frame whose last row was taken (R61). -/
theorem close_eq {d : Device} {c : FrameContext} {rest : List FrameContext} (frames : d.frames = c :: rest)
    (others : c.input = .filling → NoneFills rest)
    (whole : c.input = .filling → ∃ f, c.front = some f ∧ c.geometry.height ≤ f + 1) : d.close = { d with
      frames := rest
      receiver := if c.input = .filling then .idle else d.receiver
      portA := { d.portA with queue := d.portA.queue ++ reportItem c.atClose .a }
      portB := { d.portB with queue := d.portB.queue ++ reportItem c.atClose .b }
      profiles := unboundProfiles d.profiles c.entry
      slots := d.slots.map (freeWhere c.id fun _ => true) } := by
  have ended : d.endBeforeClose = { d with
      frames := c.atClose :: rest
      receiver := if c.input = .filling then .idle else d.receiver } := endInput_head frames others whole
  unfold Device.close
  rw [ended]
  simp only [closeEnded_eq, atClose_entry, atClose_id]
  cases c.entry <;> rfl

/-- A READY engine has the last row of a frame still FILLING at its last line (R117). -/
theorem EngineReady.lastRow {d : Device} {c : FrameContext} (ready : EngineReady d c)
    (last : c.nextLine + 1 = c.geometry.height) (filling : c.input = .filling) :
    ∃ f, c.front = some f ∧ c.geometry.height ≤ f + 1 := by
  obtain ⟨f, front, taken⟩ := ready.input filling
  exact ⟨f, front, by omega⟩

/-- What the production of a line leaves of the head frame. -/
theorem LineDone.head {d d' : Device} {c c' : FrameContext} {rest : List FrameContext} (done : LineDone d c rest d' c') :
    c'.id = c.id ∧ c'.input = c.input ∧ c'.front = c.front ∧ c'.entry = c.entry ∧ c'.geometry = c.geometry := by
  obtain ⟨id, -, -, -, -, -, entry, -, -, geometry, input, front, -⟩ := atLine_same c d.profiles
  exact ⟨(congrArg FrameContext.id done.context).trans id, (congrArg FrameContext.input done.context).trans input,
    (congrArg FrameContext.front done.context).trans front, (congrArg FrameContext.entry done.context).trans entry,
    (congrArg FrameContext.geometry done.context).trans geometry⟩

/-- What the production of a line leaves of the part besides. -/
theorem LineDone.device {d d' : Device} {c c' : FrameContext} {rest : List FrameContext}
    (done : LineDone d c rest d' c') : d'.frames = c' :: rest ∧ d'.receiver = d.receiver ∧ d'.profiles = d.profiles := by
  rw [done.part]
  exact ⟨rfl, rfl, rfl⟩

theorem unboundProfiles_entry {ps : Vector Entry 8} {e : Fin 8} {x : Entry} (held : ps[e] = x) :
    unboundProfiles ps (some e) = ps.set e x.unbind := by
  rw [← held]
  rfl

theorem unbind_retiring_last {n : Nat} (last : n ≤ 1) (p : Profile) : (Entry.retiring p n).unbind = .empty :=
  if_pos (by omega)

theorem unbind_retiring_held {n : Nat} (held : 1 < n) (p : Profile) :
    (Entry.retiring p n).unbind = .retiring p (n - 1) :=
  if_neg (by omega)

/-- Settles O34: the line's production, then the close of the frame that has its last row. -/
theorem lastLine : Obligations.LastLine := by
  unfold Obligations.LastLine
  intro c rest q d frames ready last others
  have done := lineDone d c rest
  generalize (c.atLine d.profiles).afterLine _ _ = c1 at done
  obtain ⟨id, input, front, entry, geometry⟩ := done.head
  obtain ⟨frames1, receiver, profiles⟩ := done.device
  have closed := close_eq frames1 (input ▸ others)
    (by rw [input, front, geometry]; exact ready.lastRow last)
  rw [id, input, entry, receiver, profiles] at closed
  have unbound : (d.lineOnHead c rest).close.profiles = unboundProfiles d.profiles c.entry := by rw [closed]
  have slots (i : Fin 384) : (d.lineOnHead c rest).close.slots[i] =
      freeWhere c.id (fun _ => true) (d.lineOnHead c rest).slots[i] := by rw [closed, freeWhere_get]
  refine ⟨c1, c1.atClose, d.lineOnHead c rest, (d.lineOnHead c rest).close, ?_, done, atClose_filling, atClose_ended, ?_,
    fun noEntry => ?_, fun e p n bound held => ?_, fun e p n bound held few => ?_, fun e p n bound held many => ?_,
    fun i r held own => ?_, fun i other => ?_⟩
  · rw [exec_lineProduction_running _ _ ready.running, produceLine_last frames ready last]
  · rw [closed]
  · rw [unbound, noEntry]
    rfl
  · rw [unbound, bound, unboundProfiles_entry held]
    rfl
  · rw [unbound, bound, unboundProfiles_entry held, unbind_retiring_last few]
  · rw [unbound, bound, unboundProfiles_entry held, unbind_retiring_held many]
  · rw [slots, lineOnHead_slots, held, freeWhere_freeWhere_own own]
  · rw [slots, lineOnHead_slots, freeWhere_other other, freeWhere_other other]

end Sys2Proof.Machine

/-! # Proofs: the line store (chapter 4)

The store request that waits for the line store, the answers to fetches, and the rows a site reads.  The equations of
`storeRow`, the fold that picks a substitute and the reach of a source row are those of Sys2Proof/Laws. -/

namespace Sys2Proof.Machine

/-! ## The store request on its way (R69 to R72) -/

theorem takeStoreRequest_some {d : Device} {r : StoredRow} (request : d.storeReq = some r) :
    d.takeStoreRequest = { d with storeReq := none }.storeRow r := by
  unfold Device.takeStoreRequest
  rw [request]

theorem takeStoreRequest_twice (d : Device) : d.takeStoreRequest.takeStoreRequest = d.takeStoreRequest :=
  takeStoreRequest_none (takeStoreRequest_storeReq d)

/-- A row whose context has left the frame queue changes nothing (R71). -/
theorem storeRow_left {d : Device} {r : StoredRow} (left : ∀ x ∈ d.frames, x.id ≠ r.frame) : d.storeRow r = d := by
  have noFrame : ¬ d.hasFrame r.frame = true := by simpa [Device.hasFrame] using left
  unfold Device.storeRow
  rw [if_neg noFrame]

theorem exec_storeRequest_running {d : Device} (running : d.resetHeld = false) (q : List Instr) :
    exec .storeRequest ⟨q, d⟩ = .next ⟨q, d.takeStoreRequest⟩ :=
  exec_act_running Device.takeStoreRequest running (exec_storeRequest _)

/-- Settles O31: the store request is stored, dropped or discarded by the equations of `storeRow`. -/
theorem storeRequest : Obligations.StoreRequest := by
  unfold Obligations.StoreRequest
  intro q d running
  rw [exec_storeRequest_running running]
  refine ⟨fun noRequest => ?_, fun r pre c post i request frames own others free lowest => ?_,
    fun r pre c post request frames own others full => ?_, fun r request left => ?_⟩
  · rw [takeStoreRequest_none noRequest]
  · rw [takeStoreRequest_some request,
      storeRow_free { d with storeReq := none } r pre c post frames own others i free lowest]
  · rw [takeStoreRequest_some request, storeRow_full { d with storeReq := none } r pre c post frames own others full]
  · rw [takeStoreRequest_some request, storeRow_left (d := { d with storeReq := none }) left]

/-- The sorting of a packet from port U begins with the store request on its way (R72). -/
theorem sortU_takeStoreRequest (d : Device) (p : Packet) : d.takeStoreRequest.sortU p = d.sortU p := by
  unfold Device.sortU
  rw [takeStoreRequest_twice]

/-- Settles O16: taken before the packet, the store request leaves the sorting nothing more to take. -/
theorem storeRequestFirst : Obligations.StoreRequestFirst := by
  unfold Obligations.StoreRequestFirst
  intro p q d receiving long kept c arrives
  refine ⟨d.takeStoreRequest, exec_storeRequest_running receiving.running q, takeStoreRequest_storeReq d, ?_⟩
  rw [exec_packetU receiving long kept arrives,
    exec_packetU (receiving_takeStoreRequest receiving) long kept arrives, sortU_takeStoreRequest]

/-! ## Fetches (R67, R75 to R77) -/

/-- The rows held for a frame are those its slots hold (R67). -/
theorem mem_heldRows {slots : List (Option StoredRow)} {frame : Nat} {r : StoredRow} :
    r ∈ heldRows slots frame ↔ some r ∈ slots ∧ r.frame = frame := by
  simp only [heldRows, List.mem_filterMap, Option.filter_eq_some_iff, beq_iff_eq]
  constructor
  · rintro ⟨slot, held, rfl, own⟩
    exact ⟨held, own⟩
  · rintro ⟨held, own⟩
    exact ⟨some r, held, rfl, own⟩

/-- The rows that can stand for row `k` while line `y` is computed (R76). -/
def substituteRows (rows : List StoredRow) (c : FrameContext) (y k : Nat) : List StoredRow :=
  rows.filter fun r => r.row % 2 == k % 2 && decide (windowLow c y ≤ r.row) && decide (r.row ≤ windowHigh c y)

theorem mem_substituteRows {rows : List StoredRow} {c : FrameContext} (tall : 0 < c.geometry.height) {y k : Nat}
    {r : StoredRow} : r ∈ substituteRows rows c y k ↔ r ∈ rows ∧ Substitutes c y k r := by
  rw [substituteRows, List.mem_filter, substituteRange_iff c y k tall r]

/-- A fetch for a row that is held. -/
theorem fetchRow_held {rows : List StoredRow} {r : StoredRow} {k : Nat} (mem : r ∈ rows) (row : r.row = k)
    (only : ∀ r' ∈ rows, r'.row = k → r' = r) (c : FrameContext) (y : Nat) : fetchRow rows c y k = .held r.samples := by
  have found : rows.find? (fun r => r.row == k) = some r := by
    cases search : rows.find? fun r => r.row == k with
    | none => exact absurd row (by simpa using List.find?_eq_none.mp search r mem)
    | some r' => rw [only r' (List.mem_of_find?_eq_some search) (by simpa using List.find?_some search)]
  unfold fetchRow
  rw [found]

/-- A fetch for a row that is not held: the best of the rows that can stand for it, or the fill value (R76, R77). -/
theorem fetchRow_missing {rows : List StoredRow} {k : Nat} (missing : ∀ r ∈ rows, r.row ≠ k) (c : FrameContext)
    (y : Nat) : fetchRow rows c y k =
      ((substituteRows rows c y k).foldl (pickSubstitute k) none).elim (.filled c.geometry.fill)
        fun r => .substituted r.samples := by
  have notFound : rows.find? (fun r => r.row == k) = none := List.find?_eq_none.mpr (by simpa using missing)
  unfold fetchRow substituteRows
  rw [notFound]
  dsimp only
  generalize List.foldl (pickSubstitute k) none _ = best
  cases best <;> rfl

/-- Settles O40: the search for the row itself, then the fold over the rows that can stand for it.
(`fetchRow` is the model's own function.) -/
theorem fetchRow_answers : Obligations.FetchRow := by
  unfold Obligations.FetchRow
  refine ⟨fun slots frame r => mem_heldRows, Fetched.gives, fun rows c y k tall =>
    ⟨fun r mem row only => fetchRow_held mem row only c y, fun r mem missing stands best => ?_, fun noRow => ?_⟩⟩
  · have candidate : r ∈ substituteRows rows c y k := (mem_substituteRows tall).mpr ⟨mem, stands⟩
    have others (x : StoredRow) (hx : x ∈ substituteRows rows c y k) : x = r ∨ Worse k r x :=
      have ⟨held, standsToo⟩ := (mem_substituteRows tall).mp hx
      best x held standsToo
    rw [fetchRow_missing missing, foldl_pickSubstitute k r _ none others candidate (by simp)]
    rfl
  · have noCandidate : substituteRows rows c y k = [] :=
      List.eq_nil_iff_forall_not_mem.mpr fun r hr =>
        have ⟨held, stands⟩ := (mem_substituteRows tall).mp hr
        (noRow r held).2 stands
    rw [fetchRow_missing fun r held => (noRow r held).1, noCandidate]
    rfl

/-! ## The rows a site reads (R75, R146 to R150) -/

/-- The pixel row a neighbour is fetched from, for a colour origin of row parity `py`, where the edge policy lets it be
fetched (R148, R150). -/
def Neighbour.fetchedRow (n : Neighbour) (g : Geometry) (py : Nat) : Nat :=
  2 * (limit 0 ((g.height / 2 : Nat) - 1) n.row).toNat + py

/-- A neighbour's sample depends on no fetch but that of its own row. -/
theorem Neighbour.sample_congr {n : Neighbour} {g : Geometry} {py : Nat} {fetch fetch' : Nat → Fetched}
    (same : fetch (n.fetchedRow g py) = fetch' (n.fetchedRow g py)) (px : Nat) :
    n.sample g px py fetch = n.sample g px py fetch' := by
  unfold Neighbour.fetchedRow at same
  simp only [Neighbour.sample, same]

/-- The neighbours of a site stand on its cell's lattice row or on the next (R146). -/
theorem neighbours_row {u v : Int × Nat} {n : Neighbour} (mem : n ∈ neighbours u v) :
    n.row = v.1 ∨ n.row = v.1 + 1 := by
  have corner := (List.mem_filter.mp mem).1
  simp only [List.mem_cons, List.not_mem_nil, or_false] at corner
  obtain rfl | rfl | rfl | rfl := corner <;> simp

theorem resampledSite_congr {c : FrameContext} {fetch fetch' : Nat → Fetched} {x y : Nat} {p : SourcePosition}
    (same : ∀ n ∈ neighbours (latticeCell p.sx (x % 2)) (latticeCell p.sy (y % 2)),
      fetch (n.fetchedRow c.geometry (y % 2)) = fetch' (n.fetchedRow c.geometry (y % 2))) :
    resampledSite c fetch x y p = resampledSite c fetch' x y p := by
  have read := List.map_congr_left fun n hn =>
    congrArg (Prod.mk n.weight) (Neighbour.sample_congr (same n hn) (x % 2))
  unfold resampledSite
  dsimp only
  rw [read]

/-- A neighbour's row lies in the line's window: the cell of a source row within the reach is at most two pixel rows
beyond it, and the replacement of R148 moves a row no further from the line (R75, R143, R145, R148). -/
theorem fetchedRow_in_window {c : FrameContext} {y : Nat} {position : Int} {n : Neighbour}
    (even : c.geometry.height % 2 = 0) (line : y < c.geometry.height)
    (low : 64 * ((y : Int) - c.reachUp) ≤ position) (high : position ≤ 64 * ((y : Int) + c.reachDown))
    (row : n.row = (latticeCell position (y % 2)).1 ∨ n.row = (latticeCell position (y % 2)).1 + 1) :
    y ≤ n.fetchedRow c.geometry (y % 2) + c.reachUp + 2 ∧ n.fetchedRow c.geometry (y % 2) ≤ y + c.reachDown + 2 ∧
      n.fetchedRow c.geometry (y % 2) < c.geometry.height := by
  have ⟨_, cellLow, cellHigh⟩ := latticeCell_on position (y % 2)
  unfold Neighbour.fetchedRow limit
  omega

/-- Settles O39: a site reads its neighbours' rows, and these lie in the window. -/
theorem rowsRead : Obligations.RowsRead := by
  unfold Obligations.RowsRead
  intro c set fetch fetch' x y ok _ line same
  have ⟨low, high⟩ := sourcePosition_row c set x y
  have ⟨_, _, even⟩ := ok.height
  have resampled : resampledSite c fetch x y (sourcePosition c set x y) =
      resampledSite c fetch' x y (sourcePosition c set x y) :=
    resampledSite_congr fun n hn =>
      have ⟨above, below, inside⟩ := fetchedRow_in_window even line low high (neighbours_row hn)
      same _ above below inside
  unfold site
  dsimp only
  rw [resampled]

end Sys2Proof.Machine

/-! # Proofs: the lens profile table (chapter 5)

The profile commands.  Each command first has one equation per answer it can give, in the order of its checks, for the part
from which the request has left; the theorems that settle the obligations read these through the execution of a request
whose arguments fit. -/

namespace Sys2Proof.Machine

/-! ## The law of the profile table (R61, R81, R84, R93, R98) -/

/-- Settles O59: every shared operation keeps the law of the profile table. -/
theorem profileLawKept : Obligations.ProfileLawKept := by
  unfold Obligations.ProfileLawKept
  exact profileLaw_kept.step

/-! ## Requests whose length depends on their arguments (R174, R177) -/

/-- A request that passes its length check leaves the part as its command leaves it, with the command's reply answered
(R174). -/
theorem exec_fittingReply {tag code : Byte} {args : List Byte} {rest : List Packet} {d after : Device} {reply : Reply}
    {fits : List Byte → Bool} {run : List Byte → Device → Device × Reply} {c : Instr} {n : Nat}
    (asked : d.Asked (tag :: code :: args) rest)
    (command : ∀ s, exec c s = act (·.execute n (fun _ => true) fits run) s) (number : code.toNat = n)
    (fit : fits args = true) (ran : run args { d with commands := rest } = (after, reply)) (q : List Instr) :
    exec c ⟨q, d⟩ = .next ⟨q, after.answer tag code reply⟩ := by
  rw [exec_request asked n _ fits run c command number rfl, if_pos fit, ran]

/-- A request that its length check refuses is answered BADLEN (R174). -/
theorem exec_misfit {tag code : Byte} {args : List Byte} {rest : List Packet} {d : Device}
    {fits : List Byte → Bool} {run : List Byte → Device → Device × Reply} {c : Instr} {n : Nat}
    (asked : d.Asked (tag :: code :: args) rest)
    (command : ∀ s, exec c s = act (·.execute n (fun _ => true) fits run) s) (number : code.toNat = n)
    (misfit : ¬ fits args = true) (q : List Instr) :
    exec c ⟨q, d⟩ = .next ⟨q, d.answered rest tag code .badLen []⟩ := by
  rw [exec_request asked n _ fits run c command number rfl, if_neg misfit]

/-! ## PROFILE_OPEN (R89) -/

/-- A one-byte field is the byte at its offset, 0 past the end. -/
theorem fieldAt_getD (bytes : List Byte) (off : Nat) : fieldAt bytes off 1 = (bytes.getD off 0).toNat := by
  rw [fieldAt, List.getD_eq_getElem?_getD, ← List.head?_drop]
  cases bytes.drop off with
  | nil => rfl
  | cons b post => simp [beNat_single]

theorem openFits_iff (args : List Byte) : openFits args = true ↔
    8 ≤ args.length ∧ args.length = 12 + 2 * ((args.getD 6 0).toNat + (args.getD 7 0).toNat) := by
  simp only [openFits, fieldAt_getD, Bool.and_eq_true, decide_eq_true_eq, beq_iff_eq]

/-- The profile that the arguments sent stand for: every word 0 and unwritten, each reach clamped to 180 (R89). -/
def SentOpen.profile (o : SentOpen) : Profile where
  identity := ⟨o.lensId, o.converter.setWidth 2⟩
  focal := o.focal.map BitVec.toNat
  focus := o.focus.map BitVec.toNat
  words := List.replicate (o.focal.length * o.focus.length * 7) ⟨0, false⟩
  reachUp := min o.reachUp.toNat 180
  reachDown := min o.reachDown.toNat 180

section
variable {o : SentOpen} {d : Device} {e : Fin 8} (focalShort : o.focal.length < 256) (focusShort : o.focus.length < 256)
include focalShort focusShort

theorem OpenFields.entry_bytes : (OpenFields.ofBytes o.bytes).entry = o.entry.toNat := by
  rw [OpenFields.ofBytes_bytes o focalShort focusShort]

theorem OpenFields.profile_bytes : (OpenFields.ofBytes o.bytes).profile = o.profile := by
  rw [OpenFields.ofBytes_bytes o focalShort focusShort]
  simp only [OpenFields.profile, SentOpen.profile, BitVec.ofNat_toNat, Config.maxReach]

theorem runProfileOpen_badEntry (bad : 8 ≤ o.entry.toNat) : runProfileOpen o.bytes d = (d, ⟨.badArg, [1, 0]⟩) := by
  simp only [runProfileOpen, OpenFields.entry_bytes focalShort focusShort, dif_neg (Nat.not_lt.mpr bad), refuse]

theorem runProfileOpen_refused {r : Reply} (inTable : o.entry.toNat = e)
    (refused : (OpenFields.ofBytes o.bytes).refusal d.profiles[e] = some r) : runProfileOpen o.bytes d = (d, r) := by
  simp only [runProfileOpen, OpenFields.entry_bytes focalShort focusShort, inTable, dif_pos e.isLt, Fin.eta, refused]

theorem runProfileOpen_ok (inTable : o.entry.toNat = e)
    (passed : (OpenFields.ofBytes o.bytes).refusal d.profiles[e] = none) :
    runProfileOpen o.bytes d = ({ d with profiles := d.profiles.set e (.loading o.profile) },
      ⟨.ok, [o.entry, BitVec.ofNat 8 o.profile.reachUp, BitVec.ofNat 8 o.profile.reachDown]
        ++ beBytes 2 (o.focal.length * o.focus.length * 7)⟩) := by
  have number : BitVec.ofNat 8 e = o.entry := by rw [← inTable, BitVec.ofNat_toNat, BitVec.setWidth_eq]
  have length : o.profile.words.length = o.focal.length * o.focus.length * 7 := List.length_replicate
  simp only [runProfileOpen, OpenFields.entry_bytes focalShort focusShort, inTable, dif_pos e.isLt, Fin.eta, passed,
    OpenFields.profile_bytes focalShort focusShort, number, length, Device.onEntry]
end

/-- Settles O54: the fields are read where they are sent, and the refusal is that of the first check failed. -/
theorem profileOpen : Obligations.ProfileOpen := by
  unfold Obligations.ProfileOpen
  refine fun tag q d rest => ⟨fun args asked wrongLength => ?_, fun o focalShort focusShort asked => ?_⟩
  · have misfit : ¬ openFits args = true := by
      rw [openFits_iff]
      omega
    exact exec_misfit asked exec_profileOpen rfl misfit q
  have reply {after : Device} {r : Reply} (ran : runProfileOpen o.bytes { d with commands := rest } = (after, r)) :
      exec .profileOpen ⟨q, d⟩ = .next ⟨q, after.answer tag 11 r⟩ :=
    exec_fittingReply asked exec_profileOpen rfl (openFits_bytes o focalShort focusShort) ran q
  refine ⟨fun bad => reply (runProfileOpen_badEntry focalShort focusShort bad), fun e inTable => ?_⟩
  have refuses {r : Reply} :=
    runProfileOpen_refused (d := { d with commands := rest }) (r := r) focalShort focusShort inTable
  obtain ⟨notEmpty, empty⟩ := OpenFields.refusal_bytes o focalShort focusShort d.profiles[e]
  refine ⟨fun occupied => reply (refuses (notEmpty occupied)), fun free => ?_⟩
  obtain ⟨badArgument, badFocal, badFocus, passed⟩ := empty free
  refine ⟨fun n checked bad before => ?_, fun position inRange fault => ?_,
    fun position inRange increasing fault => ?_, fun inRange focal focus => ?_⟩
  · exact reply (refuses (badArgument n checked bad before))
  · exact reply (refuses (badFocal position inRange fault))
  · exact reply (refuses (badFocus position inRange increasing fault))
  · exact reply (runProfileOpen_ok focalShort focusShort inTable (passed inRange focal focus))

/-! ## PROFILE_WRITE (R90 to R92) -/

theorem length_writeWords {words : List CoefWord} {start : Nat} {values : List Int}
    (fit : start + values.length ≤ words.length) : (writeWords words start values).length = words.length := by
  simp only [writeWords, List.length_append, List.length_take, List.length_map, List.length_drop]
  omega

/-- The values stand from the start index on, marked written (R92). -/
theorem getElem?_writeWords_covered {words : List CoefWord} {start k : Nat} {values : List Int}
    (fit : start + values.length ≤ words.length) (above : start ≤ k) (below : k < start + values.length) :
    (writeWords words start values)[k]? = some ⟨values.getD (k - start) 0, true⟩ := by
  have startLength : (words.take start).length = start := List.length_take_of_le (by omega)
  have covered : k - start < values.length := by omega
  rw [writeWords, List.append_assoc, List.getElem?_append_right (by omega), startLength,
    List.getElem?_append_left (by rw [List.length_map]; exact covered), List.getElem?_map,
    List.getD_eq_getElem?_getD, List.getElem?_eq_getElem covered]
  rfl

/-- A word outside the written range is as it was (R92). -/
theorem getElem?_writeWords_other {words : List CoefWord} {start k : Nat} {values : List Int}
    (fit : start + values.length ≤ words.length) (other : k < start ∨ start + values.length ≤ k) :
    (writeWords words start values)[k]? = words[k]? := by
  have startLength : (words.take start).length = start := List.length_take_of_le (by omega)
  rw [writeWords, List.append_assoc]
  rcases other with below | above
  · rw [List.getElem?_append_left (by omega), List.getElem?_take_of_lt below]
  · rw [List.getElem?_append_right (by omega), List.getElem?_append_right (by rw [List.length_map]; omega),
      List.getElem?_drop, List.length_map, startLength]
    congr 1
    omega

theorem writeRefusal_badCount {before after : List SentItem} {item : SentItem} (counts : ∀ i ∈ before, i.CountOk)
    (bad : ¬ item.CountOk) (words : List CoefWord) (start : Nat) :
    writeRefusal words start ((before ++ item :: after).map SentItem.item) =
      some ⟨.badArg, beBytes 2 (before.length + 1) ++ [0, 0]⟩ := by
  rw [writeRefusal, findIdx?_badCount_first before item after counts bad]
  rfl

theorem writeRefusal_pastEnd {items : List SentItem} {words : List CoefWord} {start : Nat}
    (counts : ∀ i ∈ items, i.CountOk) (past : words.length < start + (items.flatMap SentItem.values).length) :
    writeRefusal words start (items.map SentItem.item) =
      some ⟨.range, beBytes 2 words.length ++ beBytes 4 (items.flatMap SentItem.values).length⟩ := by
  simp only [writeRefusal, findIdx?_badCount_none items counts, expand_items, if_pos past]

/-- Within the array and with counts in order, only a value out of the range of its place refuses a write (R91 check 5). -/
theorem writeRefusal_inArray {items : List SentItem} {words : List CoefWord} {start : Nat}
    (counts : ∀ i ∈ items, i.CountOk) (fit : start + (items.flatMap SentItem.values).length ≤ words.length) :
    writeRefusal words start (items.map SentItem.item) =
      (valueFault 1 start (items.map SentItem.item)).map fun f => ⟨.badArg, beBytes 2 f.1 ++ beBytes 2 f.2⟩ := by
  simp only [writeRefusal, findIdx?_badCount_none items counts, expand_items, if_neg (Nat.not_lt.mpr fit)]

section
variable {entry : Byte} {start : BitVec 16} {items : List SentItem} {d : Device} {e : Fin 8} {p : Profile}

theorem runProfileWrite_badEntry (bad : 8 ≤ entry.toNat) :
    runProfileWrite (writeBytes entry start items) d = (d, ⟨.badArg, [0, 0, 0, 0]⟩) := by
  obtain ⟨-, entrySent, -, -⟩ := writeBytes_fields entry start items
  simp only [runProfileWrite, entrySent, dif_neg (Nat.not_lt.mpr bad), refuse]
  rfl

theorem runProfileWrite_notLoading (inTable : entry.toNat = e) (other : ∀ p, d.profiles[e] ≠ .loading p) :
    runProfileWrite (writeBytes entry start items) d = (d, ⟨.state, [(d.profiles[e]).code]⟩) := by
  obtain ⟨-, entrySent, -, -⟩ := writeBytes_fields entry start items
  cases state : d.profiles[e] with
  | loading p => exact absurd state (other p)
  | _ => simp only [runProfileWrite, entrySent, inTable, dif_pos e.isLt, Fin.eta, state, refuse]

theorem runProfileWrite_refused {r : Reply} (inTable : entry.toNat = e) (loading : d.profiles[e] = .loading p)
    (refused : writeRefusal p.words start.toNat (items.map SentItem.item) = some r) :
    runProfileWrite (writeBytes entry start items) d = (d, r) := by
  obtain ⟨itemsSent, entrySent, startSent, -⟩ := writeBytes_fields entry start items
  simp only [runProfileWrite, entrySent, inTable, dif_pos e.isLt, Fin.eta, loading, itemsSent, startSent,
    Option.getD_some, refused]

theorem runProfileWrite_ok (inTable : entry.toNat = e) (loading : d.profiles[e] = .loading p)
    (passed : writeRefusal p.words start.toNat (items.map SentItem.item) = none) :
    let values := items.flatMap SentItem.values
    let words := writeWords p.words start.toNat values
    runProfileWrite (writeBytes entry start items) d =
      ({ d with profiles := d.profiles.set e (.loading { p with words := words }) },
        ⟨.ok, beBytes 2 (words.countP CoefWord.written) ++ beBytes 2 (start.toNat + values.length)⟩) := by
  obtain ⟨itemsSent, entrySent, startSent, -⟩ := writeBytes_fields entry start items
  simp only [runProfileWrite, entrySent, inTable, dif_pos e.isLt, Fin.eta, loading, itemsSent, startSent,
    Option.getD_some, passed, expand_items, Device.onEntry, Profile.writtenCount]
end

/-- Settles O55: the arguments are read where they are sent, and the refusal is that of the first check failed. -/
theorem profileWrite : Obligations.ProfileWrite := by
  unfold Obligations.ProfileWrite
  refine fun tag q d rest => ⟨fun args noWrite asked => ?_, ?_⟩
  · have misfit : ¬ writeFits args = true := fun fit => by
      obtain ⟨entry, start, items, sent⟩ := writeBytes_of_writeFits args fit
      exact noWrite entry start items sent
    exact exec_misfit asked exec_profileWrite rfl misfit q
  intro entry start items asked values
  obtain ⟨-, -, -, fits⟩ := writeBytes_fields entry start items
  have reply {after : Device} {r : Reply}
      (ran : runProfileWrite (writeBytes entry start items) { d with commands := rest } = (after, r)) :
      exec .profileWrite ⟨q, d⟩ = .next ⟨q, after.answer tag 12 r⟩ :=
    exec_fittingReply asked exec_profileWrite rfl fits ran q
  refine ⟨fun bad => reply (runProfileWrite_badEntry bad), fun e inTable =>
    ⟨fun other => reply (runProfileWrite_notLoading inTable other), fun p loading =>
      ⟨?_, fun counts past => ?_, fun counts fit => ⟨?_, fun inPlace => ?_⟩⟩⟩⟩
  · rintro before item after rfl counts bad
    exact reply (runProfileWrite_refused inTable loading (writeRefusal_badCount counts bad _ _))
  · exact reply (runProfileWrite_refused inTable loading (writeRefusal_pastEnd counts past))
  · rintro before item after j v rfl first placed value itemPlaced misplaced
    have fault := valueFault_first before item after start.toNat j v placed value itemPlaced misplaced
    have refused := writeRefusal_inArray counts fit
    rw [fault] at refused
    exact reply (runProfileWrite_refused inTable loading refused)
  · have passed := writeRefusal_inArray counts fit
    rw [valueFault_inPlace items start.toNat inPlace] at passed
    exact ⟨writeWords p.words start.toNat values, length_writeWords fit,
      fun k above below => getElem?_writeWords_covered fit above below, fun k other => getElem?_writeWords_other fit other,
      reply (runProfileWrite_ok inTable loading passed)⟩

/-! ## Lookups and reports of an entry (R97, R98) -/

theorem lookupEntry_eq_some {profiles : Vector Entry 8} {i : Identity} {f : Fin 8} {p : Profile} {n : Nat}
    (ready : profiles[f] = .ready p n) (identity : p.identity = i)
    (only : ∀ (g : Fin 8) p n, profiles[g] = .ready p n → p.identity = i → g = f) : lookupEntry profiles i = some f := by
  cases found : lookupEntry profiles i with
  | none => exact absurd identity (lookupEntry_none found f p n ready)
  | some g =>
    obtain ⟨p', n', readyG, identityG⟩ := lookupEntry_some found
    rw [only g p' n' readyG identityG]

theorem lookupEntry_eq_none {profiles : Vector Entry 8} {i : Identity}
    (absent : ∀ (g : Fin 8) p n, profiles[g] = .ready p n → p.identity ≠ i) : lookupEntry profiles i = none := by
  cases found : lookupEntry profiles i with
  | none => rfl
  | some g =>
    obtain ⟨p, n, ready, identity⟩ := lookupEntry_some found
    exact absurd identity (absent g p n ready)

/-- A complete profile has no unwritten word. -/
theorem Profile.Complete.findIdx?_unwritten {p : Profile} (complete : p.Complete) :
    p.words.findIdx? (fun w => !w.written) = none := by
  rw [List.findIdx?_eq_none_iff]
  intro w member
  rw [complete w member]
  rfl

/-- The first unwritten word stands after the written words before it (R93). -/
theorem findIdx?_unwritten_append {before after : List CoefWord} {w : CoefWord} (written : ∀ x ∈ before, x.written = true)
    (unwritten : w.written = false) :
    (before ++ w :: after).findIdx? (fun w => !w.written) = some before.length := by
  have noneBefore : before.findIdx? (fun w => !w.written) = none := by
    rw [List.findIdx?_eq_none_iff]
    intro x member
    rw [written x member]
    rfl
  simp [List.findIdx?_append, noneBefore, List.findIdx?_cons, unwritten]

/-- A converter code as a byte (R178). -/
theorem converter_byte (c : BitVec 2) : BitVec.ofNat 8 c.toNat = (0#6 ++ c : BitVec 8) := by
  simp [BitVec.ofNat_toNat, BitVec.setWidth_eq_append]

theorem beBytes_one (n : Nat) : beBytes 1 n = [BitVec.ofNat 8 n] := by
  rw [beBytes, Nat.pow_zero, Nat.div_one, beBytes]

theorem queryBytes_of_profile {x : Entry} {p : Profile} (contents : x.profile? = some p) : x.queryBytes =
    [x.code] ++ beBytes 4 p.identity.lensId.toNat ++ [(0#6 ++ p.identity.converter : BitVec 8)]
      ++ [BitVec.ofNat 8 p.focal.length, BitVec.ofNat 8 p.focus.length, BitVec.ofNat 8 p.reachUp,
        BitVec.ofNat 8 p.reachDown]
      ++ beBytes 2 p.words.length ++ beBytes 2 (p.words.countP CoefWord.written) ++ [BitVec.ofNat 8 x.holdCount] := by
  simp only [Entry.queryBytes, contents, converter_byte, beBytes_one, Profile.writtenCount, List.append_assoc,
    List.cons_append, List.nil_append]

/-! ## PROFILE_CLOSE, PROFILE_RETIRE and PROFILE_QUERY (R93, R95, R97) -/

theorem fieldAt_only (b : Byte) : fieldAt [b] 0 1 = b.toNat :=
  fieldAt_byte [] [] b 0 rfl

section
variable {entry : Byte} {d : Device} {e : Fin 8} {p : Profile}

theorem runProfileClose_badEntry (bad : 8 ≤ entry.toNat) : runProfileClose [entry] d = (d, ⟨.badArg, [1]⟩) := by
  simp only [runProfileClose, fieldAt_only, dif_neg (Nat.not_lt.mpr bad), badArg, refuse]

theorem runProfileClose_notLoading (inTable : entry.toNat = e) (other : ∀ p, d.profiles[e] ≠ .loading p) :
    runProfileClose [entry] d = (d, ⟨.state, [(d.profiles[e]).code]⟩) := by
  cases state : d.profiles[e] with
  | loading p => exact absurd state (other p)
  | _ => simp only [runProfileClose, fieldAt_only, inTable, dif_pos e.isLt, Fin.eta, state, refuse]

theorem runProfileClose_incomplete {i : Nat} (inTable : entry.toNat = e) (loading : d.profiles[e] = .loading p)
    (unwritten : p.words.findIdx? (fun w => !w.written) = some i) : runProfileClose [entry] d =
      (d, ⟨.incomplete, beBytes 2 i ++ beBytes 2 (p.words.countP CoefWord.written)⟩) := by
  simp only [runProfileClose, fieldAt_only, inTable, dif_pos e.isLt, Fin.eta, loading, unwritten, refuse,
    Profile.writtenCount]

theorem runProfileClose_duplicate {f : Fin 8} (inTable : entry.toNat = e) (loading : d.profiles[e] = .loading p)
    (complete : p.Complete) (found : lookupEntry d.profiles p.identity = some f) :
    runProfileClose [entry] d = (d, ⟨.duplicate, [BitVec.ofNat 8 f]⟩) := by
  simp only [runProfileClose, fieldAt_only, inTable, dif_pos e.isLt, Fin.eta, loading, complete.findIdx?_unwritten,
    found, refuse]

theorem runProfileClose_ok (inTable : entry.toNat = e) (loading : d.profiles[e] = .loading p) (complete : p.Complete)
    (absent : lookupEntry d.profiles p.identity = none) : runProfileClose [entry] d =
      ({ d with profiles := d.profiles.set e (.ready p 0) }, ⟨.ok, [entry]⟩) := by
  have number : BitVec.ofNat 8 e = entry := by rw [← inTable, BitVec.ofNat_toNat, BitVec.setWidth_eq]
  simp only [runProfileClose, fieldAt_only, inTable, dif_pos e.isLt, Fin.eta, loading, complete.findIdx?_unwritten,
    absent, Device.onEntry, number]

theorem runProfileRetire_badEntry (bad : 8 ≤ entry.toNat) : runProfileRetire [entry] d = (d, ⟨.badArg, [1]⟩) := by
  simp only [runProfileRetire, fieldAt_only, dif_neg (Nat.not_lt.mpr bad), badArg, refuse]

theorem runProfileRetire_ok {after : Entry} (inTable : entry.toNat = e) (retired : (d.profiles[e]).retire = after) :
    runProfileRetire [entry] d = ({ d with profiles := d.profiles.set e after },
      ⟨.ok, [after.code, BitVec.ofNat 8 after.holdCount]⟩) := by
  simp only [runProfileRetire, fieldAt_only, inTable, dif_pos e.isLt, Fin.eta, Device.onEntry, retired]

theorem runProfileQuery_badEntry (bad : 8 ≤ entry.toNat) : runProfileQuery [entry] d = (d, ⟨.badArg, [1]⟩) := by
  simp only [runProfileQuery, fieldAt_only, dif_neg (Nat.not_lt.mpr bad), badArg, refuse]

theorem runProfileQuery_ok {results : List Byte} (inTable : entry.toNat = e)
    (reported : (d.profiles[e]).queryBytes = results) : runProfileQuery [entry] d = (d, ⟨.ok, results⟩) := by
  simp only [runProfileQuery, fieldAt_only, inTable, dif_pos e.isLt, Fin.eta, reported]
end

/-- Settles O56: the answers of the three commands, by the state the entry holds. -/
theorem profileCloseRetireQuery : Obligations.ProfileCloseRetireQuery := by
  unfold Obligations.ProfileCloseRetireQuery
  refine ⟨fun p n => ⟨rfl, rfl⟩, fun tag entry q d rest => ⟨fun asked => ?_, fun asked => ?_, fun asked => ?_⟩⟩
  · have reply {after : Device} {r : Reply}
        (ran : runProfileClose [entry] { d with commands := rest } = (after, r)) :
        exec .profileClose ⟨q, d⟩ = .next ⟨q, after.answer tag 13 r⟩ :=
      exec_reply asked exec_profileClose rfl rfl ran q
    refine ⟨fun bad => reply (runProfileClose_badEntry bad), fun e inTable =>
      ⟨fun other => reply (runProfileClose_notLoading inTable other), fun p loading => ⟨?_, ?_, ?_⟩⟩⟩
    · intro before w after words written unwritten
      have lowest := findIdx?_unwritten_append (after := after) written unwritten
      rw [← words] at lowest
      exact reply (runProfileClose_incomplete inTable loading lowest)
    · intro f p' n complete ready identity only
      have found := lookupEntry_eq_some ready identity only
      exact reply (runProfileClose_duplicate inTable loading complete found)
    · intro complete absent
      exact reply (runProfileClose_ok inTable loading complete (lookupEntry_eq_none absent))
  · have reply {after : Device} {r : Reply}
        (ran : runProfileRetire [entry] { d with commands := rest } = (after, r)) :
        exec .profileRetire ⟨q, d⟩ = .next ⟨q, after.answer tag 14 r⟩ :=
      exec_reply asked exec_profileRetire rfl rfl ran q
    refine ⟨fun bad => reply (runProfileRetire_badEntry bad), fun e inTable => ?_⟩
    obtain ⟨emptied, kept⟩ := Entry.retire_cases d.profiles[e]
    exact ⟨fun unbound => reply (runProfileRetire_ok inTable (emptied unbound)),
      fun p n bound => reply (runProfileRetire_ok inTable (kept p n bound))⟩
  · have reply {after : Device} {r : Reply}
        (ran : runProfileQuery [entry] { d with commands := rest } = (after, r)) :
        exec .profileQuery ⟨q, d⟩ = .next ⟨q, after.answer tag 15 r⟩ :=
      exec_reply asked exec_profileQuery rfl rfl ran q
    refine ⟨fun bad => reply (runProfileQuery_badEntry bad), fun e inTable => ⟨fun free => ?_, fun p contents => ?_⟩⟩
    · have reported : (d.profiles[e]).queryBytes = List.replicate 15 0 := by rw [free]; rfl
      exact reply (runProfileQuery_ok inTable reported)
    · exact reply (runProfileQuery_ok inTable (queryBytes_of_profile contents))

end Sys2Proof.Machine

/-! # Proofs: lens state and coefficient interpolation (chapter 6)

The two notes that bound a centre row are read off a list in row order; the band set's seven coefficients are one map over
their places, so that each fact about a coefficient is proved for all places at once. -/

namespace Sys2Proof.Machine

/-! ## The band of a line (R104 to R106, R110, R111) -/

/-- A context whose band has just been fixed at line `y`, with this band set and this answer to whether a clamp acted
(R106). -/
def FrameContext.withBand (c : FrameContext) (y : Nat) (set : BandSet) (clamped : Bool) : FrameContext :=
  let lens := bandLens c.notes (centreRow c.geometry (bandOf c.geometry y))
  { c with
    band := some ⟨bandOf c.geometry y, lens, set⟩
    firstBand := if bandOf c.geometry y = 0 then lens else c.firstBand
    lastBand := lens
    flags := { c.flags with range := c.flags.range || clamped } }

section
variable {c : FrameContext} {profiles : Vector Entry 8}

theorem atLine_firstOfBand (first : c.nextLine % c.geometry.bandHeight = 0) :
    c.atLine profiles = c.fixBand profiles c.nextLine := if_pos first

theorem atLine_withinBand (within : c.nextLine % c.geometry.bandHeight ≠ 0) : c.atLine profiles = c := if_neg within

theorem boundProfile_unbound (unbound : c.entry = none) : boundProfile profiles c = none := by
  rw [boundProfile, unbound, Option.bind_none]

theorem boundProfile_bound {e : Fin 8} (bound : c.entry = some e) : boundProfile profiles c = profiles[e].profile? := by
  rw [boundProfile, bound, Option.bind_some]

/-- With a bound profile and a lens state, the fix takes the profile's set at the lens state (R106, R111). -/
theorem fixBand_mapped {y : Nat} {p : Profile} {l : LensState} (bound : boundProfile profiles c = some p)
    (state : bandLens c.notes (centreRow c.geometry (bandOf c.geometry y)) = some l) :
    c.fixBand profiles y = c.withBand y (p.bandSet l) (p.clamps l) := by
  simp only [FrameContext.fixBand, FrameContext.withBand, bound, state, FrameContext.setRange]

/-- Without a bound profile or without a lens state, the fix takes the identity set (R110). -/
theorem fixBand_identity {y : Nat} (missing : boundProfile profiles c = none ∨
      bandLens c.notes (centreRow c.geometry (bandOf c.geometry y)) = none) :
    c.fixBand profiles y = c.withBand y .identity false := by
  rcases missing with unbound | noState
  · simp only [FrameContext.fixBand, FrameContext.withBand, unbound, FrameContext.setRange]
  · cases bound : boundProfile profiles c <;>
      simp only [FrameContext.fixBand, FrameContext.withBand, noState, bound, FrameContext.setRange]
end

/-- Settles O35: the line begins a band or it does not; at the fix, a profile and a lens state are both there or one is
missing. -/
theorem bandFixed : Obligations.BandFixed := by
  unfold Obligations.BandFixed
  refine fun c profiles => ⟨atLine_withinBand, fun first => ?_⟩
  intro b lens
  rw [atLine_firstOfBand first]
  cases bound : boundProfile profiles c with
  | none =>
    refine ⟨.identity, false, fixBand_identity (.inl bound), fun e p l entry contents _ => ?_, fun _ => ⟨rfl, rfl⟩⟩
    rw [boundProfile_bound entry, contents] at bound
    cases bound
  | some p =>
    cases state : lens with
    | none =>
      exact ⟨.identity, false, state ▸ fixBand_identity (.inr state), fun _ _ _ _ _ someState => (nomatch someState),
        fun _ => ⟨rfl, rfl⟩⟩
    | some l =>
      refine ⟨p.bandSet l, p.clamps l, state ▸ fixBand_mapped bound state, fun e p' l' entry contents same => ?_,
        fun missing => ?_⟩
      · rw [boundProfile_bound entry, contents] at bound
        cases bound
        cases same
        exact ⟨rfl, rfl⟩
      · rcases missing with unbound | noState
        · rw [boundProfile_unbound unbound] at bound
          cases bound
        · cases noState

/-! ## The band lens state (R107 to R109) -/

section
variable {notes before after : List Note} {n lo hi : Note} {centre : Nat}

theorem row_le_of_mem_upTo (ordered : (before ++ lo :: after).Pairwise fun a b => a.record.row < b.record.row)
    (member : n ∈ before ++ [lo]) : n.record.row ≤ lo.record.row := by
  obtain ⟨_, _, increasing⟩ := List.pairwise_append.mp ordered
  rcases List.mem_append.mp member with earlier | last
  · exact Nat.le_of_lt (increasing n earlier lo List.mem_cons_self)
  · exact Nat.le_of_eq (congrArg (·.record.row) (List.mem_singleton.mp last))

theorem le_row_of_mem_from (ordered : (before ++ hi :: after).Pairwise fun a b => a.record.row < b.record.row)
    (member : n ∈ hi :: after) : hi.record.row ≤ n.record.row := by
  obtain ⟨_, tailOrdered, _⟩ := List.pairwise_append.mp ordered
  rcases List.mem_cons.mp member with rfl | later
  · exact Nat.le_refl _
  · exact Nat.le_of_lt (List.rel_of_pairwise_cons tailOrdered later)

/-- In row order, the lower note is the last one not beyond the centre row (R107). -/
theorem lowerNote_ordered (ordered : (before ++ lo :: after).Pairwise fun a b => a.record.row < b.record.row)
    (reached : lo.record.row ≤ centre) (beyond : ∀ n ∈ after, centre < n.record.row) :
    lowerNote (before ++ lo :: after) centre = some lo := by
  rw [List.append_cons, lowerNote_append _ _ _ (fun _ member => Nat.le_trans (row_le_of_mem_upTo ordered member)
    reached) beyond, List.getLast?_concat]

/-- In row order, the upper note is the first one not before the centre row (R107). -/
theorem upperNote_ordered (ordered : (before ++ hi :: after).Pairwise fun a b => a.record.row < b.record.row)
    (reached : centre ≤ hi.record.row) (short : ∀ n ∈ before, n.record.row < centre) :
    upperNote (before ++ hi :: after) centre = some hi := by
  rw [upperNote_append _ _ _ short fun _ member => Nat.le_trans reached (le_row_of_mem_from ordered member),
    List.head?_cons]

theorem lowerNote_none (beyond : ∀ n ∈ notes, centre < n.record.row) : lowerNote notes centre = none :=
  lowerNote_append [] notes centre (fun _ member => nomatch member) beyond

theorem upperNote_none (short : ∀ n ∈ notes, n.record.row < centre) : upperNote notes centre = none := by
  have := upperNote_append notes [] centre short (fun _ member => nomatch member)
  rwa [List.append_nil] at this

theorem bandLens_onNote (lower : lowerNote notes centre = some n) (upper : upperNote notes centre = some n) :
    bandLens notes centre = some n.lensState := by
  simp only [bandLens, lower, upper, if_true]

theorem bandLens_lowerOnly (lower : lowerNote notes centre = some n) (upper : upperNote notes centre = none) :
    bandLens notes centre = some n.lensState := by
  simp only [bandLens, lower, upper]

theorem bandLens_upperOnly (lower : lowerNote notes centre = none) (upper : upperNote notes centre = some n) :
    bandLens notes centre = some n.lensState := by
  simp only [bandLens, lower, upper]

theorem bandLens_between (lower : lowerNote notes centre = some lo) (upper : upperNote notes centre = some hi)
    (apart : lo.record.row ≠ hi.record.row) :
    bandLens notes centre = some
      ⟨interpolate lo.record.focal hi.record.focal lo.record.row hi.record.row centre,
        interpolate lo.record.focus hi.record.focus lo.record.row hi.record.row centre, lo.inherited && hi.inherited⟩ := by
  simp only [bandLens, lower, upper, if_neg apart]
end

/-- A value interpolated strictly between two rows stands over the lower one by the rounded share of the difference
(R108). -/
theorem interpolate_rounded (lo hi : Nat) {rowLo rowHi row : Nat} (above : rowLo < row) (below : row < rowHi) :
    RoundedUp (((hi : Int) - lo) * (row - rowLo)) (rowHi - rowLo) (interpolate lo hi rowLo rowHi row - lo) := by
  rw [interpolate_between lo hi rowLo rowHi row above below]
  exact roundHalfUp_spec _ _ (by omega)

/-- Settles O36: each case names the lower and the upper note of the centre row. -/
theorem bandLens_ordered : Obligations.BandLens := by
  unfold Obligations.BandLens
  refine fun before after lo hi centre => ⟨rfl, fun ordered atRow => ?_, fun ordered above below => ?_,
    fun ordered below => ?_, fun ordered above => ?_⟩
  · subst atRow
    obtain ⟨_, tailOrdered, increasing⟩ := List.pairwise_append.mp ordered
    exact bandLens_onNote
      (lowerNote_ordered ordered (Nat.le_refl _) fun _ => List.rel_of_pairwise_cons tailOrdered)
      (upperNote_ordered ordered (Nat.le_refl _) fun n earlier => increasing n earlier lo List.mem_cons_self)
  · have ordered' := List.append_cons before lo (hi :: after) ▸ ordered
    have lower : lowerNote (before ++ lo :: hi :: after) centre = some lo :=
      lowerNote_ordered ordered (Nat.le_of_lt above) fun _ member =>
        Nat.lt_of_lt_of_le below (le_row_of_mem_from ordered' member)
    have upper : upperNote (before ++ lo :: hi :: after) centre = some hi := by
      rw [List.append_cons]
      exact upperNote_ordered ordered' (Nat.le_of_lt below) fun _ member =>
        Nat.lt_of_le_of_lt (row_le_of_mem_upTo ordered member) above
    exact ⟨_, _, bandLens_between lower upper (Nat.ne_of_lt (Nat.lt_trans above below)), interpolate_rounded _ _ above below,
      interpolate_rounded _ _ above below⟩
  · exact bandLens_upperOnly
      (lowerNote_none fun _ member => Nat.lt_of_lt_of_le below (le_row_of_mem_from (before := []) ordered member))
      (upperNote_ordered (before := []) ordered (Nat.le_of_lt below) fun _ member => nomatch member)
  · exact bandLens_lowerOnly
      (lowerNote_ordered ordered (Nat.le_of_lt above) fun _ member => nomatch member)
      (upperNote_none fun _ member => Nat.lt_of_le_of_lt (row_le_of_mem_upTo ordered member) above)

/-! ## Band sets (R83, R110 to R114) -/

/-- The corners read for a lens state, with their weights (R111 to R113). -/
def Profile.cornersOf (p : Profile) (l : LensState) : List (Nat × Nat × Nat) :=
  corners (stationWeight p.focal (clampToStations p.focal l.focal))
    (stationWeight p.focus (clampToStations p.focus l.focus))

/-- The coefficients of a band set are one expression in their place (R110, R114). -/
theorem bandSet_places (p : Profile) (l : LensState) :
    (p.bandSet l).places = (List.range 7).map (p.coefficient (p.cornersOf l)) := rfl

theorem bandSet_place {p : Profile} {l : LensState} {place : Nat} {coefficient : Int}
    (placed : (p.bandSet l).places[place]? = some coefficient) :
    coefficient = p.coefficient (p.cornersOf l) place := by
  rw [bandSet_places, List.getElem?_map, Option.map_eq_some_iff] at placed
  obtain ⟨i, index, rfl⟩ := placed
  obtain ⟨_, rfl⟩ := List.getElem?_eq_some_iff.mp index
  rw [List.getElem_range]

/-- A single corner of full weight gives its word as it is. -/
theorem coefficient_fullWeight (p : Profile) (i j place : Nat) :
    p.coefficient [(i, j, 65536)] place = p.word i j place := by
  simp only [Profile.coefficient, List.map_cons, List.map_nil, List.sum_cons, List.sum_nil, Int.add_zero]
  exact roundHalfUp_exact _

section
variable {p : Profile} (ok : p.Ok) (l : LensState)
include ok

theorem clamps_iff : p.clamps l = true ↔
    (2 ≤ p.focal.length ∧ (l.focal < p.focal.headD 0 ∨ p.focal.getLastD 0 < l.focal)) ∨
    (2 ≤ p.focus.length ∧ (l.focus < p.focus.headD 0 ∨ p.focus.getLastD 0 < l.focus)) := by
  rw [Profile.clamps, Bool.or_eq_true, clampToStations_ne _ _ ok.focalOrder, clampToStations_ne _ _ ok.focusOrder]

/-- At a pair of stations the band set is the profile's own set there (R112, R113). -/
theorem bandSet_atStations {i j : Nat} (focal : p.focal[i]? = some l.focal) (focus : p.focus[j]? = some l.focus) :
    (p.bandSet l).places = (List.range 7).map (p.word i j) := by
  obtain ⟨focalKept, focalWeight⟩ := clampToStations_station _ ok.focalOrder i _ focal
  obtain ⟨focusKept, focusWeight⟩ := clampToStations_station _ ok.focusOrder j _ focus
  have corner : p.cornersOf l = [(i, j, 65536)] := by
    rw [Profile.cornersOf, focalKept, focalWeight, focusKept, focusWeight, corners_exact]
  rw [bandSet_places, corner]
  exact List.map_congr_left fun place _ => coefficient_fullWeight p i j place

/-- The first three places hold distortion coefficients (R83). -/
theorem coefficient_distortion_range {place : Nat} (low : place < 3) :
    -131071 ≤ p.coefficient (p.cornersOf l) place ∧ p.coefficient (p.cornersOf l) place ≤ 131071 :=
  coefficient_range p l ok place 131071 fun c r => (ok.word_range p c r place (by omega)).1 low

/-- The last four places hold colour coefficients (R83). -/
theorem coefficient_colour_range {place : Nat} (high : 3 ≤ place) (last : place < 7) :
    -32767 ≤ p.coefficient (p.cornersOf l) place ∧ p.coefficient (p.cornersOf l) place ≤ 32767 :=
  coefficient_range p l ok place 32767 fun c r => (ok.word_range p c r place last).2 high
end

/-- Settles O37: clamps, cells and corner sums are those of the station lists; the ranges hold place by place. -/
theorem bandSets : Obligations.BandSets := by
  unfold Obligations.BandSets
  intro p ok word
  refine ⟨clamps_iff ok, fun l => ?_, fun l _ _ focal focus => bandSet_atStations ok l focal focus,
    fun l => ⟨?_, ?_⟩⟩
  · obtain ⟨focalCell, focalWeight⟩ := stationWeight_cell p.focal l.focal ok.focalOrder ok.focalCount.1
    obtain ⟨focusCell, focusWeight⟩ := stationWeight_cell p.focus l.focus ok.focusOrder ok.focusCount.1
    refine ⟨_, _, _, _, focalCell, focalWeight, focusCell, focusWeight, fun place coefficient placed => ?_⟩
    rw [bandSet_place placed]
    exact coefficient_rounded p _ _ focalWeight focusWeight place
  · change ∀ k ∈ [0, 1, 2].map (p.coefficient (p.cornersOf l)), _
    rw [List.forall_mem_map]
    intro place listed
    simp only [List.mem_cons, List.not_mem_nil, or_false] at listed
    exact coefficient_distortion_range ok l (by omega)
  · change ∀ k ∈ [3, 4, 5, 6].map (p.coefficient (p.cornersOf l)), _
    rw [List.forall_mem_map]
    intro place listed
    simp only [List.mem_cons, List.not_mem_nil, or_false] at listed
    exact coefficient_colour_range ok l (by omega) (by omega)

end Sys2Proof.Machine

/-! # Proofs: the remap engine (chapter 7)

The engine's condition is read off its two tests; a line's marks off the list of its sites; and the identity mapping off
the one neighbour that takes part in a site which is its own source.  What a produced line leaves is `lineDone` of
Sys2Proof/Laws. -/

namespace Sys2Proof.Machine

/-! ## The engine's condition (R117 to R119) -/

theorem engine_noFrame {d : Device} (empty : d.frames = []) : d.engine = .noFrame := by
  rw [Device.engine, empty]

/-- With a head frame the engine is READY exactly when both tests hold (R117). -/
theorem engine_ready_iff {d : Device} {c : FrameContext} {rest : List FrameContext} (frames : d.frames = c :: rest) :
    d.engine = .ready ↔ c.inputTest = true ∧ d.portTest c = true := by
  simp only [Device.engine, frames]
  cases c.inputTest <;> cases d.portTest c <;> simp

/-- The input test asks a frame still FILLING for its front at the line's bound (R118). -/
theorem inputTest_iff (c : FrameContext) : c.inputTest = true ↔ (c.input = .filling →
    ∃ f, c.front = some f ∧ min (c.nextLine + c.reachDown + 2) (c.geometry.height - 1) ≤ f) := by
  simp only [FrameContext.inputTest, FrameContext.isFilling, Bool.or_eq_true, Bool.not_eq_true', beq_eq_false_iff_ne,
    Option.any_eq_true, decide_eq_true_eq, ne_eq]
  exact Decidable.imp_iff_not_or.symm

/-- The port test asks a frame LIVE on port A for room there (R119). -/
theorem portTest_iff (d : Device) (c : FrameContext) : d.portTest c = true ↔
    ∀ crop, c.deliveryA = .live crop → rowsQueued d.portA.queue < 4 := by
  unfold Device.portTest
  cases c.deliveryA with
  | live crop => simp [Delivery.crop?, Config.portARows]
  | _ => simp [Delivery.crop?]

/-- Settles O32: in each of the three cases the engine is not READY. -/
theorem lineWaits : Obligations.LineWaits := by
  unfold Obligations.LineWaits
  refine fun q d => ⟨fun empty => ?_, fun c rest frames filling short => ?_, fun c rest crop frames live full => ?_⟩
  · exact exec_lineProduction_idle q d (by rw [engine_noFrame empty]; decide)
  · refine exec_lineProduction_idle q d fun ready => ?_
    obtain ⟨f, front, reached⟩ := (inputTest_iff c).mp ((engine_ready_iff frames).mp ready).1 filling
    exact Nat.not_le_of_lt (short f front) reached
  · refine exec_lineProduction_idle q d fun ready => ?_
    have room := (portTest_iff d c).mp ((engine_ready_iff frames).mp ready).2 crop live
    exact Nat.not_le_of_lt room full

/-! ## The production of a line (R121, R125 to R127, R163) -/

/-- A production of a line that is not the last ends with the advance (R121). -/
theorem produceLine_notLast {d : Device} {c : FrameContext} {rest : List FrameContext} (frames : d.frames = c :: rest)
    (ready : EngineReady d c) (more : c.nextLine + 1 ≠ c.geometry.height) : d.produceLine = d.lineOnHead c rest := by
  unfold Device.produceLine
  rw [if_pos (engine_ready frames ready), frames]
  exact if_neg more

/-- Settles O33: the production is the line on the head frame, without a close. -/
theorem lineProduced : Obligations.LineProduced := by
  unfold Obligations.LineProduced
  intro c rest q d frames ready more
  refine ⟨_, d.lineOnHead c rest, ?_, lineDone d c rest⟩
  rw [exec_lineProduction_running _ _ ready.running, produceLine_notLast frames ready more]

/-! ## The values and the marks of a line (R123, R125, R136, R144) -/

theorem bandSet_of_band {c : FrameContext} {b : Band} (current : c.band = some b) : c.bandSet = b.set := by
  rw [FrameContext.bandSet, current, Option.elim_some]

/-- A line carries a mark where one of its sites does (R125). -/
theorem any_site_iff (width : Nat) (siteAt : Nat → SiteResult) (mark : SiteResult → Bool) :
    ((List.range width).map siteAt).any mark = true ↔ ∃ x, x < width ∧ mark (siteAt x) = true := by
  simp only [List.any_map, List.any_eq_true, List.mem_range, Function.comp_apply]

/-- A position code holds the displacement over 8192, limited to its 14 bits (R144). -/
theorem positionCode_toNat (displacement : Int) :
    ((positionCode displacement).toNat : Int) = max 0 (min 16383 (8192 + displacement)) := by
  have low : 0 ≤ limit 0 16383 (8192 + displacement) := by unfold limit; omega
  have high : limit 0 16383 (8192 + displacement) < (2 ^ 14 : Nat) := by unfold limit; omega
  rw [positionCode, BitVec.toNat_ofInt, Int.emod_eq_of_lt low high, Int.toNat_of_nonneg low, limit]

section
variable {c : FrameContext} (s : BandSet) (fetch : Nat → Fetched) (x y : Nat)

/-- In PASS and CORRECT a site is resampled at its source position (R136, R151). -/
theorem site_resampled (mode : c.mode = .pass ∨ c.mode = .correct) :
    (site c s fetch x y).value = (resampledSite c fetch x y (sourcePosition c s x y)).1 ∧
      (site c s fetch x y).substituted = (resampledSite c fetch x y (sourcePosition c s x y)).2 := by
  rcases mode with mode | mode <;> simp only [site, mode, and_self]

/-- In MAPX a site gives the code of its displacement along the columns (R136, R144). -/
theorem site_mapx (mode : c.mode = .mapx) :
    (site c s fetch x y).value = positionCode ((sourcePosition c s x y).sx - 64 * x) ∧
      (site c s fetch x y).substituted = false := by
  simp only [site, mode, and_self]

/-- In MAPY a site gives the code of its displacement along the rows (R136, R144). -/
theorem site_mapy (mode : c.mode = .mapy) :
    (site c s fetch x y).value = positionCode ((sourcePosition c s x y).sy - 64 * y) ∧
      (site c s fetch x y).substituted = false := by
  simp only [site, mode, and_self]
end

/-- Settles O38: a line is the list of its sites over the columns, and a site in MAPX or MAPY a position code. -/
theorem lineValues : Obligations.LineValues := by
  unfold Obligations.LineValues
  refine ⟨fun c b => bandSet_of_band, fun rows c y => ?_⟩
  intro at' line
  refine ⟨by simp [line, computeLine], fun x inLine => ?_, any_site_iff _ at' _, any_site_iff _ at' _,
    any_site_iff _ at' _, fun x mode => ?_, fun x mode => ?_⟩
  · simp [line, computeLine, inLine, at']
  · obtain ⟨value, unmarked⟩ := site_mapx c.bandSet (fetchRow rows c y) x y mode
    exact ⟨unmarked, by rw [value, positionCode_toNat]⟩
  · obtain ⟨value, unmarked⟩ := site_mapy c.bandSet (fetchRow rows c y) x y mode
    exact ⟨unmarked, by rw [value, positionCode_toNat]⟩

/-! ## The identity mapping (R124) -/

/-- At a lattice site the cell's first corner has all the weight and alone takes part (R146). -/
theorem neighbours_onLattice (i j : Int) : neighbours (i, 0) (j, 0) = [⟨1024, i, j⟩] := by
  simp [neighbours, List.filter_cons]

/-- A single neighbour of full weight gives its value as it is (R151). -/
theorem resample_fullWeight (v : Sample) : resample [(1024, v)] = v := by
  refine BitVec.eq_of_toNat_eq ?_
  rw [resample_toNat _ rfl]
  simp only [List.map_cons, List.map_nil, List.sum_cons, List.sum_nil]
  omega

/-- The lattice site of an image site lies inside the image, and its sample is the site's own (R147, R149). -/
theorem sample_ownSite {g : Geometry} (ok : g.Ok) {x y : Nat} (column : x < g.width) (row : y < g.height) (weight : Nat)
    (fetch : Nat → Fetched) :
    (⟨weight, (x / 2 : Nat), (y / 2 : Nat)⟩ : Neighbour).sample g (x % 2) (y % 2) fetch =
      ((fetch y).at x, (fetch y).isSubstituted) := by
  have ⟨_, _, evenWidth⟩ := ok.width
  have ⟨_, _, evenHeight⟩ := ok.height
  have inside : (⟨weight, (x / 2 : Nat), (y / 2 : Nat)⟩ : Neighbour).inside g = true := by
    simp only [Neighbour.inside, Bool.and_eq_true, decide_eq_true_eq]
    omega
  have ownColumn : (limit 0 ((g.width / 2 : Nat) - 1) (x / 2 : Nat)).toNat = x / 2 := by unfold limit; omega
  have ownRow : (limit 0 ((g.height / 2 : Nat) - 1) (y / 2 : Nat)).toNat = y / 2 := by unfold limit; omega
  simp only [Neighbour.sample, inside, Bool.true_or, if_true, ownColumn, ownRow, Nat.div_add_mod]

/-- A site whose source position is its own resamples to its own sample (R124). -/
theorem resampledSite_ownSource {c : FrameContext} (ok : c.geometry.Ok) {x y : Nat} (column : x < c.geometry.width)
    (row : y < c.geometry.height) (fetch : Nat → Fetched) (scaleClamped reachClamped : Bool) :
    resampledSite c fetch x y ⟨64 * x, 64 * y, scaleClamped, reachClamped⟩ =
      ((fetch y).at x, (fetch y).isSubstituted) := by
  simp only [resampledSite, latticeCell_identity, neighbours_onLattice, List.map_cons, List.map_nil,
    sample_ownSite ok column row, resample_fullWeight, List.any_cons, List.any_nil, Bool.or_false]

theorem positionCode_noDisplacement (position : Int) : positionCode (position - position) = 8192 := by
  rw [Int.sub_self]
  decide

/-- Settles O41: the source position is the site's own, and each mode reads it off. -/
theorem identityMapping : Obligations.IdentityMapping := by
  unfold Obligations.IdentityMapping
  intro c fetch x y ok column row up down s
  have source := sourcePosition_identity c x y up down
  refine ⟨congrArg SourcePosition.reachClamped source, congrArg SourcePosition.scaleClamped source, fun mode => ?_,
    fun mode => ?_⟩
  · have resampled := site_resampled ⟨0, 0, 0, 0, 0, 0, 0⟩ fetch x y mode
    rwa [source, resampledSite_ownSource ok column row] at resampled
  · rcases mode with mode | mode
    · obtain ⟨value, unmarked⟩ := site_mapx ⟨0, 0, 0, 0, 0, 0, 0⟩ fetch x y mode
      exact ⟨value.trans (by rw [source, positionCode_noDisplacement]), unmarked⟩
    · obtain ⟨value, unmarked⟩ := site_mapy ⟨0, 0, 0, 0, 0, 0, 0⟩ fetch x y mode
      exact ⟨value.trans (by rw [source, positionCode_noDisplacement]), unmarked⟩

end Sys2Proof.Machine

/-! # Proofs: sample arithmetic (chapter 8)

Each stage of a source position meets the rule for it, and a mark stands exactly where a limit acts; a resampled site is
read off its four neighbours. -/

namespace Sys2Proof.Machine

/-! ## Source positions (R134, R137 to R143) -/

/-- A limit acts on the values outside its range, and on no other. -/
theorem ne_limit_iff {lo hi : Int} (range : lo ≤ hi) (v : Int) : (v != limit lo hi v) = true ↔ v < lo ∨ hi < v := by
  rw [bne_iff_ne, limit]
  omega

/-- The colour terms are the set's red or blue ones, or 0 for a green (R139). -/
theorem colourTerms_cases (set : BandSet) (colour : Colour) :
    (colour = .r → (set.colourTerms colour).1 = set.redC0 ∧ (set.colourTerms colour).2 = set.redC1) ∧
    (colour = .b → (set.colourTerms colour).1 = set.blueC0 ∧ (set.colourTerms colour).2 = set.blueC1) ∧
    (colour = .gr ∨ colour = .gb → (set.colourTerms colour).1 = 0 ∧ (set.colourTerms colour).2 = 0) := by
  refine ⟨?red, ?blue, ?green⟩
  case red => rintro rfl; exact ⟨rfl, rfl⟩
  case blue => rintro rfl; exact ⟨rfl, rfl⟩
  case green => rintro (rfl | rfl) <;> exact ⟨rfl, rfl⟩

/-- A reference radius of at least 1 has a positive square in sixty-fourths (R28, R138). -/
theorem rref_sq_pos {rref : Nat} (atLeastOne : 1 ≤ rref) : 0 < (64 * (rref : Int)) ^ 2 :=
  Int.pow_pos (by omega)

theorem radiusTerm_nonneg {rref : Nat} (atLeastOne : 1 ≤ rref) (dx dy : Int) : 0 ≤ radiusTerm rref dx dy := by
  have squared : 0 ≤ 65536 * (dx * dx + dy * dy) := by
    have := mul_self_nonneg_int dx
    have := mul_self_nonneg_int dy
    omega
  have quotient := Int.ediv_nonneg squared (Int.le_of_lt (rref_sq_pos atLeastOne))
  rw [radiusTerm]
  omega

/-- The rounded product is what a source coordinate adds to the centre (R142). -/
theorem roundedAway_add_sub (centre n d : Int) (positive : 0 < d) :
    RoundedAway n d (centre + roundHalfAway n d - centre) := by
  have offset : centre + roundHalfAway n d - centre = roundHalfAway n d := by omega
  rw [offset]
  exact roundHalfAway_spec n d positive

/-- Settles O42: each stage of the source position meets its rule, and the reach is a range. -/
theorem sourcePositions : Obligations.SourcePositions := by
  unfold Obligations.SourcePositions
  intro c set x y rref g dx dy p
  obtain ⟨red, blue, green⟩ := colourTerms_cases set (colourAt g.phase (x % 2) (y % 2))
  have reach : 64 * ((y : Int) - c.reachUp) ≤ 64 * ((y : Int) + c.reachDown) := by omega
  exact ⟨_, _, _, _, radiusTerm g.rref dx dy, _, _, _,
    colourAt_origin g.phase x y, red, blue, green,
    ediv_floored _ _ (rref_sq_pos rref),
    radiusTerm_nonneg rref dx dy, rfl,
    flooredScale_floored set _ _ _,
    rfl, ne_limit_iff (by decide) _,
    roundedAway_add_sub _ _ _ (by decide), roundedAway_add_sub _ _ _ (by decide),
    rfl, ne_limit_iff reach _⟩

/-! ## Resampling (R145 to R151) -/

/-- A neighbour of weight 0 does not take part (R146). -/
theorem weight_ne_zero_of_mem_neighbours {u v : Int × Nat} {n : Neighbour} (mem : n ∈ neighbours u v) :
    n.weight ≠ 0 :=
  bne_iff_ne.mp (List.mem_filter.mp mem).2

/-- Settles O43: a site lies in the cell of its source position, and each lattice site of the cell gives what the edge
policy and the fetch give it. -/
theorem resampling : Obligations.Resampling := by
  unfold Obligations.Resampling
  refine ⟨latticeCell_on, fun u v hu hv => ⟨neighbours_sum u v hu hv, fun _ => weight_ne_zero_of_mem_neighbours⟩,
    resample_toNat, fun c set fetch x y mode => ?_⟩
  intro p s
  obtain ⟨value, substituted⟩ := site_resampled set fetch x y mode
  obtain ⟨mean, marked⟩ := resampledSite_reads c fetch x y p
  have gives (i j : Int) := Neighbour.sample_gives ⟨0, i, j⟩ c.geometry (x % 2) (y % 2) fetch
  refine ⟨_, _, _, _, _, _, _, _, latticeCell_on p.sx (x % 2), latticeCell_on p.sy (y % 2), ?_,
    (congrArg BitVec.toNat value).trans mean, substituted ▸ marked⟩
  simp only [List.forall_mem_cons]
  exact ⟨fun _ => gives _ _, fun _ => gives _ _, fun _ => gives _ _, fun _ => gives _ _, List.forall_mem_nil _⟩

end Sys2Proof.Machine

/-! # Proofs: the delivery ports (chapter 9)

Credit requests, flow symbols, the settings of a port, what the part sends and the starts of packets on its lanes, and the
laws of limits and links.  Each operation first has one equation per case; the theorems that settle the obligations are put
together from those. -/

namespace Sys2Proof.Machine

/-! ## The laws of limits and links (R16, R19, R20, R23, R152, R159, R167, R171, R173) -/

/-- Settles O60: every shared operation keeps the law of limits, and every one keeps the law of the links. -/
theorem boundsAndLinkLawsKept : Obligations.BoundsAndLinkLawsKept := by
  unfold Obligations.BoundsAndLinkLawsKept
  exact ⟨boundsLaw_kept.step, linkLaw_kept.step⟩

/-! ## Credit requests (R49, R154, R157) -/

section
variable (d : Device) (tag : BitVec 16) (group : Fin 8) (embedded : Option LensRecord)

theorem newContext_deliveryA : (d.newContext tag group embedded).deliveryA =
    if d.routes[group].a then d.portA.answerCredit d.geometry else .excluded :=
  rfl

theorem newContext_deliveryB : (d.newContext tag group embedded).deliveryB =
    if d.routes[group].b then d.portB.answerCredit d.geometry else .excluded :=
  rfl

theorem createContext_portA : (d.createContext tag group embedded).portA =
    d.portA.afterAnswer (d.newContext tag group embedded).deliveryA := by
  rw [createContext_parts]

theorem createContext_portB : (d.createContext tag group embedded).portB =
    d.portB.afterAnswer (d.newContext tag group embedded).deliveryB := by
  rw [createContext_parts]

/-- A skip is counted on the port that answers SKIPPED (R157). -/
theorem createContext_count_skipA : (d.createContext tag group embedded).count .skipA =
    if (d.newContext tag group embedded).deliveryA = .skipped then satAdd (d.count .skipA) 1 else d.count .skipA := by
  rw [createContext_count, count_bump, if_neg (by decide), count_bump, if_pos rfl, count_bump, if_neg (by decide),
    apply_ite (satAdd _), satAdd_zero]

theorem createContext_count_skipB : (d.createContext tag group embedded).count .skipB =
    if (d.newContext tag group embedded).deliveryB = .skipped then satAdd (d.count .skipB) 1 else d.count .skipB := by
  rw [createContext_count, count_bump, if_pos rfl, count_bump, if_neg (by decide), count_bump, if_neg (by decide),
    apply_ite (satAdd _), satAdd_zero]

theorem createContext_creditA :
    CreditGiven d.routes[group].a d.geometry d.portA (d.createContext tag group embedded).portA
      (d.newContext tag group embedded).deliveryA (d.count .skipA)
      ((d.createContext tag group embedded).count .skipA) := by
  rw [createContext_portA]
  exact answerCredit_given _ _ _ _ _ _ (newContext_deliveryA d tag group embedded)
    (createContext_count_skipA d tag group embedded)

theorem createContext_creditB :
    CreditGiven d.routes[group].b d.geometry d.portB (d.createContext tag group embedded).portB
      (d.newContext tag group embedded).deliveryB (d.count .skipB)
      ((d.createContext tag group embedded).count .skipB) := by
  rw [createContext_portB]
  exact answerCredit_given _ _ _ _ _ _ (newContext_deliveryB d tag group embedded)
    (createContext_count_skipB d tag group embedded)

end

/-- Settles O22: each port answers the request made to it, and spends the credit or counts the skip. -/
theorem creditRequests : Obligations.CreditRequests := by
  unfold Obligations.CreditRequests
  intro node spare tag group ignored note q d valid receiving noRequest noFrame room
  exact ⟨_, _, exec_frameHead_create valid receiving noRequest noFrame room, createContext_frames _ _ _ _,
    createContext_creditA _ _ _ _, createContext_creditB _ _ _ _⟩

/-! ## What the part sends (R12, R13, R14, R62, R165) -/

theorem itemPackets (node : BitVec 3) : ItemPackets node where
  unboundHead _ _ _ _ _ := rfl
  boundHead _ _ _ _ _ _ := rfl
  row _ _ _ := rfl
  report _ r := by rw [← r.payload_eq]; rfl
  cutMarker _ _ := rfl
  restartMarker := rfl

theorem sentLens_length (lens : Option LensState) : (sentLens lens).length = 4 := by
  cases lens <;> rfl

/-- A frame report has the 31 bytes of R165's table. -/
theorem sentReport_length (r : Report) : (sentReport r).length = 31 := by
  have first := sentLens_length r.firstBand
  have last := sentLens_length r.lastBand
  cases entry : r.entry <;> cases identity : r.identity <;>
    simp [sentReport, entry, identity, first, last, beBytes_length]

theorem itemContents (c : FrameContext) : ItemContents c where
  boundHead crop e bound := by rw [headItem, bound]; rfl
  unboundHead crop unbound := by rw [headItem, unbound]; rfl
  deliveries := ⟨rfl, rfl⟩
  rows crop y := by rw [Crop.hasRow, Bool.and_eq_true, decide_eq_true_eq, decide_eq_true_eq]
  row _ _ _ := rfl
  report := rfl

theorem frontPackets (d : Device) : FrontPackets d where
  answer a rest queue := by rw [Device.frontPacket, queue]; rfl
  noAnswer queue := by rw [Device.frontPacket, queue]; rfl
  passThrough p rest queue := by rw [Device.frontPacket, queue]; rfl
  noPassThrough queue := by rw [Device.frontPacket, queue]; rfl
  frame i rest queue := by rw [Device.frontPacket, queue]; rfl
  noFrame queue := by rw [Device.frontPacket, queue]; rfl

/-- While RST is not held a sending lane carries what its link and the packet begun on it give (R2, R20). -/
theorem laneCarries_laneOutput {d : Device} (running : d.resetHeld = false) (p : LinkPort) :
    LaneCarries (d.link p) (d.sending p) (d.laneOutput p) := by
  unfold Device.laneOutput
  rw [running]
  refine ⟨fun down => ?_, fun aligning => ?_, fun up begun => ?_, fun bytes up begun => ?_⟩
  · rw [down]; rfl
  · rw [aligning]; rfl
  · rw [up, begun]; rfl
  · rw [up, begun]; rfl

/-! ## The starts of packets (R19, R161, R162) -/

/-- A delivery port's lane can begin a packet: it is free, the link is UP and the port is released (R161). -/
theorem laneReady_iff {α : Type} (lane : Option α) (port : Port) :
    (lane.isNone && port.link == .up && !port.held) = true ↔ lane = none ∧ port.link = .up ∧ port.held = false := by
  simp [and_assoc]

/-- The first source in rotation that is not empty is the arbiter's choice (R162). -/
theorem nextSource_first {d : Device} {pre post : List Source} {s : Source} {p : Packet}
    (order : rotation d.lastSource = pre ++ s :: post) (empty : ∀ t ∈ pre, d.frontPacket t = none)
    (front : d.frontPacket s = some p) : d.nextSource = some s := by
  unfold Device.nextSource
  rw [order, List.find?_eq_some_iff_append]
  exact ⟨by rw [front]; rfl, pre, post, rfl, fun t mem => by rw [empty t mem]; rfl⟩

theorem nextSource_none {d : Device} (answers : d.answers = []) (passThrough : d.passThrough = [])
    (queue : d.portA.queue = []) : d.nextSource = none := by
  have front := frontPackets d
  unfold Device.nextSource
  rw [List.find?_eq_none]
  intro s _
  cases s with
  | answer => rw [front.noAnswer answers]; exact Bool.false_ne_true
  | passThrough => rw [front.noPassThrough passThrough]; exact Bool.false_ne_true
  | frame => rw [front.noFrame queue]; exact Bool.false_ne_true

theorem arbiterChoice_begins {d : Device} {s : Source} {p : Packet} (free : d.laneA = none) (up : d.portA.link = .up)
    (released : d.portA.held = false) (chosen : d.nextSource = some s) (front : d.frontPacket s = some p) :
    d.arbiterChoice = { d with lastSource := s, laneA := some ⟨s, p.bytes⟩ } := by
  unfold Device.arbiterChoice
  rw [if_pos ((laneReady_iff _ _).mpr ⟨free, up, released⟩), chosen]
  dsimp only
  rw [front]
  rfl

theorem arbiterChoice_waits {d : Device} (blocked : d.laneA ≠ none ∨ d.portA.link ≠ .up ∨ d.portA.held = true) :
    d.arbiterChoice = d := by
  unfold Device.arbiterChoice
  rw [if_neg]
  rw [laneReady_iff]
  rintro ⟨free, up, released⟩
  simp [free, up, released] at blocked

theorem arbiterChoice_empty {d : Device} (empty : d.nextSource = none) : d.arbiterChoice = d := by
  unfold Device.arbiterChoice
  rw [empty, ite_self]

theorem portBSend_begins {d : Device} {i : Item} {rest : List Item} (free : d.laneB = none) (up : d.portB.link = .up)
    (released : d.portB.held = false) (queue : d.portB.queue = i :: rest) :
    d.portBSend = { d with laneB := some (i.packet d.node).bytes } := by
  unfold Device.portBSend
  rw [if_pos ((laneReady_iff _ _).mpr ⟨free, up, released⟩), queue]

theorem portBSend_waits {d : Device} (blocked : d.laneB ≠ none ∨ d.portB.link ≠ .up ∨ d.portB.held = true) :
    d.portBSend = d := by
  unfold Device.portBSend
  rw [if_neg]
  rw [laneReady_iff]
  rintro ⟨free, up, released⟩
  simp [free, up, released] at blocked

theorem portBSend_empty {d : Device} (empty : d.portB.queue = []) : d.portBSend = d := by
  unfold Device.portBSend
  rw [empty, ite_self]

theorem upstreamSend_begins {d : Device} {p : Packet} {rest : List Packet} (free : d.laneU = none) (up : d.linkU = .up)
    (queue : d.upstream = p :: rest) : d.upstreamSend = { d with laneU := some p.bytes } := by
  unfold Device.upstreamSend
  rw [if_pos (by simp [free, up]), queue]

theorem upstreamSend_waits {d : Device} (blocked : d.laneU ≠ none ∨ d.linkU ≠ .up) : d.upstreamSend = d := by
  unfold Device.upstreamSend
  rw [if_neg]
  rw [Bool.and_eq_true, Option.isNone_iff_eq_none, beq_iff_eq]
  rintro ⟨free, up⟩
  simp [free, up] at blocked

theorem upstreamSend_empty {d : Device} (empty : d.upstream = []) : d.upstreamSend = d := by
  unfold Device.upstreamSend
  rw [empty, ite_self]

/-- Settles O45: the layouts of what is sent, then for each lane the cases in which a packet begins or waits. -/
theorem sendingsBegin : Obligations.SendingsBegin := by
  unfold Obligations.SendingsBegin
  refine ⟨rfl, rfl, rfl, fun _ => rfl, rfl, fun _ => rfl, itemPackets, sentReport_length, itemContents, frontPackets,
    fun _ => rfl, fun _ => rfl, fun d running => ⟨laneCarries_laneOutput running .u, laneCarries_laneOutput running .a,
      laneCarries_laneOutput running .b⟩, fun q d running => ?_⟩
  simp only [exec_arbiterChoice, exec_portBSend, exec_upstreamSend, act_running _ _ _ running]
  refine ⟨?_, fun pre s post p free up released order empty front => ?_, ?_, fun i rest free up released queue => ?_, ?_,
    fun p rest free up queue => ?_⟩
  · rintro (busy | notUp | held | ⟨answers, passThrough, queue⟩)
    · rw [arbiterChoice_waits (.inl busy)]
    · rw [arbiterChoice_waits (.inr (.inl notUp))]
    · rw [arbiterChoice_waits (.inr (.inr held))]
    · rw [arbiterChoice_empty (nextSource_none answers passThrough queue)]
  · rw [arbiterChoice_begins free up released (nextSource_first order empty front) front]
  · rintro (busy | notUp | held | empty)
    · rw [portBSend_waits (.inl busy)]
    · rw [portBSend_waits (.inr (.inl notUp))]
    · rw [portBSend_waits (.inr (.inr held))]
    · rw [portBSend_empty empty]
  · rw [portBSend_begins free up released queue]
  · rintro (busy | notUp | empty)
    · rw [upstreamSend_waits (.inl busy)]
    · rw [upstreamSend_waits (.inr notUp)]
    · rw [upstreamSend_empty empty]
  · rw [upstreamSend_begins free up queue]

/-! ## SET_PORT (R153) -/

section
variable {code : Byte} {s : SentPort} {d : Device}

/-- A port code names a port that the part has (R153 checks 1 and 2). -/
def PortReached (code : Byte) (d : Device) : Prop :=
  code = 0 ∨ (code = 1 ∧ d.portBFitted = true)

theorem runSetPort_badPort (bad : 1 < code.toNat) : runSetPort (code :: s.bytes) d = (d, ⟨.badArg, [1]⟩) := by
  obtain ⟨first, -⟩ := PortFields.ofBytes_bytes s code
  simp [runSetPort, first, bad, badArg, refuse]

theorem runSetPort_unfitted (unfitted : d.portBFitted = false) :
    runSetPort (1 :: s.bytes) d = (d, ⟨.state, []⟩) := by
  obtain ⟨first, -⟩ := PortFields.ofBytes_bytes s 1
  unfold runSetPort
  simp only [first, unfitted]
  rfl

/-- The checks of the port code let pass a port that the part has (R153 checks 1 and 2). -/
theorem PortReached.checks (reached : PortReached code d) :
    ¬ 1 < code.toNat ∧ ¬ (code.toNat = 1 && !d.portBFitted) = true := by
  rcases reached with rfl | ⟨rfl, fitted⟩
  · exact ⟨by decide, by simp⟩
  · exact ⟨by decide, by simp [fitted]⟩

theorem runSetPort_badArg (reached : PortReached code d) {n : Byte}
    (bad : (PortFields.ofBytes (code :: s.bytes)).firstBad = some n) :
    runSetPort (code :: s.bytes) d = (d, ⟨.badArg, [n]⟩) := by
  obtain ⟨first, -⟩ := PortFields.ofBytes_bytes s code
  obtain ⟨listed, fitted⟩ := reached.checks
  unfold runSetPort
  simp only [first, if_neg listed, if_neg fitted, bad]
  rfl

theorem enable_eq_one (s : SentPort) : (s.enable.toNat == 1) = (s.enable == 1) := by
  rw [Bool.eq_iff_iff, beq_iff_eq, beq_iff_eq]
  exact (eq_ofNat_iff s.enable 1 (by decide)).symm

/-- A request that passes writes the five values of the port it names (R153). -/
theorem runSetPort_ok (reached : PortReached code d)
    (good : (PortFields.ofBytes (code :: s.bytes)).firstBad = none) :
    runSetPort (code :: s.bytes) d =
      (d.setPort (portOfCode code.toNat) { d.port (portOfCode code.toNat) with
        enable := s.enable == 1,
        crop := ⟨s.colBase.toNat, s.colLimit.toNat, s.rowBase.toNat, s.rowLimit.toNat⟩ }, ⟨.ok, []⟩) := by
  obtain ⟨first, fields⟩ := PortFields.ofBytes_bytes s code
  obtain ⟨listed, fitted⟩ := reached.checks
  unfold runSetPort
  simp only [first, if_neg listed, if_neg fitted, good]
  simp only [fields, enable_eq_one]

end

/-- Settles O53: the port first, then the first bad argument of `PortFields.firstBad`, then the five values written. -/
theorem setPort : Obligations.SetPort := by
  unfold Obligations.SetPort
  intro tag code s q d rest asked crop reached
  obtain ⟨outOfRange, columns, rows, good⟩ := PortFields.firstBad_bytes s code
  have replies {after : Device} {reply : Reply}
      (ran : runSetPort (code :: s.bytes) { d with commands := rest } = (after, reply)) :
      exec .setPort ⟨q, d⟩ = .next ⟨q, after.answer tag 10 reply⟩ :=
    exec_reply asked exec_setPort rfl (s.bytes_length code) ran q
  have refused (isPort : reached) {n : Byte} (bad : (PortFields.ofBytes (code :: s.bytes)).firstBad = some n) :
      exec .setPort ⟨q, d⟩ = .next ⟨q, d.answered rest tag 10 .badArg [n]⟩ :=
    replies (runSetPort_badArg (d := { d with commands := rest }) isPort bad)
  have written (isPort : reached) (noneBad : (PortFields.ofBytes (code :: s.bytes)).firstBad = none) :=
    replies (runSetPort_ok (d := { d with commands := rest }) isPort noneBad)
  refine ⟨fun bad => replies (runSetPort_badPort bad), ?_,
    fun n argument isPort bad before => refused isPort (outOfRange n argument bad before),
    fun isPort inRange conflict => refused isPort (columns inRange conflict),
    fun isPort inRange ordered conflict => refused isPort (rows inRange ordered conflict), ?_, ?_⟩
  · rintro rfl unfitted
    exact replies (runSetPort_unfitted unfitted)
  · rintro rfl inRange columnsOrdered rowsOrdered
    exact written (.inl rfl) (good inRange columnsOrdered rowsOrdered)
  · rintro rfl fitted inRange columnsOrdered rowsOrdered
    exact written (.inr ⟨rfl, fitted⟩) (good inRange columnsOrdered rowsOrdered)

/-! ## Flow symbols (R1, R18, R156, R160) -/

theorem flow_up {d : Device} {p : OutPort} (up : (d.port p).link = .up) (f : Port → Port) :
    d.flow p f = d.setPort p (f (d.port p)) :=
  if_pos up

theorem flow_notUp {d : Device} {p : OutPort} (notUp : (d.port p).link ≠ .up) (f : Port → Port) : d.flow p f = d :=
  if_neg notUp

/-- The change of a port that a flow symbol stands for (R156, R160). -/
inductive FlowChange : Symbol → (Port → Port) → Prop where
  | credit : FlowChange .credit Port.credit
  | hold : FlowChange .hold Port.hold
  | resume : FlowChange .resume Port.resume

/-- A flow symbol leaves the open packet as it is (R1). -/
theorem FlowChange.readSymbol {s : Symbol} {f : Port → Port} (h : FlowChange s f) (opened : Option (List Byte)) :
    readSymbol opened s = (opened, .nothing) := by
  cases h <;> cases opened <;> rfl

theorem FlowChange.symbolEffect {s : Symbol} {f : Port → Port} (h : FlowChange s f) (d : Device) (lane : LinkPort) :
    d.symbolEffect lane s .nothing = d.flowSymbol lane f := by
  cases h <;> rfl

/-- A flow symbol on a port's reverse lane acts as the port's own command does (R18). -/
theorem FlowChange.takeSymbols_link {s : Symbol} {f : Port → Port} (h : FlowChange s f) (d : Device) (p : OutPort) :
    d.takeSymbols p.link [s] = d.flow p f :=
  takeSymbols_flow d p s f h.readSymbol h.symbolEffect

/-- Port U's forward lane has no port to hand a flow symbol to (R1). -/
theorem FlowChange.takeSymbols_u {s : Symbol} {f : Port → Port} (h : FlowChange s f) (d : Device) :
    d.takeSymbols .u [s] = d := by
  by_cases up : d.link .u = .up
  · rw [takeSymbols_single _ _ _ up, Device.takeSymbol, h.readSymbol, setOpened_same, h.symbolEffect]
    rfl
  · rw [takeSymbols_notUp up]

/-- Settles O12: a flow symbol is `Device.flow` on its port, as a command or among other symbols. -/
theorem flowSymbols : Obligations.FlowSymbols := by
  unfold Obligations.FlowSymbols
  refine ⟨fun d => ⟨rfl, rfl⟩, fun d port => ⟨rfl, rfl⟩, rfl, rfl, fun q d running => ?_⟩
  simp only [exec_credit, exec_hold, exec_resume, exec_packetAbandoned, act_running _ _ _ running,
    FlowChange.credit.takeSymbols_link, FlowChange.hold.takeSymbols_link, FlowChange.resume.takeSymbols_link]
  refine ⟨fun p up => ?_, fun p notUp => ?_, fun _ => ⟨trivial, trivial, trivial⟩, ?_⟩
  · rw [flow_up up, flow_up up, flow_up up]
    exact ⟨rfl, rfl, rfl⟩
  · rw [flow_notUp notUp, flow_notUp notUp, flow_notUp notUp]
    exact ⟨rfl, rfl, rfl⟩
  · simp only [List.forall_mem_cons]
    rw [FlowChange.credit.takeSymbols_u, FlowChange.hold.takeSymbols_u, FlowChange.resume.takeSymbols_u]
    exact ⟨rfl, rfl, rfl, List.forall_mem_nil _⟩

end Sys2Proof.Machine

/-! # Proofs: service requests (chapter 10)

The service unit: received requests, their execution, identification and status, counters and alerts, the block resets and
the part reset.  Each operation first has one equation per case; the theorems that settle the obligations are put together
from those. -/

namespace Sys2Proof.Machine

/-! ## Service requests received (R17, R19, R171) -/

/-- A service request has no payload rule of its own, so one that fits a packet is sorted by its node address (R6, R171). -/
theorem exec_serviceRequest {p : Packet} {d : Device} (isRequest : p.kind = 9) (fits : p.payload.length ≤ 16384)
    (receiving : d.Receiving .a) (q : List Instr) : exec (.serviceRequestReceived p.symbols) ⟨q, d⟩ =
      .next ⟨q, if p.node = d.node then d.joinCommands p else d.joinUpstream p⟩ := by
  have kept : ¬ BreaksKindRule .a p.kind p.payload := fun breaks => by
    have kind := breaks.kind_mem
    rw [isRequest] at kind
    exact absurd kind (by decide)
  rw [exec_packet receiving fits kept (by simp [arrivals]), Device.sortPacket, Device.sortA, if_pos isRequest]

/-- Settles O29: the node address chooses the queue, and a full queue drops the request. -/
theorem serviceRequestReceived : Obligations.ServiceRequestReceived := by
  unfold Obligations.ServiceRequestReceived
  intro p q d isRequest fits receiving taken
  have sorted : taken = _ := exec_serviceRequest isRequest fits receiving q
  rw [sorted]
  refine ⟨fun own room => ?_, fun own full => ?_, fun other room => ?_, fun other full => ?_⟩
  · rw [if_pos own, Device.joinCommands, if_pos room]
  · rw [if_pos own, Device.joinCommands, if_neg (Nat.not_lt.mpr full)]
  · rw [if_neg other, Device.joinUpstream, if_pos room]
  · rw [if_neg other, Device.joinUpstream, if_neg (Nat.not_lt.mpr full)]

/-! ## Execution (R172, R174, R176) -/

/-- A command that would leave the part as it is does so, whether RST is held or not. -/
theorem act_same {f : Device → Device} {d : Device} (same : f d = d) (q : List Instr) :
    act f ⟨q, d⟩ = .next ⟨q, d⟩ := by
  rw [act_next, same, ite_self]

/-- An execution has no effect where the oldest request has another code, or finds no room for its answer; only a
RESET_PART without arguments needs none (R172, R187). -/
theorem exec_execution_idle {e : Instr × Byte} (listed : e ∈ executions) {d : Device}
    (notDue : ∀ p rest tag code args, d.commands = p :: rest → p.payload = tag :: code :: args →
      code ≠ e.2 ∨ 8 ≤ d.answers.length ∧ (e.2 ≠ 17 ∨ args ≠ [])) (q : List Instr) :
    exec e.1 ⟨q, d⟩ = .next ⟨q, d⟩ := by
  obtain ⟨n, mine, fits, run, ⟨command, number⟩ | ⟨command, resetPart⟩⟩ := executions_kind e listed
  · rw [command]
    refine act_same (Device.execute_idle d n mine fits run fun p rest tag code args oldest body => ?_) q
    rcases notDue p rest tag code args oldest body with other | ⟨full, -⟩
    · exact .inl fun same => other (BitVec.eq_of_toNat_eq (same.trans number.symm))
    · exact .inr (.inr full)
  · rw [command]
    refine act_same (Device.executeResetPart_idle d fun p rest tag code args oldest body => ?_) q
    rcases notDue p rest tag code args oldest body with other | ⟨full, notReset | argued⟩
    · exact .inl fun same => other (BitVec.eq_of_toNat_eq (same.trans (congrArg BitVec.toNat resetPart).symm))
    · exact absurd resetPart notReset
    · exact .inr ⟨argued, full⟩

/-- The same, where the oldest request is known. -/
theorem exec_execution_notDue {e : Instr × Byte} (listed : e ∈ executions) {d : Device} {p : Packet} {rest : List Packet}
    (oldest : d.commands = p :: rest)
    (notDue : ∀ tag code args, p.payload = tag :: code :: args →
      code ≠ e.2 ∨ 8 ≤ d.answers.length ∧ (e.2 ≠ 17 ∨ args ≠ [])) (q : List Instr) :
    exec e.1 ⟨q, d⟩ = .next ⟨q, d⟩ := by
  refine exec_execution_idle listed (fun p' rest' tag code args oldest' body => ?_) q
  cases oldest.symm.trans oldest'
  exact notDue tag code args body

/-- Each row of RESET_BLOCK resets the block of its code (R186). -/
theorem blockResets_kind : ∀ e ∈ blockResets,
    ∃ reset, ∀ s, exec e.1 s = act (·.executeResetBlock e.2.toNat reset) s := by
  simp only [blockResets, List.forall_mem_cons]
  exact ⟨⟨_, exec_resetBlockPipeline⟩, ⟨_, exec_resetBlockProfiles⟩, ⟨_, exec_resetBlockPortA⟩,
    ⟨_, exec_resetBlockPortB⟩, ⟨_, exec_resetBlockCounters⟩, List.forall_mem_nil _⟩

/-- A RESET_BLOCK of another block is left to that block's row (log entry 7). -/
theorem exec_blockReset_other {e : Instr × Byte} (listed : e ∈ blockResets) {d : Device} {p : Packet}
    {rest : List Packet} {tag code : Byte} (oldest : d.commands = p :: rest) (body : p.payload = [tag, 16, code])
    (inTable : code.toNat ≤ 4) (other : code ≠ e.2) (q : List Instr) : exec e.1 ⟨q, d⟩ = .next ⟨q, d⟩ := by
  obtain ⟨reset, command⟩ := blockResets_kind e listed
  rw [command]
  refine act_same (Device.execute_idle d 16 _ _ _ fun p' rest' tag' code' args' oldest' body' => .inr (.inl ?_)) q
  cases oldest.symm.trans oldest'
  cases body.symm.trans body'
  exact blockMine_other _ _ inTable fun same => other (BitVec.eq_of_toNat_eq same)

/-- The row executes its requests through the check of this length, and takes a request of another length as its own
(R174; log entry 7). -/
def ChecksLength (c : Instr) (code : Byte) (len : Nat) : Prop :=
  ∃ mine run, (∀ s, exec c s = act (·.execute code.toNat mine (fun args => args.length == len) run) s) ∧
    ∀ args : List Byte, args.length ≠ len → mine args = true

theorem checksLength_fixed {c : Instr} {code : Byte} {len : Nat} {run : List Byte → Device → Device × Reply}
    (command : ∀ s, exec c s = act (·.executeFixed code.toNat len run) s) : ChecksLength c code len :=
  ⟨_, run, command, fun _ _ => rfl⟩

theorem checksLength_block {c : Instr} {n : Nat} {reset : Device → Device}
    (command : ∀ s, exec c s = act (·.executeResetBlock n reset) s) : ChecksLength c 16 1 :=
  ⟨_, _, command, blockMine_badLength n⟩

/-- Every execution of a fixed length goes through the length check but RESET_PART, which has one of its own (R187). -/
theorem fixedLengths_kind : ∀ e ∈ fixedLengths, ChecksLength e.1 e.2.1 e.2.2 ∨ e = (.resetPart, 17, 0) := by
  simp only [fixedLengths, List.forall_mem_cons]
  exact ⟨.inl (checksLength_fixed exec_identify), .inl (checksLength_fixed exec_readStatus),
    .inl (checksLength_fixed exec_readCounters), .inl (checksLength_fixed exec_clearAlerts),
    .inl (checksLength_fixed exec_setAlerts), .inl (checksLength_fixed exec_setMode),
    .inl (checksLength_fixed exec_setGeometry), .inl (checksLength_fixed exec_setInput),
    .inl (checksLength_fixed exec_setRoute), .inl (checksLength_fixed exec_setPort),
    .inl (checksLength_fixed exec_profileClose), .inl (checksLength_fixed exec_profileRetire),
    .inl (checksLength_fixed exec_profileQuery), .inl (checksLength_block exec_resetBlockPipeline),
    .inl (checksLength_block exec_resetBlockProfiles), .inl (checksLength_block exec_resetBlockPortA),
    .inl (checksLength_block exec_resetBlockPortB), .inl (checksLength_block exec_resetBlockCounters), .inr trivial,
    List.forall_mem_nil _⟩

/-- A request of another length than its command's is answered BADLEN and does nothing else (R174). -/
theorem exec_badLength {e : Instr × Byte × Nat} (listed : e ∈ fixedLengths) {d : Device} {tag : Byte}
    {args : List Byte} {rest : List Packet} (asked : d.Asked (tag :: e.2.1 :: args) rest)
    (misfit : args.length ≠ e.2.2) (q : List Instr) :
    exec e.1 ⟨q, d⟩ = .next ⟨q, d.answered rest tag e.2.1 .badLen []⟩ := by
  rcases fixedLengths_kind e listed with ⟨mine, run, command, mineToo⟩ | rfl
  · rw [exec_request asked _ _ _ _ _ command rfl (mineToo args misfit), if_neg (by simpa using misfit)]
  · exact exec_resetPart_badLength asked fun noArgs => misfit (congrArg List.length noArgs)

section
variable {d : Device} {rest : List Packet}

theorem executeUnknown_idle (h : d.commands = [] ∨ 8 ≤ d.answers.length) : d.executeUnknown = d := by
  unfold Device.executeUnknown
  cases oldest : d.commands with
  | nil => rfl
  | cons p rest =>
    have full : 8 ≤ d.answers.length := h.resolve_left (by rw [oldest]; exact List.cons_ne_nil p rest)
    exact if_neg (by simpa [Device.answerRoom] using full)

/-- The part after UNKNOWN_COMMAND on a request with this body: BADLEN where it has no tag or no code, UNKNOWN where its
code is not listed (R174, R176). -/
def Device.afterUnknown (d : Device) (rest : List Packet) : List Byte → Device
  | [] => d.answered rest 0 0 .badLen []
  | [tag] => d.answered rest tag 0 .badLen []
  | tag :: code :: _ => if knownCode code.toNat then d else d.answered rest tag code .unknown []

theorem exec_unknownCommand_asked {body : List Byte} (asked : d.Asked body rest) (q : List Instr) :
    exec .unknownCommand ⟨q, d⟩ = .next ⟨q, d.afterUnknown rest body⟩ := by
  obtain ⟨running, ⟨p, rfl, oldest⟩, room⟩ := asked
  have answerRoom : d.answerRoom = true := decide_eq_true room
  rw [exec_unknownCommand, act_running _ _ _ running]
  simp only [Device.executeUnknown, oldest, if_pos answerRoom]
  rcases p.payload with _ | ⟨tag, _ | ⟨code, args⟩⟩ <;> rfl

end

theorem knownCode_iff (code : Nat) : knownCode code = true ↔ 1 ≤ code ∧ code ≤ 17 := by
  simp [knownCode]

/-- Settles O47: `exec_execution_idle` where the row is not due, and the checks of the body where it is. -/
theorem execution : Obligations.Execution := by
  unfold Obligations.Execution
  intro q d rest
  refine ⟨fun e listed => ⟨fun noRequest => ?_, fun p oldest short => ?_, fun p tag code args oldest body other => ?_,
      fun p args tag body oldest full answered => ?_⟩,
    fun e listed p tag code oldest body inTable other => exec_blockReset_other listed oldest body inTable other q,
    fun idle => act_same (executeUnknown_idle idle) q, fun asked => exec_unknownCommand_asked asked q,
    fun tag asked => exec_unknownCommand_asked asked q,
    fun tag code args asked unlisted => ?_, fun tag code args asked low high => ?_,
    fun e listed tag args asked misfit => exec_badLength listed asked misfit q⟩
  · exact exec_execution_idle listed (fun p rest tag code args oldest => by rw [noRequest] at oldest; cases oldest) q
  · refine exec_execution_notDue listed oldest (fun tag code args body => ?_) q
    simp [body] at short
  · refine exec_execution_notDue listed oldest (fun tag' code' args' body' => .inl ?_) q
    cases body.symm.trans body'
    exact other
  · refine exec_execution_notDue listed oldest (fun tag' code' args' body' => .inr ⟨full, ?_⟩) q
    cases body.symm.trans body'
    exact answered
  · have notKnown : ¬ knownCode code.toNat = true := by
      rw [knownCode_iff]
      rcases unlisted with rfl | above
      · decide
      · omega
    rw [exec_unknownCommand_asked asked, Device.afterUnknown, if_neg notKnown]
  · have known : knownCode code.toNat = true := (knownCode_iff _).mpr ⟨low, high⟩
    rw [exec_unknownCommand_asked asked, Device.afterUnknown, if_pos known]

/-! ## IDENTIFY and READ_STATUS (R175, R178 to R180) -/

theorem node_byte (node : BitVec 3) : BitVec.ofNat 8 node.toNat = (0#5 ++ node : BitVec 8) := by
  simp [BitVec.ofNat_toNat, BitVec.setWidth_eq_append]

theorem flags_byte (flags : BitVec 6) : flags.setWidth 8 = (0#2 ++ flags : BitVec 8) := by
  simp [BitVec.setWidth_eq_append]

/-- The results of IDENTIFY, with the constants of this part (R179). -/
theorem identity_eq (d : Device) : d.identity =
    beBytes 2 2071 ++ beBytes 2 340 ++ [1, (0#5 ++ d.node : BitVec 8), if d.portBFitted then 1 else 0]
      ++ beBytes 2 384 ++ [8, 12, 6, 8, 2] := by
  rw [← node_byte]
  rfl

theorem heldBytes_some (h : HeldLens) : heldBytes (some h) =
    [1] ++ beBytes 2 h.record.row ++ beBytes 4 h.record.identity.lensId.toNat
      ++ [(0#6 ++ h.record.identity.converter : BitVec 8)] ++ beBytes 2 h.record.focal
      ++ beBytes 2 h.record.focus ++ beBytes 1 h.age := by
  rw [← converter_byte]
  rfl

/-- The results of READ_STATUS, but for the held lens state, which `heldBytes` gives (R180). -/
theorem statusBytes_eq (d : Device) : d.statusBytes =
    [d.mode.code, pendingCode d.pendingMode, d.receiver.code, BitVec.ofNat 8 d.frames.length]
      ++ d.frames.flatMap (fun c =>
        beBytes 2 c.tag.toNat ++ [c.input.code] ++ beBytes 2 (c.front.getD 65535) ++ beBytes 2 c.nextLine)
      ++ beBytes 2 (d.slots.toList.countP Option.isNone)
      ++ beBytes 2 (d.slots.toList.countP fun slot => slot.any StoredRow.crcBad)
      ++ heldBytes d.heldLens
      ++ [d.linkU.code, d.portA.link.code, d.portB.link.code]
      ++ [BitVec.ofNat 8 d.portA.credits, if d.portA.held then 1 else 0]
      ++ [BitVec.ofNat 8 d.portB.credits, if d.portB.held then 1 else 0]
      ++ [(0#2 ++ d.alerts : BitVec 8), (0#2 ++ d.alertEnable : BitVec 8)] := by
  rw [← flags_byte, ← flags_byte]
  rfl

theorem runIdentify_ok (d : Device) : runIdentify [] d = (d, ⟨.ok, d.identity⟩) :=
  rfl

theorem runReadStatus_ok (d : Device) : runReadStatus [] d = (d, ⟨.ok, d.statusBytes⟩) :=
  rfl

/-- Settles O48: the two requests answer their results, which are the bytes of the tables. -/
theorem identifyAndStatus : Obligations.IdentifyAndStatus := by
  unfold Obligations.IdentifyAndStatus
  refine ⟨rfl, rfl, fun _ => rfl, rfl, rfl, rfl, fun _ _ => rfl, rfl,
    fun tag q d rest => ⟨fun asked => ?_, fun asked => ?_⟩⟩
  · have reply : exec .identify ⟨q, d⟩ = .next ⟨q, d.answered rest tag 1 .ok d.identity⟩ :=
      exec_reply asked exec_identify rfl rfl (runIdentify_ok _) q
    rw [reply, identity_eq]
  · have reply : exec .readStatus ⟨q, d⟩ = .next ⟨q, d.answered rest tag 2 .ok d.statusBytes⟩ :=
      exec_reply asked exec_readStatus rfl rfl (runReadStatus_ok _) q
    rw [reply, statusBytes_eq]
    cases d.heldLens with
    | none => rfl
    | some h => rw [heldBytes_some]

/-! ## Counters and alerts (R22, R40, R181, R183) -/

theorem satAdd_toNat (count : BitVec 16) (n : Nat) : (satAdd count n).toNat = min 65535 (count.toNat + n) := by
  have within : min 65535 (count.toNat + n) < 2 ^ 16 := by omega
  rw [satAdd, BitVec.toNat_ofNat, Nat.mod_eq_of_lt within]

/-- The number of an alert flag's bit (R183). -/
def Alert.bit : Alert → Nat
  | .header => 0
  | .sync => 1
  | .drop => 2
  | .overrun => 3
  | .service => 4
  | .link => 5

theorem Alert.mask_eq_twoPow (a : Alert) : a.mask = BitVec.twoPow 6 a.bit := by
  cases a <;> rfl

theorem Alert.bit_lt (a : Alert) : a.bit < 6 := by
  cases a <;> decide

theorem Alert.bit_injective {a b : Alert} (same : a.bit = b.bit) : a = b := by
  revert same
  cases a <;> cases b <;> decide

theorem Alert.exists_bit {i : Nat} (inMask : i < 6) : ∃ a : Alert, a.bit = i := by
  match i with
  | 0 => exact ⟨.header, rfl⟩
  | 1 => exact ⟨.sync, rfl⟩
  | 2 => exact ⟨.drop, rfl⟩
  | 3 => exact ⟨.overrun, rfl⟩
  | 4 => exact ⟨.service, rfl⟩
  | 5 => exact ⟨.link, rfl⟩

/-- A flag is read in its mask as its bit (R183). -/
theorem Alert.and_mask_ne_zero (a : Alert) (flags : BitVec 6) : flags &&& a.mask ≠ 0 ↔ flags.getLsbD a.bit = true := by
  have bit : BitVec.twoPow 6 a.bit ≠ 0 := by cases a <;> decide
  rw [a.mask_eq_twoPow, BitVec.and_twoPow]
  cases flags.getLsbD a.bit
  · exact ⟨fun h => absurd rfl h, fun h => absurd h Bool.false_ne_true⟩
  · exact ⟨fun _ => rfl, fun _ => bit⟩

/-- Flags are set exactly where one of the six is (R183). -/
theorem ne_zero_iff_exists_alert (flags : BitVec 6) : flags ≠ 0 ↔ ∃ a : Alert, flags.getLsbD a.bit = true := by
  constructor
  · intro nonzero
    by_contra noFlag
    refine nonzero (BitVec.eq_of_getLsbD_eq fun i inMask => ?_)
    obtain ⟨a, rfl⟩ := Alert.exists_bit inMask
    simpa using fun set => noFlag ⟨a, set⟩
  · rintro ⟨a, set⟩ rfl
    simp at set

/-- The alert is asserted exactly while an enabled flag is set (R183). -/
theorem alert_iff (d : Device) :
    d.alert = true ↔ ∃ a : Alert, d.alerts &&& a.mask ≠ 0 ∧ d.alertEnable &&& a.mask ≠ 0 := by
  rw [Device.alert, bne_iff_ne, ne_zero_iff_exists_alert]
  simp only [Alert.and_mask_ne_zero, BitVec.getLsbD_and, Bool.and_eq_true]

theorem raise_alert_self (d : Device) (a : Alert) : (d.raise a).alerts &&& a.mask ≠ 0 := by
  rw [a.and_mask_ne_zero, Device.raise_alerts, BitVec.getLsbD_or, a.mask_eq_twoPow, BitVec.getLsbD_twoPow]
  simp [a.bit_lt]

theorem raise_alert_other (d : Device) {a other : Alert} (h : other ≠ a) :
    (d.raise a).alerts &&& other.mask = d.alerts &&& other.mask := by
  have bits : a.bit ≠ other.bit := fun same => h (Alert.bit_injective same).symm
  rw [Device.raise_alerts, other.mask_eq_twoPow, BitVec.and_twoPow, BitVec.and_twoPow, BitVec.getLsbD_or,
    a.mask_eq_twoPow, BitVec.getLsbD_twoPow]
  simp [bits]

/-- Settles O7: `count_bump` for the counters, and the bits of the masks for the flags. -/
theorem countersAndAlerts : Obligations.CountersAndAlerts := by
  unfold Obligations.CountersAndAlerts
  refine ⟨by decide, fun d c => rfl, by decide, satAdd_toNat, fun d c n => ⟨?_, fun other h => ?_, rfl⟩,
    fun d a => ⟨raise_alert_self d a, fun other h => raise_alert_other d h, rfl⟩,
    fun d => ⟨alert_iff d, fun running => ?_⟩⟩
  · rw [count_bump, if_pos rfl, satAdd_toNat]
  · rw [count_bump, if_neg h]
  · rw [Device.attn, running]; rfl

/-! ## READ_COUNTERS, CLEAR_ALERTS and SET_ALERTS (R182 to R185) -/

section
variable {a : Byte} (d : Device)

theorem runReadCounters_badClear (bad : 1 < a.toNat) : runReadCounters [a] d = (d, ⟨.badArg, [1]⟩) := by
  simp [runReadCounters, bad, badArg, refuse]

theorem runReadCounters_keep : runReadCounters [0] d = (d, ⟨.ok, 26 :: counterPairs d.counters⟩) :=
  rfl

theorem runReadCounters_clear : runReadCounters [1] d =
    ({ d with counters := Vector.replicate 26 0 }, ⟨.ok, 26 :: counterPairs d.counters⟩) :=
  rfl

theorem maskFits_high (high : 64 ≤ a.toNat) : maskFits a = false :=
  decide_eq_false (Nat.not_lt.mpr high)

theorem runClearAlerts_badMask (high : 64 ≤ a.toNat) : runClearAlerts [a] d = (d, ⟨.badArg, [1]⟩) := by
  simp [runClearAlerts, maskFits_high high, badArg, refuse]

theorem runSetAlerts_badMask (high : 64 ≤ a.toNat) : runSetAlerts [a] d = (d, ⟨.badArg, [1]⟩) := by
  simp [runSetAlerts, maskFits_high high, badArg, refuse]

end

/-- A mask of the six flags clears those it names (R184). -/
theorem runClearAlerts_ok (m : BitVec 6) (d : Device) : runClearAlerts [(0#2 ++ m : BitVec 8)] d =
    ({ d with alerts := d.alerts &&& ~~~m }, ⟨.ok, [(0#2 ++ (d.alerts &&& ~~~m) : BitVec 8)]⟩) := by
  obtain ⟨flags, fits, -⟩ := mask_padded m
  simp only [runClearAlerts, List.headD_cons, if_pos fits, flags, flags_byte]

/-- A mask of the six flags becomes the enables (R185). -/
theorem runSetAlerts_ok (m : BitVec 6) (d : Device) : runSetAlerts [(0#2 ++ m : BitVec 8)] d =
    ({ d with alertEnable := m }, ⟨.ok, [(0#2 ++ m : BitVec 8)]⟩) := by
  obtain ⟨flags, fits, -⟩ := mask_padded m
  simp only [runSetAlerts, List.headD_cons, if_pos fits, flags]

/-- Settles O49: each command on its one argument byte, refused or done. -/
theorem countersAndAlertsCommands : Obligations.CountersAndAlertsCommands := by
  unfold Obligations.CountersAndAlertsCommands
  intro tag a q d rest
  refine ⟨fun asked => ?_, fun asked => ⟨fun high => ?_, ?_⟩, fun asked => ⟨fun high => ?_, ?_⟩⟩
  · intro pairs
    have counted : pairs = 26 :: counterPairs d.counters := congrArg (List.cons 26) (counterPairs_eq d.counters).symm
    rw [counted]
    refine ⟨fun bad => exec_reply asked exec_readCounters rfl rfl (runReadCounters_badClear _ bad) q, ?_, ?_⟩
    · rintro rfl
      exact exec_reply asked exec_readCounters rfl rfl (runReadCounters_keep _) q
    · rintro rfl
      exact exec_reply asked exec_readCounters rfl rfl (runReadCounters_clear _) q
  · exact exec_reply asked exec_clearAlerts rfl rfl (runClearAlerts_badMask _ high) q
  · rintro m rfl
    exact exec_reply asked exec_clearAlerts rfl rfl (runClearAlerts_ok m _) q
  · exact exec_reply asked exec_setAlerts rfl rfl (runSetAlerts_badMask _ high) q
  · rintro m rfl
    exact exec_reply asked exec_setAlerts rfl rfl (runSetAlerts_ok m _) q

/-! ## Block resets (R63, R79, R101, R102, R166, R186) -/

/-- The reset of PIPELINE: no context, and each entry unbound once for each context bound to it (R63, R79, R102). -/
theorem resetPipeline_eq (d : Device) : d.resetPipeline =
    { d with
      frames := [], receiver := .idle, heldLens := none, slots := Vector.replicate 384 none,
      profiles := unbindAll d.frames d.profiles } := by
  unfold Device.resetPipeline
  rw [foldl_unbindContext]
  rfl

/-- What the leaving of every context makes of an entry (R61, R100). -/
theorem unbindAll_entry (frames : List FrameContext) (ps : Vector Entry 8) (e : Fin 8) :
    (boundContexts frames e = 0 → (unbindAll frames ps)[e] = ps[e]) ∧
    (∀ p n, ps[e] = .ready p n → (unbindAll frames ps)[e] = .ready p (n - boundContexts frames e)) ∧
    (∀ p n, ps[e] = .retiring p n → n = boundContexts frames e → 0 < n → (unbindAll frames ps)[e] = .empty) ∧
    (∀ p n, ps[e] = .retiring p n → boundContexts frames e < n →
      (unbindAll frames ps)[e] = .retiring p (n - boundContexts frames e)) := by
  rw [unbindAll_get]
  refine ⟨fun unbound => ?_, fun p n ready => ?_, fun p n retiring all bound => ?_, fun p n retiring more => ?_⟩
  · rw [unbound]; rfl
  · rw [ready, unbindTimes_ready]
  · rw [retiring, all, unbindTimes_last _ _ (all ▸ bound)]
  · rw [retiring, unbindTimes_retiring _ _ _ more]

/-- The reset of PROFILES withdraws each entry as a retire does (R95, R101). -/
theorem resetProfiles_entry (ps : Vector Entry 8) (e : Fin 8) : (ps.map Entry.retire)[e] = (ps[e]).retire := by
  rw [Fin.getElem_fin, Vector.getElem_map]
  rfl

theorem itemOnLane_a (d : Device) : d.itemOnLane .a = true ↔ d.laneA.map LaneSend.source = some .frame := by
  cases lane : d.laneA <;> simp [Device.itemOnLane, lane]

theorem itemOnLane_b (d : Device) : d.itemOnLane .b = true ↔ d.laneB ≠ none := by
  simp [Device.itemOnLane, Option.isSome_iff_ne_none]

/-- The reset of a port: the item on its lane stays, a restart marker follows where the link is UP (R166). -/
theorem resetPort_a (d : Device) : d.resetPort .a =
    { d with
      portA := { d.portA with
        queue := (if d.laneA.map LaneSend.source = some .frame then d.portA.queue.take 1 else [])
          ++ (if d.portA.link = .up then [.restartMarker] else []),
        credits := 0 },
      frames := d.frames.map fun (c : FrameContext) => { c with deliveryA := cutIfLive c.deliveryA } } := by
  simp only [← itemOnLane_a, cutIfLive_eq]
  rfl

theorem resetPort_b (d : Device) : d.resetPort .b =
    { d with
      portB := { d.portB with
        queue := (if d.laneB = none then [] else d.portB.queue.take 1)
          ++ (if d.portB.link = .up then [.restartMarker] else []),
        credits := 0 },
      frames := d.frames.map fun (c : FrameContext) => { c with deliveryB := cutIfLive c.deliveryB } } := by
  rw [← ite_not]
  simp only [← ne_eq, ← itemOnLane_b, cutIfLive_eq]
  rfl

/-- A RESET_BLOCK of a block of the table resets it and is answered OK with its code (R186). -/
theorem exec_blockReset_ok {tag b : Byte} {rest : List Packet} {d after : Device} (asked : d.Asked [tag, 16, b] rest)
    {reset : Device → Device} {c : Instr} (command : ∀ s, exec c s = act (·.executeResetBlock b.toNat reset) s)
    (inTable : b.toNat ≤ 4) (resets : reset { d with commands := rest } = after) (q : List Instr) :
    exec c ⟨q, d⟩ = .next ⟨q, after.answer tag 16 ⟨.ok, [b]⟩⟩ := by
  rw [exec_blockReset asked b.toNat reset c command (.inl rfl), if_neg (Nat.not_lt.mpr inTable), resets]

/-- A RESET_BLOCK of no block of the table is refused under any of its rows (R186; log entry 7). -/
theorem exec_blockReset_refused {e : Instr × Byte} (listed : e ∈ blockResets) {tag b : Byte} {rest : List Packet}
    {d : Device} (asked : d.Asked [tag, 16, b] rest) (bad : 4 < b.toNat) (q : List Instr) :
    exec e.1 ⟨q, d⟩ = .next ⟨q, d.answered rest tag 16 .badArg [1]⟩ := by
  obtain ⟨reset, command⟩ := blockResets_kind e listed
  rw [exec_blockReset asked _ reset e.1 command (.inr bad), if_pos bad]

/-- Settles O57: each block's reset as one update of the part, entry by entry where it changes the profile table. -/
theorem blockResets_effects : Obligations.BlockResets := by
  unfold Obligations.BlockResets
  intro tag q d rest
  refine ⟨fun e listed code bad asked => exec_blockReset_refused listed asked bad q, fun asked => ?_, fun asked => ?_,
    fun asked => ?_, fun asked => ?_, fun asked => ?_⟩
  · exact ⟨unbindAll d.frames d.profiles,
      exec_blockReset_ok asked exec_resetBlockPipeline (by decide) (resetPipeline_eq _) q,
      unbindAll_entry d.frames d.profiles⟩
  · refine ⟨d.profiles.map Entry.retire, exec_blockReset_ok asked exec_resetBlockProfiles (by decide) rfl q, fun e => ?_⟩
    rw [resetProfiles_entry]
    exact Entry.retire_cases d.profiles[e]
  · exact exec_blockReset_ok asked exec_resetBlockPortA (by decide) (resetPort_a _) q
  · exact exec_blockReset_ok asked exec_resetBlockPortB (by decide) (resetPort_b _) q
  · exact exec_blockReset_ok asked exec_resetBlockCounters (by decide) rfl q

/-! ## The part reset (R21, R187, R188) -/

/-- Settles O4: RESET_RELEASE is the part reset with the straps at the pins. -/
theorem resetRelease : Obligations.ResetRelease := by
  unfold Obligations.ResetRelease
  intro node fitted q d
  exact ⟨d.partReset node fitted, rfl, afterPartReset_partReset d node fitted, rfl, rfl⟩

/-- A RESET_PART without arguments takes the part reset with the straps as latched, room for an answer or not (R187). -/
theorem executeResetPart_taken {d : Device} {tag : Byte} {p : Packet} {rest : List Packet}
    (oldest : d.commands = p :: rest) (body : p.payload = [tag, 17]) :
    d.executeResetPart = d.partReset d.node d.portBFitted := by
  unfold Device.executeResetPart
  simp only [oldest, body]
  rfl

/-- Settles O5: without arguments the part reset, with arguments the length check. -/
theorem resetPart : Obligations.ResetPart := by
  unfold Obligations.ResetPart
  refine ⟨fun tag p rest q d running body oldest => ?_, fun tag a args rest q d asked => ?_⟩
  · refine ⟨d.partReset d.node d.portBFitted, ?_, afterPartReset_partReset d d.node d.portBFitted, rfl, rfl⟩
    rw [exec_resetPart, act_running _ _ _ running, executeResetPart_taken oldest body]
  · exact exec_resetPart_badLength asked (List.cons_ne_nil a args)

section
variable {node : BitVec 3} {fitted : Bool} {d : Device}

theorem AfterPartReset.boundsLaw (h : AfterPartReset node fitted d) : BoundsLaw d := by
  obtain ⟨creditsA, creditsB⟩ := h.credits
  obtain ⟨queueA, queueB⟩ := h.portQueues
  obtain ⟨passThrough, upstream⟩ := h.linkQueues
  obtain ⟨commands, answers⟩ := h.serviceQueues
  obtain ⟨-, -, heldLens⟩ := h.frameQueue
  obtain ⟨-, pendingMode⟩ := h.modes
  constructor <;> simp [creditsA, creditsB, queueA, queueB, passThrough, upstream, commands, answers, heldLens,
    pendingMode, rowsQueued]

theorem AfterPartReset.frameLaw (h : AfterPartReset node fitted d) : FrameLaw d := by
  obtain ⟨receiver, frames, -⟩ := h.frameQueue
  have geometry : d.geometry.Ok := by
    rw [h.geometry]
    constructor <;> decide
  constructor <;> simp [geometry, receiver, frames]

theorem AfterPartReset.profileLaw (h : AfterPartReset node fitted d) : ProfileLaw d := by
  obtain ⟨-, frames, -⟩ := h.frameQueue
  have empty := h.profiles
  refine ⟨fun e => ?_, fun e f p q m n ready => ?_, fun e => ?_, fun c present => ?_⟩
  · rw [empty e, frames]; rfl
  · rw [empty e] at ready; cases ready
  · rw [empty e]; trivial
  · rw [frames] at present; cases present

/-- No store request passed through the reset: then nothing in the line store names a context. -/
theorem AfterPartReset.storeLaw (h : AfterPartReset node fitted d) (noRequest : d.storeReq = none) : StoreLaw d := by
  obtain ⟨-, frames, -⟩ := h.frameQueue
  have free := h.slots
  refine ⟨?_, fun c present => ?_, fun i r held => ?_, fun i r held => ?_, fun i j r r' held => ?_, fun r onItsWay => ?_⟩
  · rw [frames]; exact List.nodup_nil
  · rw [frames] at present; cases present
  · rw [free i] at held; cases held
  · rw [free i] at held; cases held
  · rw [free i] at held; cases held
  · rw [noRequest] at onItsWay; cases onItsWay

theorem AfterPartReset.linkLaw (h : AfterPartReset node fitted d) : LinkLaw d := by
  obtain ⟨openU, openA, openB⟩ := h.noOpenPacket
  obtain ⟨laneU, laneA, laneB⟩ := h.noSending
  obtain ⟨-, -, linkB⟩ := h.links
  obtain ⟨creditsA, creditsB⟩ := h.credits
  obtain ⟨heldA, heldB⟩ := h.holds
  obtain ⟨queueA, queueB⟩ := h.portQueues
  obtain ⟨-, frames, -⟩ := h.frameQueue
  refine ⟨fun _ => ⟨openU, laneU⟩, fun _ => ⟨openA, laneA, ⟨creditsA, heldA, queueA⟩, by simp [frames]⟩,
    fun _ => ⟨openB, laneB, ⟨creditsB, heldB, queueB⟩, by simp [frames]⟩, fun _ => linkB, fun bytes sent => ?_,
    fun l sent => ?_, fun bytes sent => ?_, fun p bytes opened => ?_⟩
  · rw [laneU] at sent; cases sent
  · rw [laneA] at sent; cases sent
  · rw [laneB] at sent; cases sent
  · have closed : d.opened p = none := by cases p <;> assumption
    rw [closed] at opened; cases opened

end

/-- Settles O6: the reset state is as after a part reset, and the laws follow from that. -/
theorem resetState : Obligations.ResetState := by
  unfold Obligations.ResetState
  have after : AfterPartReset 0 true State.reset.device := afterPartReset_partReset State.reset.device 0 true
  exact ⟨rfl, after, rfl, rfl, after.boundsLaw, after.frameLaw, after.profileLaw, after.storeLaw rfl, after.linkLaw⟩

end Sys2Proof.Machine

/-! # Proofs: the step

The step on each shape of the queue; that every command answers a next state is `exec_next` of Sys2Proof/Laws/Steps. -/

namespace Sys2Proof.Machine

@[simp] theorem step_nil (d : Device) : step ⟨[], d⟩ = .next ⟨[], d⟩ := rfl

@[simp] theorem step_cons (c : Instr) (q : List Instr) (d : Device) : step ⟨c :: q, d⟩ = exec c ⟨q, d⟩ := rfl

/-- Settles O1: the step on a queue with a command at its front. -/
theorem stepRunsFrontCommand : Obligations.StepRunsFrontCommand := by
  unfold Obligations.StepRunsFrontCommand
  exact step_cons

/-- Settles O2: no arm of `exec` faults or refuses, and the step on an empty queue answers its own state. -/
theorem neverStops : Obligations.NeverStops := by
  unfold Obligations.NeverStops
  exact ⟨exec_next, step_nil⟩

end Sys2Proof.Machine
